-- ==== Sys2Proof/Config.lean ====
section
/-! DEFINITION. The constants of the codec block (00_scope.md R6, R7) and its one configuration choice, `POS_MODE`. -/

namespace Sys2Proof

/-- The two readings of the 12-bit LZSS position field (R7, R156). -/
inductive PosMode where
  | relative  -- the field is a back-reference distance (the normative reading)
  | absolute  -- the field is an index into the window RAM (the alternative R156 records)
  deriving DecidableEq, Repr

/-- `W`, the capacity of the history window (R6). -/
abbrev Config.W : Nat := 4096

/-- `F`, the lookahead and longest LZSS match (R6). -/
abbrev Config.F : Nat := 18

/-- `THRESHOLD`: a match is coded only if it is longer (R6). -/
abbrev Config.threshold : Nat := 2

/-- `NIL = W`, the sentinel index of the match tree (R6, R35). -/
abbrev Config.nil : BitVec 13 := 4096

/-- `CUR_INIT = W - F`, the window cursor at command start (R7, R28). -/
abbrev Config.curInit : BitVec 12 := 4078

/-- `HT_NONE`, the "no code here" child index (R7, R33). -/
abbrev Config.htNone : BitVec 9 := 0x1FF

/-- `HT_SIZE`, the number of Huffman table entries (R7, R33). -/
abbrev Config.htSize : Nat := 511

/-- `POS_MODE` (R7, R98, R156): "A model built for claims about this spec uses `relative`".
DESIGN CHOICE (log entry 9); unsafe for a chip of the other mode. -/
def Config.posMode : PosMode := .relative

/-- What a byte of `SRC` that the host has not written reads as.
DESIGN CHOICE (log entry 3): the spec leaves the content of `SRC` after reset unspecified (R38, R40); unsafe. -/
abbrev Config.srcUnwritten : BitVec 8 := 0

/-- What a byte of `code_buf` that was never written reads as.
DESIGN CHOICE (log entry 2): unspecified after reset (R40) and never read before it is written; unsafe. -/
abbrev Config.codeBufUnwritten : BitVec 8 := 0

/-- The free bytes: what a host read of `DST[i]` with `i >= dst_count` returns, a fresh one for each such read. No rule
says which byte it is (R62, R265), and the read is no fault (R296): nothing constrains it (log entry 7); safe. -/
opaque Config.freeByte : Nat → BitVec 8

end Sys2Proof
end

