-- ==== Sys2Proof/Word.lean ====
section
/-! DEFINITION. The word types of the codec block and the entry of the Huffman table. -/

namespace Sys2Proof

/-- The only addressable unit of `SRC`, `DST` and `WIN` (20_memory.md R66). -/
abbrev Byte := BitVec 8

/-- A ring position: an index into the window RAM, arithmetic modulo `W = 4096` (R9 (c), R63). -/
abbrev Ring := BitVec 12

/-- An index of the match tree: ring position, `NIL`, or root slot (R35, R64). -/
abbrev TreeIdx := BitVec 13

/-- The width `LEN_W = 64` of every position, length and count (R7, R9 (e)). -/
abbrev Count := BitVec 64

/-- A 32-bit command word, format `C` (30_encoding.md R91). -/
abbrev CmdWord := BitVec 32

/-- An entry of the Huffman table `HT` (10_state.md R33). -/
inductive HtEntry where
  | leaf (sym : Byte)
  | node (c0 c1 : BitVec 9)
  deriving DecidableEq, Repr

/-- The reset value of every table entry, `Node(HT_NONE, HT_NONE)` (R33, R40). -/
abbrev HtEntry.empty : HtEntry := .node Config.htNone Config.htNone

end Sys2Proof
end

