-- ==== Sys2Proof/Machine/Memory.lean ====
section
/-! DEFINITION. Sparse memories: `SRC`, `WIN`, `code_buf`, the tree RAMs and `HT` are lists of (index, value) pairs
in one canonical form, indices strictly rising and no value equal to what an unlisted index reads as (`base`). -/

namespace Sys2Proof.Machine

/-- The cell at index `a`; an unlisted index reads as `base`. -/
def Memory.read {α : Type} (base : α) : List (Nat × α) → Nat → α
  | [], _ => base
  | (k, v) :: m, a => if a = k then v else Memory.read base m a

/-- List index `a` with value `v`, in its place. -/
def Memory.insert {α : Type} (a : Nat) (v : α) : List (Nat × α) → List (Nat × α)
  | [] => [(a, v)]
  | (k, w) :: m =>
    if a < k then (a, v) :: (k, w) :: m
    else if a = k then (a, v) :: m
    else (k, w) :: Memory.insert a v m

/-- Unlist the indices from `lo` up to but not including `hi`: they then read as `base`. -/
def Memory.clear {α : Type} (lo hi : Nat) : List (Nat × α) → List (Nat × α)
  | [] => []
  | (k, v) :: m => if lo ≤ k ∧ k < hi then Memory.clear lo hi m else (k, v) :: Memory.clear lo hi m

/-- Write `v` at index `a`, keeping the canonical form: writing `base` unlists the index. -/
def Memory.write {α : Type} [DecidableEq α] (base : α) (m : List (Nat × α)) (a : Nat) (v : α) : List (Nat × α) :=
  if v = base then Memory.clear a (a + 1) m else Memory.insert a v m

/-- The canonical form from index `lo` up to `size`: indices strictly rising, no listed value is `base`. -/
def Memory.wfFrom {α : Type} [DecidableEq α] (base : α) (size : Nat) : Nat → List (Nat × α) → Bool
  | _, [] => true
  | lo, (k, v) :: m => decide (lo ≤ k) && decide (k < size) && decide (v ≠ base) && Memory.wfFrom base size (k + 1) m

/-- The canonical form of a memory of `size` cells whose unlisted cells read as `base`. -/
def Memory.wf {α : Type} [DecidableEq α] (base : α) (size : Nat) (m : List (Nat × α)) : Bool :=
  Memory.wfFrom base size 0 m

end Sys2Proof.Machine
end

