-- ==== Sys2Proof/Syntax.lean ====
section
/-! DEFINITION. The instructions: one constructor per row of spec/opcode_table.json, in the table's order.
The eleven commands are words the host writes to `CMD`; the twelve tokens are read by a decoder unit from its
stream (30_encoding.md R90). -/

namespace Sys2Proof

/-- One command or one stream token. Bits a command's rule ignores are kept as operands (`kind`, `lenKnown`,
`capEn`, `rest`), so that no bit of a word is lost. -/
inductive Instr where
  -- commands, format C (R91 to R93)
  | nop (kind : BitVec 4) (lenKnown capEn : Bool)
  | decompressLzss (lenKnown capEn : Bool)
  | decompressHuffman (capEn : Bool)
  | decompressGammaLz (lenKnown capEn : Bool)
  | decompressSkipLzss (lenKnown capEn : Bool)
  | decompressSkipHuffman (lenKnown capEn : Bool)
  | decompressSkipGammaLz (lenKnown capEn : Bool)
  | compressLzss (lenKnown capEn : Bool)
  | applyCipherLcgXor (lenKnown capEn : Bool)
  | applyCipherPosXor (lenKnown capEn : Bool)
  | abort (rest : BitVec 28)
  -- LZSS tokens (R95 to R97)
  | lzssFlags (f : Byte)
  | lzssLit (b : Byte)
  | lzssMatch (plo : Byte) (phi nl : BitVec 4)
  -- Huffman code: the bits that lead from `HT[0]` to a leaf, first-read bit first (R101)
  | hufSym (path : List Bool)
  -- Gamma-LZ tokens (R102 to R105)
  | glzFirst (b : Byte)
  | glzLit (b : Byte)
  | glzShort (d : BitVec 4)
  | glzZero
  | glzNear (d : BitVec 7) (n : Bool)
  | glzEnd (x : Bool)
  | glzFar (g : BitVec 32) (lo : Byte) (n : BitVec 32)
  | glzRep (n : BitVec 32)
  deriving DecidableEq, Repr

/-- Whether the instruction is a host command, that is, a word written to `CMD` (R90 (a)). -/
def Instr.isCommand : Instr → Bool
  | .nop .. | .decompressLzss .. | .decompressHuffman .. | .decompressGammaLz .. | .decompressSkipLzss ..
  | .decompressSkipHuffman .. | .decompressSkipGammaLz .. | .compressLzss .. | .applyCipherLcgXor ..
  | .applyCipherPosXor .. | .abort .. => true
  | .lzssFlags .. | .lzssLit .. | .lzssMatch .. | .hufSym .. | .glzFirst .. | .glzLit .. | .glzShort ..
  | .glzZero | .glzNear .. | .glzEnd .. | .glzFar .. | .glzRep .. => false

end Sys2Proof
end

