-- ==== Sys2Proof/WellFormed.lean ====
section
/-! DEFINITION. Which instruction terms some bits of a stream encode (30_encoding.md R103 to R105). The operand
types rule out the rest: every command term has a word, every LZSS term has bytes. -/

namespace Sys2Proof

/-- The checks: a Gamma-LZ `SHORT` or `NEAR` distance is not 0 (that is `ZERO` or `END`, R103), and a gamma value
is at least 2 (R104). Whether a `HUF.SYM` path is a code depends on the loaded table, not on the term (R101). -/
def Instr.wellFormed : Instr → Bool
  | .glzShort d => d != 0
  | .glzNear d _ => d != 0
  | .glzFar g _ n => decide (2 ≤ g) && decide (2 ≤ n)
  | .glzRep n => decide (2 ≤ n)
  | .nop .. | .decompressLzss .. | .decompressHuffman .. | .decompressGammaLz .. | .decompressSkipLzss ..
  | .decompressSkipHuffman .. | .decompressSkipGammaLz .. | .compressLzss .. | .applyCipherLcgXor ..
  | .applyCipherPosXor .. | .abort .. | .lzssFlags .. | .lzssLit .. | .lzssMatch .. | .hufSym ..
  | .glzFirst .. | .glzLit .. | .glzZero | .glzEnd .. => true

end Sys2Proof
end

