-- ==== Sys2Proof/Decode.lean ====
section
/-! DEFINITION. Decoding: the command word (30_encoding.md R91 to R94), and the stream tokens as the units read them
through the ByteCursor and the bit reader (R95 to R107); and the encoders, written from the same rules. -/

namespace Sys2Proof

open Sys2Proof.Machine

-- ---------------------------------------------------------------------------------------------------------
-- Commands
-- ---------------------------------------------------------------------------------------------------------

/-- Bits 3:0 of a command word (R91). -/
def CmdWord.op (w : CmdWord) : BitVec 4 := w.extractLsb' 0 4

/-- Bits 7:4 of a command word (R91). -/
def CmdWord.kind (w : CmdWord) : BitVec 4 := w.extractLsb' 4 4

/-- Bit 8 of a command word (R91). -/
def CmdWord.lenKnown (w : CmdWord) : Bool := w.getLsbD 8

/-- Bit 9 of a command word (R91). -/
def CmdWord.capEn (w : CmdWord) : Bool := w.getLsbD 9

/-- Bits 31:10 of a command word (R91). -/
def CmdWord.reserved (w : CmdWord) : BitVec 22 := w.extractLsb' 10 22

/-- The command a word written to `CMD` stands for; `none` for a reserved encoding (R92 to R94, in the order of
R272: `ABORT` first). -/
def decodeCommand (w : CmdWord) : Option Instr :=
  if CmdWord.op w = 15 then some (.abort (w.extractLsb' 4 28))
  else if CmdWord.reserved w ≠ 0 then none
  else if CmdWord.op w = 0 then some (.nop (CmdWord.kind w) (CmdWord.lenKnown w) (CmdWord.capEn w))
  else if CmdWord.op w = 1 then
    if CmdWord.kind w = 0 then some (.decompressLzss (CmdWord.lenKnown w) (CmdWord.capEn w))
    else if CmdWord.kind w = 1 then
      if CmdWord.lenKnown w then some (.decompressHuffman (CmdWord.capEn w)) else none
    else if CmdWord.kind w = 2 then some (.decompressGammaLz (CmdWord.lenKnown w) (CmdWord.capEn w))
    else none
  else if CmdWord.op w = 2 then
    if CmdWord.kind w = 0 then some (.decompressSkipLzss (CmdWord.lenKnown w) (CmdWord.capEn w))
    else if CmdWord.kind w = 1 then some (.decompressSkipHuffman (CmdWord.lenKnown w) (CmdWord.capEn w))
    else if CmdWord.kind w = 2 then some (.decompressSkipGammaLz (CmdWord.lenKnown w) (CmdWord.capEn w))
    else none
  else if CmdWord.op w = 3 then
    if CmdWord.kind w = 0 then some (.compressLzss (CmdWord.lenKnown w) (CmdWord.capEn w)) else none
  else if CmdWord.op w = 4 then
    if CmdWord.kind w = 0 then some (.applyCipherLcgXor (CmdWord.lenKnown w) (CmdWord.capEn w))
    else if CmdWord.kind w = 1 then some (.applyCipherPosXor (CmdWord.lenKnown w) (CmdWord.capEn w))
    else none
  else none

/-- Format `C` put together from its fields (R91). -/
def CmdWord.ofFields (op kind : BitVec 4) (lenKnown capEn : Bool) : CmdWord :=
  (0#22 ++ BitVec.ofBool capEn ++ BitVec.ofBool lenKnown ++ kind ++ op).setWidth 32

/-- The word of a command; `none` for a stream token (R91 to R93). -/
def encodeCommand : Instr → Option CmdWord
  | .nop kind lk ce => some (CmdWord.ofFields 0 kind lk ce)
  | .decompressLzss lk ce => some (CmdWord.ofFields 1 0 lk ce)
  | .decompressHuffman ce => some (CmdWord.ofFields 1 1 true ce)
  | .decompressGammaLz lk ce => some (CmdWord.ofFields 1 2 lk ce)
  | .decompressSkipLzss lk ce => some (CmdWord.ofFields 2 0 lk ce)
  | .decompressSkipHuffman lk ce => some (CmdWord.ofFields 2 1 lk ce)
  | .decompressSkipGammaLz lk ce => some (CmdWord.ofFields 2 2 lk ce)
  | .compressLzss lk ce => some (CmdWord.ofFields 3 0 lk ce)
  | .applyCipherLcgXor lk ce => some (CmdWord.ofFields 4 0 lk ce)
  | .applyCipherPosXor lk ce => some (CmdWord.ofFields 4 1 lk ce)
  | .abort rest => some (rest ++ 15#4)
  | .lzssFlags .. | .lzssLit .. | .lzssMatch .. | .hufSym .. | .glzFirst .. | .glzLit .. | .glzShort ..
  | .glzZero | .glzNear .. | .glzEnd .. | .glzFar .. | .glzRep .. => none

-- ---------------------------------------------------------------------------------------------------------
-- The ByteCursor and the bit reader
-- ---------------------------------------------------------------------------------------------------------

/-- What a unit reads its stream through: `SRC`, `SRC_LEN`, the ByteCursor position `pos` (10_state.md R26) and
the bit reader's `acc` and `bcnt` (R31). -/
structure Cursor where
  src : List Host.Cell
  srcLen : Count
  pos : Count
  acc : Byte
  bcnt : BitVec 4
  deriving DecidableEq, Repr

/-- The outcome of reading from the stream: a value; the end of input (40_cursor_window.md R131); or a gamma code
that does not fit its 32 bits (R106 (b)). Each carries the cursor as it then stands. -/
inductive Fetched (α : Type) where
  | got (a : α) (c : Cursor)
  | endOfInput (c : Cursor)
  | malformed (c : Cursor)
  deriving DecidableEq, Repr

/-- Read on after a value; an end of input or a malformed code ends the reading. -/
def Fetched.andThen {α β : Type} (x : Fetched α) (k : α → Cursor → Fetched β) : Fetched β :=
  match x with
  | .got a c => k a c
  | .endOfInput c => .endOfInput c
  | .malformed c => .malformed c

/-- `ReadByte()` up to its end-of-input disposition (R130). -/
def Cursor.readByte (c : Cursor) : Fetched Byte :=
  if c.pos = c.srcLen then .endOfInput c
  else .got (Memory.read Config.srcUnwritten c.src c.pos.toNat) { c with pos := c.pos + 1 }

/-- The lazy refill of `GetBit()`: a byte is read only when a bit is needed and none is left (R102, R137). -/
def Cursor.refill (c : Cursor) : Fetched Unit :=
  if c.bcnt = 0 then c.readByte.andThen fun b c' => .got () { c' with acc := b, bcnt := 8 }
  else .got () c

/-- `GetBit()`: the next bit of an MSB-first bit stream (R137). -/
def Cursor.getBit (c : Cursor) : Fetched Bool :=
  c.refill.andThen fun _ c' => .got (c'.acc.getLsbD 7) { c' with acc := c'.acc <<< 1, bcnt := c'.bcnt - 1 }

/-- `k` bits in read order, shifted into `v`: the first bit read ends up most significant (R67 (d), R226). -/
def Cursor.getBits : Nat → Nat → Cursor → Fetched Nat
  | 0, v, c => .got v c
  | k + 1, v, c => c.getBit.andThen fun b c' => Cursor.getBits k (2 * v + b.toNat) c'

/-- The loop of `Gamma()` (R223). At most 31 rounds can pass before the test `g >= 2^31`, so the 32 rounds it is
given are never used up. -/
def Cursor.gammaFrom : Nat → BitVec 32 → Cursor → Fetched (BitVec 32)
  | 0, _, c => .malformed c
  | k + 1, g, c =>
    c.getBit.andThen fun b c1 =>
      c1.getBit.andThen fun more c2 =>
        if more = false then .got ((g <<< 1) ||| BitVec.ofNat 32 b.toNat) c2
        else if 0x80000000 ≤ ((g <<< 1) ||| BitVec.ofNat 32 b.toNat) then .malformed c2
        else Cursor.gammaFrom k ((g <<< 1) ||| BitVec.ofNat 32 b.toNat) c2

/-- `Gamma()`: one gamma code (R104, R223). -/
def Cursor.gamma (c : Cursor) : Fetched (BitVec 32) := Cursor.gammaFrom 32 1 c

/-- How many more bits the bit reader can deliver before the end of input. -/
def Cursor.bitsLeft (c : Cursor) : Nat := c.bcnt.toNat + 8 * (c.srcLen - c.pos).toNat

-- ---------------------------------------------------------------------------------------------------------
-- Tokens
-- ---------------------------------------------------------------------------------------------------------

/-- What selects the kind of token a window decoder reads next: the unit's `ustate`, and `lwm` for Gamma-LZ
(R95, R103, R107). -/
inductive TokenContext where
  | flagByte
  | literal
  | matchBytes
  | firstLiteral
  | glzToken (lwm : Bool)
  deriving DecidableEq, Repr

/-- The operands of `LZSS.MATCH`: two bytes (R97). -/
def decodeLzssMatch (c : Cursor) : Fetched Instr :=
  c.readByte.andThen fun byte0 c1 =>
    c1.readByte.andThen fun byte1 c2 => .got (.lzssMatch byte0 (byte1.extractLsb' 4 4) (byte1.extractLsb' 0 4)) c2

/-- After prefix `10` (R103, R228): `REP` if the gamma value is 2 and the previous token was a literal, else `FAR`. -/
def decodeFarOrRep (lwm : Bool) (c : Cursor) : Fetched Instr :=
  c.gamma.andThen fun g c1 =>
    if lwm = false ∧ g = 2 then c1.gamma.andThen fun n c2 => .got (.glzRep n) c2
    else c1.readByte.andThen fun lo c2 => c2.gamma.andThen fun n c3 => .got (.glzFar g lo n) c3

/-- After prefix `110` (R103, R227): the raw byte `v` names `END` if its distance is 0, else `NEAR`. -/
def decodeNearOrEnd (c : Cursor) : Fetched Instr :=
  c.readByte.andThen fun v c1 =>
    if v.extractLsb' 1 7 = 0 then .got (.glzEnd (v.getLsbD 0)) c1
    else .got (.glzNear (v.extractLsb' 1 7) (v.getLsbD 0)) c1

/-- After prefix `111` (R103, R226): four bits name `ZERO` if they are 0, else `SHORT`. -/
def decodeShort (c : Cursor) : Fetched Instr :=
  (Cursor.getBits 4 0 c).andThen fun d c1 =>
    if d = 0 then .got .glzZero c1 else .got (.glzShort (BitVec.ofNat 4 d)) c1

/-- A Gamma-LZ token after the first: the prefix, then its operands (R103, R224). -/
def decodeGlz (lwm : Bool) (c : Cursor) : Fetched Instr :=
  c.getBit.andThen fun b1 c1 =>
    if b1 = false then c1.readByte.andThen fun b c2 => .got (.glzLit b) c2
    else c1.getBit.andThen fun b2 c2 =>
      if b2 = false then decodeFarOrRep lwm c2
      else c2.getBit.andThen fun b3 c3 => if b3 = false then decodeNearOrEnd c3 else decodeShort c3

/-- The next token of an LZSS or Gamma-LZ stream. -/
def decodeToken (x : TokenContext) (c : Cursor) : Fetched Instr :=
  match x with
  | .flagByte => c.readByte.andThen fun f c1 => .got (.lzssFlags f) c1
  | .literal => c.readByte.andThen fun b c1 => .got (.lzssLit b) c1
  | .matchBytes => decodeLzssMatch c
  | .firstLiteral => c.readByte.andThen fun b c1 => .got (.glzFirst b) c1
  | .glzToken lwm => decodeGlz lwm c

/-- The outcome of the Huffman walk (R202): the code read; the end of input at entry `node`; or the bit just read
led to `HT_NONE`. -/
inductive HufFetched where
  | code (path : List Bool) (c : Cursor)
  | endOfInput (node : BitVec 9) (c : Cursor)
  | noCode (c : Cursor)
  deriving DecidableEq, Repr

/-- The walk from entry `node` (R101, R202), one bit an edge; `path` holds the bits already read, last first. The
first argument bounds the edges: `Cursor.bitsLeft` of them is enough, since each takes a bit (R204 (b)). -/
def decodeHufFrom (ht : List (Nat × HtEntry)) : Nat → BitVec 9 → List Bool → Cursor → HufFetched
  | fuel, node, path, c =>
    match Memory.read HtEntry.empty ht node.toNat with
    | .leaf _ => .code path.reverse c
    | .node c0 c1 =>
      match fuel with
      | 0 => .endOfInput node c
      | k + 1 =>
        match c.getBit with
        | .endOfInput c' => .endOfInput node c'
        | .malformed c' => .endOfInput node c'
        | .got bit c' =>
          if (if bit then c1 else c0) = Config.htNone then .noCode c'
          else decodeHufFrom ht k (if bit then c1 else c0) (bit :: path) c'

/-- The next code of a Huffman stream (R101, R202). -/
def decodeHuf (ht : List (Nat × HtEntry)) (c : Cursor) : HufFetched :=
  decodeHufFrom ht (c.bitsLeft + 1) 0 [] c

-- ---------------------------------------------------------------------------------------------------------
-- The token encoders
-- ---------------------------------------------------------------------------------------------------------

/-- A piece of a token: a control (or LZSS flag) bit, or a whole raw byte (R90, R102). -/
inductive Piece where
  | bit (b : Bool)
  | byte (b : Byte)
  deriving DecidableEq, Repr

/-- The low `k` bits of `v`, most significant first. -/
def bitsOf {w : Nat} (v : BitVec w) : Nat → List Bool
  | 0 => []
  | i + 1 => v.getLsbD i :: bitsOf v i

/-- The low `k` bits of `v` as gamma pairs: data bit, then whether another pair follows (R104). -/
def gammaPairs (v : BitVec 32) : Nat → List Bool
  | 0 => []
  | i + 1 => v.getLsbD i :: decide (i ≠ 0) :: gammaPairs v i

/-- The gamma code `G(v)` (R104). -/
def gammaCode (v : BitVec 32) : List Bool := gammaPairs v v.toNat.log2

/-- The pieces of a stream token in the order they are read (R96, R97, R101, R103); none for a command. -/
def encodeToken : Instr → List Piece
  | .lzssFlags f => [.byte f]
  | .lzssLit b => [.bit true, .byte b]
  | .lzssMatch plo phi nl => [.bit false, .byte plo, .byte (phi ++ nl)]
  | .hufSym path => path.map .bit
  | .glzFirst b => [.byte b]
  | .glzLit b => [.bit false, .byte b]
  | .glzShort d => [.bit true, .bit true, .bit true] ++ (bitsOf d 4).map .bit
  | .glzZero => [.bit true, .bit true, .bit true, .bit false, .bit false, .bit false, .bit false]
  | .glzNear d n => [.bit true, .bit true, .bit false, .byte (d ++ BitVec.ofBool n)]
  | .glzEnd x => [.bit true, .bit true, .bit false, .byte (0#7 ++ BitVec.ofBool x)]
  | .glzFar g lo n => [.bit true, .bit false] ++ (gammaCode g).map .bit ++ [.byte lo] ++ (gammaCode n).map .bit
  | .glzRep n => [.bit true, .bit false, .bit false, .bit false] ++ (gammaCode n).map .bit
  | .nop .. | .decompressLzss .. | .decompressHuffman .. | .decompressGammaLz .. | .decompressSkipLzss ..
  | .decompressSkipHuffman .. | .decompressSkipGammaLz .. | .compressLzss .. | .applyCipherLcgXor ..
  | .applyCipherPosXor .. | .abort .. => []

/-- The control bits among some pieces, in order. -/
def Piece.bits : List Piece → List Bool
  | [] => []
  | .bit b :: ps => b :: Piece.bits ps
  | .byte _ :: ps => Piece.bits ps

/-- The control byte that supplies the next 8 of `bits`, most significant first, padded with 0 (R102). -/
def controlByte (bits : List Bool) : Byte :=
  (List.range 8).foldl (fun v i => (v <<< 1) ||| BitVec.ofNat 8 (bits.getD i false).toNat) 0

/-- The bytes of an interleaved stream when `avail` bits are left of the last control byte: a control byte stands
just before its first bit is needed, a raw byte where it is needed (R102). -/
def layoutPieces : Nat → List Piece → List Byte
  | _, [] => []
  | avail, .byte b :: ps => b :: layoutPieces avail ps
  | 0, .bit b :: ps => controlByte (b :: Piece.bits ps) :: layoutPieces 7 ps
  | avail + 1, .bit _ :: ps => layoutPieces avail ps

/-- The bytes of a Gamma-LZ (or Huffman) stream of tokens (R101, R102). -/
def encodeStream (ts : List Instr) : List Byte := layoutPieces 0 (ts.flatMap encodeToken)

/-- The raw bytes among some pieces, in order. -/
def Piece.bytes : List Piece → List Byte
  | [] => []
  | .bit _ :: ps => Piece.bytes ps
  | .byte b :: ps => b :: Piece.bytes ps

/-- The flag byte of an LZSS group: bit `k` is the flag of its `k`-th token, bits beyond the last token are 0
(R95, R99 (d)). -/
def groupFlags : List Instr → Byte
  | [] => 0
  | t :: ts => (groupFlags ts <<< 1) ||| BitVec.ofNat 8 ((Piece.bits (encodeToken t)).headD false).toNat

/-- An LZSS group of up to 8 literals and matches: the flag byte, then the tokens' bytes (R95). -/
def encodeGroup (ts : List Instr) : List Byte :=
  groupFlags ts :: ts.flatMap fun t => Piece.bytes (encodeToken t)

-- ---------------------------------------------------------------------------------------------------------
-- The host's question
-- ---------------------------------------------------------------------------------------------------------

/-- The instruction this decoder reads from a table word: a command is one 32-bit word, bits above `nbits` 0. A
stream token has no word of its own (its row has no match and no mask: its bits are spread over flag or control
bytes, and the unit's state selects it), so a wider word is nothing (log entry 6). -/
def decodeTableWord (nbits w : Nat) : Option Instr :=
  if nbits ≤ 32 then decodeCommand (BitVec.ofNat 32 w) else none

end Sys2Proof
end

