-- ==== Sys2Proof/Machine/State.lean ====
section
/-! DEFINITION. The state of one instance of the codec block (10_state.md R20 to R40), its faults and refusals, and
its reset value. -/

namespace Sys2Proof.Machine

/-- `phase` (R25); the codes are those of `STATUS.PHASE` (R23). -/
inductive Phase where
  | idle | busy | done | failed
  deriving DecidableEq, Repr

/-- `unit`: which family's step rule applies (R25); the codes are those of `STATUS.UNIT` (R23). -/
inductive UnitSel where
  | none | lzd | lze | huf | glz | kc
  deriving DecidableEq, Repr

/-- The values of `ERR` (R24, R290). -/
inductive ErrCode where
  | none | truncatedInput | invalidControlCode | backReferenceOutOfRange | outputOverflow | unsupportedVariant
  deriving DecidableEq, Repr

/-- Which cipher the running `APPLY_CIPHER` performs (R93): the model's own register (DEDUCED, log entry 5; safe). -/
inductive CipherKind where
  | lcgXor | posXor
  deriving DecidableEq, Repr

/-- One action of the host, or of the platform on the reset input (R265, R320). A value written may be wider than
the register: the register keeps the low bits (R22). -/
inductive HostAction where
  | writeReg (n : Nat) (v : Nat)
  | readReg (n : Nat)
  | writeSrc (i : Count) (b : Byte)
  | readDst (i : Count)
  | assertReset
  | releaseReset
  deriving DecidableEq, Repr

/-- Whose turn it is: a host action, or one engine step (R265: any interleaving of the two may occur). -/
inductive Turn where
  | host (a : HostAction)
  | engine
  deriving DecidableEq, Repr

/-- Why the machine stops: two stuck states that no run reaches. No instruction of the opcode table and no host action
raises either: the failures the spec gives are next states with `phase = Failed` (60_exceptions.md R290, R300). -/
inductive Fault where
  /-- Raised by an engine turn while Busy with a (`unit`, `ustate`) pair that R25 gives no code: a stuck state that
  no run reaches (log entry 12: DESIGN CHOICE). Safe. -/
  | noStepRule
  /-- Raised by an encoder step whose walk in the match tree does not end within `W + 1` nodes (R174, R175): a stuck
  state that only a tree with a cycle gives, and no run builds one (log entry 12: DESIGN CHOICE). Safe. -/
  | treeWalkStuck
  deriving DecidableEq, Repr

/-- Why an instruction has no meaning. -/
inductive Refusal where
  /-- Raised by an arm of `exec` whose instruction has no meaning yet; none is left. Safe. -/
  | notModelled (mnemonic : String)
  /-- Raised by `HUF.SYM` on a path that ends inside the loaded table, and by `GLZ.FAR` on a gamma value below the
  least its form admits (3 if `lwm = 0`, else 2, R230): operands that no bits of a stream give, so that the decoder
  never answers them. Safe. -/
  | malformedToken
  deriving DecidableEq, Repr

/-- All the state of one instance (R20), and four fields of the model's own (`agenda`, `readData`, `freeCount`,
`cipherKind`). -/
structure State where
  /-- The model's: the turns still to be taken, next first; the engine has every turn after them (log entry 4). -/
  agenda : List Turn
  /-- The level of the reset input: asserted or not (R320). -/
  resetLine : Bool
  /-- The model's: the value the host's last read returned (log entry 4). -/
  readData : BitVec 64
  /-- The model's: how many free bytes host reads past the end of `DST` have taken (log entry 7). -/
  freeCount : Nat
  -- host registers (R22)
  err : ErrCode
  srcLen : Count
  take : Count
  skip : Count
  maxOut : Count
  fill : Byte
  keySeed : BitVec 32
  htAddr : BitVec 9
  -- engine control (R25, R26)
  phase : Phase
  unit : UnitSel
  ustate : BitVec 3
  pos : Count
  -- Decompressor shell (R27); `dst_count` is the length of `dst`
  lenKnown : Bool
  capEn : Bool
  skipRem : Count
  takeRem : Count
  outCount : Count
  -- window (R28): the byte it was last filled with, and the cells that differ from it
  winFill : Byte
  win : List Host.Cell
  cur : Ring
  -- LZD (R30)
  flags : Byte
  fcnt : BitVec 4
  -- bit reader (R31)
  acc : Byte
  bcnt : BitVec 4
  -- HUF (R32, R33)
  node : BitVec 9
  ht : List (Nat × HtEntry)
  -- LZE (R34): `s`, `r`, `len`, `match_pos`, `match_len`, `last_len`, `code_buf`, `code_ptr`, `mask`
  ringS : Ring
  ringR : Ring
  lookLen : BitVec 5
  matchPos : Ring
  matchLen : BitVec 5
  lastLen : BitVec 5
  codeBuf : List Host.Cell
  codePtr : BitVec 5
  mask : Byte
  -- match tree (R35)
  lson : List (Nat × TreeIdx)
  rson : List (Nat × TreeIdx)
  dad : List (Nat × TreeIdx)
  -- GLZ (R36)
  lwm : Bool
  lastOff : BitVec 13
  -- KC (R37)
  key : BitVec 32
  cipherKind : CipherKind
  -- byte spaces (R38)
  src : List Host.Cell
  dst : List Byte
  deriving DecidableEq, Repr

/-- The machine right after reset (R40, R320). Where R40 says "unspecified" the value is the model's: log entries 1
(registers), 2 (RAMs) and 3 (`SRC`). -/
def State.reset : State where
  agenda := []
  resetLine := false
  readData := 0
  freeCount := 0
  err := .none
  srcLen := 0
  take := 0
  skip := 0
  maxOut := 0
  fill := 0x00
  keySeed := 0
  htAddr := 0
  phase := .idle
  unit := .none
  ustate := 0
  pos := 0
  lenKnown := false
  capEn := false
  skipRem := 0
  takeRem := 0
  outCount := 0
  winFill := 0
  win := []
  cur := 0
  flags := 0
  fcnt := 0
  acc := 0
  bcnt := 0
  node := 0
  ht := []
  ringS := 0
  ringR := 4078
  lookLen := 0
  matchPos := 0
  matchLen := 0
  lastLen := 0
  codeBuf := []
  codePtr := 1
  mask := 0x01
  lson := []
  rson := []
  dad := []
  lwm := false
  lastOff := 0
  key := 0
  cipherKind := .lcgXor
  src := []
  dst := []

end Sys2Proof.Machine
end

