-- ==== Sys2Proof/Machine/Flags.lean ====
section
/-! DEFINITION. The codes of the control state and the `STATUS` and `ERR` images (10_state.md R23 to R25), the
`ustate` codes, and the flag register of the LZSS decoder (41_lzss_decoder.md R153). -/

namespace Sys2Proof.Machine

/-- `STATUS.PHASE` (R23). -/
def Phase.code : Phase → BitVec 2
  | .idle => 0 | .busy => 1 | .done => 2 | .failed => 3

/-- `STATUS.UNIT` (R23). -/
def UnitSel.code : UnitSel → BitVec 3
  | .none => 0 | .lzd => 1 | .lze => 2 | .huf => 3 | .glz => 4 | .kc => 5

/-- The value of `ERR` (R24, R290). -/
def ErrCode.code : ErrCode → BitVec 8
  | .none => 0 | .truncatedInput => 1 | .invalidControlCode => 2 | .backReferenceOutOfRange => 3
  | .outputOverflow => 4 | .unsupportedVariant => 5

/-- Whether the unit is one of the three decoders, which run through the Decompressor shell (R273). -/
def UnitSel.isDecoder : UnitSel → Bool
  | .lzd | .huf | .glz => true
  | .none | .lze | .kc => false

/-- Whether `Produce` pushes to the window for the unit (40_cursor_window.md R135). -/
def UnitSel.hasWindow : UnitSel → Bool
  | .lzd | .glz => true
  | .none | .lze | .huf | .kc => false

/-- `ustate` codes of LZD (R25). -/
abbrev UState.readFlagByte : BitVec 3 := 0
/-- `ustate` codes of LZD (R25). -/
abbrev UState.readLiteral : BitVec 3 := 1
/-- `ustate` codes of LZD (R25). -/
abbrev UState.readMatch : BitVec 3 := 2
/-- `ustate` codes of LZE (R25). -/
abbrev UState.prime : BitVec 3 := 0
/-- `ustate` codes of LZE (R25). -/
abbrev UState.encode : BitVec 3 := 1
/-- `ustate` codes of LZE (R25). -/
abbrev UState.flush : BitVec 3 := 2
/-- `ustate` code of HUF (R25). -/
abbrev UState.symbol : BitVec 3 := 0
/-- `ustate` codes of GLZ (R25). -/
abbrev UState.firstLiteral : BitVec 3 := 0
/-- `ustate` codes of GLZ (R25). -/
abbrev UState.token : BitVec 3 := 1
/-- `ustate` code of KC (R25). -/
abbrev UState.byte : BitVec 3 := 0

/-- `STATUS.LWM`: the Gamma-LZ register, 0 for other units (R23). -/
def State.statusLwm (s : State) : Bool := decide (s.unit = .glz) && s.lwm

/-- The `STATUS` register (R23). -/
def State.status (s : State) : BitVec 32 :=
  0#21 ++ BitVec.ofBool s.statusLwm ++ BitVec.ofBool s.capEn ++ BitVec.ofBool s.lenKnown ++ s.ustate ++ s.unit.code
    ++ s.phase.code

/-- `dst_count`: the length of `DST`, 64 bits (R27, R62). -/
def State.dstCount (s : State) : Count := BitVec.ofNat 64 s.dst.length

/-- `NextToken()` and the write of its answer to `ustate` (R153): the flag register is consumed from bit 0 up. -/
def State.nextToken (s : State) : State :=
  if s.fcnt = 0 then { s with ustate := UState.readFlagByte }
  else
    { s with
      flags := s.flags >>> 1
      fcnt := s.fcnt - 1
      ustate := if s.flags.getLsbD 0 then UState.readLiteral else UState.readMatch }

end Sys2Proof.Machine
end

