-- ==== Sys2Proof/Machine/Operands.lean ====
section
/-! DEFINITION. Operand assembly: the LZSS match fields (30_encoding.md R98, 41_lzss_decoder.md R156), the Gamma-LZ
distances and lengths (R105, 44_gamma_lz_decoder.md R230), and the image of a Huffman table entry (R100). -/

namespace Sys2Proof.Machine

/-- The 12-bit position field `p` of `LZSS.MATCH` (R98). -/
def lzssField (plo : Byte) (phi : BitVec 4) : Ring := phi ++ plo

/-- The length of `LZSS.MATCH`, 3 to 18 (R98). -/
def lzssLength (nl : BitVec 4) : Nat := nl.toNat + Config.threshold + 1

/-- The distance a position field names, the cursor standing at `cur` (R98; R156 for `absolute`). -/
def lzssDistance (m : PosMode) (cur p : Ring) : Nat :=
  match m with
  | .relative => p.toNat
  | .absolute => if cur - p = 0 then Config.W else (cur - p).toNat

/-- The position field the encoder writes for a candidate at `matchPos` (42_lzss_encoder.md R179). -/
def encodeLzssField (m : PosMode) (r matchPos : Ring) : Ring :=
  match m with
  | .relative => r - matchPos
  | .absolute => matchPos

/-- The least gamma value the extended form admits (R230): after a literal 2 is the repeat path. -/
def farLeast (lwm : Bool) : Nat := if lwm then 2 else 3

/-- The distance of `GLZ.FAR`: the high part `g - 2` or `g - 3`, then the raw byte (R105, R230). -/
def farDistance (lwm : Bool) (g : BitVec 32) (lo : Byte) : Nat := (g.toNat - farLeast lwm) * 256 + lo.toNat

/-- The three corrections of the `GLZ.FAR` length, cumulative and in the order written (R230). -/
def farLength (d : Nat) (n : BitVec 32) : Nat :=
  n.toNat + (if 32000 ≤ d then 1 else 0) + (if 1280 ≤ d then 1 else 0) + (if d < 128 then 2 else 0)

/-- The length of the 1-byte form, `2 + (v & 1)` (R105, R227). -/
def nearLength (n : Bool) : Nat := 2 + n.toNat

/-- The 32-bit image of a table entry, as `HT_DATA` reads it (R100). -/
def htImage : HtEntry → BitVec 32
  | .leaf sym => 1#1 ++ 0#23 ++ sym
  | .node c0 c1 => 0#7 ++ c1 ++ 0#7 ++ c0

/-- The table entry a 32-bit image stands for, as `HT_DATA` writes it; the other bits are ignored (R100). -/
def htOfImage (v : BitVec 32) : HtEntry :=
  if v.getLsbD 31 then .leaf (v.extractLsb' 0 8) else .node (v.extractLsb' 0 9) (v.extractLsb' 16 9)

end Sys2Proof.Machine
end

