-- ==== Sys2Proof/Machine/Ops.lean ====
section
/-! DEFINITION. The shared operations: failure entry and `Stop` (60_exceptions.md R300, 40_cursor_window.md R136),
the stream cursor, the window and its copies (R130 to R134), the Decompressor shell (R135), `Emit` (R138), the
register file (10_state.md R22, R33) and the start of a command (46_commands.md R272, R273). -/

namespace Sys2Proof.Machine

-- ---------------------------------------------------------------------------------------------------------
-- Failure, Stop, and the flow of a step
-- ---------------------------------------------------------------------------------------------------------

/-- `raise E`, the whole of failure entry (R300): the error code is recorded and the phase becomes `Failed`. There is
no return from it (R302): `Failed` is left only by an accepted command, `ABORT` or reset. -/
def State.raise (s : State) (e : ErrCode) : State := { s with err := e, phase := .failed }

/-- `Stop`: the command ends successfully (R136). -/
def State.stop (s : State) : State := { s with phase := .done }

/-- How far a step has come: it goes on, or `raise` or `Stop` has ended it (R10, R136, R300). -/
inductive Flow where
  | go (s : State)
  | halt (s : State)
  deriving DecidableEq, Repr

/-- The rest of a step: nothing after a `raise` or a `Stop` is executed (R10). -/
def Flow.andThen (x : Flow) (k : State → Flow) : Flow :=
  match x with
  | .go s => k s
  | .halt s => .halt s

/-- The state a flow has come to. -/
def Flow.state : Flow → State
  | .go s => s
  | .halt s => s

/-- The end of a step, whether the pseudocode ran to its end or was cut short: a next state (R274). -/
def Flow.toOutcome (x : Flow) : Host.Outcome State Fault Refusal := .next x.state

-- ---------------------------------------------------------------------------------------------------------
-- The stream
-- ---------------------------------------------------------------------------------------------------------

/-- The cursor and bit reader a unit reads its stream through. -/
def State.cursor (s : State) : Cursor := ⟨s.src, s.srcLen, s.pos, s.acc, s.bcnt⟩

/-- The state with the cursor and bit reader moved on; reading never writes `SRC` (R61). -/
def State.withCursor (s : State) (c : Cursor) : State := { s with pos := c.pos, acc := c.acc, bcnt := c.bcnt }

/-- `EndOfInput()` (R131): a failure if the length is known, else the normal end. -/
def State.endOfInput (s : State) : State := if s.lenKnown then s.raise .truncatedInput else s.stop

/-- `NextInput()`, the encoder's source read (42_lzss_encoder.md R191); the cipher reads alike (R252, R253). -/
def State.nextInput (s : State) : Option (Byte × State) :=
  if s.pos = s.srcLen then none
  else some (Memory.read Config.srcUnwritten s.src s.pos.toNat, { s with pos := s.pos + 1 })

-- ---------------------------------------------------------------------------------------------------------
-- The window
-- ---------------------------------------------------------------------------------------------------------

/-- `WIN[i]` (`TEXT[i]`): the byte last written there, or the fill byte (R63, R134). -/
def State.winAt (s : State) (i : Ring) : Byte := Memory.read s.winFill s.win i.toNat

/-- `WIN[i] <- b`. -/
def State.setWin (s : State) (i : Ring) (b : Byte) : State := { s with win := Memory.write s.winFill s.win i.toNat b }

/-- Every byte of `WIN` becomes `FILL`, and `cur` becomes `CUR_INIT` (R28). -/
def State.fillWindow (s : State) : State := { s with winFill := s.fill, win := [], cur := Config.curInit }

/-- `Push(b)` (R132). -/
def State.push (s : State) (b : Byte) : State :=
  { s with win := Memory.write s.winFill s.win s.cur.toNat b, cur := s.cur + 1 }

-- ---------------------------------------------------------------------------------------------------------
-- The Decompressor shell
-- ---------------------------------------------------------------------------------------------------------

/-- One byte appended to `DST` (R62). -/
def State.appendDst (s : State) (b : Byte) : State := { s with dst := s.dst ++ [b] }

/-- The last part of `Produce`: a byte past the skipped prefix is delivered, and the limit stops (R135). -/
def State.deliver (s : State) (b : Byte) : Flow :=
  if s.lenKnown then
    if s.takeRem - 1 = 0 then .halt { s.appendDst b with takeRem := s.takeRem - 1 }.stop
    else .go { s.appendDst b with takeRem := s.takeRem - 1 }
  else .go (s.appendDst b)

/-- The middle of `Produce`: the byte enters the window, if the unit has one, and is counted (R135). -/
def State.countByte (s : State) (b : Byte) : State :=
  if s.unit.hasWindow then { s.push b with outCount := s.outCount + 1 } else { s with outCount := s.outCount + 1 }

/-- `Produce(b)` (R135): cap test, window and count, skip, delivery, limit. DEDUCED (log entry 17): the counters wrap in
runs that R9 (e) calls unreachable; safe. -/
def State.produce (s : State) (b : Byte) : Flow :=
  if s.capEn = true ∧ s.outCount = s.maxOut then .halt (s.raise .outputOverflow)
  else if s.skipRem = 0 then (s.countByte b).deliver b
  else .go { s.countByte b with skipRem := s.skipRem - 1 }

/-- The loop of `CopyBack(d, n)`: each byte is read after the one before it was produced (R133, R72). -/
def State.copyBytes (d : Nat) : Nat → State → Flow
  | 0, s => .go s
  | n + 1, s => (s.produce (s.winAt (s.cur - BitVec.ofNat 12 d))).andThen (State.copyBytes d n)

/-- `CopyBack(d, n)` (R133): the range check comes before any byte. -/
def State.copyBack (s : State) (d n : Nat) : Flow :=
  if d = 0 ∨ Config.W < d then .halt (s.raise .backReferenceOutOfRange) else State.copyBytes d n s

/-- `Emit(b)` (R138). -/
def State.emit (s : State) (b : Byte) : State := { s with dst := s.dst ++ [b], outCount := s.outCount + 1 }

-- ---------------------------------------------------------------------------------------------------------
-- The register file
-- ---------------------------------------------------------------------------------------------------------

/-- Entry `i` of the Huffman table (R33). -/
def State.htAt (s : State) (i : BitVec 9) : HtEntry := Memory.read HtEntry.empty s.ht i.toNat

/-- A write to `HT_DATA` (R33): the entry is written if `HT_ADDR <= 510`, then `HT_ADDR` advances modulo 512. -/
def State.writeHtData (s : State) (v : BitVec 32) : State :=
  { s with
    ht := if s.htAddr.toNat < Config.htSize then Memory.write HtEntry.empty s.ht s.htAddr.toNat (htOfImage v) else s.ht
    htAddr := s.htAddr + 1 }

/-- A host read of a register (R22): the value zero-extended; a register that does not exist reads as 0, and every
read returns 0 while reset is asserted (R320). No read has a side effect (R69). -/
def State.readReg (s : State) (n : Nat) : BitVec 64 :=
  if s.resetLine then 0
  else match n with
    | 1 => s.status.setWidth 64
    | 2 => s.err.code.setWidth 64
    | 3 => s.srcLen
    | 4 => s.take
    | 5 => s.skip
    | 6 => s.maxOut
    | 7 => s.fill.setWidth 64
    | 8 => s.keySeed.setWidth 64
    | 9 => s.pos
    | 10 => s.outCount
    | 11 => s.dstCount
    | 12 => s.htAddr.setWidth 64
    | 13 => (htImage (s.htAt s.htAddr)).setWidth 64
    | _ => 0

/-- A host write of a register other than `CMD` (R22): it keeps the low bits of `v`, takes effect only while the
phase is not `Busy` (R280), and is ignored on a read-only register or one that does not exist. -/
def State.writeReg (s : State) (n v : Nat) : State :=
  if s.phase = .busy then s
  else match n with
    | 3 => { s with srcLen := BitVec.ofNat 64 v }
    | 4 => { s with take := BitVec.ofNat 64 v }
    | 5 => { s with skip := BitVec.ofNat 64 v }
    | 6 => { s with maxOut := BitVec.ofNat 64 v }
    | 7 => { s with fill := BitVec.ofNat 8 v }
    | 8 => { s with keySeed := BitVec.ofNat 32 v }
    | 12 => { s with htAddr := BitVec.ofNat 9 v }
    | 13 => s.writeHtData (BitVec.ofNat 32 v)
    | _ => s

/-- A host write of a byte of `SRC`. The block does not prevent it while Busy (R280, R326).
DEDUCED (log entry 16): it then takes effect; safe. -/
def State.writeSrc (s : State) (i : Count) (b : Byte) : State :=
  { s with src := Memory.write Config.srcUnwritten s.src i.toNat b }

-- ---------------------------------------------------------------------------------------------------------
-- The start of a command
-- ---------------------------------------------------------------------------------------------------------

/-- A reserved command word while the phase is not `Busy` (R94, R272): no unit starts.
DEDUCED (log entry 14): the registers R272 does not name are kept; unsafe for `STATUS` bits 8 and 9. -/
def State.refuseCommand (s : State) : State :=
  { s with
    phase := .failed, err := .unsupportedVariant, unit := .none, ustate := 0, dst := [], pos := 0, outCount := 0 }

/-- `InitTree()` (42_lzss_encoder.md R173): every root and every parent becomes `NIL`; the other cells keep what
they hold. -/
def State.initTree (s : State) : State :=
  { s with
    rson := Memory.clear (Config.W + 1) (Config.W + 257) s.rson
    dad := Memory.clear 0 Config.W s.dad }

/-- Start of LZD (41_lzss_decoder.md R151). -/
def State.initLzd (s : State) : State := { s.fillWindow with flags := 0, fcnt := 0, ustate := UState.readFlagByte }

/-- Start of LZE (42_lzss_encoder.md R172). DEDUCED (log entry 13): `cur` is set as R28 says; unsafe in form only. -/
def State.initLze (s : State) : State :=
  { s.fillWindow.initTree with
    ringR := 4078, ringS := 0, lookLen := 0, matchPos := 0, matchLen := 0, lastLen := 0
    codeBuf := Memory.write Config.codeBufUnwritten s.codeBuf 0 0
    codePtr := 1, mask := 0x01, ustate := UState.prime }

/-- Start of HUF (43_huffman_decoder.md R201). -/
def State.initHuf (s : State) : State := { s with acc := 0, bcnt := 0, node := 0, ustate := UState.symbol }

/-- Start of GLZ (44_gamma_lz_decoder.md R221). -/
def State.initGlz (s : State) : State :=
  { s.fillWindow with acc := 0, bcnt := 0, lwm := false, lastOff := 0, ustate := UState.firstLiteral }

/-- Start of KC (45_keyed_cipher.md R251). DEDUCED (log entry 5): the kind is latched for the steps; safe. -/
def State.initKc (s : State) (k : CipherKind) : State :=
  { s with key := s.keySeed, cipherKind := k, ustate := UState.byte }

/-- What the common start writes before the unit is initialised (R273). -/
def State.startCommon (s : State) (u : UnitSel) (lenKnown capEn : Bool) (skipRem takeRem : Count) : State :=
  { s with
    err := .none, dst := [], pos := 0, outCount := 0
    lenKnown := lenKnown, capEn := capEn, skipRem := skipRem, takeRem := takeRem, unit := u }

/-- The end of the common start (R273): a decode that wants no byte is `Done` at once, any other command is `Busy`. -/
def State.startPhase (s : State) : State :=
  if s.unit.isDecoder = true ∧ s.lenKnown = true ∧ s.takeRem = 0 then { s with phase := .done }
  else { s with phase := .busy }

/-- `DECOMPRESS` (R267): `take_rem` is `TAKE` if the length is known, else 0; `SKIP` is ignored. -/
def State.startDecompress (s : State) (u : UnitSel) (lenKnown capEn : Bool) : State :=
  s.startCommon u lenKnown capEn 0 (if lenKnown then s.take else 0)

/-- `DECOMPRESS_SKIP` (R268): `LEN_KNOWN` is taken as 1. -/
def State.startSkip (s : State) (u : UnitSel) (capEn : Bool) : State := s.startCommon u true capEn s.skip s.take

/-- `COMPRESS` and `APPLY_CIPHER` (R269, R270): no length, no cap, no skip. -/
def State.startPlain (s : State) (u : UnitSel) : State := s.startCommon u false false 0 0

/-- Acceptance of a command other than `NOP` and `ABORT`: ignored while Busy (R272, R280). -/
def State.accept (s : State) (start : State → State) : Host.Outcome State Fault Refusal :=
  .next (if s.phase = .busy then s else start s)

end Sys2Proof.Machine
end

