-- ==== Sys2Proof/Machine/Cipher.lean ====
section
/-! DEFINITION. The step rule of the KeyedCipher unit (45_keyed_cipher.md R251 to R254). -/

namespace Sys2Proof.Machine

/-- Byte `i mod 4` of the key, least significant first (R252). -/
def lcgKeyByte (key : BitVec 32) (i : Count) : Byte := key.extractLsb' (8 * (i.toNat % 4)) 8

/-- The key after byte `i` (R252): it advances after every fourth byte, modulo `2^32`. -/
def lcgNextKey (key : BitVec 32) (i : Count) : BitVec 32 := if i.toNat % 4 = 3 then key * 7 + 3 else key

/-- The key byte of `POS_XOR` at byte `i` (R253). -/
def posKeyByte (srcLen i : Count) : Byte := BitVec.ofNat 8 (srcLen.toNat + 1 - i.toNat)

/-- Step `Byte` (R252, R253): one byte is read, transformed and emitted; at the end of `SRC` the command stops. -/
def State.stepCipher (s : State) : State :=
  match s.nextInput with
  | none => s.stop
  | some (b, s') =>
    match s.cipherKind with
    | .lcgXor => { s'.emit (b ^^^ lcgKeyByte s.key s.pos) with key := lcgNextKey s.key s.pos }
    | .posXor => s'.emit (b ^^^ posKeyByte s.srcLen s.pos)

end Sys2Proof.Machine
end

