-- ==== Sys2Proof/Machine/Commands.lean ====
section
/-! DEFINITION. The meanings of the host commands (46_commands.md R266 to R273, R280): what a write of the command's
word to `CMD` does. -/

namespace Sys2Proof.Machine

/-- `NOP` (R266): no effect in any phase; `KIND`, `LEN_KNOWN` and `CAP_EN` are ignored (R93). -/
def execNop (_kind : BitVec 4) (_lenKnown _capEn : Bool) (s : State) : Host.Outcome State Fault Refusal := .next s

/-- `DECOMPRESS LZSS` (R267, R151). -/
def execDecompressLzss (lenKnown capEn : Bool) (s : State) : Host.Outcome State Fault Refusal :=
  s.accept fun s => (s.startDecompress .lzd lenKnown capEn).initLzd.startPhase

/-- `DECOMPRESS HUFFMAN` (R267, R201): the length is always known, since the word without it is reserved (R94). -/
def execDecompressHuffman (capEn : Bool) (s : State) : Host.Outcome State Fault Refusal :=
  s.accept fun s => (s.startDecompress .huf true capEn).initHuf.startPhase

/-- `DECOMPRESS GAMMA_LZ` (R267, R221). -/
def execDecompressGammaLz (lenKnown capEn : Bool) (s : State) : Host.Outcome State Fault Refusal :=
  s.accept fun s => (s.startDecompress .glz lenKnown capEn).initGlz.startPhase

/-- `DECOMPRESS_SKIP LZSS` (R268, R151). -/
def execDecompressSkipLzss (_lenKnown capEn : Bool) (s : State) : Host.Outcome State Fault Refusal :=
  s.accept fun s => (s.startSkip .lzd capEn).initLzd.startPhase

/-- `DECOMPRESS_SKIP HUFFMAN` (R268, R201). -/
def execDecompressSkipHuffman (_lenKnown capEn : Bool) (s : State) : Host.Outcome State Fault Refusal :=
  s.accept fun s => (s.startSkip .huf capEn).initHuf.startPhase

/-- `DECOMPRESS_SKIP GAMMA_LZ` (R268, R221). -/
def execDecompressSkipGammaLz (_lenKnown capEn : Bool) (s : State) : Host.Outcome State Fault Refusal :=
  s.accept fun s => (s.startSkip .glz capEn).initGlz.startPhase

/-- `COMPRESS LZSS` (R269, R172). -/
def execCompressLzss (_lenKnown _capEn : Bool) (s : State) : Host.Outcome State Fault Refusal :=
  s.accept fun s => (s.startPlain .lze).initLze.startPhase

/-- `APPLY_CIPHER LCG_XOR` (R270, R251). -/
def execApplyCipherLcgXor (_lenKnown _capEn : Bool) (s : State) : Host.Outcome State Fault Refusal :=
  s.accept fun s => ((s.startPlain .kc).initKc .lcgXor).startPhase

/-- `APPLY_CIPHER POS_XOR` (R270, R251). -/
def execApplyCipherPosXor (_lenKnown _capEn : Bool) (s : State) : Host.Outcome State Fault Refusal :=
  s.accept fun s => ((s.startPlain .kc).initKc .posXor).startPhase

/-- `ABORT` (R271): accepted in every phase; the operand registers, `HT` and `SRC` are kept. -/
def execAbort (_rest : BitVec 28) (s : State) : Host.Outcome State Fault Refusal :=
  .next
    { s with
      phase := .idle, unit := .none, ustate := 0, err := .none, dst := [], pos := 0, outCount := 0
      skipRem := 0, takeRem := 0, lenKnown := false, capEn := false }

end Sys2Proof.Machine
end

