-- ==== Sys2Proof/Machine/GammaLz.lean ====
section
/-! DEFINITION. The meanings of the Gamma-LZ tokens (44_gamma_lz_decoder.md R222 to R231). -/

namespace Sys2Proof.Machine

/-- The end of every token: `ustate <- Token` (R222, R224). -/
def State.glzNext (s : State) : State := { s with ustate := UState.token }

/-- `TokShort()` (R226), both sub-cases: distance 0 is the byte 0x00, any other distance copies one byte. -/
def State.tokShort (s : State) (d : BitVec 4) : Flow :=
  (if d = 0 then s.produce 0x00 else s.copyBack d.toNat 1).andThen fun s' => .go { s' with lwm := false }.glzNext

/-- `TokNearOrEnd()` (R227), both sub-cases: distance 0 is the end marker. -/
def State.tokNearOrEnd (s : State) (d : BitVec 7) (n : Bool) : Flow :=
  if d = 0 then (if s.lenKnown then .halt (s.raise .truncatedInput) else .halt s.stop)
  else (s.copyBack d.toNat (nearLength n)).andThen
    fun s' => .go { s' with lastOff := d.setWidth 13, lwm := true }.glzNext

/-- `GLZ.FIRST` (R222). -/
def execGlzFirst (b : Byte) (s : State) : Host.Outcome State Fault Refusal :=
  ((s.produce b).andThen fun s' => .go { s' with lwm := false }.glzNext).toOutcome

/-- `GLZ.LIT` (R225). -/
def execGlzLit (b : Byte) (s : State) : Host.Outcome State Fault Refusal :=
  ((s.produce b).andThen fun s' => .go { s' with lwm := false }.glzNext).toOutcome

/-- `GLZ.SHORT` (R226). -/
def execGlzShort (d : BitVec 4) (s : State) : Host.Outcome State Fault Refusal := (s.tokShort d).toOutcome

/-- `GLZ.ZERO` (R226). -/
def execGlzZero (s : State) : Host.Outcome State Fault Refusal := (s.tokShort 0).toOutcome

/-- `GLZ.NEAR` (R227). -/
def execGlzNear (d : BitVec 7) (n : Bool) (s : State) : Host.Outcome State Fault Refusal := (s.tokNearOrEnd d n).toOutcome

/-- `GLZ.END` (R227): the length bit is ignored. -/
def execGlzEnd (x : Bool) (s : State) : Host.Outcome State Fault Refusal := (s.tokNearOrEnd 0 x).toOutcome

/-- `GLZ.FAR` (R230). A gamma value below the form's least has no high part and is no token of it:
DESIGN CHOICE (log entry 8); safe. The rule is UNVERIFIED against real data (U3, log entry 20). -/
def execGlzFar (g : BitVec 32) (lo : Byte) (n : BitVec 32) (s : State) : Host.Outcome State Fault Refusal :=
  if g.toNat < farLeast s.lwm then .refused .malformedToken
  else
    ((s.copyBack (farDistance s.lwm g lo) (farLength (farDistance s.lwm g lo) n)).andThen
      fun s' => .go { s' with lastOff := BitVec.ofNat 13 (farDistance s.lwm g lo), lwm := true }.glzNext).toOutcome

/-- `GLZ.REP` (R229): the last offset again, which stays; no correction. -/
def execGlzRep (n : BitVec 32) (s : State) : Host.Outcome State Fault Refusal :=
  ((s.copyBack s.lastOff.toNat n.toNat).andThen fun s' => .go { s' with lwm := true }.glzNext).toOutcome

end Sys2Proof.Machine
end

