-- ==== Sys2Proof/Machine/Huffman.lean ====
section
/-! DEFINITION. The meaning of the Huffman code (43_huffman_decoder.md R202). -/

namespace Sys2Proof.Machine

/-- Where the bits of a code lead in the table: a leaf with its index; `HT_NONE`; or an entry inside the table. -/
inductive HufEnd where
  | leaf (node : BitVec 9) (sym : Byte)
  | noCode
  | inside (node : BitVec 9)
  deriving DecidableEq, Repr

/-- Follow the bits of a code from entry `node` (R101, R202): a leaf ends the walk, whatever bits are left. -/
def hufFollow (ht : List (Nat × HtEntry)) : BitVec 9 → List Bool → HufEnd
  | node, [] =>
    match Memory.read HtEntry.empty ht node.toNat with
    | .leaf sym => .leaf node sym
    | .node _ _ => .inside node
  | node, bit :: bits =>
    match Memory.read HtEntry.empty ht node.toNat with
    | .leaf sym => .leaf node sym
    | .node c0 c1 =>
      if (if bit then c1 else c0) = Config.htNone then .noCode else hufFollow ht (if bit then c1 else c0) bits

/-- `HUF.SYM` (R202): walk `HT` from its root along the code and produce the leaf's byte. A bit that leads to
`HT_NONE` raises `InvalidControlCode` (R292), `node` then holding `HT_NONE`, as R202 writes it before its test.
DEDUCED (log entry 10); unsafe in form only. A path that ends inside the table: DESIGN CHOICE (log entry 8); safe. -/
def execHufSym (path : List Bool) (s : State) : Host.Outcome State Fault Refusal :=
  match hufFollow s.ht 0 path with
  | .leaf n sym => (({ s with node := n }.produce sym).andThen fun s' => .go { s' with ustate := UState.symbol }).toOutcome
  | .noCode => .next ({ s with node := Config.htNone }.raise .invalidControlCode)
  | .inside _ => .refused .malformedToken

end Sys2Proof.Machine
end

