-- ==== Sys2Proof/Machine/LzssDecoder.lean ====
section
/-! DEFINITION. The meanings of the LZSS tokens (41_lzss_decoder.md R152 to R156). The step has read the token's
bytes (Machine/Fetch.lean); a meaning is what the step rule does with them. -/

namespace Sys2Proof.Machine

/-- `LZSS.FLAGS` (R152): the flag byte is latched and its first bit consumed. -/
def execLzssFlags (f : Byte) (s : State) : Host.Outcome State Fault Refusal :=
  .next { s with flags := f, fcnt := 8 }.nextToken

/-- `LZSS.LIT` (R154). -/
def execLzssLit (b : Byte) (s : State) : Host.Outcome State Fault Refusal :=
  ((s.produce b).andThen fun s' => .go s'.nextToken).toOutcome

/-- `LZSS.MATCH` (R155; R156 for `POS_MODE = absolute`). -/
def execLzssMatch (plo : Byte) (phi nl : BitVec 4) (s : State) : Host.Outcome State Fault Refusal :=
  ((s.copyBack (lzssDistance Config.posMode s.cur (lzssField plo phi)) (lzssLength nl)).andThen
    fun s' => .go s'.nextToken).toOutcome

end Sys2Proof.Machine
end

