-- ==== Sys2Proof/Machine/Dispatch.lean ====
section
/-! DEFINITION. One arm per instruction, each a call of its meaning. -/

namespace Sys2Proof.Machine

def exec (i : Instr) (s : State) : Host.Outcome State Fault Refusal :=
  match i with
  -- host commands (46_commands.md)
  | .nop kind lenKnown capEn => Sys2Proof.Machine.execNop kind lenKnown capEn s
  | .decompressLzss lenKnown capEn => Sys2Proof.Machine.execDecompressLzss lenKnown capEn s
  | .decompressHuffman capEn => Sys2Proof.Machine.execDecompressHuffman capEn s
  | .decompressGammaLz lenKnown capEn => Sys2Proof.Machine.execDecompressGammaLz lenKnown capEn s
  | .decompressSkipLzss lenKnown capEn => Sys2Proof.Machine.execDecompressSkipLzss lenKnown capEn s
  | .decompressSkipHuffman lenKnown capEn => Sys2Proof.Machine.execDecompressSkipHuffman lenKnown capEn s
  | .decompressSkipGammaLz lenKnown capEn => Sys2Proof.Machine.execDecompressSkipGammaLz lenKnown capEn s
  | .compressLzss lenKnown capEn => Sys2Proof.Machine.execCompressLzss lenKnown capEn s
  | .applyCipherLcgXor lenKnown capEn => Sys2Proof.Machine.execApplyCipherLcgXor lenKnown capEn s
  | .applyCipherPosXor lenKnown capEn => Sys2Proof.Machine.execApplyCipherPosXor lenKnown capEn s
  | .abort rest => Sys2Proof.Machine.execAbort rest s
  -- LZSS tokens (41_lzss_decoder.md)
  | .lzssFlags f => Sys2Proof.Machine.execLzssFlags f s
  | .lzssLit b => Sys2Proof.Machine.execLzssLit b s
  | .lzssMatch plo phi nl => Sys2Proof.Machine.execLzssMatch plo phi nl s
  -- Huffman code (43_huffman_decoder.md)
  | .hufSym path => Sys2Proof.Machine.execHufSym path s
  -- Gamma-LZ tokens (44_gamma_lz_decoder.md)
  | .glzFirst b => Sys2Proof.Machine.execGlzFirst b s
  | .glzLit b => Sys2Proof.Machine.execGlzLit b s
  | .glzShort d => Sys2Proof.Machine.execGlzShort d s
  | .glzZero => Sys2Proof.Machine.execGlzZero s
  | .glzNear d n => Sys2Proof.Machine.execGlzNear d n s
  | .glzEnd x => Sys2Proof.Machine.execGlzEnd x s
  | .glzFar g lo n => Sys2Proof.Machine.execGlzFar g lo n s
  | .glzRep n => Sys2Proof.Machine.execGlzRep n s

end Sys2Proof.Machine
end

