-- ==== Sys2Proof/Machine/Fetch.lean ====
section
/-! DEFINITION. The reading of a token by a decoder unit: what its step reads before the token's effect, and how the
step ends when the stream gives no whole token (40_cursor_window.md R130, R131, R137; 60_exceptions.md R298 (d)). -/

namespace Sys2Proof.Machine

/-- What a decoder's step has read: a whole token, with the state its reading leaves; or the step has ended. -/
inductive TokenRead where
  | token (i : Instr) (s : State)
  | ended (s : State)
  deriving DecidableEq, Repr

/-- How a reading ends: the end of input by R131, a gamma code too long for its accumulator by R223. -/
def State.afterFetch (s : State) (x : Fetched Instr) : TokenRead :=
  match x with
  | .got i c => .token i (s.withCursor c)
  | .endOfInput c => .ended (s.withCursor c).endOfInput
  | .malformed c => .ended ((s.withCursor c).raise .backReferenceOutOfRange)

/-- How the reading of a Huffman code ends (R202): `node` stands at the entry that wanted a bit, or at `HT_NONE`. -/
def State.afterHuf (s : State) (x : HufFetched) : TokenRead :=
  match x with
  | .code path c => .token (.hufSym path) (s.withCursor c)
  | .endOfInput n c => .ended { s.withCursor c with node := n }.endOfInput
  | .noCode c => .ended ({ s.withCursor c with node := Config.htNone }.raise .invalidControlCode)

/-- What selects the next token of LZD or GLZ (R25, R152 to R155, R222, R224); `none` where the pair of `unit` and
`ustate` is not one of theirs. -/
def State.tokenContext (s : State) : Option TokenContext :=
  match s.unit with
  | .lzd =>
    if s.ustate = UState.readFlagByte then some .flagByte
    else if s.ustate = UState.readLiteral then some .literal
    else if s.ustate = UState.readMatch then some .matchBytes
    else none
  | .glz =>
    if s.ustate = UState.firstLiteral then some .firstLiteral
    else if s.ustate = UState.token then some (.glzToken s.lwm)
    else none
  | .none | .lze | .huf | .kc => none

/-- The next token of a decoder unit; `none` where the unit and state read no token. -/
def State.readToken (s : State) : Option TokenRead :=
  match s.unit with
  | .huf => if s.ustate = UState.symbol then some (s.afterHuf (decodeHuf s.ht s.cursor)) else none
  | _ =>
    match s.tokenContext with
    | some x => some (s.afterFetch (decodeToken x s.cursor))
    | none => none

end Sys2Proof.Machine
end

