-- ==== Sys2Proof/Machine/LzssEncoder.lean ====
section
/-! DEFINITION. The LZSS encoder and its binary-tree match finder (42_lzss_encoder.md R170 to R184): the tree
operations and the steps `Prime`, `Encode` and `Flush`. A walk that does not end within `W + 1` nodes answers `none`:
the tree then has a cycle, which no run builds. -/

namespace Sys2Proof.Machine

-- ---------------------------------------------------------------------------------------------------------
-- The tree RAMs (10_state.md R35)
-- ---------------------------------------------------------------------------------------------------------

/-- `lson[p]`. -/
def State.lsonAt (s : State) (p : TreeIdx) : TreeIdx := Memory.read Config.nil s.lson p.toNat

/-- `rson[p]`. -/
def State.rsonAt (s : State) (p : TreeIdx) : TreeIdx := Memory.read Config.nil s.rson p.toNat

/-- `dad[p]`. -/
def State.dadAt (s : State) (p : TreeIdx) : TreeIdx := Memory.read Config.nil s.dad p.toNat

/-- `lson[p] <- v`. -/
def State.setLson (s : State) (p v : TreeIdx) : State := { s with lson := Memory.write Config.nil s.lson p.toNat v }

/-- `rson[p] <- v`. -/
def State.setRson (s : State) (p v : TreeIdx) : State := { s with rson := Memory.write Config.nil s.rson p.toNat v }

/-- `dad[p] <- v`. -/
def State.setDad (s : State) (p v : TreeIdx) : State := { s with dad := Memory.write Config.nil s.dad p.toNat v }

/-- `dad[p] <- v` under the guard `p != NIL` (R175, decision D20). -/
def State.setDadUnlessNil (s : State) (p v : TreeIdx) : State := if p = Config.nil then s else s.setDad p v

/-- The link of `dad[p]` that is `p` becomes `q`: the right one if it is `p`, else the left (R174, R175). -/
def State.relink (s : State) (p q : TreeIdx) : State :=
  if s.rsonAt (s.dadAt p) = p then s.setRson (s.dadAt p) q else s.setLson (s.dadAt p) q

/-- The tree node of ring position `r`. -/
def ringNode (r : Ring) : TreeIdx := r.setWidth 13

/-- The root slot of first byte `c`, `W + 1 + c` (R35). -/
def rootSlot (c : Byte) : TreeIdx := 4097 + c.setWidth 13

-- ---------------------------------------------------------------------------------------------------------
-- InsertNode (R174)
-- ---------------------------------------------------------------------------------------------------------

/-- The inner loop of `InsertNode`, `k` bytes still to compare from byte `i` on: how many bytes of the two keys
agree, and the signed difference of the bytes after them (0 if all agree). -/
def State.compareKeys (s : State) (r p : Ring) : Nat → Nat → Nat × Int
  | 0, i => (i, 0)
  | k + 1, i =>
    if s.winAt (r + BitVec.ofNat 12 i) = s.winAt (p + BitVec.ofNat 12 i) then s.compareKeys r p k (i + 1)
    else (i, (s.winAt (r + BitVec.ofNat 12 i)).toNat - (s.winAt (p + BitVec.ofNat 12 i)).toNat)

/-- The child `InsertNode` descends to: the right one if `cmp >= 0`. -/
def State.childAt (s : State) (cmp : Int) (p : TreeIdx) : TreeIdx := if 0 ≤ cmp then s.rsonAt p else s.lsonAt p

/-- `r` becomes a leaf below `p`. -/
def State.attach (s : State) (cmp : Int) (p r : TreeIdx) : State :=
  (if 0 ≤ cmp then s.setRson p r else s.setLson p r).setDad r p

/-- The last block of `InsertNode`: `r` takes the place of `p`, whose key is the same, and `p` leaves the tree. -/
def State.replaceNode (s : State) (p r : TreeIdx) : State :=
  ((((((s.setDad r (s.dadAt p)).setLson r (s.lsonAt p)).setRson r (s.rsonAt p)).setDadUnlessNil (s.lsonAt p) r).setDadUnlessNil
    (s.rsonAt p) r).relink p r).setDad p Config.nil

/-- A candidate replaces the best so far only if it is strictly longer (R174, R185). -/
def State.noteMatch (s : State) (p : Ring) (i : Nat) : State :=
  if s.matchLen.toNat < i then { s with matchPos := p, matchLen := BitVec.ofNat 5 i } else s

/-- The descent of `InsertNode` from node `p`, where the last comparison gave `cmp`. -/
def State.insertWalk (r : Ring) : Nat → Int → TreeIdx → State → Option State
  | 0, _, _, _ => none
  | k + 1, cmp, p, s =>
    if s.childAt cmp p = Config.nil then some (s.attach cmp p (ringNode r))
    else
      let q := s.childAt cmp p
      let found := s.compareKeys r (q.setWidth 12) (Config.F - 1) 1
      if s.matchLen.toNat < found.1 ∧ Config.F ≤ found.1 then
        some ((s.noteMatch (q.setWidth 12) found.1).replaceNode q (ringNode r))
      else State.insertWalk r k found.2 q (s.noteMatch (q.setWidth 12) found.1)

/-- `InsertNode(r)` (R174). -/
def State.insertNode (s : State) (r : Ring) : Option State :=
  State.insertWalk r (Config.W + 1) 1 (rootSlot (s.winAt r))
    { (s.setRson (ringNode r) Config.nil).setLson (ringNode r) Config.nil with matchLen := 0 }

-- ---------------------------------------------------------------------------------------------------------
-- DeleteNode (R175)
-- ---------------------------------------------------------------------------------------------------------

/-- `repeat q <- rson[q] until rson[q] = NIL`. -/
def State.rightmost (s : State) : Nat → TreeIdx → Option TreeIdx
  | 0, _ => none
  | k + 1, q => if s.rsonAt (s.rsonAt q) = Config.nil then some (s.rsonAt q) else s.rightmost k (s.rsonAt q)

/-- The node `q`, in-order predecessor of `p`, is taken out of `p`'s left subtree and given that subtree. -/
def State.liftPredecessor (s : State) (p q : TreeIdx) : State :=
  let s1 := s.setRson (s.dadAt q) (s.lsonAt q)
  let s2 := s1.setDadUnlessNil (s1.lsonAt q) (s1.dadAt q)
  let s3 := s2.setLson q (s2.lsonAt p)
  s3.setDad (s3.lsonAt p) q

/-- `q` is given `p`'s right subtree. -/
def State.takeRight (s : State) (p q : TreeIdx) : State := (s.setRson q (s.rsonAt p)).setDad (s.rsonAt p) q

/-- The two-child case of `DeleteNode`: the node that takes `p`'s place, and the tree with its subtrees arranged. -/
def State.deleteTwoChildren (s : State) (p : TreeIdx) : Option (TreeIdx × State) :=
  if s.rsonAt (s.lsonAt p) = Config.nil then some (s.lsonAt p, s.takeRight p (s.lsonAt p))
  else
    match s.rightmost (Config.W + 1) (s.lsonAt p) with
    | none => none
    | some q => some (q, (s.liftPredecessor p q).takeRight p q)

/-- The node that takes `p`'s place in its tree. -/
def State.successorOf (s : State) (p : TreeIdx) : Option (TreeIdx × State) :=
  if s.rsonAt p = Config.nil then some (s.lsonAt p, s)
  else if s.lsonAt p = Config.nil then some (s.rsonAt p, s)
  else s.deleteTwoChildren p

/-- `DeleteNode(p)` (R175). -/
def State.deleteNode (s : State) (p : Ring) : Option State :=
  if s.dadAt (ringNode p) = Config.nil then some s
  else
    match s.successorOf (ringNode p) with
    | none => none
    | some (q, s1) =>
      some (((s1.setDadUnlessNil q (s1.dadAt (ringNode p))).relink (ringNode p) q).setDad (ringNode p) Config.nil)

-- ---------------------------------------------------------------------------------------------------------
-- Emission (R178 to R180)
-- ---------------------------------------------------------------------------------------------------------

/-- `code_buf[i]`. -/
def State.codeAt (s : State) (i : Nat) : Byte := Memory.read Config.codeBufUnwritten s.codeBuf i

/-- `code_buf[i] <- b`. -/
def State.setCode (s : State) (i : Nat) (b : Byte) : State :=
  { s with codeBuf := Memory.write Config.codeBufUnwritten s.codeBuf i b }

/-- `EmitLiteral()` (R178). -/
def State.emitLiteral (s : State) : State :=
  { (s.setCode 0 (s.codeAt 0 ||| s.mask)).setCode s.codePtr.toNat (s.winAt s.ringR) with
    matchLen := 1, codePtr := s.codePtr + 1 }

/-- `EmitMatch()` (R179). -/
def State.emitMatch (s : State) : State :=
  let d := encodeLzssField Config.posMode s.ringR s.matchPos
  { (s.setCode s.codePtr.toNat (d.extractLsb' 0 8)).setCode (s.codePtr.toNat + 1)
      (d.extractLsb' 8 4 ++ BitVec.ofNat 4 (s.matchLen.toNat - (Config.threshold + 1))) with
    codePtr := s.codePtr + 2 }

/-- `Emit` of `code_buf[i]` for the first `n` indices, in order. -/
def State.emitCode (s : State) (n : Nat) : State := (List.range n).foldl (fun s' i => s'.emit (s.codeAt i)) s

/-- `FlushGroup()` (R180). -/
def State.flushGroup (s : State) : State :=
  { (s.emitCode s.codePtr.toNat).setCode 0 0 with codePtr := 1, mask := 0x01 }

-- ---------------------------------------------------------------------------------------------------------
-- The steps
-- ---------------------------------------------------------------------------------------------------------

/-- The loop of `Prime` (R176), at most `k` bytes more. -/
def State.loadLookahead : Nat → State → State
  | 0, s => s
  | k + 1, s =>
    match s.nextInput with
    | none => s
    | some (c, s') =>
      State.loadLookahead k
        { s'.setWin (s.ringR + s.lookLen.setWidth 12) c with lookLen := s.lookLen + 1 }

/-- Step `Prime` (R176). -/
def State.stepPrime (s : State) : Option State :=
  let s1 := State.loadLookahead (Config.F - s.lookLen.toNat) s
  if s1.lookLen = 0 then some { s1 with ustate := UState.flush }
  else
    match s1.insertNode s1.ringR with
    | none => none
    | some s2 => some { s2 with ustate := UState.encode }

/-- `s` and `r` advance by one ring position (R181, R182). -/
def State.slide (s : State) : State := { s with ringS := s.ringS + 1, ringR := s.ringR + 1 }

/-- `Drain(m)` (R182). -/
def State.drain : Nat → State → Option State
  | 0, s => some s
  | m + 1, s =>
    match s.deleteNode s.ringS with
    | none => none
    | some s1 =>
      let s2 := { s1.slide with lookLen := s1.lookLen - 1 }
      if s2.lookLen = 0 then State.drain m s2
      else
        match s2.insertNode s2.ringR with
        | none => none
        | some s3 => State.drain m s3

/-- `Advance(k)` (R181), then `Drain` for the positions left when the input is used up. -/
def State.advance : Nat → State → Option State
  | 0, s => some s
  | k + 1, s =>
    match s.nextInput with
    | none => State.drain (k + 1) s
    | some (c, s1) =>
      match s1.deleteNode s1.ringS with
      | none => none
      | some s2 =>
        match (s2.setWin s2.ringS c).slide.insertNode (s2.setWin s2.ringS c).slide.ringR with
        | none => none
        | some s3 => State.advance k s3

/-- The first line of `Encode`: no byte beyond the end of the input is coded (R177). -/
def State.clampMatch (s : State) : State := if s.lookLen < s.matchLen then { s with matchLen := s.lookLen } else s

/-- One token into `code_buf`: a literal if the match is no longer than `THRESHOLD` (R177). -/
def State.emitToken (s : State) : State := if s.matchLen.toNat ≤ Config.threshold then s.emitLiteral else s.emitMatch

/-- The mask moves to the next token's bit; after the eighth token the group is flushed (R177). -/
def State.endToken (s : State) : State :=
  if s.mask <<< 1 = 0 then { s with mask := s.mask <<< 1 }.flushGroup else { s with mask := s.mask <<< 1 }

/-- Step `Encode` (R177). -/
def State.stepEncode (s : State) : Option State :=
  let s1 := s.clampMatch.emitToken.endToken
  match State.advance s1.matchLen.toNat { s1 with lastLen := s1.matchLen } with
  | none => none
  | some s2 => some (if s2.lookLen = 0 then { s2 with ustate := UState.flush } else s2)

/-- Step `Flush` (R183). -/
def State.stepFlush (s : State) : State :=
  (if 1 < s.codePtr.toNat then s.emitCode s.codePtr.toNat else s).stop

end Sys2Proof.Machine
end

