-- ==== Sys2Proof/Machine/Turn.lean ====
section
/-! DEFINITION. The two kinds of turn: a host action (46_commands.md R265, R272, R280; 70_reset_and_hazards.md R320)
and an engine step (R274). -/

namespace Sys2Proof.Machine

/-- A write of word `w` to `CMD` (R272): the command it stands for, or, if it is reserved, `UnsupportedVariant`
unless the engine is Busy. -/
def runCommand (w : CmdWord) (s : State) : Host.Outcome State Fault Refusal :=
  match decodeCommand w with
  | some i => exec i s
  | none => .next (if s.phase = .busy then s else s.refuseCommand)

/-- A host read of `DST[i]` (R62, R265): 0 while reset is asserted (R320). There is no access fault (R296).
DESIGN CHOICE (log entry 7): what a read with `i >= dst_count` returns no rule says, so it is a free byte; safe. -/
def hostReadDst (i : Count) (s : State) : Host.Outcome State Fault Refusal :=
  if s.resetLine then .next { s with readData := 0 }
  else
    match s.dst[i.toNat]? with
    | some b => .next { s with readData := b.setWidth 64 }
    | none => .next { s with readData := (Config.freeByte s.freeCount).setWidth 64, freeCount := s.freeCount + 1 }

/-- The release of reset (R320): the instance is in its reset state; the host's own turns and the free bytes still to
come are not the block's.
DESIGN CHOICE (log entry 15): what R40 leaves unspecified gets its value of `State.reset` back; unsafe. -/
def releaseReset (s : State) : State :=
  if s.resetLine then { State.reset with agenda := s.agenda, freeCount := s.freeCount } else s

/-- A host action (R265); writes are ignored while reset is asserted (R320). -/
def hostTurn (a : HostAction) (s : State) : Host.Outcome State Fault Refusal :=
  match a with
  | .writeReg n v =>
    if s.resetLine then .next s
    else if n = 0 then runCommand (BitVec.ofNat 32 v) s
    else .next (s.writeReg n v)
  | .readReg n => .next { s with readData := s.readReg n }
  | .writeSrc i b => .next (if s.resetLine then s else s.writeSrc i b)
  | .readDst i => hostReadDst i s
  | .assertReset => .next { s with resetLine := true }
  | .releaseReset => .next (releaseReset s)

/-- What a tree operation's answer means for the step. -/
def treeStep (x : Option State) : Host.Outcome State Fault Refusal :=
  match x with
  | some s => .next s
  | none => .fault .treeWalkStuck

/-- The steps of the encoder and the cipher, which read no token (R176, R177, R183, R252, R253). -/
def stepPlainUnit (s : State) : Host.Outcome State Fault Refusal :=
  match s.unit with
  | .lze =>
    if s.ustate = UState.prime then treeStep s.stepPrime
    else if s.ustate = UState.encode then treeStep s.stepEncode
    else if s.ustate = UState.flush then .next s.stepFlush
    else .fault .noStepRule
  | .kc => if s.ustate = UState.byte then .next s.stepCipher else .fault .noStepRule
  | .none | .lzd | .huf | .glz => .fault .noStepRule

/-- A step of the unit that runs (R274): a decoder reads a token and performs it. -/
def stepUnit (s : State) : Host.Outcome State Fault Refusal :=
  match s.readToken with
  | some (.token i s') => exec i s'
  | some (.ended s') => .next s'
  | none => stepPlainUnit s

/-- An engine turn: the engine steps only while Busy (R274) and reset is not asserted (R320). -/
def engineTurn (s : State) : Host.Outcome State Fault Refusal :=
  if s.phase = .busy ∧ s.resetLine = false then stepUnit s else .next s

/-- The next turn: the host's or the engine's as the agenda says, the engine's when it is empty (R265). -/
def takeTurn (s : State) : Host.Outcome State Fault Refusal :=
  match s.agenda with
  | [] => engineTurn s
  | .engine :: rest => engineTurn { s with agenda := rest }
  | .host a :: rest => hostTurn a { s with agenda := rest }

/-- The host's write of a table word to `CMD`, put before every other turn, reset not asserted. -/
def State.stageWord (s : State) (w : Nat) : State :=
  { s with agenda := .host (.writeReg 0 (w % 2 ^ 32)) :: s.agenda, resetLine := false }

end Sys2Proof.Machine
end

