-- ==== Sys2Proof/Machine/Step.lean ====
section
/-! DEFINITION. One step of the machine, and the placing of a word where the next step takes its instruction. -/

namespace Sys2Proof.Machine

/-- One step: the next turn, the host's or the engine's (R3, R265, R274). -/
def step (s : State) : Host.Outcome State Fault Refusal := takeTurn s

/-- The state in which the very next step is the host's write of the word `w` to `CMD` (log entry 6). A table word is
one command word, so `nbits` plays no part. -/
def State.withFetchWord (s : State) (_nbits w : Nat) : State := s.stageWord w

end Sys2Proof.Machine
end

