-- ==== Sys2Proof/Safety.lean ====
section
/-! DEFINITION. The terms the statements use: the invariants of a run, what a step leaves alone, what a token
produces, and a stream standing before a cursor. -/

namespace Sys2Proof.Machine

-- ---------------------------------------------------------------------------------------------------------
-- Invariants
-- ---------------------------------------------------------------------------------------------------------

/-- The group being assembled (R34, R186 (f)): after `k` of its tokens `mask` is bit `k`, and each token has put one
or two bytes after the flag byte. -/
def GroupLegal (s : State) : Prop :=
  ∃ k : Fin 8, s.mask = 1 <<< k.val ∧ 1 + k.val ≤ s.codePtr.toNat ∧ s.codePtr.toNat ≤ 1 + 2 * k.val

/-- Every memory has its canonical form and its size (R33, R34, R60, R63, R64), and the group the encoder is
assembling is legal. -/
def MemoryCanonical (s : State) : Prop :=
  Memory.wf s.winFill 4096 s.win = true ∧ Memory.wf Config.srcUnwritten (2 ^ 64) s.src = true ∧
  Memory.wf HtEntry.empty 511 s.ht = true ∧ Memory.wf Config.codeBufUnwritten 17 s.codeBuf = true ∧
  Memory.wf Config.nil 8192 s.lson = true ∧ Memory.wf Config.nil 8192 s.rson = true ∧
  Memory.wf Config.nil 8192 s.dad = true ∧ (s.phase = .busy → s.unit = .lze → GroupLegal s)

/-- `ustate` is a code of `unit` (R25). -/
def UStateLegal (s : State) : Prop :=
  match s.unit with
  | .none | .huf | .kc => s.ustate = 0
  | .lzd | .lze => s.ustate ≤ 2
  | .glz => s.ustate ≤ 1

/-- The control state (R24, R25): `ustate` is a code of `unit`, a Busy engine has a unit, and `ERR` is `None` exactly
outside `Failed`. -/
def ControlLegal (s : State) : Prop :=
  UStateLegal s ∧ (s.phase = .busy → s.unit ≠ .none) ∧ (s.phase = .failed ↔ s.err ≠ .none)

/-- The readers of the running unit (R26, R30, R31, R36): the cursor is inside `SRC`, and the bit counts and the last
offset keep their ranges. -/
def ReadersLegal (s : State) : Prop :=
  s.phase = .busy →
    s.pos ≤ s.srcLen ∧ (s.unit = .lzd → s.fcnt ≤ 8) ∧ (s.unit = .huf ∨ s.unit = .glz → s.bcnt ≤ 8) ∧
    (s.unit = .glz → s.lastOff ≤ 4096)

/-- The Decompressor shell while a decoder is Busy (R135, R159): bytes are still owed, what was delivered and what is
owed make up `TAKE`, nothing is delivered before the skip is over, and the cap is not passed; the other units run
without length and cap (R269, R270). -/
def ShellLegal (s : State) : Prop :=
  s.phase = .busy →
    if s.unit.isDecoder then
      (s.lenKnown = true → s.takeRem ≠ 0 ∧ s.dst.length + s.takeRem.toNat = s.take.toNat ∧ (s.skipRem ≠ 0 → s.dst = [])) ∧
      (s.capEn = true → s.outCount ≤ s.maxOut)
    else s.lenKnown = false ∧ s.capEn = false

/-- The running encoder's registers (R34, R177, R186 (e)): `s` stays `F` ahead of `r`, the lengths stay within `F`, and
`Encode` has a byte to encode. -/
def EncoderLegal (s : State) : Prop :=
  s.phase = .busy → s.unit = .lze →
    s.ringS = s.ringR + 18 ∧ s.lookLen ≤ 18 ∧ s.matchLen ≤ 18 ∧ (s.ustate = UState.encode → s.lookLen ≠ 0)

-- ---------------------------------------------------------------------------------------------------------
-- The match tree as a tree (42_lzss_encoder.md R174, R175, R185, R186)
-- ---------------------------------------------------------------------------------------------------------

/-- The key of ring position `p`: the `F = 18` bytes of the ring from `p` on (R171). -/
def keyAt (s : State) (p : Ring) : List Byte := (List.range 18).map fun i => s.winAt (p + BitVec.ofNat 12 i)

/-- On how many leading bytes two keys agree. -/
def commonLength : List Byte → List Byte → Nat
  | a :: as, b :: bs => if a = b then commonLength as bs + 1 else 0
  | [], _ => 0
  | _, [] => 0

/-- The lexicographic order of keys (R186 (b)). -/
def keyBefore : List Byte → List Byte → Bool
  | a :: as, b :: bs => decide (a < b) || (decide (a = b) && keyBefore as bs)
  | [], _ => false
  | _, [] => false

/-- A binary tree of ring positions. -/
inductive SearchTree where
  | nil
  | node (l : SearchTree) (p : Ring) (r : SearchTree)
  deriving DecidableEq, Repr

/-- The positions of a tree, from left to right. -/
def SearchTree.positions : SearchTree → List Ring
  | .nil => []
  | .node l p r => l.positions ++ p :: r.positions

/-- Insertion by R174: down to the right unless the new key comes before the node's; a node with the same key gives its
place to the new one. -/
def SearchTree.insert (key : Ring → List Byte) (q : Ring) : SearchTree → SearchTree
  | .nil => .node .nil q .nil
  | .node l p r =>
    if key q = key p then .node l q r
    else if keyBefore (key q) (key p) then .node (l.insert key q) p r
    else .node l p (r.insert key q)

/-- The longest match on the way down, `(length, position)`: the first node met that attains it (R174, R185). -/
def SearchTree.search (key : Ring → List Byte) (q : Ring) : SearchTree → Nat × Ring → Nat × Ring
  | .nil, best => best
  | .node l p r, best =>
    let best' := if best.1 < commonLength (key q) (key p) then (commonLength (key q) (key p), p) else best
    if key q = key p then best'
    else if keyBefore (key q) (key p) then l.search key q best'
    else r.search key q best'

/-- A tree without its rightmost node, and that node; none for the empty tree. -/
def SearchTree.popLast : SearchTree → Option (SearchTree × Ring)
  | .nil => none
  | .node l p r =>
    match r.popLast with
    | none => some (l, p)
    | some (r', q) => some (.node l p r', q)

/-- What takes the place of a node with the subtrees `l` and `r`: the only child, or the in-order predecessor with both
subtrees (R175). -/
def SearchTree.join (l r : SearchTree) : SearchTree :=
  match r, l.popLast with
  | .nil, _ => l
  | r, none => r
  | r, some (l', q) => .node l' q r

/-- Deletion by R175. -/
def SearchTree.delete (q : Ring) : SearchTree → SearchTree
  | .nil => .nil
  | .node l p r => if p = q then l.join r else .node (l.delete q) p (r.delete q)

/-- The links of the tree RAMs from `link` down, `parent` being the node above, are the tree (R35, R186 (a)). -/
def ShowsTree (s : State) : TreeIdx → TreeIdx → SearchTree → Prop
  | link, _, .nil => link = Config.nil
  | link, parent, .node l p r =>
    link = ringNode p ∧ s.dadAt link = parent ∧ ShowsTree s (s.lsonAt link) link l ∧ ShowsTree s (s.rsonAt link) link r

/-- The tree of first byte `c` is `T` (R35: only the right link of a root slot is used). -/
def HoldsTree (s : State) (c : Byte) (T : SearchTree) : Prop := ShowsTree s (s.rsonAt (rootSlot c)) (rootSlot c) T

/-- No cell of the tree RAMs differs but those of the root slot of `c` and of the nodes `ps` (R186 (d)). -/
def OtherCellsKept (c : Byte) (ps : List Ring) (s t : State) : Prop :=
  ∀ x : TreeIdx, (∀ p ∈ ps, x ≠ ringNode p) →
    t.lsonAt x = s.lsonAt x ∧ t.dadAt x = s.dadAt x ∧ (x ≠ rootSlot c → t.rsonAt x = s.rsonAt x)

/-- The match tree of the running encoder (R186 (a) to (c), (g)): under every first byte a binary search tree in strict
order of keys, its positions among the 4078 before `r` and `r` itself; every position with a parent is in one of them;
before the first search all are empty. -/
def MatchTreeLegal (s : State) : Prop :=
  s.phase = .busy → s.unit = .lze →
    ∃ T : Byte → SearchTree,
      (∀ c, HoldsTree s c (T c) ∧ ((T c).positions.map (keyAt s)).Pairwise (fun a b => keyBefore a b = true) ∧
        ∀ p ∈ (T c).positions, s.winAt p = c ∧ (s.ringR - p).toNat ≤ 4078) ∧
      (∀ p : Ring, s.dadAt (ringNode p) ≠ Config.nil → ∃ c, p ∈ (T c).positions) ∧
      (s.ustate = UState.prime → ∀ c, T c = .nil)

-- ---------------------------------------------------------------------------------------------------------
-- One encoder step (42_lzss_encoder.md R177 to R182)
-- ---------------------------------------------------------------------------------------------------------

/-- The length of the match found, cut to the bytes that remain (R177). -/
def clampedLength (s : State) : Nat := min s.matchLen.toNat s.lookLen.toNat

/-- How many input bytes the next token codes: 1 for a literal, which codes a match of 2 or fewer (R177). -/
def codedLength (s : State) : Nat := if clampedLength s ≤ 2 then 1 else clampedLength s

/-- How many of them are replaced by further input (R181). -/
def loadedLength (s : State) : Nat := min (codedLength s) (s.srcLen.toNat - s.pos.toNat)

/-- The bytes of the next token (R178, R179). -/
def tokenBytes (s : State) : List Byte :=
  if clampedLength s ≤ 2 then [s.winAt s.ringR]
  else
    [(s.ringR - s.matchPos).extractLsb' 0 8,
      (s.ringR - s.matchPos).extractLsb' 8 4 ++ BitVec.ofNat 4 (clampedLength s - 3)]

/-- The group with the next token: its flag bit set if it is a literal, its bytes after the others (R178, R179). -/
def groupWithToken (s : State) : List Byte :=
  (if clampedLength s ≤ 2 then s.codeAt 0 ||| s.mask else s.codeAt 0) ::
    (((List.range s.codePtr.toNat).drop 1).map s.codeAt ++ tokenBytes s)

-- ---------------------------------------------------------------------------------------------------------
-- Turns
-- ---------------------------------------------------------------------------------------------------------

/-- The next turn is the engine's, and the agenda after it is `rest`. -/
def EngineTurnNext (s : State) (rest : List Turn) : Prop :=
  (s.agenda = [] ∧ rest = []) ∨ s.agenda = .engine :: rest

/-- The next turn is a host action with reset not asserted, and the agenda after it is `rest`. -/
def HostTurnNext (s : State) (a : HostAction) (rest : List Turn) : Prop :=
  s.agenda = .host a :: rest ∧ s.resetLine = false

/-- Only the engine acts from here on: no turn is queued and reset is not asserted. -/
def EngineAlone (s : State) : Prop := s.agenda = [] ∧ s.resetLine = false

-- ---------------------------------------------------------------------------------------------------------
-- Command start
-- ---------------------------------------------------------------------------------------------------------

/-- What every command start leaves in the shell and the control state (R273), the phase by its last lines. -/
def StartedShell (u : UnitSel) (lenKnown capEn : Bool) (skipRem takeRem : Count) (t : State) : Prop :=
  t.err = .none ∧ t.dst = [] ∧ t.pos = 0 ∧ t.outCount = 0 ∧ t.lenKnown = lenKnown ∧ t.capEn = capEn ∧
  t.skipRem = skipRem ∧ t.takeRem = takeRem ∧ t.unit = u ∧ t.ustate = 0 ∧
  t.phase = if u.isDecoder = true ∧ lenKnown = true ∧ takeRem = 0 then .done else .busy

/-- Every byte of the window reads as `FILL`, and the cursor stands at `CUR_INIT` (R28). -/
def WindowFilled (s t : State) : Prop := (∀ i : Ring, t.winAt i = s.fill) ∧ t.cur = 4078

-- ---------------------------------------------------------------------------------------------------------
-- What a token produces
-- ---------------------------------------------------------------------------------------------------------

/-- `n` bytes can be produced without reaching the limit or the cap (R135). -/
def Unhindered (n : Nat) (s : State) : Prop :=
  (s.lenKnown = true → n < s.skipRem.toNat + s.takeRem.toNat) ∧
  (s.capEn = true → s.outCount.toNat + n ≤ s.maxOut.toNat)

/-- The `m`-th byte from here is the last one wanted, and the cap leaves room for it (R135, R136). -/
def LimitAt (m : Nat) (s : State) : Prop :=
  s.lenKnown = true ∧ s.takeRem ≠ 0 ∧ m = s.skipRem.toNat + s.takeRem.toNat ∧
  (s.capEn = true → s.outCount.toNat + m ≤ s.maxOut.toNat)

/-- The cap leaves room for exactly `m` bytes from here, and the limit is further (R135, R294). -/
def CapAt (m : Nat) (s : State) : Prop :=
  s.capEn = true ∧ s.outCount.toNat + m = s.maxOut.toNat ∧
  (s.lenKnown = true → m < s.skipRem.toNat + s.takeRem.toNat)

/-- `t` is `s` after producing the bytes `byte 0 .. byte (m-1)` (R132, R135): all are counted; the first `skip_rem`
are withheld, the others delivered; a unit with a window has pushed them from `cur` on. -/
def Produced (byte : Nat → Byte) (m : Nat) (s t : State) : Prop :=
  t.outCount = s.outCount + BitVec.ofNat 64 m ∧
  t.dst = s.dst ++ ((List.range m).map byte).drop s.skipRem.toNat ∧
  t.skipRem = s.skipRem - BitVec.ofNat 64 (min m s.skipRem.toNat) ∧
  t.takeRem = (if s.lenKnown then s.takeRem - BitVec.ofNat 64 (m - s.skipRem.toNat) else s.takeRem) ∧
  t.cur = (if s.unit.hasWindow then s.cur + BitVec.ofNat 12 m else s.cur) ∧
  ∀ a : Ring, t.winAt a =
    if s.unit.hasWindow = true ∧ (a - s.cur).toNat < m then
      byte ((a - s.cur).toNat + 4096 * ((m - 1 - (a - s.cur).toNat) / 4096))
    else s.winAt a

/-- Byte `i` of a copy from distance `d`: the last `d` bytes of the window repeated cyclically (R139). -/
def copyByte (s : State) (d : Nat) (i : Nat) : Byte := s.winAt (s.cur - BitVec.ofNat 12 d + BitVec.ofNat 12 (i % d))

/-- The byte a literal-class token of one fixed byte produces (R154, R222, R225, R226). -/
def tokenByte : Instr → Option Byte
  | .lzssLit b => some b
  | .glzFirst b => some b
  | .glzLit b => some b
  | .glzZero => some 0x00
  | _ => none

/-- The distance and length of `GLZ.FAR`, written out from R230: the high part is `g - 3` after a literal-class token
and else `g - 2`, and the three corrections add up; none for a gamma value below the form's least. -/
def farByRule (lwm : Bool) (g : BitVec 32) (lo : Byte) (n : BitVec 32) : Option (Nat × Nat) :=
  if g.toNat < (if lwm then 2 else 3) then none
  else
    let d := (if lwm then g.toNat - 2 else g.toNat - 3) * 256 + lo.toNat
    some (d, n.toNat + (if d ≥ 32000 then 1 else 0) + (if d ≥ 1280 then 1 else 0) + (if d < 128 then 2 else 0))

/-- The distance and length of a back-reference token, written out from the rules: `LZSS.MATCH` (R98), `GLZ.SHORT`
(R226), `GLZ.NEAR` (R227), `GLZ.FAR` (R230), `GLZ.REP` (R229). -/
def copyOperands (s : State) : Instr → Option (Nat × Nat)
  | .lzssMatch plo phi nl => some (plo.toNat + 256 * phi.toNat, nl.toNat + 3)
  | .glzShort d => if d = 0 then none else some (d.toNat, 1)
  | .glzNear d n => if d = 0 then none else some (d.toNat, if n then 3 else 2)
  | .glzFar g lo n => farByRule s.lwm g lo n
  | .glzRep n => some (s.lastOff.toNat, n.toNat)
  | _ => none

/-- `NextToken()` written out (R153). -/
def FlagConsumed (s t : State) : Prop :=
  if s.fcnt = 0 then t.flags = s.flags ∧ t.fcnt = s.fcnt ∧ t.ustate = 0
  else
    t.flags = s.flags >>> 1 ∧ t.fcnt = s.fcnt - 1 ∧
    t.ustate = if s.flags.getLsbD 0 then UState.readLiteral else UState.readMatch

/-- The registers a token's last lines write (R153; the table of R231), the others of them unchanged. -/
def AfterToken (i : Instr) (s t : State) : Prop :=
  match i with
  | .lzssLit _ | .lzssMatch .. => FlagConsumed s t ∧ t.lwm = s.lwm ∧ t.lastOff = s.lastOff
  | .glzFirst _ | .glzLit _ | .glzZero | .glzShort _ =>
    t.lwm = false ∧ t.lastOff = s.lastOff ∧ t.ustate = UState.token ∧ t.flags = s.flags ∧ t.fcnt = s.fcnt
  | .glzNear d _ =>
    t.lwm = true ∧ t.lastOff.toNat = d.toNat ∧ t.ustate = UState.token ∧ t.flags = s.flags ∧ t.fcnt = s.fcnt
  | .glzFar g lo n =>
    t.lwm = true ∧ (∀ d l, farByRule s.lwm g lo n = some (d, l) → t.lastOff.toNat = d) ∧ t.ustate = UState.token ∧
    t.flags = s.flags ∧ t.fcnt = s.fcnt
  | .glzRep _ =>
    t.lwm = true ∧ t.lastOff = s.lastOff ∧ t.ustate = UState.token ∧ t.flags = s.flags ∧ t.fcnt = s.fcnt
  | _ => False

/-- Only the shell, the window and `DST` may differ: what `Produce` may write (R135), and a failure or `Stop`. -/
def ShellFrame (s t : State) : Prop :=
  t = { s with
    err := t.err, phase := t.phase, skipRem := t.skipRem, takeRem := t.takeRem, outCount := t.outCount
    win := t.win, cur := t.cur, dst := t.dst }

/-- Only those and the registers of `AfterToken` may differ. -/
def TokenFrame (s t : State) : Prop :=
  t = { s with
    err := t.err, phase := t.phase, skipRem := t.skipRem, takeRem := t.takeRem, outCount := t.outCount
    win := t.win, cur := t.cur, dst := t.dst
    flags := t.flags, fcnt := t.fcnt, ustate := t.ustate, lwm := t.lwm, lastOff := t.lastOff }

-- ---------------------------------------------------------------------------------------------------------
-- A stream before a cursor
-- ---------------------------------------------------------------------------------------------------------

end Sys2Proof.Machine

namespace Sys2Proof

/-- The next bytes of `SRC` from the cursor on are `bs`. -/
def Cursor.BytesAhead (c : Cursor) (bs : List Byte) : Prop :=
  (∀ j b, bs[j]? = some b → Machine.Memory.read Config.srcUnwritten c.src (c.pos.toNat + j) = b) ∧
  c.pos.toNat + bs.length ≤ c.srcLen.toNat

/-- The pieces `ps` stand before the cursor as R102 lays them out: the bits left in `acc` are the first control bits,
the next bytes of `SRC` the rest. -/
def Cursor.Holds (c : Cursor) (ps : List Piece) : Prop :=
  c.bcnt ≤ 8 ∧
  (∀ j b, j < c.bcnt.toNat → (Piece.bits ps)[j]? = some b → c.acc.getLsbD (7 - j) = b) ∧
  Cursor.BytesAhead c (layoutPieces c.bcnt.toNat ps)

end Sys2Proof

namespace Sys2Proof.Machine

/-- The context in which the Gamma-LZ decoder reads a token, `lwm` being as given (R103): `none` where it does not. -/
def glzContext (lwm : Bool) : Instr → Option TokenContext
  | .glzFirst _ => some .firstLiteral
  | .glzLit _ | .glzShort _ | .glzZero | .glzNear .. | .glzEnd _ => some (.glzToken lwm)
  | .glzFar g _ _ => if (if lwm then 2 else 3) ≤ g.toNat then some (.glzToken lwm) else none
  | .glzRep _ => if lwm then none else some (.glzToken lwm)
  | _ => none

/-- The context in which the LZSS decoder reads a token (R95 to R97). -/
def lzssContext : Instr → Option TokenContext
  | .lzssFlags _ => some .flagByte
  | .lzssLit _ => some .literal
  | .lzssMatch .. => some .matchBytes
  | _ => none

/-- The bits `path` lead from entry `n` to entry `m`: at `Node(c0, c1)` bit 0 selects `c0` and bit 1 selects `c1`
(R101, R202). -/
def Leads (ht : List (Nat × HtEntry)) : BitVec 9 → List Bool → BitVec 9 → Prop
  | n, [], m => m = n
  | n, false :: bits, m =>
    ∃ c0 c1, Memory.read HtEntry.empty ht n.toNat = .node c0 c1 ∧ c0 ≠ Config.htNone ∧ Leads ht c0 bits m
  | n, true :: bits, m =>
    ∃ c0 c1, Memory.read HtEntry.empty ht n.toNat = .node c0 c1 ∧ c1 ≠ Config.htNone ∧ Leads ht c1 bits m

/-- `path` is the code of `sym`, whose leaf is entry `n` (R101). -/
def IsCode (ht : List (Nat × HtEntry)) (path : List Bool) (n : BitVec 9) (sym : Byte) : Prop :=
  Leads ht 0 path n ∧ Memory.read HtEntry.empty ht n.toNat = .leaf sym

/-- After the bits `path`, which lead to a node, bit `b` leads to `HT_NONE` (R101, R292). -/
def IsNoCode (ht : List (Nat × HtEntry)) (path : List Bool) (b : Bool) : Prop :=
  ∃ n c0 c1, Leads ht 0 path n ∧ Memory.read HtEntry.empty ht n.toNat = .node c0 c1 ∧
    (b = false → c0 = Config.htNone) ∧ (b = true → c1 = Config.htNone)

-- ---------------------------------------------------------------------------------------------------------
-- Commands, the cipher, the register file
-- ---------------------------------------------------------------------------------------------------------

/-- The legal words of R272 that start a unit, written out from its pseudocode. -/
def LegalStart (w : CmdWord) : Prop :=
  CmdWord.reserved w = 0 ∧
  (((CmdWord.op w = 1 ∨ CmdWord.op w = 2) ∧ (CmdWord.kind w = 0 ∨ CmdWord.kind w = 1 ∨ CmdWord.kind w = 2) ∧
      ¬ (CmdWord.op w = 1 ∧ CmdWord.kind w = 1 ∧ CmdWord.lenKnown w = false)) ∨
    (CmdWord.op w = 3 ∧ CmdWord.kind w = 0) ∨
    (CmdWord.op w = 4 ∧ (CmdWord.kind w = 0 ∨ CmdWord.kind w = 1)))

/-- Byte `i` of `SRC`. -/
def srcByte (s : State) (i : Nat) : Byte := Memory.read Config.srcUnwritten s.src i

/-- The `LCG_XOR` key after `k` advances (R252). -/
def lcgKeyAt (seed : BitVec 32) : Nat → BitVec 32
  | 0 => seed
  | k + 1 => lcgKeyAt seed k * 7 + 3

/-- The values of `ERR` (R24, R290). -/
def errValue : ErrCode → Nat
  | .none => 0
  | .truncatedInput => 1
  | .invalidControlCode => 2
  | .backReferenceOutOfRange => 3
  | .outputOverflow => 4
  | .unsupportedVariant => 5

/-- The number of bits a writable register holds (R22). -/
def regWidth : Nat → Nat
  | 3 | 4 | 5 | 6 => 64
  | 7 => 8
  | 8 => 32
  | 12 => 9
  | _ => 0

/-- Two states agree on everything a command's result is a function of (R39): the operand registers, `SRC`, `HT`. -/
def SameOperands (s t : State) : Prop :=
  s.srcLen = t.srcLen ∧ s.take = t.take ∧ s.skip = t.skip ∧ s.maxOut = t.maxOut ∧ s.fill = t.fill ∧
  s.keySeed = t.keySeed ∧ s.src = t.src ∧ s.ht = t.ht

/-- Two states show the host the same result (R281). -/
def SameResult (s t : State) : Prop :=
  s.phase = t.phase ∧ s.err = t.err ∧ s.dst = t.dst ∧ s.pos = t.pos ∧ s.outCount = t.outCount ∧ s.status = t.status

end Sys2Proof.Machine
end

