-- ==== Sys2Proof/Certificates/Slice0/Obligations.lean ====
section
/-! DEFINITION. The statements for the provers. Each docstring names the rules of spec/ it formalises. -/

open Sys2Proof Sys2Proof.Machine

-- ---------------------------------------------------------------------------------------------------------
-- Commands (46_commands.md)
-- ---------------------------------------------------------------------------------------------------------

/-- R266: a `CMD` write with `OP = 0` and bits 31:10 zero has no effect in any phase; and so the instruction. -/
def Obligations.NopHasNoEffect : Prop :=
  (∀ (w : CmdWord) (s : State), CmdWord.op w = 0 → CmdWord.reserved w = 0 → runCommand w s = .next s) ∧
  ∀ (k : BitVec 4) (lk ce : Bool) (s : State), exec (.nop k lk ce) s = .next s

/-- R271: `ABORT` is accepted in every phase whatever its other bits, and keeps everything but the control state, the
shell and `DST`. -/
def Obligations.AbortReturnsToIdle : Prop :=
  (∀ (w : CmdWord) (s : State), CmdWord.op w = 15 → ∃ rest, runCommand w s = exec (.abort rest) s) ∧
  ∀ (rest : BitVec 28) (s : State), ∃ t, exec (.abort rest) s = .next t ∧
    t.phase = .idle ∧ t.unit = .none ∧ t.ustate = 0 ∧ t.err = .none ∧ t.dst = [] ∧ t.dstCount = 0 ∧ t.pos = 0 ∧
    t.outCount = 0 ∧ t.skipRem = 0 ∧ t.takeRem = 0 ∧ t.lenKnown = false ∧ t.capEn = false ∧
    t = { s with
      phase := t.phase, unit := t.unit, ustate := t.ustate, err := t.err, dst := t.dst, pos := t.pos
      outCount := t.outCount, skipRem := t.skipRem, takeRem := t.takeRem, lenKnown := t.lenKnown, capEn := t.capEn }

/-- R280: while Busy every command but `ABORT`, and every other word, is ignored. -/
def Obligations.CommandsIgnoredWhileBusy : Prop :=
  (∀ (i : Instr) (s : State), i.isCommand = true → (∀ rest, i ≠ .abort rest) → s.phase = .busy → exec i s = .next s) ∧
  ∀ (w : CmdWord) (s : State), CmdWord.op w ≠ 15 → s.phase = .busy → runCommand w s = .next s

/-- R28, R151, R201, R221, R267, R268, R273: what a start of the LZSS, the Huffman and the Gamma-LZ decoder writes, and
that it writes nothing else; the Huffman start leaves the window and the table alone. -/
def Obligations.DecodersStart : Prop :=
  ∀ (i : Instr) (lk ce : Bool) (s : State), s.phase ≠ .busy →
    (i = .decompressLzss lk ce ∨ i = .decompressSkipLzss lk ce →
      ∃ t, exec i s = .next t ∧
        (i = .decompressLzss lk ce → StartedShell .lzd lk ce 0 (if lk then s.take else 0) t) ∧
        (i = .decompressSkipLzss lk ce → StartedShell .lzd true ce s.skip s.take t) ∧
        WindowFilled s t ∧ t.flags = 0 ∧ t.fcnt = 0 ∧
        t = { s with
          err := t.err, dst := t.dst, pos := t.pos, outCount := t.outCount, lenKnown := t.lenKnown, capEn := t.capEn
          skipRem := t.skipRem, takeRem := t.takeRem, unit := t.unit, ustate := t.ustate, phase := t.phase
          winFill := t.winFill, win := t.win, cur := t.cur, flags := t.flags, fcnt := t.fcnt }) ∧
    (i = .decompressHuffman ce ∨ i = .decompressSkipHuffman lk ce →
      ∃ t, exec i s = .next t ∧
        (i = .decompressHuffman ce → StartedShell .huf true ce 0 s.take t) ∧
        (i = .decompressSkipHuffman lk ce → StartedShell .huf true ce s.skip s.take t) ∧
        t.acc = 0 ∧ t.bcnt = 0 ∧ t.node = 0 ∧
        t = { s with
          err := t.err, dst := t.dst, pos := t.pos, outCount := t.outCount, lenKnown := t.lenKnown, capEn := t.capEn
          skipRem := t.skipRem, takeRem := t.takeRem, unit := t.unit, ustate := t.ustate, phase := t.phase
          acc := t.acc, bcnt := t.bcnt, node := t.node }) ∧
    (i = .decompressGammaLz lk ce ∨ i = .decompressSkipGammaLz lk ce →
      ∃ t, exec i s = .next t ∧
        (i = .decompressGammaLz lk ce → StartedShell .glz lk ce 0 (if lk then s.take else 0) t) ∧
        (i = .decompressSkipGammaLz lk ce → StartedShell .glz true ce s.skip s.take t) ∧
        WindowFilled s t ∧ t.acc = 0 ∧ t.bcnt = 0 ∧ t.lwm = false ∧ t.lastOff = 0 ∧
        t = { s with
          err := t.err, dst := t.dst, pos := t.pos, outCount := t.outCount, lenKnown := t.lenKnown, capEn := t.capEn
          skipRem := t.skipRem, takeRem := t.takeRem, unit := t.unit, ustate := t.ustate, phase := t.phase
          winFill := t.winFill, win := t.win, cur := t.cur, acc := t.acc, bcnt := t.bcnt
          lwm := t.lwm, lastOff := t.lastOff })

/-- R172, R173, R269, R273: what a start of the encoder writes; every root and every parent of the tree is `NIL`, every
other cell of it keeps what it held. -/
def Obligations.CompressStarts : Prop :=
  ∀ (lk ce : Bool) (s : State), s.phase ≠ .busy →
    ∃ t, exec (.compressLzss lk ce) s = .next t ∧ StartedShell .lze false false 0 0 t ∧ WindowFilled s t ∧
      t.ringR = 4078 ∧ t.ringS = 0 ∧ t.lookLen = 0 ∧ t.matchPos = 0 ∧ t.matchLen = 0 ∧ t.lastLen = 0 ∧
      t.codePtr = 1 ∧ t.mask = 0x01 ∧ (∀ j, t.codeAt j = if j = 0 then 0 else s.codeAt j) ∧
      (∀ p : TreeIdx, t.rsonAt p = if 4097 ≤ p.toNat ∧ p.toNat ≤ 4352 then Config.nil else s.rsonAt p) ∧
      (∀ p : TreeIdx, t.dadAt p = if p.toNat < 4096 then Config.nil else s.dadAt p) ∧
      t = { s with
        err := t.err, dst := t.dst, pos := t.pos, outCount := t.outCount, lenKnown := t.lenKnown, capEn := t.capEn
        skipRem := t.skipRem, takeRem := t.takeRem, unit := t.unit, ustate := t.ustate, phase := t.phase
        winFill := t.winFill, win := t.win, cur := t.cur
        ringR := t.ringR, ringS := t.ringS, lookLen := t.lookLen, matchPos := t.matchPos, matchLen := t.matchLen
        lastLen := t.lastLen, codeBuf := t.codeBuf, codePtr := t.codePtr, mask := t.mask
        rson := t.rson, dad := t.dad }

/-- R251, R270, R273: what a start of a cipher writes, and that it writes nothing else. The clause on `cipherKind`, and
that the start writes this register, are the model's (log entry 5): R251, R252 and R253 name no register that holds the
kind. -/
def Obligations.CipherStarts : Prop :=
  ∀ (i : Instr) (lk ce : Bool) (s : State), s.phase ≠ .busy →
    i = .applyCipherLcgXor lk ce ∨ i = .applyCipherPosXor lk ce →
    ∃ t, exec i s = .next t ∧ StartedShell .kc false false 0 0 t ∧ t.key = s.keySeed ∧
      t.cipherKind = (if i = .applyCipherLcgXor lk ce then .lcgXor else .posXor) ∧
      t = { s with
        err := t.err, dst := t.dst, pos := t.pos, outCount := t.outCount, lenKnown := t.lenKnown, capEn := t.capEn
        skipRem := t.skipRem, takeRem := t.takeRem, unit := t.unit, ustate := t.ustate, phase := t.phase
        key := t.key, cipherKind := t.cipherKind }

/-- R94, R272: the words that decode to a command are `ABORT`, `NOP` with no reserved bit, and the legal starts, and no
other. A word that is none of them, written to `CMD` outside Busy, fails with `UnsupportedVariant` and starts no unit.
That the registers R272 does not name keep their values, `skip_rem`, `take_rem`, `len_known` and `cap_en` among them,
is the model's reading (log entry 14). -/
def Obligations.OnlyLegalWordsStartACommand : Prop :=
  (∀ w : CmdWord,
    (decodeCommand w).isSome = true ↔
      (CmdWord.op w = 15 ∨ (CmdWord.op w = 0 ∧ CmdWord.reserved w = 0) ∨ LegalStart w)) ∧
  ∀ (v : Nat) (rest : List Turn) (s : State), HostTurnNext s (.writeReg 0 v) rest → s.phase ≠ .busy →
    CmdWord.op (BitVec.ofNat 32 v) ≠ 15 →
    ¬ (CmdWord.op (BitVec.ofNat 32 v) = 0 ∧ CmdWord.reserved (BitVec.ofNat 32 v) = 0) →
    ¬ LegalStart (BitVec.ofNat 32 v) →
    ∃ t, step s = .next t ∧ t.phase = .failed ∧ t.err = .unsupportedVariant ∧ t.unit = .none ∧ t.ustate = 0 ∧
      t.dst = [] ∧ t.pos = 0 ∧ t.outCount = 0 ∧
      t = { s with
        agenda := rest, phase := t.phase, err := t.err, unit := t.unit, ustate := t.ustate, dst := t.dst
        pos := t.pos, outCount := t.outCount }

/-- R91 to R93, R110: every command has a word, its word decodes to it, and a word that decodes to a command is that
command's word: no bit of a word is dropped. -/
def Obligations.CommandWordRoundTrip : Prop :=
  (∀ i : Instr, i.isCommand = true → ∃ w, encodeCommand i = some w ∧ decodeCommand w = some i) ∧
  ∀ (w : CmdWord) (i : Instr), decodeCommand w = some i → encodeCommand i = some w

-- ---------------------------------------------------------------------------------------------------------
-- The step
-- ---------------------------------------------------------------------------------------------------------

/-- R272, R274: a step runs the decoded instruction. A word the host writes to `CMD` that decodes to a command is
executed as that command; a token the running decoder reads from its stream is executed in the state its reading
leaves, with the cursor and the bit reader moved past it. -/
def Obligations.StepRunsTheDecodedInstruction : Prop :=
  (∀ (v : Nat) (i : Instr) (rest : List Turn) (s : State), HostTurnNext s (.writeReg 0 v) rest →
    decodeCommand (BitVec.ofNat 32 v) = some i → step s = exec i { s with agenda := rest }) ∧
  (∀ (x : TokenContext) (i : Instr) (c : Cursor) (rest : List Turn) (s : State), EngineTurnNext s rest →
    s.resetLine = false → s.phase = .busy → s.tokenContext = some x → decodeToken x s.cursor = .got i c →
    step s = exec i { s with agenda := rest, pos := c.pos, acc := c.acc, bcnt := c.bcnt }) ∧
  ∀ (path : List Bool) (c : Cursor) (rest : List Turn) (s : State), EngineTurnNext s rest →
    s.resetLine = false → s.phase = .busy → s.unit = .huf → s.ustate = UState.symbol →
    decodeHuf s.ht s.cursor = .code path c →
    step s = exec (.hufSym path) { s with agenda := rest, pos := c.pos, acc := c.acc, bcnt := c.bcnt }

/-- R131, R136, R223, R292, R300: where no whole token can be read the command ends, and nothing is produced. At the end
of the input it fails with `TruncatedInput` if the length is known and is `Done` if it is not; a gamma code too long for
its accumulator fails with `BackReferenceOutOfRange`; a Huffman bit that leads to `HT_NONE` fails with
`InvalidControlCode`. The bytes and bits read stay read and nothing else changes. What `node` then holds, the entry that
wanted a bit or `HT_NONE`, is the model's reading of R202 against the range of R32 (log entry 10). -/
def Obligations.UnreadableTokensEndTheCommand : Prop :=
  (∀ (x : TokenContext) (c : Cursor) (rest : List Turn) (s : State), EngineTurnNext s rest →
    s.resetLine = false → s.phase = .busy → s.tokenContext = some x → decodeToken x s.cursor = .endOfInput c →
    ∃ t, step s = .next t ∧
      (s.lenKnown = true → t.phase = .failed ∧ t.err = .truncatedInput) ∧
      (s.lenKnown = false → t.phase = .done ∧ t.err = s.err) ∧
      t = { s with
        agenda := rest, pos := c.pos, acc := c.acc, bcnt := c.bcnt, phase := t.phase, err := t.err }) ∧
  (∀ (n : BitVec 9) (c : Cursor) (rest : List Turn) (s : State), EngineTurnNext s rest →
    s.resetLine = false → s.phase = .busy → s.unit = .huf → s.ustate = UState.symbol →
    decodeHuf s.ht s.cursor = .endOfInput n c →
    ∃ t, step s = .next t ∧
      (s.lenKnown = true → t.phase = .failed ∧ t.err = .truncatedInput) ∧
      (s.lenKnown = false → t.phase = .done ∧ t.err = s.err) ∧
      t = { s with
        agenda := rest, pos := c.pos, acc := c.acc, bcnt := c.bcnt, node := n, phase := t.phase, err := t.err }) ∧
  (∀ (x : TokenContext) (c : Cursor) (rest : List Turn) (s : State), EngineTurnNext s rest →
    s.resetLine = false → s.phase = .busy → s.tokenContext = some x → decodeToken x s.cursor = .malformed c →
    step s = .next { s with
      agenda := rest, pos := c.pos, acc := c.acc, bcnt := c.bcnt
      phase := .failed, err := .backReferenceOutOfRange }) ∧
  ∀ (c : Cursor) (rest : List Turn) (s : State), EngineTurnNext s rest →
    s.resetLine = false → s.phase = .busy → s.unit = .huf → s.ustate = UState.symbol →
    decodeHuf s.ht s.cursor = .noCode c →
    step s = .next { s with
      agenda := rest, pos := c.pos, acc := c.acc, bcnt := c.bcnt, node := Config.htNone
      phase := .failed, err := .invalidControlCode }

/-- R274, R320: in any phase but Busy, and while reset is asserted, the engine does nothing. -/
def Obligations.EngineStepsOnlyWhileBusy : Prop :=
  ∀ (rest : List Turn) (s : State), EngineTurnNext s rest → s.phase ≠ .busy ∨ s.resetLine = true →
    step s = .next { s with agenda := rest }

-- ---------------------------------------------------------------------------------------------------------
-- Tokens (41_lzss_decoder.md, 43_huffman_decoder.md, 44_gamma_lz_decoder.md)
-- ---------------------------------------------------------------------------------------------------------

/-- R152, R153: a flag byte is latched and its lowest bit selects the next token. -/
def Obligations.FlagByteSelectsTheNextToken : Prop :=
  ∀ (f : Byte) (s : State), ∃ t, exec (.lzssFlags f) s = .next t ∧
    t.flags = f >>> 1 ∧ t.fcnt = 7 ∧
    (f.getLsbD 0 = true → t.ustate = UState.readLiteral) ∧ (f.getLsbD 0 = false → t.ustate = UState.readMatch) ∧
    t = { s with flags := t.flags, fcnt := t.fcnt, ustate := t.ustate }

/-- R154, R222, R225, R226, with R135: a literal, the first byte and the zero escape produce their one byte. Not at the
limit the token runs to its end; at the limit the command is `Done` and the token's last lines are not executed. -/
def Obligations.ByteTokensProduceTheirByte : Prop :=
  ∀ (i : Instr) (b : Byte) (s : State), tokenByte i = some b →
    (Unhindered 1 s → ∃ t, exec i s = .next t ∧ Produced (fun _ => b) 1 s t ∧ AfterToken i s t ∧
      t.phase = s.phase ∧ t.err = s.err ∧ TokenFrame s t) ∧
    (LimitAt 1 s → ∃ t, exec i s = .next t ∧ Produced (fun _ => b) 1 s t ∧
      t.phase = .done ∧ t.err = s.err ∧ ShellFrame s t)

/-- R101, R202, with R135: a Huffman code, followed from entry 0 with bit 0 selecting `c0` and bit 1 selecting `c1`,
delivers its leaf's byte; `HUF` has no window, so none is written. Bits that lead to `HT_NONE` fail with
`InvalidControlCode`, `node` then holding `HT_NONE` by the model's reading (log entry 10). -/
def Obligations.HuffmanCodeDeliversItsLeaf : Prop :=
  (∀ (path : List Bool) (n : BitVec 9) (sym : Byte) (s : State), s.unit = .huf → IsCode s.ht path n sym →
    (Unhindered 1 s → ∃ t, exec (.hufSym path) s = .next t ∧ Produced (fun _ => sym) 1 s t ∧
      t.node = n ∧ t.ustate = UState.symbol ∧ t.phase = s.phase ∧ t.err = s.err ∧
      t = { s with
        skipRem := t.skipRem, takeRem := t.takeRem, outCount := t.outCount, dst := t.dst
        node := t.node, ustate := t.ustate }) ∧
    (LimitAt 1 s → ∃ t, exec (.hufSym path) s = .next t ∧ Produced (fun _ => sym) 1 s t ∧
      t.node = n ∧ t.phase = .done ∧ t.err = s.err ∧
      t = { s with
        skipRem := t.skipRem, takeRem := t.takeRem, outCount := t.outCount, dst := t.dst
        node := t.node, phase := t.phase })) ∧
  ∀ (path : List Bool) (b : Bool) (s : State), IsNoCode s.ht path b →
    exec (.hufSym (path ++ [b])) s = .next { s with
      node := Config.htNone, phase := .failed, err := .invalidControlCode }

/-- R133, R139, R155, R226, R227, R229, R230: a back-reference within range, cut short by neither limit nor cap,
produces the last `d` bytes of the window repeated cyclically, overlap included. Distance and length are those the rules
give (`copyOperands`, `farByRule`, written out from them). -/
def Obligations.CopyTokensRepeatTheWindow : Prop :=
  ∀ (i : Instr) (d n : Nat) (s : State), copyOperands s i = some (d, n) → s.unit.hasWindow = true →
    1 ≤ d → d ≤ 4096 → Unhindered n s →
    ∃ t, exec i s = .next t ∧ Produced (copyByte s d) n s t ∧ AfterToken i s t ∧
      t.phase = s.phase ∧ t.err = s.err ∧ TokenFrame s t

/-- R133, R136: a copy that reaches the limit is `Done` with exactly the bytes wanted; the rest of the token is
abandoned. -/
def Obligations.CopyTokensStopAtTheLimit : Prop :=
  ∀ (i : Instr) (d n m : Nat) (s : State), copyOperands s i = some (d, n) → s.unit.hasWindow = true →
    1 ≤ d → d ≤ 4096 → m ≤ n → LimitAt m s →
    ∃ t, exec i s = .next t ∧ Produced (copyByte s d) m s t ∧ t.phase = .done ∧ t.err = s.err ∧ ShellFrame s t

/-- R135, R294: a token about to produce a byte when the cap is reached fails with `OutputOverflow`. A token of one byte
then changes nothing else (the Huffman walk has moved `node` to its leaf); of a copy the bytes already produced stay
produced. -/
def Obligations.TokensOverflowAtTheCap : Prop :=
  (∀ (i : Instr) (b : Byte) (s : State), tokenByte i = some b → s.capEn = true → s.outCount = s.maxOut →
    exec i s = .next { s with phase := .failed, err := .outputOverflow }) ∧
  (∀ (path : List Bool) (n : BitVec 9) (sym : Byte) (s : State), IsCode s.ht path n sym →
    s.capEn = true → s.outCount = s.maxOut →
    exec (.hufSym path) s = .next { s with node := n, phase := .failed, err := .outputOverflow }) ∧
  ∀ (i : Instr) (d n m : Nat) (s : State), copyOperands s i = some (d, n) → s.unit.hasWindow = true →
    1 ≤ d → d ≤ 4096 → m < n → CapAt m s →
    ∃ t, exec i s = .next t ∧ Produced (copyByte s d) m s t ∧ t.phase = .failed ∧ t.err = .outputOverflow ∧
      ShellFrame s t

/-- R133, R293: distance 0, or a distance beyond the window, fails with `BackReferenceOutOfRange` before any byte is
produced. -/
def Obligations.CopyOutOfRangeFails : Prop :=
  ∀ (i : Instr) (d n : Nat) (s : State), copyOperands s i = some (d, n) → d = 0 ∨ 4096 < d →
    exec i s = .next { s with phase := .failed, err := .backReferenceOutOfRange }

/-- R227: the end marker is the normal end if the length is unknown and `TruncatedInput` if it is known; its length bit
is ignored and nothing else changes. -/
def Obligations.EndMarkerEndsTheCommand : Prop :=
  ∀ (x : Bool) (s : State),
    (s.lenKnown = true → exec (.glzEnd x) s = .next { s with phase := .failed, err := .truncatedInput }) ∧
    (s.lenKnown = false → exec (.glzEnd x) s = .next { s with phase := .done })

/-- R101, R230: the two operand values no bits of a stream give are refused: a `HUF.SYM` path that ends inside the table
and a `GLZ.FAR` gamma value below its form's least, 3 after a literal-class token and else 2 (log entry 8: the model's
choice). -/
def Obligations.MalformedTokensAreRefused : Prop :=
  (∀ (path : List Bool) (n c0 c1 : BitVec 9) (s : State), Leads s.ht 0 path n → s.htAt n = .node c0 c1 →
    exec (.hufSym path) s = .refused .malformedToken) ∧
  ∀ (g n : BitVec 32) (lo : Byte) (s : State), g.toNat < (if s.lwm then 2 else 3) →
    exec (.glzFar g lo n) s = .refused .malformedToken

-- ---------------------------------------------------------------------------------------------------------
-- Encodings of tokens (30_encoding.md)
-- ---------------------------------------------------------------------------------------------------------

/-- Words and bytes written out from the spec's encodings, and what they stand for: the command words of
95_test_vectors.md section 7, a match of R97, and the gamma codes of R104. -/
def Obligations.WrittenOutWordsDecode : Prop :=
  decodeCommand 0x00000301 = some (.decompressLzss true true) ∧
  decodeCommand 0x00000111 = some (.decompressHuffman false) ∧
  decodeCommand 0x00000011 = none ∧
  decodeCommand 0x00000022 = some (.decompressSkipGammaLz false false) ∧
  decodeCommand 0x00000014 = some (.applyCipherPosXor false false) ∧
  decodeCommand 0x00000400 = none ∧
  decodeToken .matchBytes ⟨[(0, 0xFF), (1, 0x0F)], 2, 0, 0, 0⟩ =
    .got (.lzssMatch 0xFF 0 15) ⟨[(0, 0xFF), (1, 0x0F)], 2, 2, 0, 0⟩ ∧
  gammaCode 2 = [false, false] ∧ gammaCode 3 = [true, false] ∧ gammaCode 7 = [true, true, true, false] ∧
  gammaCode 20 = [false, true, true, true, false, true, false, false]

/-- R102 to R105: a well-formed Gamma-LZ token standing before the cursor, laid out by lazy refill from any number of
bits left in the accumulator, decodes to itself, and what followed it then stands before the cursor. -/
def Obligations.GammaLzTokenRoundTrip : Prop :=
  ∀ (i : Instr) (lwm : Bool) (x : TokenContext) (rest : List Piece) (c : Cursor),
    i.wellFormed = true → glzContext lwm i = some x → c.Holds (encodeToken i ++ rest) →
    ∃ c', decodeToken x c = .got i c' ∧ c'.Holds rest ∧ c'.src = c.src ∧ c'.srcLen = c.srcLen

/-- R95 to R98: an LZSS token's bytes before the cursor decode to it, exactly its bytes are consumed, and in the flag
byte of a group of up to 8 tokens bit `k` is the flag of token `k`, bits beyond the last token being 0. -/
def Obligations.LzssTokenRoundTrip : Prop :=
  (∀ (i : Instr) (x : TokenContext) (c : Cursor), lzssContext i = some x →
    c.BytesAhead (Piece.bytes (encodeToken i)) →
    decodeToken x c =
      .got i { c with pos := c.pos + BitVec.ofNat 64 (Piece.bytes (encodeToken i)).length }) ∧
  ∀ (ts : List Instr) (k : Nat), ts.length ≤ 8 →
    (groupFlags ts).getLsbD k =
      match ts[k]? with
      | some t => (Piece.bits (encodeToken t)).headD false
      | none => false

/-- R101, R202: a code of the loaded table standing before the cursor is the code read, and bits that lead to `HT_NONE`
are read up to the bit that leads there, whatever follows them. -/
def Obligations.HuffmanCodeRoundTrip : Prop :=
  (∀ (ht : List (Nat × HtEntry)) (path : List Bool) (n : BitVec 9) (sym : Byte) (rest : List Piece) (c : Cursor),
    IsCode ht path n sym → c.Holds (path.map .bit ++ rest) →
    ∃ c', decodeHuf ht c = .code path c' ∧ c'.Holds rest ∧ c'.src = c.src ∧ c'.srcLen = c.srcLen) ∧
  ∀ (ht : List (Nat × HtEntry)) (path : List Bool) (b : Bool) (rest : List Piece) (c : Cursor),
    IsNoCode ht path b → c.Holds ((path ++ [b]).map .bit ++ rest) →
    ∃ c', decodeHuf ht c = .noCode c' ∧ c'.Holds rest ∧ c'.src = c.src ∧ c'.srcLen = c.srcLen

/-- R98, R178, R179: what the encoder puts into `code_buf` is the token it codes. `EmitMatch` puts the two bytes of the
match token of distance `(r - match_pos) mod W` and length `match_len` at `code_ptr` and leaves the flag byte alone;
`EmitLiteral` sets the token's flag bit and puts `TEXT[r]` there; nothing else changes. And every distance and length is
what the fields of such a token give back. -/
def Obligations.MatchBytesInvertTheField : Prop :=
  (∀ s : State, 1 ≤ s.codePtr.toNat → s.codePtr.toNat ≤ 15 → 3 ≤ s.matchLen.toNat → s.matchLen.toNat ≤ 18 →
    ∃ plo phi nl,
      [s.emitMatch.codeAt s.codePtr.toNat, s.emitMatch.codeAt (s.codePtr.toNat + 1)] =
        Piece.bytes (encodeToken (.lzssMatch plo phi nl)) ∧
      plo.toNat + 256 * phi.toNat = (s.ringR - s.matchPos).toNat ∧ nl.toNat + 3 = s.matchLen.toNat ∧
      s.emitMatch.codePtr.toNat = s.codePtr.toNat + 2 ∧
      (∀ j, j ≠ s.codePtr.toNat → j ≠ s.codePtr.toNat + 1 → s.emitMatch.codeAt j = s.codeAt j) ∧
      s.emitMatch = { s with codeBuf := s.emitMatch.codeBuf, codePtr := s.emitMatch.codePtr }) ∧
  (∀ s : State, 1 ≤ s.codePtr.toNat → s.codePtr.toNat ≤ 16 →
    s.emitLiteral.matchLen = 1 ∧ s.emitLiteral.codeAt 0 = s.codeAt 0 ||| s.mask ∧
    s.emitLiteral.codeAt s.codePtr.toNat = s.winAt s.ringR ∧ s.emitLiteral.codePtr.toNat = s.codePtr.toNat + 1 ∧
    (∀ j, j ≠ 0 → j ≠ s.codePtr.toNat → s.emitLiteral.codeAt j = s.codeAt j) ∧
    s.emitLiteral = { s with
      matchLen := s.emitLiteral.matchLen, codeBuf := s.emitLiteral.codeBuf, codePtr := s.emitLiteral.codePtr }) ∧
  ∀ (d : Ring) (n : Nat), 3 ≤ n → n ≤ 18 →
    ∃ plo phi nl, Piece.bytes (encodeToken (.lzssMatch plo phi nl)) =
        [d.extractLsb' 0 8, d.extractLsb' 8 4 ++ BitVec.ofNat 4 (n - 3)] ∧
      lzssField plo phi = d ∧ lzssLength nl = n

/-- R100: bit 31 of an image says leaf; a leaf's byte is in bits 7:0, of a node `c0` in bits 8:0 and `c1` in bits 24:16.
The image of an entry stands for the entry, and an image written is read back with the bits its kind does not use
cleared. -/
def Obligations.TableImageRoundTrip : Prop :=
  (∀ v : BitVec 32,
    (v.toNat < 2 ^ 31 → ∃ c0 c1, htOfImage v = .node c0 c1 ∧ c0.toNat = v.toNat % 512 ∧
      c1.toNat = v.toNat / 65536 % 512) ∧
    (2 ^ 31 ≤ v.toNat → ∃ sym, htOfImage v = .leaf sym ∧ sym.toNat = v.toNat % 256)) ∧
  (∀ c0 c1 : BitVec 9, (htImage (.node c0 c1)).toNat = c0.toNat + 65536 * c1.toNat) ∧
  (∀ sym : Byte, (htImage (.leaf sym)).toNat = 2 ^ 31 + sym.toNat) ∧
  (∀ e : HtEntry, htOfImage (htImage e) = e) ∧
  ∀ v : BitVec 32, htImage (htOfImage v) = if v.getLsbD 31 then v &&& 0x800000FF else v &&& 0x01FF01FF

-- ---------------------------------------------------------------------------------------------------------
-- The register file, reset (10_state.md, 70_reset_and_hazards.md)
-- ---------------------------------------------------------------------------------------------------------

/-- R23: the fields of `STATUS`, their codes, and its reset value. -/
def Obligations.StatusFieldsAreTheRegisters : Prop :=
  (∀ s : State,
    s.status.extractLsb' 0 2 = s.phase.code ∧ s.status.extractLsb' 2 3 = s.unit.code ∧
    s.status.extractLsb' 5 3 = s.ustate ∧ s.status.getLsbD 8 = s.lenKnown ∧ s.status.getLsbD 9 = s.capEn ∧
    (s.unit = .glz → s.status.getLsbD 10 = s.lwm) ∧ (s.unit ≠ .glz → s.status.getLsbD 10 = false) ∧
    s.status.extractLsb' 11 21 = 0) ∧
  (Phase.code .idle = 0 ∧ Phase.code .busy = 1 ∧ Phase.code .done = 2 ∧ Phase.code .failed = 3) ∧
  (UnitSel.code .none = 0 ∧ UnitSel.code .lzd = 1 ∧ UnitSel.code .lze = 2 ∧ UnitSel.code .huf = 3 ∧
    UnitSel.code .glz = 4 ∧ UnitSel.code .kc = 5) ∧
  State.reset.status = 0

/-- R22: outside Busy a write of a register is read back, its low bits kept, and no other register reads differently
(but `HT_DATA` after `HT_ADDR`, which selects its entry); `SRC`, `HT` and `DST` are as before. -/
def Obligations.RegisterWriteIsReadBack : Prop :=
  ∀ (n v : Nat) (rest : List Turn) (s : State), HostTurnNext s (.writeReg n v) rest → s.phase ≠ .busy →
    regWidth n ≠ 0 →
    ∃ t, step s = .next t ∧ (t.readReg n).toNat = v % 2 ^ regWidth n ∧
      (∀ m, m ≠ n → ¬ (n = 12 ∧ m = 13) → t.readReg m = s.readReg m) ∧
      t = { s with
        agenda := rest, srcLen := t.srcLen, take := t.take, skip := t.skip, maxOut := t.maxOut, fill := t.fill
        keySeed := t.keySeed, htAddr := t.htAddr }

/-- R33: a write to `HT_DATA` outside Busy writes the entry `HT_ADDR` names, none if that is 511, and advances
`HT_ADDR` modulo 512. -/
def Obligations.TableWriteAdvancesTheAddress : Prop :=
  ∀ (v : Nat) (rest : List Turn) (s : State), HostTurnNext s (.writeReg 13 v) rest → s.phase ≠ .busy →
    ∃ t, step s = .next t ∧ t.htAddr.toNat = (s.htAddr.toNat + 1) % 512 ∧
      (∀ k : BitVec 9, t.htAt k =
        if k = s.htAddr ∧ k.toNat ≤ 510 then htOfImage (BitVec.ofNat 32 v) else s.htAt k) ∧
      t = { s with agenda := rest, ht := t.ht, htAddr := t.htAddr }

/-- R22, R280, R320: a write of any register but `CMD` is ignored while Busy; a write of a read-only register or of one
that does not exist is ignored always; while reset is asserted every write, of `CMD` and of `SRC` too, is ignored. -/
def Obligations.IgnoredWritesChangeNothing : Prop :=
  (∀ (n v : Nat) (rest : List Turn) (s : State), HostTurnNext s (.writeReg n v) rest → n ≠ 0 →
    s.phase = .busy ∨ (regWidth n = 0 ∧ n ≠ 13) →
    step s = .next { s with agenda := rest }) ∧
  ∀ (a : HostAction) (rest : List Turn) (s : State), s.agenda = .host a :: rest → s.resetLine = true →
    (∃ n v, a = .writeReg n v) ∨ (∃ i b, a = .writeSrc i b) →
    step s = .next { s with agenda := rest }

/-- R22, R24, R33, R62, R69, R265, R296, R320: a host read of a register or of a byte of `DST` returns it and changes
nothing else. Register by register what is returned; registers that do not exist, and `CMD`, read as 0, and so does
everything while reset is asserted. A read of `DST[i]` with `i >= dst_count` is no fault: it returns some byte, which the
model leaves free (log entry 7). -/
def Obligations.HostReadsHaveNoSideEffect : Prop :=
  (∀ (n : Nat) (rest : List Turn) (s : State), s.agenda = .host (.readReg n) :: rest →
    step s = .next { s with agenda := rest, readData := s.readReg n } ∧ (s.resetLine = true → s.readReg n = 0)) ∧
  (∀ s : State, s.resetLine = false →
    s.readReg 0 = 0 ∧ (s.readReg 1).toNat = s.status.toNat ∧ (s.readReg 2).toNat = errValue s.err ∧
    s.readReg 3 = s.srcLen ∧ s.readReg 4 = s.take ∧ s.readReg 5 = s.skip ∧ s.readReg 6 = s.maxOut ∧
    (s.readReg 7).toNat = s.fill.toNat ∧ (s.readReg 8).toNat = s.keySeed.toNat ∧ s.readReg 9 = s.pos ∧
    s.readReg 10 = s.outCount ∧ (s.readReg 11).toNat = s.dst.length % 2 ^ 64 ∧
    (s.readReg 12).toNat = s.htAddr.toNat ∧ (s.readReg 13).toNat = (htImage (s.htAt s.htAddr)).toNat ∧
    (s.htAddr = 511 → Memory.wf HtEntry.empty 511 s.ht = true → s.readReg 13 = 0x01FF01FF) ∧
    ∀ n, 14 ≤ n → s.readReg n = 0) ∧
  ∀ (i : Count) (rest : List Turn) (s : State), s.agenda = .host (.readDst i) :: rest →
    (s.resetLine = true → step s = .next { s with agenda := rest, readData := 0 }) ∧
    (s.resetLine = false → ∀ b, s.dst[i.toNat]? = some b →
      step s = .next { s with agenda := rest, readData := b.setWidth 64 }) ∧
    (s.resetLine = false → s.dst.length ≤ i.toNat → ∃ b : Byte,
      step s = .next { s with agenda := rest, readData := b.setWidth 64, freeCount := s.freeCount + 1 })

/-- R61: a host write of a byte of `SRC` changes that byte and nothing else. R265 allows the host this write outside
Busy; that a write while Busy, which R326 says the block does not prevent, has the same effect is the model's reading
(log entry 16). -/
def Obligations.SourceWriteChangesOneByte : Prop :=
  ∀ (i : Count) (b : Byte) (rest : List Turn) (s : State), HostTurnNext s (.writeSrc i b) rest →
    ∃ t, step s = .next t ∧ (∀ a, srcByte t a = if a = i.toNat then b else srcByte s a) ∧
      t = { s with agenda := rest, src := t.src }

/-- R40, R320: when reset is released the instance has the values R40 gives: `Idle`, all host registers 0, `DST` empty,
every table entry `Node(HT_NONE, HT_NONE)`. -/
def Obligations.ReleaseOfResetGivesTheResetValues : Prop :=
  ∀ (rest : List Turn) (s : State), s.agenda = .host .releaseReset :: rest → s.resetLine = true →
    ∃ t, step s = .next t ∧ t.resetLine = false ∧ t.agenda = rest ∧
      t.phase = .idle ∧ t.unit = .none ∧ t.ustate = 0 ∧ t.err = .none ∧ t.status = 0 ∧
      t.srcLen = 0 ∧ t.take = 0 ∧ t.skip = 0 ∧ t.maxOut = 0 ∧ t.fill = 0x00 ∧ t.keySeed = 0 ∧ t.htAddr = 0 ∧
      (∀ k : BitVec 9, t.htAt k = .node Config.htNone Config.htNone) ∧
      t.pos = 0 ∧ t.outCount = 0 ∧ t.dstCount = 0 ∧ t.skipRem = 0 ∧ t.takeRem = 0 ∧ t.lenKnown = false ∧
      t.capEn = false ∧ t.dst = []

-- ---------------------------------------------------------------------------------------------------------
-- The encoder (42_lzss_encoder.md)
-- ---------------------------------------------------------------------------------------------------------

/-- R174: the comparison of two keys counts the bytes, of at most `F`, on which they agree, byte 0 counted as equal, and
gives the difference of the bytes after them. -/
def Obligations.KeyComparisonIsTheCommonPrefix : Prop :=
  ∀ (s : State) (r p : Ring), ∃ i cmp, s.compareKeys r p 17 1 = (i, cmp) ∧ 1 ≤ i ∧ i ≤ 18 ∧
    (∀ j, 1 ≤ j → j < i → s.winAt (r + BitVec.ofNat 12 j) = s.winAt (p + BitVec.ofNat 12 j)) ∧
    (i = 18 → cmp = 0) ∧
    (i < 18 → cmp ≠ 0 ∧
      cmp = (s.winAt (r + BitVec.ofNat 12 i)).toNat - (s.winAt (p + BitVec.ofNat 12 i)).toNat)

/-- R174, R185: inserting position `r` into the tree of its first byte, whatever tree of positions with that first byte
stands there, gives that tree with `r` in its place by the order of keys, a node with the same key replaced and out of the
tree; the match found is the longest on the way down, the first of equally long ones; no other cell changes. In an empty
tree `r` becomes the root's child and no match is found. -/
def Obligations.InsertNodeInsertsAndSearches : Prop :=
  (∀ (s : State) (r : Ring) (T : SearchTree), HoldsTree s (s.winAt r) T → T.positions.Nodup →
    (∀ p ∈ T.positions, p ≠ r ∧ s.winAt p = s.winAt r) →
    ∃ t, s.insertNode r = some t ∧ HoldsTree t (s.winAt r) (T.insert (keyAt s) r) ∧
      (t.matchLen.toNat, t.matchPos) = T.search (keyAt s) r (0, s.matchPos) ∧
      (∀ p ∈ T.positions, p ∉ (T.insert (keyAt s) r).positions → t.dadAt (ringNode p) = Config.nil) ∧
      OtherCellsKept (s.winAt r) (r :: T.positions) s t ∧
      t = { s with
        matchPos := t.matchPos, matchLen := t.matchLen, lson := t.lson, rson := t.rson, dad := t.dad }) ∧
  ∀ (s : State) (r : Ring), s.rsonAt (rootSlot (s.winAt r)) = Config.nil →
    ∃ t, s.insertNode r = some t ∧ t.matchLen = 0 ∧ t.rsonAt (rootSlot (s.winAt r)) = ringNode r ∧
      t.dadAt (ringNode r) = rootSlot (s.winAt r) ∧ t.rsonAt (ringNode r) = Config.nil ∧
      t.lsonAt (ringNode r) = Config.nil ∧
      (∀ p, p ≠ ringNode r → p ≠ rootSlot (s.winAt r) → t.rsonAt p = s.rsonAt p) ∧
      (∀ p, p ≠ ringNode r → t.lsonAt p = s.lsonAt p ∧ t.dadAt p = s.dadAt p) ∧
      t = { s with matchLen := t.matchLen, lson := t.lson, rson := t.rson, dad := t.dad }

/-- R175: deleting a position that is in a tree gives the tree without it, its only child or its in-order predecessor in
its place, and changes no cell outside that tree; deleting a position that is in no tree changes nothing. -/
def Obligations.DeleteNodeDeletes : Prop :=
  (∀ (s : State) (c : Byte) (p : Ring) (T : SearchTree), HoldsTree s c T → T.positions.Nodup → p ∈ T.positions →
    ∃ t, s.deleteNode p = some t ∧ HoldsTree t c (T.delete p) ∧ t.dadAt (ringNode p) = Config.nil ∧
      OtherCellsKept c T.positions s t ∧ t = { s with lson := t.lson, rson := t.rson, dad := t.dad }) ∧
  ∀ (s : State) (p : Ring), s.dadAt (ringNode p) = Config.nil → s.deleteNode p = some s

/-- R176: the first step of a compression loads the lookahead, up to 18 bytes, behind ring position 4078 and makes that
position the only one in the tree, with no match found; an empty input goes on to `Flush`. -/
def Obligations.PrimeLoadsTheLookahead : Prop :=
  ∀ (lk ce : Bool) (s : State), s.phase ≠ .busy → EngineAlone s →
    ∃ u t, exec (.compressLzss lk ce) s = .next u ∧ step u = .next t ∧ t.phase = .busy ∧
      t.lookLen.toNat = min 18 s.srcLen.toNat ∧ t.pos.toNat = min 18 s.srcLen.toNat ∧
      (∀ a : Ring, t.winAt a =
        if (a - 4078).toNat < min 18 s.srcLen.toNat then srcByte s (a - 4078).toNat else s.fill) ∧
      t.ustate = (if s.srcLen = 0 then UState.flush else UState.encode) ∧
      (∀ c : Byte, HoldsTree t c (if s.srcLen ≠ 0 ∧ c = srcByte s 0 then .node .nil 4078 .nil else .nil)) ∧
      (s.srcLen ≠ 0 → t.matchLen = 0) ∧
      t = { u with
        pos := t.pos, win := t.win, lookLen := t.lookLen, matchLen := t.matchLen, ustate := t.ustate
        lson := t.lson, rson := t.rson, dad := t.dad }

/-- R177 to R182: one `Encode` step codes one token and slides the window past it. The match is cut to the bytes that
remain and coded as a literal if 2 or fewer are left of it; the token joins the group, which is emitted after its eighth;
as many further input bytes are loaded as there are, up to the token's length, and the lookahead shrinks by the rest. -/
def Obligations.EncodeStepCodesOneToken : Prop :=
  ∀ (rest : List Turn) (s : State), EngineTurnNext s rest → s.resetLine = false → s.phase = .busy →
    s.unit = .lze → s.ustate = UState.encode → s.pos ≤ s.srcLen → EncoderLegal s → MatchTreeLegal s → GroupLegal s →
    ∃ t, step s = .next t ∧ t.lastLen.toNat = codedLength s ∧
      t.ringR = s.ringR + BitVec.ofNat 12 (codedLength s) ∧ t.ringS = s.ringS + BitVec.ofNat 12 (codedLength s) ∧
      t.pos.toNat = s.pos.toNat + loadedLength s ∧
      t.lookLen.toNat + codedLength s = s.lookLen.toNat + loadedLength s ∧
      t.ustate = (if t.lookLen = 0 then UState.flush else UState.encode) ∧
      (∀ a : Ring, t.winAt a =
        if (a - s.ringS).toNat < loadedLength s then srcByte s (s.pos.toNat + (a - s.ringS).toNat) else s.winAt a) ∧
      (s.mask = 0x80 →
        t.dst = s.dst ++ groupWithToken s ∧ t.outCount = s.outCount + BitVec.ofNat 64 (groupWithToken s).length ∧
        t.codePtr = 1 ∧ t.mask = 0x01 ∧ t.codeAt 0 = 0) ∧
      (s.mask ≠ 0x80 →
        t.dst = s.dst ∧ t.outCount = s.outCount ∧ t.codePtr.toNat = (groupWithToken s).length ∧
        t.mask.toNat = 2 * s.mask.toNat ∧ (List.range t.codePtr.toNat).map t.codeAt = groupWithToken s) ∧
      t = { s with
        agenda := rest, pos := t.pos, win := t.win, ringS := t.ringS, ringR := t.ringR, lookLen := t.lookLen
        matchPos := t.matchPos, matchLen := t.matchLen, lastLen := t.lastLen, codeBuf := t.codeBuf
        codePtr := t.codePtr, mask := t.mask, lson := t.lson, rson := t.rson, dad := t.dad, ustate := t.ustate
        dst := t.dst, outCount := t.outCount }

/-- R187, R190: at every `Encode` step of a compression the lookahead is the input from the position to be coded on, and
the match found, cut to the bytes that remain, is the longest that the 4078 positions before offer, its distance within
them and within the input already coded. -/
def Obligations.LongestMatchIsFound : Prop :=
  ∀ (lk ce : Bool) (k : Nat) (s u t : State), s.phase ≠ .busy → EngineAlone s →
    exec (.compressLzss lk ce) s = .next u → Host.Core.run Sys2Proof.core k u = .next t → t.phase = .busy →
    t.ustate = UState.encode →
    ∃ n, n + t.lookLen.toNat = t.pos.toNat ∧
      (∀ i, i < t.lookLen.toNat → t.winAt (t.ringR + BitVec.ofNat 12 i) = srcByte s (n + i)) ∧
      (∀ d l, 1 ≤ d → d ≤ 4078 → d ≤ n → l ≤ t.lookLen.toNat →
        (∀ i, i < l → srcByte s (n - d + i) = srcByte s (n + i)) → l ≤ clampedLength t) ∧
      (1 ≤ clampedLength t → ∃ d, d = (t.ringR - t.matchPos).toNat ∧ 1 ≤ d ∧ d ≤ 4078 ∧ d ≤ n ∧
        ∀ i, i < clampedLength t → srcByte s (n - d + i) = srcByte s (n + i))

/-- R183: the last step emits the partial group, if it holds a token, and stops. -/
def Obligations.FlushEmitsThePartialGroup : Prop :=
  ∀ (rest : List Turn) (s : State), EngineTurnNext s rest → s.resetLine = false → s.phase = .busy →
    s.unit = .lze → s.ustate = UState.flush →
    ∃ t, step s = .next t ∧ t.phase = .done ∧
      (1 < s.codePtr.toNat →
        t.dst = s.dst ++ (List.range s.codePtr.toNat).map s.codeAt ∧
        t.outCount = s.outCount + BitVec.ofNat 64 s.codePtr.toNat) ∧
      (s.codePtr.toNat ≤ 1 → t.dst = s.dst ∧ t.outCount = s.outCount) ∧
      t = { s with agenda := rest, phase := t.phase, dst := t.dst, outCount := t.outCount }

/-- R184: the compression of an empty input is an empty stream. -/
def Obligations.EmptyInputCompressesToNothing : Prop :=
  ∀ (lk ce : Bool) (s : State), s.phase ≠ .busy → EngineAlone s → s.srcLen = 0 →
    ∃ u t, exec (.compressLzss lk ce) s = .next u ∧ Host.Core.run Sys2Proof.core 2 u = .next t ∧
      t.phase = .done ∧ t.err = .none ∧ t.dst = []

/-- R170, R269, R275, R336: every compression ends `Done`, within as many `Encode` steps as there are input bytes, and
the first step and the last; the whole input has then been read and every byte emitted was counted. -/
def Obligations.CompressionEndsDone : Prop :=
  ∀ (lk ce : Bool) (s : State), s.phase ≠ .busy → EngineAlone s →
    ∃ u k t, exec (.compressLzss lk ce) s = .next u ∧ k ≤ s.srcLen.toNat + 2 ∧
      Host.Core.run Sys2Proof.core k u = .next t ∧ t.phase = .done ∧ t.err = .none ∧ t.pos = s.srcLen ∧
      t.outCount = t.dstCount

/-- R189: a finished compression is at most one flag byte per 8 input bytes longer than its input. -/
def Obligations.CompressionExpandsByAtMostOneEighth : Prop :=
  ∀ (lk ce : Bool) (k : Nat) (s u t : State), s.phase ≠ .busy → EngineAlone s →
    exec (.compressLzss lk ce) s = .next u → Host.Core.run Sys2Proof.core k u = .next t → t.phase = .done →
    t.dst.length ≤ s.srcLen.toNat + (s.srcLen.toNat + 7) / 8

/-- R188: what a finished compression produced, loaded as `SRC` and decoded with the length of the input, or with no
length known, is the input, whatever `FILL` the decoder has. -/
def Obligations.CompressedStreamDecodesToItsInput : Prop :=
  ∀ (lk ce known : Bool) (k : Nat) (f : Byte) (m : List Host.Cell) (s u t : State), s.phase ≠ .busy → EngineAlone s →
    exec (.compressLzss lk ce) s = .next u → Host.Core.run Sys2Proof.core k u = .next t → t.phase = .done →
    t.dst.length < 2 ^ 64 → (∀ j b, t.dst[j]? = some b → Memory.read Config.srcUnwritten m j = b) →
    ∃ v k' w,
      exec (.decompressLzss known false)
        { t with src := m, srcLen := BitVec.ofNat 64 t.dst.length, take := s.srcLen, fill := f } = .next v ∧
      Host.Core.run Sys2Proof.core k' v = .next w ∧ w.phase = .done ∧ w.err = .none ∧
      w.dst = (List.range s.srcLen.toNat).map (srcByte s)

-- ---------------------------------------------------------------------------------------------------------
-- The ciphers (45_keyed_cipher.md)
-- ---------------------------------------------------------------------------------------------------------

/-- R252, R254: `LCG_XOR` ends `Done` after `SRC_LEN + 1` steps, byte `i` of the result being byte `i` of `SRC` XOR byte
`i mod 4` of the key after `i / 4` advances; the key register has then advanced once for every four bytes. -/
def Obligations.LcgXorTransformsTheBuffer : Prop :=
  ∀ (lk ce : Bool) (s : State), s.phase ≠ .busy → EngineAlone s →
    ∃ u t, exec (.applyCipherLcgXor lk ce) s = .next u ∧
      Host.Core.run Sys2Proof.core (s.srcLen.toNat + 1) u = .next t ∧ t.phase = .done ∧ t.err = .none ∧
      t.key = lcgKeyAt s.keySeed (s.srcLen.toNat / 4) ∧ t.pos = s.srcLen ∧ t.outCount = s.srcLen ∧
      t.dst = (List.range s.srcLen.toNat).map fun i =>
        srcByte s i ^^^ (lcgKeyAt s.keySeed (i / 4)).extractLsb' (8 * (i % 4)) 8

/-- R253, R254: `POS_XOR` ends `Done` after `SRC_LEN + 1` steps, byte `i` of the result being byte `i` of `SRC` XOR
`((SRC_LEN + 1) - i) mod 256`. -/
def Obligations.PosXorTransformsTheBuffer : Prop :=
  ∀ (lk ce : Bool) (s : State), s.phase ≠ .busy → EngineAlone s →
    ∃ u t, exec (.applyCipherPosXor lk ce) s = .next u ∧
      Host.Core.run Sys2Proof.core (s.srcLen.toNat + 1) u = .next t ∧ t.phase = .done ∧ t.err = .none ∧
      t.pos = s.srcLen ∧ t.outCount = s.srcLen ∧
      t.dst = (List.range s.srcLen.toNat).map fun i =>
        srcByte s i ^^^ BitVec.ofNat 8 (s.srcLen.toNat + 1 - i)

-- ---------------------------------------------------------------------------------------------------------
-- Invariants
-- ---------------------------------------------------------------------------------------------------------

/-- The canonical form of the memories (log entry 3) and R186 (f) hold after every step from a state where they hold. -/
def Obligations.StepKeepsMemoryCanonical : Prop :=
  ∀ s t : State, MemoryCanonical s → step s = .next t → MemoryCanonical t

/-- R24, R25: every step keeps `ustate` a code of `unit`, and `ERR` is `None` exactly outside `Failed`. -/
def Obligations.StepKeepsControlLegal : Prop :=
  ∀ s t : State, ControlLegal s → step s = .next t → ControlLegal t

/-- R26, R30, R31, R36: while Busy every step keeps the cursor inside `SRC`, and the ranges of the unit's readers. -/
def Obligations.StepKeepsReadersLegal : Prop :=
  ∀ s t : State, ReadersLegal s → step s = .next t → ReadersLegal t

/-- R135, R159: every step keeps the books of the shell. -/
def Obligations.StepKeepsShellLegal : Prop :=
  ∀ s t : State, ShellLegal s → step s = .next t → ShellLegal t

/-- R34, R186 (e): while the encoder runs every step keeps `s = (r + F) mod W` and the ranges of its lengths. -/
def Obligations.StepKeepsEncoderLegal : Prop :=
  ∀ s t : State, EncoderLegal s → step s = .next t → EncoderLegal t

/-- R186 (a) to (c), (g), and R171: while the encoder runs every step keeps the match tree a search tree: under every
first byte a binary tree whose nodes point back at their parents, in strict order of keys, all its positions among the
4078 before `r` or `r` itself. -/
def Obligations.StepKeepsMatchTreeLegal : Prop :=
  ∀ s t : State, EncoderLegal s → MatchTreeLegal s → step s = .next t → MatchTreeLegal t

/-- The six invariants hold after reset. The canonical form is the model's (log entry 3); of the registers R40 leaves
unspecified nothing is said. -/
def Obligations.ResetMeetsTheInvariants : Prop :=
  MemoryCanonical State.reset ∧ ControlLegal State.reset ∧ ReadersLegal State.reset ∧ ShellLegal State.reset ∧
  EncoderLegal State.reset ∧ MatchTreeLegal State.reset

-- ---------------------------------------------------------------------------------------------------------
-- Whole-machine rules
-- ---------------------------------------------------------------------------------------------------------

/-- R274, R296: from a legal control state a step is never refused and always has a rule, and only a walk of the encoder's
tree can stop; where the tree is legal too, the step has a next state. The two stops and the refusal named here are the
model's own choices (log entries 8 and 12): no rule of the spec has them. -/
def Obligations.LegalStepsDoNotStop : Prop :=
  ∀ s : State, ControlLegal s →
    (∀ r, step s ≠ .refused r) ∧ step s ≠ .fault .noStepRule ∧
    (step s = .fault .treeWalkStuck → s.phase = .busy ∧ s.unit = .lze) ∧
    (EncoderLegal s → MatchTreeLegal s → ∃ t, step s = .next t)

/-- R290 to R295: which unit can raise which failure, and when. -/
def Obligations.FailuresComeFromTheirUnits : Prop :=
  ∀ (rest : List Turn) (s t : State), EngineTurnNext s rest → s.err = .none → step s = .next t →
    (t.err = .truncatedInput → s.unit.isDecoder = true ∧ s.lenKnown = true) ∧
    (t.err = .invalidControlCode → s.unit = .huf) ∧
    (t.err = .backReferenceOutOfRange → s.unit = .lzd ∨ s.unit = .glz) ∧
    (t.err = .outputOverflow → s.unit.isDecoder = true ∧ s.capEn = true ∧ t.outCount = s.maxOut) ∧
    t.err ≠ .unsupportedVariant

/-- R21, R61, R62, R65, R324: an engine step writes neither `SRC` nor `HT` nor any operand register, keeps what the
command latched, and only appends to `DST`: a byte once there never changes. -/
def Obligations.EngineKeepsOperandsAndResult : Prop :=
  ∀ (rest : List Turn) (s t : State), EngineTurnNext s rest → step s = .next t →
    SameOperands s t ∧ t.htAddr = s.htAddr ∧ t.unit = s.unit ∧ t.lenKnown = s.lenKnown ∧ t.capEn = s.capEn ∧
    t.winFill = s.winFill ∧ t.cipherKind = s.cipherKind ∧ t.resetLine = s.resetLine ∧ t.readData = s.readData ∧
    t.freeCount = s.freeCount ∧ t.agenda = rest ∧ ∃ bs, t.dst = s.dst ++ bs

/-- R159 (a): a decode with a known length that becomes `Done` has delivered exactly `TAKE` bytes and produced exactly
those it skipped and those. The step that ends it produces what was still owed; and a whole command, where `SKIP` is 0
for `DECOMPRESS`. (With `TAKE = 0` the command is `Done` at its start, R273, with nothing produced.) -/
def Obligations.DoneDeliversExactlyTake : Prop :=
  (∀ (rest : List Turn) (s t : State), EngineTurnNext s rest → ShellLegal s → s.phase = .busy →
    s.unit.isDecoder = true → s.lenKnown = true → step s = .next t → t.phase = .done →
    t.dst.length = t.take.toNat ∧ t.takeRem = 0 ∧ t.outCount = s.outCount + s.skipRem + s.takeRem) ∧
  ∀ (i : Instr) (sk : Count) (lk ce : Bool) (k : Nat) (s u t : State), s.phase ≠ .busy → EngineAlone s →
    (i, sk) ∈ [(Instr.decompressLzss true ce, 0), (Instr.decompressHuffman ce, 0), (Instr.decompressGammaLz true ce, 0),
      (Instr.decompressSkipLzss lk ce, s.skip), (Instr.decompressSkipHuffman lk ce, s.skip),
      (Instr.decompressSkipGammaLz lk ce, s.skip)] →
    exec i s = .next u → Host.Core.run Sys2Proof.core k u = .next t → t.phase = .done →
    t.dst.length = s.take.toNat ∧ t.outCount = if s.take = 0 then 0 else sk + s.take

/-- R204 (a), R275, R336: a decoder left alone ends its command within as many steps as bits are left of its stream, and
one more. A Huffman table whose root is a leaf is the exception: it reads nothing, delivers one byte a step, and ends
within as many steps as bytes are owed, exactly so many if there is no cap. -/
def Obligations.DecodersTerminate : Prop :=
  (∀ s : State, ControlLegal s → ReadersLegal s → EngineAlone s → s.phase = .busy →
    s.unit = .lzd ∨ s.unit = .glz ∨ (s.unit = .huf ∧ ∃ c0 c1, s.htAt 0 = .node c0 c1) →
    ∃ k t, k ≤ s.cursor.bitsLeft + 1 ∧ Host.Core.run Sys2Proof.core k s = .next t ∧ t.phase ≠ .busy) ∧
  ∀ (sym : Byte) (s : State), ControlLegal s → EngineAlone s → s.phase = .busy → s.unit = .huf →
    s.htAt 0 = .leaf sym → s.lenKnown = true → s.takeRem ≠ 0 →
    (∃ k t, k ≤ s.skipRem.toNat + s.takeRem.toNat ∧ Host.Core.run Sys2Proof.core k s = .next t ∧ t.phase ≠ .busy ∧
      t.pos = s.pos) ∧
    (s.capEn = false →
      ∃ t, Host.Core.run Sys2Proof.core (s.skipRem.toNat + s.takeRem.toNat) s = .next t ∧ t.phase = .done ∧
        t.pos = s.pos ∧ t.dst = s.dst ++ List.replicate s.takeRem.toNat sym)

/-- R159 (e), R205, R268: at every step, a skip/take decode stands where the full decode of `SKIP + TAKE` bytes stands,
and has delivered the same bytes but for the first `SKIP`. -/
def Obligations.SkipTakeIsASliceOfTheFullDecode : Prop :=
  ∀ (i j : Instr) (lk ce : Bool) (s : State), s.phase ≠ .busy → EngineAlone s → s.take ≠ 0 →
    s.skip.toNat + s.take.toNat < 2 ^ 64 →
    (i, j) ∈ [(Instr.decompressSkipLzss lk ce, Instr.decompressLzss true ce),
      (Instr.decompressSkipHuffman lk ce, Instr.decompressHuffman ce),
      (Instr.decompressSkipGammaLz lk ce, Instr.decompressGammaLz true ce)] →
    ∀ k, ∃ u1 u2 t1 t2, exec i s = .next u1 ∧ exec j { s with take := s.skip + s.take } = .next u2 ∧
      Host.Core.run Sys2Proof.core k u1 = .next t1 ∧ Host.Core.run Sys2Proof.core k u2 = .next t2 ∧
      t1.phase = t2.phase ∧ t1.err = t2.err ∧ t1.pos = t2.pos ∧ t1.outCount = t2.outCount ∧
      t1.dst = t2.dst.drop s.skip.toNat

/-- R39, R281, R321: the result of a decode, compress or cipher command is a function of the operand registers, `SRC`,
`HT` and the command alone: two instances that agree on those show the same result after every number of steps. -/
def Obligations.ResultsForgetThePast : Prop :=
  ∀ (i : Instr) (s1 s2 : State), i.isCommand = true → (∀ rest, i ≠ .abort rest) → (∀ k lk ce, i ≠ .nop k lk ce) →
    s1.phase ≠ .busy → s2.phase ≠ .busy → EngineAlone s1 → EngineAlone s2 → SameOperands s1 s2 →
    ∀ k, ∃ u1 u2 t1 t2, exec i s1 = .next u1 ∧ exec i s2 = .next u2 ∧
      Host.Core.run Sys2Proof.core k u1 = .next t1 ∧ Host.Core.run Sys2Proof.core k u2 = .next t2 ∧ SameResult t1 t2
end

