-- ==== Sys2Proof/Laws/Memory.lean ====
section
/-! SUPPORT. The laws of a sparse memory: what a read gives after each operation, that each operation keeps the
canonical form, and that memories in canonical form that read alike are equal. -/

namespace Sys2Proof.Machine

@[simp] theorem Memory.read_nil {α : Type} (base : α) (a : Nat) : Memory.read base [] a = base := rfl

theorem Memory.read_cons {α : Type} (base : α) (k : Nat) (v : α) (m : List (Nat × α)) (a : Nat) :
    Memory.read base ((k, v) :: m) a = if a = k then v else Memory.read base m a := rfl

theorem Memory.read_insert {α : Type} (base : α) (a : Nat) (v : α) (m : List (Nat × α)) (b : Nat) :
    Memory.read base (Memory.insert a v m) b = if b = a then v else Memory.read base m b := by
  induction m with
  | nil => rfl
  | cons e m ih =>
    obtain ⟨k, w⟩ := e
    unfold Memory.insert
    split
    · rfl
    · split
      · subst_vars
        simp only [Memory.read_cons]
        split <;> rfl
      · simp only [Memory.read_cons, ih]
        split
        · subst_vars
          rw [if_neg (Ne.symm ‹_›)]
        · rfl

theorem Memory.read_clear {α : Type} (base : α) (lo hi : Nat) (m : List (Nat × α)) (a : Nat) :
    Memory.read base (Memory.clear lo hi m) a = if lo ≤ a ∧ a < hi then base else Memory.read base m a := by
  induction m with
  | nil => simp [Memory.clear]
  | cons e m ih =>
    obtain ⟨k, v⟩ := e
    unfold Memory.clear
    split
    · rw [ih, Memory.read_cons]
      by_cases h : a = k
      · subst h
        simp [*]
      · simp [h]
    · rw [Memory.read_cons, Memory.read_cons, ih]
      by_cases h : a = k
      · subst h
        simp [*]
      · simp [h]

/-- A read after a write: the value written, and every other cell as before. -/
theorem Memory.read_write {α : Type} [DecidableEq α] (base : α) (m : List (Nat × α)) (a : Nat) (v : α) (b : Nat) :
    Memory.read base (Memory.write base m a v) b = if b = a then v else Memory.read base m b := by
  unfold Memory.write
  split
  · subst_vars
    rw [Memory.read_clear]
    have h : (a ≤ b ∧ b < a + 1) ↔ b = a := by omega
    simp only [h]
  · exact Memory.read_insert ..

@[simp] theorem Memory.read_write_same {α : Type} [DecidableEq α] (base : α) (m : List (Nat × α)) (a : Nat) (v : α) :
    Memory.read base (Memory.write base m a v) a = v := by
  simp [Memory.read_write]

theorem Memory.read_write_other {α : Type} [DecidableEq α] (base : α) (m : List (Nat × α)) (a : Nat) (v : α) (b : Nat)
    (h : b ≠ a) : Memory.read base (Memory.write base m a v) b = Memory.read base m b := by
  simp [Memory.read_write, h]

section Canonical

variable {α : Type} [DecidableEq α] {base : α} {size : Nat}

@[simp] theorem Memory.wfFrom_nil (lo : Nat) : Memory.wfFrom base size lo ([] : List (Nat × α)) = true := rfl

theorem Memory.wfFrom_cons (lo k : Nat) (v : α) (m : List (Nat × α)) :
    Memory.wfFrom base size lo ((k, v) :: m) = true ↔
      lo ≤ k ∧ k < size ∧ v ≠ base ∧ Memory.wfFrom base size (k + 1) m = true := by
  simp [Memory.wfFrom, and_assoc]

theorem Memory.wfFrom_mono {lo lo' : Nat} {m : List (Nat × α)} (h : Memory.wfFrom base size lo m = true)
    (hl : lo' ≤ lo) : Memory.wfFrom base size lo' m = true := by
  cases m with
  | nil => rfl
  | cons e m =>
    rw [Memory.wfFrom_cons] at h ⊢
    exact ⟨hl.trans h.1, h.2⟩

theorem Memory.wfFrom_insert {lo a : Nat} {v : α} {m : List (Nat × α)} (h : Memory.wfFrom base size lo m = true)
    (hl : lo ≤ a) (ha : a < size) (hv : v ≠ base) : Memory.wfFrom base size lo (Memory.insert a v m) = true := by
  induction m generalizing lo with
  | nil => simp [Memory.insert, Memory.wfFrom, *]
  | cons e m ih =>
    obtain ⟨k, w⟩ := e
    rw [Memory.wfFrom_cons] at h
    obtain ⟨h1, h2, h3, h4⟩ := h
    unfold Memory.insert
    split
    · rw [Memory.wfFrom_cons, Memory.wfFrom_cons]
      exact ⟨hl, ha, hv, by omega, h2, h3, h4⟩
    · split
      · subst_vars
        rw [Memory.wfFrom_cons]
        exact ⟨hl, ha, hv, h4⟩
      · rw [Memory.wfFrom_cons]
        exact ⟨h1, h2, h3, ih h4 (by omega)⟩

theorem Memory.wfFrom_clear {lo : Nat} {m : List (Nat × α)} (i j : Nat) (h : Memory.wfFrom base size lo m = true) :
    Memory.wfFrom base size lo (Memory.clear i j m) = true := by
  induction m generalizing lo with
  | nil => rfl
  | cons e m ih =>
    obtain ⟨k, w⟩ := e
    rw [Memory.wfFrom_cons] at h
    obtain ⟨h1, h2, h3, h4⟩ := h
    unfold Memory.clear
    split
    · exact Memory.wfFrom_mono (ih h4) (by omega)
    · rw [Memory.wfFrom_cons]
      exact ⟨h1, h2, h3, ih h4⟩

@[simp] theorem Memory.wf_nil : Memory.wf base size ([] : List (Nat × α)) = true := rfl

/-- A clear keeps the canonical form. -/
theorem Memory.wf_clear {m : List (Nat × α)} (i j : Nat) (h : Memory.wf base size m = true) :
    Memory.wf base size (Memory.clear i j m) = true :=
  Memory.wfFrom_clear i j h

/-- A write of a cell inside the memory keeps the canonical form. -/
theorem Memory.wf_write {m : List (Nat × α)} {a : Nat} (v : α) (h : Memory.wf base size m = true) (ha : a < size) :
    Memory.wf base size (Memory.write base m a v) = true := by
  unfold Memory.write
  split
  · exact Memory.wf_clear _ _ h
  · exact Memory.wfFrom_insert h (Nat.zero_le _) ha ‹_›

/-- Below the least index a memory in canonical form lists, every cell reads as `base`. -/
theorem Memory.read_below {lo a : Nat} {m : List (Nat × α)} (h : Memory.wfFrom base size lo m = true) (ha : a < lo) :
    Memory.read base m a = base := by
  induction m generalizing lo with
  | nil => rfl
  | cons e m ih =>
    obtain ⟨k, w⟩ := e
    rw [Memory.wfFrom_cons] at h
    rw [Memory.read_cons, if_neg (by omega)]
    exact ih h.2.2.2 (by omega)

/-- Memories in canonical form that read alike are equal. -/
theorem Memory.ext_of_wf {lo : Nat} {m m' : List (Nat × α)} (h : Memory.wfFrom base size lo m = true)
    (h' : Memory.wfFrom base size lo m' = true) (hr : ∀ a, Memory.read base m a = Memory.read base m' a) : m = m' := by
  induction m generalizing lo m' with
  | nil =>
    cases m' with
    | nil => rfl
    | cons e m' =>
      obtain ⟨k, v⟩ := e
      rw [Memory.wfFrom_cons] at h'
      exact absurd ((hr k).symm.trans rfl) (by simpa [Memory.read_cons] using h'.2.2.1)
  | cons e m ih =>
    obtain ⟨k, v⟩ := e
    rw [Memory.wfFrom_cons] at h
    have hk : Memory.read base m' k = v := by rw [← hr k, Memory.read_cons, if_pos rfl]
    cases m' with
    | nil => exact absurd hk.symm h.2.2.1
    | cons e' m' =>
      obtain ⟨k', v'⟩ := e'
      rw [Memory.wfFrom_cons] at h'
      have hkk : k = k' := by
        rcases Nat.lt_trichotomy k k' with hlt | heq | hgt
        · rw [Memory.read_cons, if_neg (by omega), Memory.read_below h'.2.2.2 (by omega)] at hk
          exact absurd hk.symm h.2.2.1
        · exact heq
        · have hk' := hr k'
          rw [Memory.read_cons, if_neg (by omega), Memory.read_below h.2.2.2 (by omega), Memory.read_cons, if_pos rfl] at hk'
          exact absurd hk'.symm h'.2.2.1
      subst hkk
      rw [Memory.read_cons, if_pos rfl] at hk
      subst hk
      congr 1
      refine ih h.2.2.2 h'.2.2.2 fun a => ?_
      by_cases ha : a = k
      · subst ha
        rw [Memory.read_below h.2.2.2 (by omega), Memory.read_below h'.2.2.2 (by omega)]
      · have := hr a
        rwa [Memory.read_cons, if_neg ha, Memory.read_cons, if_neg ha] at this

end Canonical

/-- Every memory of the reset state has its canonical form. -/
theorem State.reset_memory_wf :
    Memory.wf State.reset.winFill 4096 State.reset.win = true ∧
    Memory.wf Config.srcUnwritten (2 ^ 64) State.reset.src = true ∧
    Memory.wf HtEntry.empty 511 State.reset.ht = true ∧
    Memory.wf Config.codeBufUnwritten 17 State.reset.codeBuf = true ∧
    Memory.wf Config.nil 8192 State.reset.lson = true ∧
    Memory.wf Config.nil 8192 State.reset.rson = true ∧
    Memory.wf Config.nil 8192 State.reset.dad = true := ⟨rfl, rfl, rfl, rfl, rfl, rfl, rfl⟩

end Sys2Proof.Machine
end

