-- ==== Sys2Proof/Laws/State.lean ====
section
/-! SUPPORT. One lemma per field per update of the state: what the update leaves in that field. -/

namespace Sys2Proof.Machine

-- `State.raise` (R300)
@[simp] theorem State.raise_agenda (s : State) (e : ErrCode) : (s.raise e).agenda = s.agenda := rfl
@[simp] theorem State.raise_resetLine (s : State) (e : ErrCode) : (s.raise e).resetLine = s.resetLine := rfl
@[simp] theorem State.raise_readData (s : State) (e : ErrCode) : (s.raise e).readData = s.readData := rfl
@[simp] theorem State.raise_freeCount (s : State) (e : ErrCode) : (s.raise e).freeCount = s.freeCount := rfl
@[simp] theorem State.raise_err (s : State) (e : ErrCode) : (s.raise e).err = e := rfl
@[simp] theorem State.raise_srcLen (s : State) (e : ErrCode) : (s.raise e).srcLen = s.srcLen := rfl
@[simp] theorem State.raise_take (s : State) (e : ErrCode) : (s.raise e).take = s.take := rfl
@[simp] theorem State.raise_skip (s : State) (e : ErrCode) : (s.raise e).skip = s.skip := rfl
@[simp] theorem State.raise_maxOut (s : State) (e : ErrCode) : (s.raise e).maxOut = s.maxOut := rfl
@[simp] theorem State.raise_fill (s : State) (e : ErrCode) : (s.raise e).fill = s.fill := rfl
@[simp] theorem State.raise_keySeed (s : State) (e : ErrCode) : (s.raise e).keySeed = s.keySeed := rfl
@[simp] theorem State.raise_htAddr (s : State) (e : ErrCode) : (s.raise e).htAddr = s.htAddr := rfl
@[simp] theorem State.raise_phase (s : State) (e : ErrCode) : (s.raise e).phase = .failed := rfl
@[simp] theorem State.raise_unit (s : State) (e : ErrCode) : (s.raise e).unit = s.unit := rfl
@[simp] theorem State.raise_ustate (s : State) (e : ErrCode) : (s.raise e).ustate = s.ustate := rfl
@[simp] theorem State.raise_pos (s : State) (e : ErrCode) : (s.raise e).pos = s.pos := rfl
@[simp] theorem State.raise_lenKnown (s : State) (e : ErrCode) : (s.raise e).lenKnown = s.lenKnown := rfl
@[simp] theorem State.raise_capEn (s : State) (e : ErrCode) : (s.raise e).capEn = s.capEn := rfl
@[simp] theorem State.raise_skipRem (s : State) (e : ErrCode) : (s.raise e).skipRem = s.skipRem := rfl
@[simp] theorem State.raise_takeRem (s : State) (e : ErrCode) : (s.raise e).takeRem = s.takeRem := rfl
@[simp] theorem State.raise_outCount (s : State) (e : ErrCode) : (s.raise e).outCount = s.outCount := rfl
@[simp] theorem State.raise_winFill (s : State) (e : ErrCode) : (s.raise e).winFill = s.winFill := rfl
@[simp] theorem State.raise_win (s : State) (e : ErrCode) : (s.raise e).win = s.win := rfl
@[simp] theorem State.raise_cur (s : State) (e : ErrCode) : (s.raise e).cur = s.cur := rfl
@[simp] theorem State.raise_flags (s : State) (e : ErrCode) : (s.raise e).flags = s.flags := rfl
@[simp] theorem State.raise_fcnt (s : State) (e : ErrCode) : (s.raise e).fcnt = s.fcnt := rfl
@[simp] theorem State.raise_acc (s : State) (e : ErrCode) : (s.raise e).acc = s.acc := rfl
@[simp] theorem State.raise_bcnt (s : State) (e : ErrCode) : (s.raise e).bcnt = s.bcnt := rfl
@[simp] theorem State.raise_node (s : State) (e : ErrCode) : (s.raise e).node = s.node := rfl
@[simp] theorem State.raise_ht (s : State) (e : ErrCode) : (s.raise e).ht = s.ht := rfl
@[simp] theorem State.raise_ringS (s : State) (e : ErrCode) : (s.raise e).ringS = s.ringS := rfl
@[simp] theorem State.raise_ringR (s : State) (e : ErrCode) : (s.raise e).ringR = s.ringR := rfl
@[simp] theorem State.raise_lookLen (s : State) (e : ErrCode) : (s.raise e).lookLen = s.lookLen := rfl
@[simp] theorem State.raise_matchPos (s : State) (e : ErrCode) : (s.raise e).matchPos = s.matchPos := rfl
@[simp] theorem State.raise_matchLen (s : State) (e : ErrCode) : (s.raise e).matchLen = s.matchLen := rfl
@[simp] theorem State.raise_lastLen (s : State) (e : ErrCode) : (s.raise e).lastLen = s.lastLen := rfl
@[simp] theorem State.raise_codeBuf (s : State) (e : ErrCode) : (s.raise e).codeBuf = s.codeBuf := rfl
@[simp] theorem State.raise_codePtr (s : State) (e : ErrCode) : (s.raise e).codePtr = s.codePtr := rfl
@[simp] theorem State.raise_mask (s : State) (e : ErrCode) : (s.raise e).mask = s.mask := rfl
@[simp] theorem State.raise_lson (s : State) (e : ErrCode) : (s.raise e).lson = s.lson := rfl
@[simp] theorem State.raise_rson (s : State) (e : ErrCode) : (s.raise e).rson = s.rson := rfl
@[simp] theorem State.raise_dad (s : State) (e : ErrCode) : (s.raise e).dad = s.dad := rfl
@[simp] theorem State.raise_lwm (s : State) (e : ErrCode) : (s.raise e).lwm = s.lwm := rfl
@[simp] theorem State.raise_lastOff (s : State) (e : ErrCode) : (s.raise e).lastOff = s.lastOff := rfl
@[simp] theorem State.raise_key (s : State) (e : ErrCode) : (s.raise e).key = s.key := rfl
@[simp] theorem State.raise_cipherKind (s : State) (e : ErrCode) : (s.raise e).cipherKind = s.cipherKind := rfl
@[simp] theorem State.raise_src (s : State) (e : ErrCode) : (s.raise e).src = s.src := rfl
@[simp] theorem State.raise_dst (s : State) (e : ErrCode) : (s.raise e).dst = s.dst := rfl

-- `State.stop` (R136)
@[simp] theorem State.stop_agenda (s : State) : s.stop.agenda = s.agenda := rfl
@[simp] theorem State.stop_resetLine (s : State) : s.stop.resetLine = s.resetLine := rfl
@[simp] theorem State.stop_readData (s : State) : s.stop.readData = s.readData := rfl
@[simp] theorem State.stop_freeCount (s : State) : s.stop.freeCount = s.freeCount := rfl
@[simp] theorem State.stop_err (s : State) : s.stop.err = s.err := rfl
@[simp] theorem State.stop_srcLen (s : State) : s.stop.srcLen = s.srcLen := rfl
@[simp] theorem State.stop_take (s : State) : s.stop.take = s.take := rfl
@[simp] theorem State.stop_skip (s : State) : s.stop.skip = s.skip := rfl
@[simp] theorem State.stop_maxOut (s : State) : s.stop.maxOut = s.maxOut := rfl
@[simp] theorem State.stop_fill (s : State) : s.stop.fill = s.fill := rfl
@[simp] theorem State.stop_keySeed (s : State) : s.stop.keySeed = s.keySeed := rfl
@[simp] theorem State.stop_htAddr (s : State) : s.stop.htAddr = s.htAddr := rfl
@[simp] theorem State.stop_phase (s : State) : s.stop.phase = .done := rfl
@[simp] theorem State.stop_unit (s : State) : s.stop.unit = s.unit := rfl
@[simp] theorem State.stop_ustate (s : State) : s.stop.ustate = s.ustate := rfl
@[simp] theorem State.stop_pos (s : State) : s.stop.pos = s.pos := rfl
@[simp] theorem State.stop_lenKnown (s : State) : s.stop.lenKnown = s.lenKnown := rfl
@[simp] theorem State.stop_capEn (s : State) : s.stop.capEn = s.capEn := rfl
@[simp] theorem State.stop_skipRem (s : State) : s.stop.skipRem = s.skipRem := rfl
@[simp] theorem State.stop_takeRem (s : State) : s.stop.takeRem = s.takeRem := rfl
@[simp] theorem State.stop_outCount (s : State) : s.stop.outCount = s.outCount := rfl
@[simp] theorem State.stop_winFill (s : State) : s.stop.winFill = s.winFill := rfl
@[simp] theorem State.stop_win (s : State) : s.stop.win = s.win := rfl
@[simp] theorem State.stop_cur (s : State) : s.stop.cur = s.cur := rfl
@[simp] theorem State.stop_flags (s : State) : s.stop.flags = s.flags := rfl
@[simp] theorem State.stop_fcnt (s : State) : s.stop.fcnt = s.fcnt := rfl
@[simp] theorem State.stop_acc (s : State) : s.stop.acc = s.acc := rfl
@[simp] theorem State.stop_bcnt (s : State) : s.stop.bcnt = s.bcnt := rfl
@[simp] theorem State.stop_node (s : State) : s.stop.node = s.node := rfl
@[simp] theorem State.stop_ht (s : State) : s.stop.ht = s.ht := rfl
@[simp] theorem State.stop_ringS (s : State) : s.stop.ringS = s.ringS := rfl
@[simp] theorem State.stop_ringR (s : State) : s.stop.ringR = s.ringR := rfl
@[simp] theorem State.stop_lookLen (s : State) : s.stop.lookLen = s.lookLen := rfl
@[simp] theorem State.stop_matchPos (s : State) : s.stop.matchPos = s.matchPos := rfl
@[simp] theorem State.stop_matchLen (s : State) : s.stop.matchLen = s.matchLen := rfl
@[simp] theorem State.stop_lastLen (s : State) : s.stop.lastLen = s.lastLen := rfl
@[simp] theorem State.stop_codeBuf (s : State) : s.stop.codeBuf = s.codeBuf := rfl
@[simp] theorem State.stop_codePtr (s : State) : s.stop.codePtr = s.codePtr := rfl
@[simp] theorem State.stop_mask (s : State) : s.stop.mask = s.mask := rfl
@[simp] theorem State.stop_lson (s : State) : s.stop.lson = s.lson := rfl
@[simp] theorem State.stop_rson (s : State) : s.stop.rson = s.rson := rfl
@[simp] theorem State.stop_dad (s : State) : s.stop.dad = s.dad := rfl
@[simp] theorem State.stop_lwm (s : State) : s.stop.lwm = s.lwm := rfl
@[simp] theorem State.stop_lastOff (s : State) : s.stop.lastOff = s.lastOff := rfl
@[simp] theorem State.stop_key (s : State) : s.stop.key = s.key := rfl
@[simp] theorem State.stop_cipherKind (s : State) : s.stop.cipherKind = s.cipherKind := rfl
@[simp] theorem State.stop_src (s : State) : s.stop.src = s.src := rfl
@[simp] theorem State.stop_dst (s : State) : s.stop.dst = s.dst := rfl

-- `State.withCursor` (R26, R31)
@[simp] theorem State.withCursor_agenda (s : State) (c : Cursor) : (s.withCursor c).agenda = s.agenda := rfl
@[simp] theorem State.withCursor_resetLine (s : State) (c : Cursor) : (s.withCursor c).resetLine = s.resetLine := rfl
@[simp] theorem State.withCursor_readData (s : State) (c : Cursor) : (s.withCursor c).readData = s.readData := rfl
@[simp] theorem State.withCursor_freeCount (s : State) (c : Cursor) : (s.withCursor c).freeCount = s.freeCount := rfl
@[simp] theorem State.withCursor_err (s : State) (c : Cursor) : (s.withCursor c).err = s.err := rfl
@[simp] theorem State.withCursor_srcLen (s : State) (c : Cursor) : (s.withCursor c).srcLen = s.srcLen := rfl
@[simp] theorem State.withCursor_take (s : State) (c : Cursor) : (s.withCursor c).take = s.take := rfl
@[simp] theorem State.withCursor_skip (s : State) (c : Cursor) : (s.withCursor c).skip = s.skip := rfl
@[simp] theorem State.withCursor_maxOut (s : State) (c : Cursor) : (s.withCursor c).maxOut = s.maxOut := rfl
@[simp] theorem State.withCursor_fill (s : State) (c : Cursor) : (s.withCursor c).fill = s.fill := rfl
@[simp] theorem State.withCursor_keySeed (s : State) (c : Cursor) : (s.withCursor c).keySeed = s.keySeed := rfl
@[simp] theorem State.withCursor_htAddr (s : State) (c : Cursor) : (s.withCursor c).htAddr = s.htAddr := rfl
@[simp] theorem State.withCursor_phase (s : State) (c : Cursor) : (s.withCursor c).phase = s.phase := rfl
@[simp] theorem State.withCursor_unit (s : State) (c : Cursor) : (s.withCursor c).unit = s.unit := rfl
@[simp] theorem State.withCursor_ustate (s : State) (c : Cursor) : (s.withCursor c).ustate = s.ustate := rfl
@[simp] theorem State.withCursor_pos (s : State) (c : Cursor) : (s.withCursor c).pos = c.pos := rfl
@[simp] theorem State.withCursor_lenKnown (s : State) (c : Cursor) : (s.withCursor c).lenKnown = s.lenKnown := rfl
@[simp] theorem State.withCursor_capEn (s : State) (c : Cursor) : (s.withCursor c).capEn = s.capEn := rfl
@[simp] theorem State.withCursor_skipRem (s : State) (c : Cursor) : (s.withCursor c).skipRem = s.skipRem := rfl
@[simp] theorem State.withCursor_takeRem (s : State) (c : Cursor) : (s.withCursor c).takeRem = s.takeRem := rfl
@[simp] theorem State.withCursor_outCount (s : State) (c : Cursor) : (s.withCursor c).outCount = s.outCount := rfl
@[simp] theorem State.withCursor_winFill (s : State) (c : Cursor) : (s.withCursor c).winFill = s.winFill := rfl
@[simp] theorem State.withCursor_win (s : State) (c : Cursor) : (s.withCursor c).win = s.win := rfl
@[simp] theorem State.withCursor_cur (s : State) (c : Cursor) : (s.withCursor c).cur = s.cur := rfl
@[simp] theorem State.withCursor_flags (s : State) (c : Cursor) : (s.withCursor c).flags = s.flags := rfl
@[simp] theorem State.withCursor_fcnt (s : State) (c : Cursor) : (s.withCursor c).fcnt = s.fcnt := rfl
@[simp] theorem State.withCursor_acc (s : State) (c : Cursor) : (s.withCursor c).acc = c.acc := rfl
@[simp] theorem State.withCursor_bcnt (s : State) (c : Cursor) : (s.withCursor c).bcnt = c.bcnt := rfl
@[simp] theorem State.withCursor_node (s : State) (c : Cursor) : (s.withCursor c).node = s.node := rfl
@[simp] theorem State.withCursor_ht (s : State) (c : Cursor) : (s.withCursor c).ht = s.ht := rfl
@[simp] theorem State.withCursor_ringS (s : State) (c : Cursor) : (s.withCursor c).ringS = s.ringS := rfl
@[simp] theorem State.withCursor_ringR (s : State) (c : Cursor) : (s.withCursor c).ringR = s.ringR := rfl
@[simp] theorem State.withCursor_lookLen (s : State) (c : Cursor) : (s.withCursor c).lookLen = s.lookLen := rfl
@[simp] theorem State.withCursor_matchPos (s : State) (c : Cursor) : (s.withCursor c).matchPos = s.matchPos := rfl
@[simp] theorem State.withCursor_matchLen (s : State) (c : Cursor) : (s.withCursor c).matchLen = s.matchLen := rfl
@[simp] theorem State.withCursor_lastLen (s : State) (c : Cursor) : (s.withCursor c).lastLen = s.lastLen := rfl
@[simp] theorem State.withCursor_codeBuf (s : State) (c : Cursor) : (s.withCursor c).codeBuf = s.codeBuf := rfl
@[simp] theorem State.withCursor_codePtr (s : State) (c : Cursor) : (s.withCursor c).codePtr = s.codePtr := rfl
@[simp] theorem State.withCursor_mask (s : State) (c : Cursor) : (s.withCursor c).mask = s.mask := rfl
@[simp] theorem State.withCursor_lson (s : State) (c : Cursor) : (s.withCursor c).lson = s.lson := rfl
@[simp] theorem State.withCursor_rson (s : State) (c : Cursor) : (s.withCursor c).rson = s.rson := rfl
@[simp] theorem State.withCursor_dad (s : State) (c : Cursor) : (s.withCursor c).dad = s.dad := rfl
@[simp] theorem State.withCursor_lwm (s : State) (c : Cursor) : (s.withCursor c).lwm = s.lwm := rfl
@[simp] theorem State.withCursor_lastOff (s : State) (c : Cursor) : (s.withCursor c).lastOff = s.lastOff := rfl
@[simp] theorem State.withCursor_key (s : State) (c : Cursor) : (s.withCursor c).key = s.key := rfl
@[simp] theorem State.withCursor_cipherKind (s : State) (c : Cursor) : (s.withCursor c).cipherKind = s.cipherKind := rfl
@[simp] theorem State.withCursor_src (s : State) (c : Cursor) : (s.withCursor c).src = s.src := rfl
@[simp] theorem State.withCursor_dst (s : State) (c : Cursor) : (s.withCursor c).dst = s.dst := rfl

-- `State.setWin` (R63)
@[simp] theorem State.setWin_agenda (s : State) (i : Ring) (b : Byte) : (s.setWin i b).agenda = s.agenda := rfl
@[simp] theorem State.setWin_resetLine (s : State) (i : Ring) (b : Byte) : (s.setWin i b).resetLine = s.resetLine := rfl
@[simp] theorem State.setWin_readData (s : State) (i : Ring) (b : Byte) : (s.setWin i b).readData = s.readData := rfl
@[simp] theorem State.setWin_freeCount (s : State) (i : Ring) (b : Byte) : (s.setWin i b).freeCount = s.freeCount := rfl
@[simp] theorem State.setWin_err (s : State) (i : Ring) (b : Byte) : (s.setWin i b).err = s.err := rfl
@[simp] theorem State.setWin_srcLen (s : State) (i : Ring) (b : Byte) : (s.setWin i b).srcLen = s.srcLen := rfl
@[simp] theorem State.setWin_take (s : State) (i : Ring) (b : Byte) : (s.setWin i b).take = s.take := rfl
@[simp] theorem State.setWin_skip (s : State) (i : Ring) (b : Byte) : (s.setWin i b).skip = s.skip := rfl
@[simp] theorem State.setWin_maxOut (s : State) (i : Ring) (b : Byte) : (s.setWin i b).maxOut = s.maxOut := rfl
@[simp] theorem State.setWin_fill (s : State) (i : Ring) (b : Byte) : (s.setWin i b).fill = s.fill := rfl
@[simp] theorem State.setWin_keySeed (s : State) (i : Ring) (b : Byte) : (s.setWin i b).keySeed = s.keySeed := rfl
@[simp] theorem State.setWin_htAddr (s : State) (i : Ring) (b : Byte) : (s.setWin i b).htAddr = s.htAddr := rfl
@[simp] theorem State.setWin_phase (s : State) (i : Ring) (b : Byte) : (s.setWin i b).phase = s.phase := rfl
@[simp] theorem State.setWin_unit (s : State) (i : Ring) (b : Byte) : (s.setWin i b).unit = s.unit := rfl
@[simp] theorem State.setWin_ustate (s : State) (i : Ring) (b : Byte) : (s.setWin i b).ustate = s.ustate := rfl
@[simp] theorem State.setWin_pos (s : State) (i : Ring) (b : Byte) : (s.setWin i b).pos = s.pos := rfl
@[simp] theorem State.setWin_lenKnown (s : State) (i : Ring) (b : Byte) : (s.setWin i b).lenKnown = s.lenKnown := rfl
@[simp] theorem State.setWin_capEn (s : State) (i : Ring) (b : Byte) : (s.setWin i b).capEn = s.capEn := rfl
@[simp] theorem State.setWin_skipRem (s : State) (i : Ring) (b : Byte) : (s.setWin i b).skipRem = s.skipRem := rfl
@[simp] theorem State.setWin_takeRem (s : State) (i : Ring) (b : Byte) : (s.setWin i b).takeRem = s.takeRem := rfl
@[simp] theorem State.setWin_outCount (s : State) (i : Ring) (b : Byte) : (s.setWin i b).outCount = s.outCount := rfl
@[simp] theorem State.setWin_winFill (s : State) (i : Ring) (b : Byte) : (s.setWin i b).winFill = s.winFill := rfl
@[simp] theorem State.setWin_win (s : State) (i : Ring) (b : Byte) : (s.setWin i b).win = Memory.write s.winFill s.win i.toNat b := rfl
@[simp] theorem State.setWin_cur (s : State) (i : Ring) (b : Byte) : (s.setWin i b).cur = s.cur := rfl
@[simp] theorem State.setWin_flags (s : State) (i : Ring) (b : Byte) : (s.setWin i b).flags = s.flags := rfl
@[simp] theorem State.setWin_fcnt (s : State) (i : Ring) (b : Byte) : (s.setWin i b).fcnt = s.fcnt := rfl
@[simp] theorem State.setWin_acc (s : State) (i : Ring) (b : Byte) : (s.setWin i b).acc = s.acc := rfl
@[simp] theorem State.setWin_bcnt (s : State) (i : Ring) (b : Byte) : (s.setWin i b).bcnt = s.bcnt := rfl
@[simp] theorem State.setWin_node (s : State) (i : Ring) (b : Byte) : (s.setWin i b).node = s.node := rfl
@[simp] theorem State.setWin_ht (s : State) (i : Ring) (b : Byte) : (s.setWin i b).ht = s.ht := rfl
@[simp] theorem State.setWin_ringS (s : State) (i : Ring) (b : Byte) : (s.setWin i b).ringS = s.ringS := rfl
@[simp] theorem State.setWin_ringR (s : State) (i : Ring) (b : Byte) : (s.setWin i b).ringR = s.ringR := rfl
@[simp] theorem State.setWin_lookLen (s : State) (i : Ring) (b : Byte) : (s.setWin i b).lookLen = s.lookLen := rfl
@[simp] theorem State.setWin_matchPos (s : State) (i : Ring) (b : Byte) : (s.setWin i b).matchPos = s.matchPos := rfl
@[simp] theorem State.setWin_matchLen (s : State) (i : Ring) (b : Byte) : (s.setWin i b).matchLen = s.matchLen := rfl
@[simp] theorem State.setWin_lastLen (s : State) (i : Ring) (b : Byte) : (s.setWin i b).lastLen = s.lastLen := rfl
@[simp] theorem State.setWin_codeBuf (s : State) (i : Ring) (b : Byte) : (s.setWin i b).codeBuf = s.codeBuf := rfl
@[simp] theorem State.setWin_codePtr (s : State) (i : Ring) (b : Byte) : (s.setWin i b).codePtr = s.codePtr := rfl
@[simp] theorem State.setWin_mask (s : State) (i : Ring) (b : Byte) : (s.setWin i b).mask = s.mask := rfl
@[simp] theorem State.setWin_lson (s : State) (i : Ring) (b : Byte) : (s.setWin i b).lson = s.lson := rfl
@[simp] theorem State.setWin_rson (s : State) (i : Ring) (b : Byte) : (s.setWin i b).rson = s.rson := rfl
@[simp] theorem State.setWin_dad (s : State) (i : Ring) (b : Byte) : (s.setWin i b).dad = s.dad := rfl
@[simp] theorem State.setWin_lwm (s : State) (i : Ring) (b : Byte) : (s.setWin i b).lwm = s.lwm := rfl
@[simp] theorem State.setWin_lastOff (s : State) (i : Ring) (b : Byte) : (s.setWin i b).lastOff = s.lastOff := rfl
@[simp] theorem State.setWin_key (s : State) (i : Ring) (b : Byte) : (s.setWin i b).key = s.key := rfl
@[simp] theorem State.setWin_cipherKind (s : State) (i : Ring) (b : Byte) : (s.setWin i b).cipherKind = s.cipherKind := rfl
@[simp] theorem State.setWin_src (s : State) (i : Ring) (b : Byte) : (s.setWin i b).src = s.src := rfl
@[simp] theorem State.setWin_dst (s : State) (i : Ring) (b : Byte) : (s.setWin i b).dst = s.dst := rfl

-- `State.fillWindow` (R28)
@[simp] theorem State.fillWindow_agenda (s : State) : s.fillWindow.agenda = s.agenda := rfl
@[simp] theorem State.fillWindow_resetLine (s : State) : s.fillWindow.resetLine = s.resetLine := rfl
@[simp] theorem State.fillWindow_readData (s : State) : s.fillWindow.readData = s.readData := rfl
@[simp] theorem State.fillWindow_freeCount (s : State) : s.fillWindow.freeCount = s.freeCount := rfl
@[simp] theorem State.fillWindow_err (s : State) : s.fillWindow.err = s.err := rfl
@[simp] theorem State.fillWindow_srcLen (s : State) : s.fillWindow.srcLen = s.srcLen := rfl
@[simp] theorem State.fillWindow_take (s : State) : s.fillWindow.take = s.take := rfl
@[simp] theorem State.fillWindow_skip (s : State) : s.fillWindow.skip = s.skip := rfl
@[simp] theorem State.fillWindow_maxOut (s : State) : s.fillWindow.maxOut = s.maxOut := rfl
@[simp] theorem State.fillWindow_fill (s : State) : s.fillWindow.fill = s.fill := rfl
@[simp] theorem State.fillWindow_keySeed (s : State) : s.fillWindow.keySeed = s.keySeed := rfl
@[simp] theorem State.fillWindow_htAddr (s : State) : s.fillWindow.htAddr = s.htAddr := rfl
@[simp] theorem State.fillWindow_phase (s : State) : s.fillWindow.phase = s.phase := rfl
@[simp] theorem State.fillWindow_unit (s : State) : s.fillWindow.unit = s.unit := rfl
@[simp] theorem State.fillWindow_ustate (s : State) : s.fillWindow.ustate = s.ustate := rfl
@[simp] theorem State.fillWindow_pos (s : State) : s.fillWindow.pos = s.pos := rfl
@[simp] theorem State.fillWindow_lenKnown (s : State) : s.fillWindow.lenKnown = s.lenKnown := rfl
@[simp] theorem State.fillWindow_capEn (s : State) : s.fillWindow.capEn = s.capEn := rfl
@[simp] theorem State.fillWindow_skipRem (s : State) : s.fillWindow.skipRem = s.skipRem := rfl
@[simp] theorem State.fillWindow_takeRem (s : State) : s.fillWindow.takeRem = s.takeRem := rfl
@[simp] theorem State.fillWindow_outCount (s : State) : s.fillWindow.outCount = s.outCount := rfl
@[simp] theorem State.fillWindow_winFill (s : State) : s.fillWindow.winFill = s.fill := rfl
@[simp] theorem State.fillWindow_win (s : State) : s.fillWindow.win = [] := rfl
@[simp] theorem State.fillWindow_cur (s : State) : s.fillWindow.cur = Config.curInit := rfl
@[simp] theorem State.fillWindow_flags (s : State) : s.fillWindow.flags = s.flags := rfl
@[simp] theorem State.fillWindow_fcnt (s : State) : s.fillWindow.fcnt = s.fcnt := rfl
@[simp] theorem State.fillWindow_acc (s : State) : s.fillWindow.acc = s.acc := rfl
@[simp] theorem State.fillWindow_bcnt (s : State) : s.fillWindow.bcnt = s.bcnt := rfl
@[simp] theorem State.fillWindow_node (s : State) : s.fillWindow.node = s.node := rfl
@[simp] theorem State.fillWindow_ht (s : State) : s.fillWindow.ht = s.ht := rfl
@[simp] theorem State.fillWindow_ringS (s : State) : s.fillWindow.ringS = s.ringS := rfl
@[simp] theorem State.fillWindow_ringR (s : State) : s.fillWindow.ringR = s.ringR := rfl
@[simp] theorem State.fillWindow_lookLen (s : State) : s.fillWindow.lookLen = s.lookLen := rfl
@[simp] theorem State.fillWindow_matchPos (s : State) : s.fillWindow.matchPos = s.matchPos := rfl
@[simp] theorem State.fillWindow_matchLen (s : State) : s.fillWindow.matchLen = s.matchLen := rfl
@[simp] theorem State.fillWindow_lastLen (s : State) : s.fillWindow.lastLen = s.lastLen := rfl
@[simp] theorem State.fillWindow_codeBuf (s : State) : s.fillWindow.codeBuf = s.codeBuf := rfl
@[simp] theorem State.fillWindow_codePtr (s : State) : s.fillWindow.codePtr = s.codePtr := rfl
@[simp] theorem State.fillWindow_mask (s : State) : s.fillWindow.mask = s.mask := rfl
@[simp] theorem State.fillWindow_lson (s : State) : s.fillWindow.lson = s.lson := rfl
@[simp] theorem State.fillWindow_rson (s : State) : s.fillWindow.rson = s.rson := rfl
@[simp] theorem State.fillWindow_dad (s : State) : s.fillWindow.dad = s.dad := rfl
@[simp] theorem State.fillWindow_lwm (s : State) : s.fillWindow.lwm = s.lwm := rfl
@[simp] theorem State.fillWindow_lastOff (s : State) : s.fillWindow.lastOff = s.lastOff := rfl
@[simp] theorem State.fillWindow_key (s : State) : s.fillWindow.key = s.key := rfl
@[simp] theorem State.fillWindow_cipherKind (s : State) : s.fillWindow.cipherKind = s.cipherKind := rfl
@[simp] theorem State.fillWindow_src (s : State) : s.fillWindow.src = s.src := rfl
@[simp] theorem State.fillWindow_dst (s : State) : s.fillWindow.dst = s.dst := rfl

-- `State.push` (R132)
@[simp] theorem State.push_agenda (s : State) (b : Byte) : (s.push b).agenda = s.agenda := rfl
@[simp] theorem State.push_resetLine (s : State) (b : Byte) : (s.push b).resetLine = s.resetLine := rfl
@[simp] theorem State.push_readData (s : State) (b : Byte) : (s.push b).readData = s.readData := rfl
@[simp] theorem State.push_freeCount (s : State) (b : Byte) : (s.push b).freeCount = s.freeCount := rfl
@[simp] theorem State.push_err (s : State) (b : Byte) : (s.push b).err = s.err := rfl
@[simp] theorem State.push_srcLen (s : State) (b : Byte) : (s.push b).srcLen = s.srcLen := rfl
@[simp] theorem State.push_take (s : State) (b : Byte) : (s.push b).take = s.take := rfl
@[simp] theorem State.push_skip (s : State) (b : Byte) : (s.push b).skip = s.skip := rfl
@[simp] theorem State.push_maxOut (s : State) (b : Byte) : (s.push b).maxOut = s.maxOut := rfl
@[simp] theorem State.push_fill (s : State) (b : Byte) : (s.push b).fill = s.fill := rfl
@[simp] theorem State.push_keySeed (s : State) (b : Byte) : (s.push b).keySeed = s.keySeed := rfl
@[simp] theorem State.push_htAddr (s : State) (b : Byte) : (s.push b).htAddr = s.htAddr := rfl
@[simp] theorem State.push_phase (s : State) (b : Byte) : (s.push b).phase = s.phase := rfl
@[simp] theorem State.push_unit (s : State) (b : Byte) : (s.push b).unit = s.unit := rfl
@[simp] theorem State.push_ustate (s : State) (b : Byte) : (s.push b).ustate = s.ustate := rfl
@[simp] theorem State.push_pos (s : State) (b : Byte) : (s.push b).pos = s.pos := rfl
@[simp] theorem State.push_lenKnown (s : State) (b : Byte) : (s.push b).lenKnown = s.lenKnown := rfl
@[simp] theorem State.push_capEn (s : State) (b : Byte) : (s.push b).capEn = s.capEn := rfl
@[simp] theorem State.push_skipRem (s : State) (b : Byte) : (s.push b).skipRem = s.skipRem := rfl
@[simp] theorem State.push_takeRem (s : State) (b : Byte) : (s.push b).takeRem = s.takeRem := rfl
@[simp] theorem State.push_outCount (s : State) (b : Byte) : (s.push b).outCount = s.outCount := rfl
@[simp] theorem State.push_winFill (s : State) (b : Byte) : (s.push b).winFill = s.winFill := rfl
@[simp] theorem State.push_win (s : State) (b : Byte) : (s.push b).win = Memory.write s.winFill s.win s.cur.toNat b := rfl
@[simp] theorem State.push_cur (s : State) (b : Byte) : (s.push b).cur = s.cur + 1 := rfl
@[simp] theorem State.push_flags (s : State) (b : Byte) : (s.push b).flags = s.flags := rfl
@[simp] theorem State.push_fcnt (s : State) (b : Byte) : (s.push b).fcnt = s.fcnt := rfl
@[simp] theorem State.push_acc (s : State) (b : Byte) : (s.push b).acc = s.acc := rfl
@[simp] theorem State.push_bcnt (s : State) (b : Byte) : (s.push b).bcnt = s.bcnt := rfl
@[simp] theorem State.push_node (s : State) (b : Byte) : (s.push b).node = s.node := rfl
@[simp] theorem State.push_ht (s : State) (b : Byte) : (s.push b).ht = s.ht := rfl
@[simp] theorem State.push_ringS (s : State) (b : Byte) : (s.push b).ringS = s.ringS := rfl
@[simp] theorem State.push_ringR (s : State) (b : Byte) : (s.push b).ringR = s.ringR := rfl
@[simp] theorem State.push_lookLen (s : State) (b : Byte) : (s.push b).lookLen = s.lookLen := rfl
@[simp] theorem State.push_matchPos (s : State) (b : Byte) : (s.push b).matchPos = s.matchPos := rfl
@[simp] theorem State.push_matchLen (s : State) (b : Byte) : (s.push b).matchLen = s.matchLen := rfl
@[simp] theorem State.push_lastLen (s : State) (b : Byte) : (s.push b).lastLen = s.lastLen := rfl
@[simp] theorem State.push_codeBuf (s : State) (b : Byte) : (s.push b).codeBuf = s.codeBuf := rfl
@[simp] theorem State.push_codePtr (s : State) (b : Byte) : (s.push b).codePtr = s.codePtr := rfl
@[simp] theorem State.push_mask (s : State) (b : Byte) : (s.push b).mask = s.mask := rfl
@[simp] theorem State.push_lson (s : State) (b : Byte) : (s.push b).lson = s.lson := rfl
@[simp] theorem State.push_rson (s : State) (b : Byte) : (s.push b).rson = s.rson := rfl
@[simp] theorem State.push_dad (s : State) (b : Byte) : (s.push b).dad = s.dad := rfl
@[simp] theorem State.push_lwm (s : State) (b : Byte) : (s.push b).lwm = s.lwm := rfl
@[simp] theorem State.push_lastOff (s : State) (b : Byte) : (s.push b).lastOff = s.lastOff := rfl
@[simp] theorem State.push_key (s : State) (b : Byte) : (s.push b).key = s.key := rfl
@[simp] theorem State.push_cipherKind (s : State) (b : Byte) : (s.push b).cipherKind = s.cipherKind := rfl
@[simp] theorem State.push_src (s : State) (b : Byte) : (s.push b).src = s.src := rfl
@[simp] theorem State.push_dst (s : State) (b : Byte) : (s.push b).dst = s.dst := rfl

-- `State.appendDst` (R62)
@[simp] theorem State.appendDst_agenda (s : State) (b : Byte) : (s.appendDst b).agenda = s.agenda := rfl
@[simp] theorem State.appendDst_resetLine (s : State) (b : Byte) : (s.appendDst b).resetLine = s.resetLine := rfl
@[simp] theorem State.appendDst_readData (s : State) (b : Byte) : (s.appendDst b).readData = s.readData := rfl
@[simp] theorem State.appendDst_freeCount (s : State) (b : Byte) : (s.appendDst b).freeCount = s.freeCount := rfl
@[simp] theorem State.appendDst_err (s : State) (b : Byte) : (s.appendDst b).err = s.err := rfl
@[simp] theorem State.appendDst_srcLen (s : State) (b : Byte) : (s.appendDst b).srcLen = s.srcLen := rfl
@[simp] theorem State.appendDst_take (s : State) (b : Byte) : (s.appendDst b).take = s.take := rfl
@[simp] theorem State.appendDst_skip (s : State) (b : Byte) : (s.appendDst b).skip = s.skip := rfl
@[simp] theorem State.appendDst_maxOut (s : State) (b : Byte) : (s.appendDst b).maxOut = s.maxOut := rfl
@[simp] theorem State.appendDst_fill (s : State) (b : Byte) : (s.appendDst b).fill = s.fill := rfl
@[simp] theorem State.appendDst_keySeed (s : State) (b : Byte) : (s.appendDst b).keySeed = s.keySeed := rfl
@[simp] theorem State.appendDst_htAddr (s : State) (b : Byte) : (s.appendDst b).htAddr = s.htAddr := rfl
@[simp] theorem State.appendDst_phase (s : State) (b : Byte) : (s.appendDst b).phase = s.phase := rfl
@[simp] theorem State.appendDst_unit (s : State) (b : Byte) : (s.appendDst b).unit = s.unit := rfl
@[simp] theorem State.appendDst_ustate (s : State) (b : Byte) : (s.appendDst b).ustate = s.ustate := rfl
@[simp] theorem State.appendDst_pos (s : State) (b : Byte) : (s.appendDst b).pos = s.pos := rfl
@[simp] theorem State.appendDst_lenKnown (s : State) (b : Byte) : (s.appendDst b).lenKnown = s.lenKnown := rfl
@[simp] theorem State.appendDst_capEn (s : State) (b : Byte) : (s.appendDst b).capEn = s.capEn := rfl
@[simp] theorem State.appendDst_skipRem (s : State) (b : Byte) : (s.appendDst b).skipRem = s.skipRem := rfl
@[simp] theorem State.appendDst_takeRem (s : State) (b : Byte) : (s.appendDst b).takeRem = s.takeRem := rfl
@[simp] theorem State.appendDst_outCount (s : State) (b : Byte) : (s.appendDst b).outCount = s.outCount := rfl
@[simp] theorem State.appendDst_winFill (s : State) (b : Byte) : (s.appendDst b).winFill = s.winFill := rfl
@[simp] theorem State.appendDst_win (s : State) (b : Byte) : (s.appendDst b).win = s.win := rfl
@[simp] theorem State.appendDst_cur (s : State) (b : Byte) : (s.appendDst b).cur = s.cur := rfl
@[simp] theorem State.appendDst_flags (s : State) (b : Byte) : (s.appendDst b).flags = s.flags := rfl
@[simp] theorem State.appendDst_fcnt (s : State) (b : Byte) : (s.appendDst b).fcnt = s.fcnt := rfl
@[simp] theorem State.appendDst_acc (s : State) (b : Byte) : (s.appendDst b).acc = s.acc := rfl
@[simp] theorem State.appendDst_bcnt (s : State) (b : Byte) : (s.appendDst b).bcnt = s.bcnt := rfl
@[simp] theorem State.appendDst_node (s : State) (b : Byte) : (s.appendDst b).node = s.node := rfl
@[simp] theorem State.appendDst_ht (s : State) (b : Byte) : (s.appendDst b).ht = s.ht := rfl
@[simp] theorem State.appendDst_ringS (s : State) (b : Byte) : (s.appendDst b).ringS = s.ringS := rfl
@[simp] theorem State.appendDst_ringR (s : State) (b : Byte) : (s.appendDst b).ringR = s.ringR := rfl
@[simp] theorem State.appendDst_lookLen (s : State) (b : Byte) : (s.appendDst b).lookLen = s.lookLen := rfl
@[simp] theorem State.appendDst_matchPos (s : State) (b : Byte) : (s.appendDst b).matchPos = s.matchPos := rfl
@[simp] theorem State.appendDst_matchLen (s : State) (b : Byte) : (s.appendDst b).matchLen = s.matchLen := rfl
@[simp] theorem State.appendDst_lastLen (s : State) (b : Byte) : (s.appendDst b).lastLen = s.lastLen := rfl
@[simp] theorem State.appendDst_codeBuf (s : State) (b : Byte) : (s.appendDst b).codeBuf = s.codeBuf := rfl
@[simp] theorem State.appendDst_codePtr (s : State) (b : Byte) : (s.appendDst b).codePtr = s.codePtr := rfl
@[simp] theorem State.appendDst_mask (s : State) (b : Byte) : (s.appendDst b).mask = s.mask := rfl
@[simp] theorem State.appendDst_lson (s : State) (b : Byte) : (s.appendDst b).lson = s.lson := rfl
@[simp] theorem State.appendDst_rson (s : State) (b : Byte) : (s.appendDst b).rson = s.rson := rfl
@[simp] theorem State.appendDst_dad (s : State) (b : Byte) : (s.appendDst b).dad = s.dad := rfl
@[simp] theorem State.appendDst_lwm (s : State) (b : Byte) : (s.appendDst b).lwm = s.lwm := rfl
@[simp] theorem State.appendDst_lastOff (s : State) (b : Byte) : (s.appendDst b).lastOff = s.lastOff := rfl
@[simp] theorem State.appendDst_key (s : State) (b : Byte) : (s.appendDst b).key = s.key := rfl
@[simp] theorem State.appendDst_cipherKind (s : State) (b : Byte) : (s.appendDst b).cipherKind = s.cipherKind := rfl
@[simp] theorem State.appendDst_src (s : State) (b : Byte) : (s.appendDst b).src = s.src := rfl
@[simp] theorem State.appendDst_dst (s : State) (b : Byte) : (s.appendDst b).dst = s.dst ++ [b] := rfl

-- `State.emit` (R138)
@[simp] theorem State.emit_agenda (s : State) (b : Byte) : (s.emit b).agenda = s.agenda := rfl
@[simp] theorem State.emit_resetLine (s : State) (b : Byte) : (s.emit b).resetLine = s.resetLine := rfl
@[simp] theorem State.emit_readData (s : State) (b : Byte) : (s.emit b).readData = s.readData := rfl
@[simp] theorem State.emit_freeCount (s : State) (b : Byte) : (s.emit b).freeCount = s.freeCount := rfl
@[simp] theorem State.emit_err (s : State) (b : Byte) : (s.emit b).err = s.err := rfl
@[simp] theorem State.emit_srcLen (s : State) (b : Byte) : (s.emit b).srcLen = s.srcLen := rfl
@[simp] theorem State.emit_take (s : State) (b : Byte) : (s.emit b).take = s.take := rfl
@[simp] theorem State.emit_skip (s : State) (b : Byte) : (s.emit b).skip = s.skip := rfl
@[simp] theorem State.emit_maxOut (s : State) (b : Byte) : (s.emit b).maxOut = s.maxOut := rfl
@[simp] theorem State.emit_fill (s : State) (b : Byte) : (s.emit b).fill = s.fill := rfl
@[simp] theorem State.emit_keySeed (s : State) (b : Byte) : (s.emit b).keySeed = s.keySeed := rfl
@[simp] theorem State.emit_htAddr (s : State) (b : Byte) : (s.emit b).htAddr = s.htAddr := rfl
@[simp] theorem State.emit_phase (s : State) (b : Byte) : (s.emit b).phase = s.phase := rfl
@[simp] theorem State.emit_unit (s : State) (b : Byte) : (s.emit b).unit = s.unit := rfl
@[simp] theorem State.emit_ustate (s : State) (b : Byte) : (s.emit b).ustate = s.ustate := rfl
@[simp] theorem State.emit_pos (s : State) (b : Byte) : (s.emit b).pos = s.pos := rfl
@[simp] theorem State.emit_lenKnown (s : State) (b : Byte) : (s.emit b).lenKnown = s.lenKnown := rfl
@[simp] theorem State.emit_capEn (s : State) (b : Byte) : (s.emit b).capEn = s.capEn := rfl
@[simp] theorem State.emit_skipRem (s : State) (b : Byte) : (s.emit b).skipRem = s.skipRem := rfl
@[simp] theorem State.emit_takeRem (s : State) (b : Byte) : (s.emit b).takeRem = s.takeRem := rfl
@[simp] theorem State.emit_outCount (s : State) (b : Byte) : (s.emit b).outCount = s.outCount + 1 := rfl
@[simp] theorem State.emit_winFill (s : State) (b : Byte) : (s.emit b).winFill = s.winFill := rfl
@[simp] theorem State.emit_win (s : State) (b : Byte) : (s.emit b).win = s.win := rfl
@[simp] theorem State.emit_cur (s : State) (b : Byte) : (s.emit b).cur = s.cur := rfl
@[simp] theorem State.emit_flags (s : State) (b : Byte) : (s.emit b).flags = s.flags := rfl
@[simp] theorem State.emit_fcnt (s : State) (b : Byte) : (s.emit b).fcnt = s.fcnt := rfl
@[simp] theorem State.emit_acc (s : State) (b : Byte) : (s.emit b).acc = s.acc := rfl
@[simp] theorem State.emit_bcnt (s : State) (b : Byte) : (s.emit b).bcnt = s.bcnt := rfl
@[simp] theorem State.emit_node (s : State) (b : Byte) : (s.emit b).node = s.node := rfl
@[simp] theorem State.emit_ht (s : State) (b : Byte) : (s.emit b).ht = s.ht := rfl
@[simp] theorem State.emit_ringS (s : State) (b : Byte) : (s.emit b).ringS = s.ringS := rfl
@[simp] theorem State.emit_ringR (s : State) (b : Byte) : (s.emit b).ringR = s.ringR := rfl
@[simp] theorem State.emit_lookLen (s : State) (b : Byte) : (s.emit b).lookLen = s.lookLen := rfl
@[simp] theorem State.emit_matchPos (s : State) (b : Byte) : (s.emit b).matchPos = s.matchPos := rfl
@[simp] theorem State.emit_matchLen (s : State) (b : Byte) : (s.emit b).matchLen = s.matchLen := rfl
@[simp] theorem State.emit_lastLen (s : State) (b : Byte) : (s.emit b).lastLen = s.lastLen := rfl
@[simp] theorem State.emit_codeBuf (s : State) (b : Byte) : (s.emit b).codeBuf = s.codeBuf := rfl
@[simp] theorem State.emit_codePtr (s : State) (b : Byte) : (s.emit b).codePtr = s.codePtr := rfl
@[simp] theorem State.emit_mask (s : State) (b : Byte) : (s.emit b).mask = s.mask := rfl
@[simp] theorem State.emit_lson (s : State) (b : Byte) : (s.emit b).lson = s.lson := rfl
@[simp] theorem State.emit_rson (s : State) (b : Byte) : (s.emit b).rson = s.rson := rfl
@[simp] theorem State.emit_dad (s : State) (b : Byte) : (s.emit b).dad = s.dad := rfl
@[simp] theorem State.emit_lwm (s : State) (b : Byte) : (s.emit b).lwm = s.lwm := rfl
@[simp] theorem State.emit_lastOff (s : State) (b : Byte) : (s.emit b).lastOff = s.lastOff := rfl
@[simp] theorem State.emit_key (s : State) (b : Byte) : (s.emit b).key = s.key := rfl
@[simp] theorem State.emit_cipherKind (s : State) (b : Byte) : (s.emit b).cipherKind = s.cipherKind := rfl
@[simp] theorem State.emit_src (s : State) (b : Byte) : (s.emit b).src = s.src := rfl
@[simp] theorem State.emit_dst (s : State) (b : Byte) : (s.emit b).dst = s.dst ++ [b] := rfl

-- `State.setLson` (R35)
@[simp] theorem State.setLson_agenda (s : State) (p v : TreeIdx) : (s.setLson p v).agenda = s.agenda := rfl
@[simp] theorem State.setLson_resetLine (s : State) (p v : TreeIdx) : (s.setLson p v).resetLine = s.resetLine := rfl
@[simp] theorem State.setLson_readData (s : State) (p v : TreeIdx) : (s.setLson p v).readData = s.readData := rfl
@[simp] theorem State.setLson_freeCount (s : State) (p v : TreeIdx) : (s.setLson p v).freeCount = s.freeCount := rfl
@[simp] theorem State.setLson_err (s : State) (p v : TreeIdx) : (s.setLson p v).err = s.err := rfl
@[simp] theorem State.setLson_srcLen (s : State) (p v : TreeIdx) : (s.setLson p v).srcLen = s.srcLen := rfl
@[simp] theorem State.setLson_take (s : State) (p v : TreeIdx) : (s.setLson p v).take = s.take := rfl
@[simp] theorem State.setLson_skip (s : State) (p v : TreeIdx) : (s.setLson p v).skip = s.skip := rfl
@[simp] theorem State.setLson_maxOut (s : State) (p v : TreeIdx) : (s.setLson p v).maxOut = s.maxOut := rfl
@[simp] theorem State.setLson_fill (s : State) (p v : TreeIdx) : (s.setLson p v).fill = s.fill := rfl
@[simp] theorem State.setLson_keySeed (s : State) (p v : TreeIdx) : (s.setLson p v).keySeed = s.keySeed := rfl
@[simp] theorem State.setLson_htAddr (s : State) (p v : TreeIdx) : (s.setLson p v).htAddr = s.htAddr := rfl
@[simp] theorem State.setLson_phase (s : State) (p v : TreeIdx) : (s.setLson p v).phase = s.phase := rfl
@[simp] theorem State.setLson_unit (s : State) (p v : TreeIdx) : (s.setLson p v).unit = s.unit := rfl
@[simp] theorem State.setLson_ustate (s : State) (p v : TreeIdx) : (s.setLson p v).ustate = s.ustate := rfl
@[simp] theorem State.setLson_pos (s : State) (p v : TreeIdx) : (s.setLson p v).pos = s.pos := rfl
@[simp] theorem State.setLson_lenKnown (s : State) (p v : TreeIdx) : (s.setLson p v).lenKnown = s.lenKnown := rfl
@[simp] theorem State.setLson_capEn (s : State) (p v : TreeIdx) : (s.setLson p v).capEn = s.capEn := rfl
@[simp] theorem State.setLson_skipRem (s : State) (p v : TreeIdx) : (s.setLson p v).skipRem = s.skipRem := rfl
@[simp] theorem State.setLson_takeRem (s : State) (p v : TreeIdx) : (s.setLson p v).takeRem = s.takeRem := rfl
@[simp] theorem State.setLson_outCount (s : State) (p v : TreeIdx) : (s.setLson p v).outCount = s.outCount := rfl
@[simp] theorem State.setLson_winFill (s : State) (p v : TreeIdx) : (s.setLson p v).winFill = s.winFill := rfl
@[simp] theorem State.setLson_win (s : State) (p v : TreeIdx) : (s.setLson p v).win = s.win := rfl
@[simp] theorem State.setLson_cur (s : State) (p v : TreeIdx) : (s.setLson p v).cur = s.cur := rfl
@[simp] theorem State.setLson_flags (s : State) (p v : TreeIdx) : (s.setLson p v).flags = s.flags := rfl
@[simp] theorem State.setLson_fcnt (s : State) (p v : TreeIdx) : (s.setLson p v).fcnt = s.fcnt := rfl
@[simp] theorem State.setLson_acc (s : State) (p v : TreeIdx) : (s.setLson p v).acc = s.acc := rfl
@[simp] theorem State.setLson_bcnt (s : State) (p v : TreeIdx) : (s.setLson p v).bcnt = s.bcnt := rfl
@[simp] theorem State.setLson_node (s : State) (p v : TreeIdx) : (s.setLson p v).node = s.node := rfl
@[simp] theorem State.setLson_ht (s : State) (p v : TreeIdx) : (s.setLson p v).ht = s.ht := rfl
@[simp] theorem State.setLson_ringS (s : State) (p v : TreeIdx) : (s.setLson p v).ringS = s.ringS := rfl
@[simp] theorem State.setLson_ringR (s : State) (p v : TreeIdx) : (s.setLson p v).ringR = s.ringR := rfl
@[simp] theorem State.setLson_lookLen (s : State) (p v : TreeIdx) : (s.setLson p v).lookLen = s.lookLen := rfl
@[simp] theorem State.setLson_matchPos (s : State) (p v : TreeIdx) : (s.setLson p v).matchPos = s.matchPos := rfl
@[simp] theorem State.setLson_matchLen (s : State) (p v : TreeIdx) : (s.setLson p v).matchLen = s.matchLen := rfl
@[simp] theorem State.setLson_lastLen (s : State) (p v : TreeIdx) : (s.setLson p v).lastLen = s.lastLen := rfl
@[simp] theorem State.setLson_codeBuf (s : State) (p v : TreeIdx) : (s.setLson p v).codeBuf = s.codeBuf := rfl
@[simp] theorem State.setLson_codePtr (s : State) (p v : TreeIdx) : (s.setLson p v).codePtr = s.codePtr := rfl
@[simp] theorem State.setLson_mask (s : State) (p v : TreeIdx) : (s.setLson p v).mask = s.mask := rfl
@[simp] theorem State.setLson_lson (s : State) (p v : TreeIdx) : (s.setLson p v).lson = Memory.write Config.nil s.lson p.toNat v := rfl
@[simp] theorem State.setLson_rson (s : State) (p v : TreeIdx) : (s.setLson p v).rson = s.rson := rfl
@[simp] theorem State.setLson_dad (s : State) (p v : TreeIdx) : (s.setLson p v).dad = s.dad := rfl
@[simp] theorem State.setLson_lwm (s : State) (p v : TreeIdx) : (s.setLson p v).lwm = s.lwm := rfl
@[simp] theorem State.setLson_lastOff (s : State) (p v : TreeIdx) : (s.setLson p v).lastOff = s.lastOff := rfl
@[simp] theorem State.setLson_key (s : State) (p v : TreeIdx) : (s.setLson p v).key = s.key := rfl
@[simp] theorem State.setLson_cipherKind (s : State) (p v : TreeIdx) : (s.setLson p v).cipherKind = s.cipherKind := rfl
@[simp] theorem State.setLson_src (s : State) (p v : TreeIdx) : (s.setLson p v).src = s.src := rfl
@[simp] theorem State.setLson_dst (s : State) (p v : TreeIdx) : (s.setLson p v).dst = s.dst := rfl

-- `State.setRson` (R35)
@[simp] theorem State.setRson_agenda (s : State) (p v : TreeIdx) : (s.setRson p v).agenda = s.agenda := rfl
@[simp] theorem State.setRson_resetLine (s : State) (p v : TreeIdx) : (s.setRson p v).resetLine = s.resetLine := rfl
@[simp] theorem State.setRson_readData (s : State) (p v : TreeIdx) : (s.setRson p v).readData = s.readData := rfl
@[simp] theorem State.setRson_freeCount (s : State) (p v : TreeIdx) : (s.setRson p v).freeCount = s.freeCount := rfl
@[simp] theorem State.setRson_err (s : State) (p v : TreeIdx) : (s.setRson p v).err = s.err := rfl
@[simp] theorem State.setRson_srcLen (s : State) (p v : TreeIdx) : (s.setRson p v).srcLen = s.srcLen := rfl
@[simp] theorem State.setRson_take (s : State) (p v : TreeIdx) : (s.setRson p v).take = s.take := rfl
@[simp] theorem State.setRson_skip (s : State) (p v : TreeIdx) : (s.setRson p v).skip = s.skip := rfl
@[simp] theorem State.setRson_maxOut (s : State) (p v : TreeIdx) : (s.setRson p v).maxOut = s.maxOut := rfl
@[simp] theorem State.setRson_fill (s : State) (p v : TreeIdx) : (s.setRson p v).fill = s.fill := rfl
@[simp] theorem State.setRson_keySeed (s : State) (p v : TreeIdx) : (s.setRson p v).keySeed = s.keySeed := rfl
@[simp] theorem State.setRson_htAddr (s : State) (p v : TreeIdx) : (s.setRson p v).htAddr = s.htAddr := rfl
@[simp] theorem State.setRson_phase (s : State) (p v : TreeIdx) : (s.setRson p v).phase = s.phase := rfl
@[simp] theorem State.setRson_unit (s : State) (p v : TreeIdx) : (s.setRson p v).unit = s.unit := rfl
@[simp] theorem State.setRson_ustate (s : State) (p v : TreeIdx) : (s.setRson p v).ustate = s.ustate := rfl
@[simp] theorem State.setRson_pos (s : State) (p v : TreeIdx) : (s.setRson p v).pos = s.pos := rfl
@[simp] theorem State.setRson_lenKnown (s : State) (p v : TreeIdx) : (s.setRson p v).lenKnown = s.lenKnown := rfl
@[simp] theorem State.setRson_capEn (s : State) (p v : TreeIdx) : (s.setRson p v).capEn = s.capEn := rfl
@[simp] theorem State.setRson_skipRem (s : State) (p v : TreeIdx) : (s.setRson p v).skipRem = s.skipRem := rfl
@[simp] theorem State.setRson_takeRem (s : State) (p v : TreeIdx) : (s.setRson p v).takeRem = s.takeRem := rfl
@[simp] theorem State.setRson_outCount (s : State) (p v : TreeIdx) : (s.setRson p v).outCount = s.outCount := rfl
@[simp] theorem State.setRson_winFill (s : State) (p v : TreeIdx) : (s.setRson p v).winFill = s.winFill := rfl
@[simp] theorem State.setRson_win (s : State) (p v : TreeIdx) : (s.setRson p v).win = s.win := rfl
@[simp] theorem State.setRson_cur (s : State) (p v : TreeIdx) : (s.setRson p v).cur = s.cur := rfl
@[simp] theorem State.setRson_flags (s : State) (p v : TreeIdx) : (s.setRson p v).flags = s.flags := rfl
@[simp] theorem State.setRson_fcnt (s : State) (p v : TreeIdx) : (s.setRson p v).fcnt = s.fcnt := rfl
@[simp] theorem State.setRson_acc (s : State) (p v : TreeIdx) : (s.setRson p v).acc = s.acc := rfl
@[simp] theorem State.setRson_bcnt (s : State) (p v : TreeIdx) : (s.setRson p v).bcnt = s.bcnt := rfl
@[simp] theorem State.setRson_node (s : State) (p v : TreeIdx) : (s.setRson p v).node = s.node := rfl
@[simp] theorem State.setRson_ht (s : State) (p v : TreeIdx) : (s.setRson p v).ht = s.ht := rfl
@[simp] theorem State.setRson_ringS (s : State) (p v : TreeIdx) : (s.setRson p v).ringS = s.ringS := rfl
@[simp] theorem State.setRson_ringR (s : State) (p v : TreeIdx) : (s.setRson p v).ringR = s.ringR := rfl
@[simp] theorem State.setRson_lookLen (s : State) (p v : TreeIdx) : (s.setRson p v).lookLen = s.lookLen := rfl
@[simp] theorem State.setRson_matchPos (s : State) (p v : TreeIdx) : (s.setRson p v).matchPos = s.matchPos := rfl
@[simp] theorem State.setRson_matchLen (s : State) (p v : TreeIdx) : (s.setRson p v).matchLen = s.matchLen := rfl
@[simp] theorem State.setRson_lastLen (s : State) (p v : TreeIdx) : (s.setRson p v).lastLen = s.lastLen := rfl
@[simp] theorem State.setRson_codeBuf (s : State) (p v : TreeIdx) : (s.setRson p v).codeBuf = s.codeBuf := rfl
@[simp] theorem State.setRson_codePtr (s : State) (p v : TreeIdx) : (s.setRson p v).codePtr = s.codePtr := rfl
@[simp] theorem State.setRson_mask (s : State) (p v : TreeIdx) : (s.setRson p v).mask = s.mask := rfl
@[simp] theorem State.setRson_lson (s : State) (p v : TreeIdx) : (s.setRson p v).lson = s.lson := rfl
@[simp] theorem State.setRson_rson (s : State) (p v : TreeIdx) : (s.setRson p v).rson = Memory.write Config.nil s.rson p.toNat v := rfl
@[simp] theorem State.setRson_dad (s : State) (p v : TreeIdx) : (s.setRson p v).dad = s.dad := rfl
@[simp] theorem State.setRson_lwm (s : State) (p v : TreeIdx) : (s.setRson p v).lwm = s.lwm := rfl
@[simp] theorem State.setRson_lastOff (s : State) (p v : TreeIdx) : (s.setRson p v).lastOff = s.lastOff := rfl
@[simp] theorem State.setRson_key (s : State) (p v : TreeIdx) : (s.setRson p v).key = s.key := rfl
@[simp] theorem State.setRson_cipherKind (s : State) (p v : TreeIdx) : (s.setRson p v).cipherKind = s.cipherKind := rfl
@[simp] theorem State.setRson_src (s : State) (p v : TreeIdx) : (s.setRson p v).src = s.src := rfl
@[simp] theorem State.setRson_dst (s : State) (p v : TreeIdx) : (s.setRson p v).dst = s.dst := rfl

-- `State.setDad` (R35)
@[simp] theorem State.setDad_agenda (s : State) (p v : TreeIdx) : (s.setDad p v).agenda = s.agenda := rfl
@[simp] theorem State.setDad_resetLine (s : State) (p v : TreeIdx) : (s.setDad p v).resetLine = s.resetLine := rfl
@[simp] theorem State.setDad_readData (s : State) (p v : TreeIdx) : (s.setDad p v).readData = s.readData := rfl
@[simp] theorem State.setDad_freeCount (s : State) (p v : TreeIdx) : (s.setDad p v).freeCount = s.freeCount := rfl
@[simp] theorem State.setDad_err (s : State) (p v : TreeIdx) : (s.setDad p v).err = s.err := rfl
@[simp] theorem State.setDad_srcLen (s : State) (p v : TreeIdx) : (s.setDad p v).srcLen = s.srcLen := rfl
@[simp] theorem State.setDad_take (s : State) (p v : TreeIdx) : (s.setDad p v).take = s.take := rfl
@[simp] theorem State.setDad_skip (s : State) (p v : TreeIdx) : (s.setDad p v).skip = s.skip := rfl
@[simp] theorem State.setDad_maxOut (s : State) (p v : TreeIdx) : (s.setDad p v).maxOut = s.maxOut := rfl
@[simp] theorem State.setDad_fill (s : State) (p v : TreeIdx) : (s.setDad p v).fill = s.fill := rfl
@[simp] theorem State.setDad_keySeed (s : State) (p v : TreeIdx) : (s.setDad p v).keySeed = s.keySeed := rfl
@[simp] theorem State.setDad_htAddr (s : State) (p v : TreeIdx) : (s.setDad p v).htAddr = s.htAddr := rfl
@[simp] theorem State.setDad_phase (s : State) (p v : TreeIdx) : (s.setDad p v).phase = s.phase := rfl
@[simp] theorem State.setDad_unit (s : State) (p v : TreeIdx) : (s.setDad p v).unit = s.unit := rfl
@[simp] theorem State.setDad_ustate (s : State) (p v : TreeIdx) : (s.setDad p v).ustate = s.ustate := rfl
@[simp] theorem State.setDad_pos (s : State) (p v : TreeIdx) : (s.setDad p v).pos = s.pos := rfl
@[simp] theorem State.setDad_lenKnown (s : State) (p v : TreeIdx) : (s.setDad p v).lenKnown = s.lenKnown := rfl
@[simp] theorem State.setDad_capEn (s : State) (p v : TreeIdx) : (s.setDad p v).capEn = s.capEn := rfl
@[simp] theorem State.setDad_skipRem (s : State) (p v : TreeIdx) : (s.setDad p v).skipRem = s.skipRem := rfl
@[simp] theorem State.setDad_takeRem (s : State) (p v : TreeIdx) : (s.setDad p v).takeRem = s.takeRem := rfl
@[simp] theorem State.setDad_outCount (s : State) (p v : TreeIdx) : (s.setDad p v).outCount = s.outCount := rfl
@[simp] theorem State.setDad_winFill (s : State) (p v : TreeIdx) : (s.setDad p v).winFill = s.winFill := rfl
@[simp] theorem State.setDad_win (s : State) (p v : TreeIdx) : (s.setDad p v).win = s.win := rfl
@[simp] theorem State.setDad_cur (s : State) (p v : TreeIdx) : (s.setDad p v).cur = s.cur := rfl
@[simp] theorem State.setDad_flags (s : State) (p v : TreeIdx) : (s.setDad p v).flags = s.flags := rfl
@[simp] theorem State.setDad_fcnt (s : State) (p v : TreeIdx) : (s.setDad p v).fcnt = s.fcnt := rfl
@[simp] theorem State.setDad_acc (s : State) (p v : TreeIdx) : (s.setDad p v).acc = s.acc := rfl
@[simp] theorem State.setDad_bcnt (s : State) (p v : TreeIdx) : (s.setDad p v).bcnt = s.bcnt := rfl
@[simp] theorem State.setDad_node (s : State) (p v : TreeIdx) : (s.setDad p v).node = s.node := rfl
@[simp] theorem State.setDad_ht (s : State) (p v : TreeIdx) : (s.setDad p v).ht = s.ht := rfl
@[simp] theorem State.setDad_ringS (s : State) (p v : TreeIdx) : (s.setDad p v).ringS = s.ringS := rfl
@[simp] theorem State.setDad_ringR (s : State) (p v : TreeIdx) : (s.setDad p v).ringR = s.ringR := rfl
@[simp] theorem State.setDad_lookLen (s : State) (p v : TreeIdx) : (s.setDad p v).lookLen = s.lookLen := rfl
@[simp] theorem State.setDad_matchPos (s : State) (p v : TreeIdx) : (s.setDad p v).matchPos = s.matchPos := rfl
@[simp] theorem State.setDad_matchLen (s : State) (p v : TreeIdx) : (s.setDad p v).matchLen = s.matchLen := rfl
@[simp] theorem State.setDad_lastLen (s : State) (p v : TreeIdx) : (s.setDad p v).lastLen = s.lastLen := rfl
@[simp] theorem State.setDad_codeBuf (s : State) (p v : TreeIdx) : (s.setDad p v).codeBuf = s.codeBuf := rfl
@[simp] theorem State.setDad_codePtr (s : State) (p v : TreeIdx) : (s.setDad p v).codePtr = s.codePtr := rfl
@[simp] theorem State.setDad_mask (s : State) (p v : TreeIdx) : (s.setDad p v).mask = s.mask := rfl
@[simp] theorem State.setDad_lson (s : State) (p v : TreeIdx) : (s.setDad p v).lson = s.lson := rfl
@[simp] theorem State.setDad_rson (s : State) (p v : TreeIdx) : (s.setDad p v).rson = s.rson := rfl
@[simp] theorem State.setDad_dad (s : State) (p v : TreeIdx) : (s.setDad p v).dad = Memory.write Config.nil s.dad p.toNat v := rfl
@[simp] theorem State.setDad_lwm (s : State) (p v : TreeIdx) : (s.setDad p v).lwm = s.lwm := rfl
@[simp] theorem State.setDad_lastOff (s : State) (p v : TreeIdx) : (s.setDad p v).lastOff = s.lastOff := rfl
@[simp] theorem State.setDad_key (s : State) (p v : TreeIdx) : (s.setDad p v).key = s.key := rfl
@[simp] theorem State.setDad_cipherKind (s : State) (p v : TreeIdx) : (s.setDad p v).cipherKind = s.cipherKind := rfl
@[simp] theorem State.setDad_src (s : State) (p v : TreeIdx) : (s.setDad p v).src = s.src := rfl
@[simp] theorem State.setDad_dst (s : State) (p v : TreeIdx) : (s.setDad p v).dst = s.dst := rfl

-- `State.slide` (R181)
@[simp] theorem State.slide_agenda (s : State) : s.slide.agenda = s.agenda := rfl
@[simp] theorem State.slide_resetLine (s : State) : s.slide.resetLine = s.resetLine := rfl
@[simp] theorem State.slide_readData (s : State) : s.slide.readData = s.readData := rfl
@[simp] theorem State.slide_freeCount (s : State) : s.slide.freeCount = s.freeCount := rfl
@[simp] theorem State.slide_err (s : State) : s.slide.err = s.err := rfl
@[simp] theorem State.slide_srcLen (s : State) : s.slide.srcLen = s.srcLen := rfl
@[simp] theorem State.slide_take (s : State) : s.slide.take = s.take := rfl
@[simp] theorem State.slide_skip (s : State) : s.slide.skip = s.skip := rfl
@[simp] theorem State.slide_maxOut (s : State) : s.slide.maxOut = s.maxOut := rfl
@[simp] theorem State.slide_fill (s : State) : s.slide.fill = s.fill := rfl
@[simp] theorem State.slide_keySeed (s : State) : s.slide.keySeed = s.keySeed := rfl
@[simp] theorem State.slide_htAddr (s : State) : s.slide.htAddr = s.htAddr := rfl
@[simp] theorem State.slide_phase (s : State) : s.slide.phase = s.phase := rfl
@[simp] theorem State.slide_unit (s : State) : s.slide.unit = s.unit := rfl
@[simp] theorem State.slide_ustate (s : State) : s.slide.ustate = s.ustate := rfl
@[simp] theorem State.slide_pos (s : State) : s.slide.pos = s.pos := rfl
@[simp] theorem State.slide_lenKnown (s : State) : s.slide.lenKnown = s.lenKnown := rfl
@[simp] theorem State.slide_capEn (s : State) : s.slide.capEn = s.capEn := rfl
@[simp] theorem State.slide_skipRem (s : State) : s.slide.skipRem = s.skipRem := rfl
@[simp] theorem State.slide_takeRem (s : State) : s.slide.takeRem = s.takeRem := rfl
@[simp] theorem State.slide_outCount (s : State) : s.slide.outCount = s.outCount := rfl
@[simp] theorem State.slide_winFill (s : State) : s.slide.winFill = s.winFill := rfl
@[simp] theorem State.slide_win (s : State) : s.slide.win = s.win := rfl
@[simp] theorem State.slide_cur (s : State) : s.slide.cur = s.cur := rfl
@[simp] theorem State.slide_flags (s : State) : s.slide.flags = s.flags := rfl
@[simp] theorem State.slide_fcnt (s : State) : s.slide.fcnt = s.fcnt := rfl
@[simp] theorem State.slide_acc (s : State) : s.slide.acc = s.acc := rfl
@[simp] theorem State.slide_bcnt (s : State) : s.slide.bcnt = s.bcnt := rfl
@[simp] theorem State.slide_node (s : State) : s.slide.node = s.node := rfl
@[simp] theorem State.slide_ht (s : State) : s.slide.ht = s.ht := rfl
@[simp] theorem State.slide_ringS (s : State) : s.slide.ringS = s.ringS + 1 := rfl
@[simp] theorem State.slide_ringR (s : State) : s.slide.ringR = s.ringR + 1 := rfl
@[simp] theorem State.slide_lookLen (s : State) : s.slide.lookLen = s.lookLen := rfl
@[simp] theorem State.slide_matchPos (s : State) : s.slide.matchPos = s.matchPos := rfl
@[simp] theorem State.slide_matchLen (s : State) : s.slide.matchLen = s.matchLen := rfl
@[simp] theorem State.slide_lastLen (s : State) : s.slide.lastLen = s.lastLen := rfl
@[simp] theorem State.slide_codeBuf (s : State) : s.slide.codeBuf = s.codeBuf := rfl
@[simp] theorem State.slide_codePtr (s : State) : s.slide.codePtr = s.codePtr := rfl
@[simp] theorem State.slide_mask (s : State) : s.slide.mask = s.mask := rfl
@[simp] theorem State.slide_lson (s : State) : s.slide.lson = s.lson := rfl
@[simp] theorem State.slide_rson (s : State) : s.slide.rson = s.rson := rfl
@[simp] theorem State.slide_dad (s : State) : s.slide.dad = s.dad := rfl
@[simp] theorem State.slide_lwm (s : State) : s.slide.lwm = s.lwm := rfl
@[simp] theorem State.slide_lastOff (s : State) : s.slide.lastOff = s.lastOff := rfl
@[simp] theorem State.slide_key (s : State) : s.slide.key = s.key := rfl
@[simp] theorem State.slide_cipherKind (s : State) : s.slide.cipherKind = s.cipherKind := rfl
@[simp] theorem State.slide_src (s : State) : s.slide.src = s.src := rfl
@[simp] theorem State.slide_dst (s : State) : s.slide.dst = s.dst := rfl

-- `State.glzNext` (R224)
@[simp] theorem State.glzNext_agenda (s : State) : s.glzNext.agenda = s.agenda := rfl
@[simp] theorem State.glzNext_resetLine (s : State) : s.glzNext.resetLine = s.resetLine := rfl
@[simp] theorem State.glzNext_readData (s : State) : s.glzNext.readData = s.readData := rfl
@[simp] theorem State.glzNext_freeCount (s : State) : s.glzNext.freeCount = s.freeCount := rfl
@[simp] theorem State.glzNext_err (s : State) : s.glzNext.err = s.err := rfl
@[simp] theorem State.glzNext_srcLen (s : State) : s.glzNext.srcLen = s.srcLen := rfl
@[simp] theorem State.glzNext_take (s : State) : s.glzNext.take = s.take := rfl
@[simp] theorem State.glzNext_skip (s : State) : s.glzNext.skip = s.skip := rfl
@[simp] theorem State.glzNext_maxOut (s : State) : s.glzNext.maxOut = s.maxOut := rfl
@[simp] theorem State.glzNext_fill (s : State) : s.glzNext.fill = s.fill := rfl
@[simp] theorem State.glzNext_keySeed (s : State) : s.glzNext.keySeed = s.keySeed := rfl
@[simp] theorem State.glzNext_htAddr (s : State) : s.glzNext.htAddr = s.htAddr := rfl
@[simp] theorem State.glzNext_phase (s : State) : s.glzNext.phase = s.phase := rfl
@[simp] theorem State.glzNext_unit (s : State) : s.glzNext.unit = s.unit := rfl
@[simp] theorem State.glzNext_ustate (s : State) : s.glzNext.ustate = UState.token := rfl
@[simp] theorem State.glzNext_pos (s : State) : s.glzNext.pos = s.pos := rfl
@[simp] theorem State.glzNext_lenKnown (s : State) : s.glzNext.lenKnown = s.lenKnown := rfl
@[simp] theorem State.glzNext_capEn (s : State) : s.glzNext.capEn = s.capEn := rfl
@[simp] theorem State.glzNext_skipRem (s : State) : s.glzNext.skipRem = s.skipRem := rfl
@[simp] theorem State.glzNext_takeRem (s : State) : s.glzNext.takeRem = s.takeRem := rfl
@[simp] theorem State.glzNext_outCount (s : State) : s.glzNext.outCount = s.outCount := rfl
@[simp] theorem State.glzNext_winFill (s : State) : s.glzNext.winFill = s.winFill := rfl
@[simp] theorem State.glzNext_win (s : State) : s.glzNext.win = s.win := rfl
@[simp] theorem State.glzNext_cur (s : State) : s.glzNext.cur = s.cur := rfl
@[simp] theorem State.glzNext_flags (s : State) : s.glzNext.flags = s.flags := rfl
@[simp] theorem State.glzNext_fcnt (s : State) : s.glzNext.fcnt = s.fcnt := rfl
@[simp] theorem State.glzNext_acc (s : State) : s.glzNext.acc = s.acc := rfl
@[simp] theorem State.glzNext_bcnt (s : State) : s.glzNext.bcnt = s.bcnt := rfl
@[simp] theorem State.glzNext_node (s : State) : s.glzNext.node = s.node := rfl
@[simp] theorem State.glzNext_ht (s : State) : s.glzNext.ht = s.ht := rfl
@[simp] theorem State.glzNext_ringS (s : State) : s.glzNext.ringS = s.ringS := rfl
@[simp] theorem State.glzNext_ringR (s : State) : s.glzNext.ringR = s.ringR := rfl
@[simp] theorem State.glzNext_lookLen (s : State) : s.glzNext.lookLen = s.lookLen := rfl
@[simp] theorem State.glzNext_matchPos (s : State) : s.glzNext.matchPos = s.matchPos := rfl
@[simp] theorem State.glzNext_matchLen (s : State) : s.glzNext.matchLen = s.matchLen := rfl
@[simp] theorem State.glzNext_lastLen (s : State) : s.glzNext.lastLen = s.lastLen := rfl
@[simp] theorem State.glzNext_codeBuf (s : State) : s.glzNext.codeBuf = s.codeBuf := rfl
@[simp] theorem State.glzNext_codePtr (s : State) : s.glzNext.codePtr = s.codePtr := rfl
@[simp] theorem State.glzNext_mask (s : State) : s.glzNext.mask = s.mask := rfl
@[simp] theorem State.glzNext_lson (s : State) : s.glzNext.lson = s.lson := rfl
@[simp] theorem State.glzNext_rson (s : State) : s.glzNext.rson = s.rson := rfl
@[simp] theorem State.glzNext_dad (s : State) : s.glzNext.dad = s.dad := rfl
@[simp] theorem State.glzNext_lwm (s : State) : s.glzNext.lwm = s.lwm := rfl
@[simp] theorem State.glzNext_lastOff (s : State) : s.glzNext.lastOff = s.lastOff := rfl
@[simp] theorem State.glzNext_key (s : State) : s.glzNext.key = s.key := rfl
@[simp] theorem State.glzNext_cipherKind (s : State) : s.glzNext.cipherKind = s.cipherKind := rfl
@[simp] theorem State.glzNext_src (s : State) : s.glzNext.src = s.src := rfl
@[simp] theorem State.glzNext_dst (s : State) : s.glzNext.dst = s.dst := rfl

-- `State.writeSrc` (R61)
@[simp] theorem State.writeSrc_agenda (s : State) (i : Count) (b : Byte) : (s.writeSrc i b).agenda = s.agenda := rfl
@[simp] theorem State.writeSrc_resetLine (s : State) (i : Count) (b : Byte) : (s.writeSrc i b).resetLine = s.resetLine := rfl
@[simp] theorem State.writeSrc_readData (s : State) (i : Count) (b : Byte) : (s.writeSrc i b).readData = s.readData := rfl
@[simp] theorem State.writeSrc_freeCount (s : State) (i : Count) (b : Byte) : (s.writeSrc i b).freeCount = s.freeCount := rfl
@[simp] theorem State.writeSrc_err (s : State) (i : Count) (b : Byte) : (s.writeSrc i b).err = s.err := rfl
@[simp] theorem State.writeSrc_srcLen (s : State) (i : Count) (b : Byte) : (s.writeSrc i b).srcLen = s.srcLen := rfl
@[simp] theorem State.writeSrc_take (s : State) (i : Count) (b : Byte) : (s.writeSrc i b).take = s.take := rfl
@[simp] theorem State.writeSrc_skip (s : State) (i : Count) (b : Byte) : (s.writeSrc i b).skip = s.skip := rfl
@[simp] theorem State.writeSrc_maxOut (s : State) (i : Count) (b : Byte) : (s.writeSrc i b).maxOut = s.maxOut := rfl
@[simp] theorem State.writeSrc_fill (s : State) (i : Count) (b : Byte) : (s.writeSrc i b).fill = s.fill := rfl
@[simp] theorem State.writeSrc_keySeed (s : State) (i : Count) (b : Byte) : (s.writeSrc i b).keySeed = s.keySeed := rfl
@[simp] theorem State.writeSrc_htAddr (s : State) (i : Count) (b : Byte) : (s.writeSrc i b).htAddr = s.htAddr := rfl
@[simp] theorem State.writeSrc_phase (s : State) (i : Count) (b : Byte) : (s.writeSrc i b).phase = s.phase := rfl
@[simp] theorem State.writeSrc_unit (s : State) (i : Count) (b : Byte) : (s.writeSrc i b).unit = s.unit := rfl
@[simp] theorem State.writeSrc_ustate (s : State) (i : Count) (b : Byte) : (s.writeSrc i b).ustate = s.ustate := rfl
@[simp] theorem State.writeSrc_pos (s : State) (i : Count) (b : Byte) : (s.writeSrc i b).pos = s.pos := rfl
@[simp] theorem State.writeSrc_lenKnown (s : State) (i : Count) (b : Byte) : (s.writeSrc i b).lenKnown = s.lenKnown := rfl
@[simp] theorem State.writeSrc_capEn (s : State) (i : Count) (b : Byte) : (s.writeSrc i b).capEn = s.capEn := rfl
@[simp] theorem State.writeSrc_skipRem (s : State) (i : Count) (b : Byte) : (s.writeSrc i b).skipRem = s.skipRem := rfl
@[simp] theorem State.writeSrc_takeRem (s : State) (i : Count) (b : Byte) : (s.writeSrc i b).takeRem = s.takeRem := rfl
@[simp] theorem State.writeSrc_outCount (s : State) (i : Count) (b : Byte) : (s.writeSrc i b).outCount = s.outCount := rfl
@[simp] theorem State.writeSrc_winFill (s : State) (i : Count) (b : Byte) : (s.writeSrc i b).winFill = s.winFill := rfl
@[simp] theorem State.writeSrc_win (s : State) (i : Count) (b : Byte) : (s.writeSrc i b).win = s.win := rfl
@[simp] theorem State.writeSrc_cur (s : State) (i : Count) (b : Byte) : (s.writeSrc i b).cur = s.cur := rfl
@[simp] theorem State.writeSrc_flags (s : State) (i : Count) (b : Byte) : (s.writeSrc i b).flags = s.flags := rfl
@[simp] theorem State.writeSrc_fcnt (s : State) (i : Count) (b : Byte) : (s.writeSrc i b).fcnt = s.fcnt := rfl
@[simp] theorem State.writeSrc_acc (s : State) (i : Count) (b : Byte) : (s.writeSrc i b).acc = s.acc := rfl
@[simp] theorem State.writeSrc_bcnt (s : State) (i : Count) (b : Byte) : (s.writeSrc i b).bcnt = s.bcnt := rfl
@[simp] theorem State.writeSrc_node (s : State) (i : Count) (b : Byte) : (s.writeSrc i b).node = s.node := rfl
@[simp] theorem State.writeSrc_ht (s : State) (i : Count) (b : Byte) : (s.writeSrc i b).ht = s.ht := rfl
@[simp] theorem State.writeSrc_ringS (s : State) (i : Count) (b : Byte) : (s.writeSrc i b).ringS = s.ringS := rfl
@[simp] theorem State.writeSrc_ringR (s : State) (i : Count) (b : Byte) : (s.writeSrc i b).ringR = s.ringR := rfl
@[simp] theorem State.writeSrc_lookLen (s : State) (i : Count) (b : Byte) : (s.writeSrc i b).lookLen = s.lookLen := rfl
@[simp] theorem State.writeSrc_matchPos (s : State) (i : Count) (b : Byte) : (s.writeSrc i b).matchPos = s.matchPos := rfl
@[simp] theorem State.writeSrc_matchLen (s : State) (i : Count) (b : Byte) : (s.writeSrc i b).matchLen = s.matchLen := rfl
@[simp] theorem State.writeSrc_lastLen (s : State) (i : Count) (b : Byte) : (s.writeSrc i b).lastLen = s.lastLen := rfl
@[simp] theorem State.writeSrc_codeBuf (s : State) (i : Count) (b : Byte) : (s.writeSrc i b).codeBuf = s.codeBuf := rfl
@[simp] theorem State.writeSrc_codePtr (s : State) (i : Count) (b : Byte) : (s.writeSrc i b).codePtr = s.codePtr := rfl
@[simp] theorem State.writeSrc_mask (s : State) (i : Count) (b : Byte) : (s.writeSrc i b).mask = s.mask := rfl
@[simp] theorem State.writeSrc_lson (s : State) (i : Count) (b : Byte) : (s.writeSrc i b).lson = s.lson := rfl
@[simp] theorem State.writeSrc_rson (s : State) (i : Count) (b : Byte) : (s.writeSrc i b).rson = s.rson := rfl
@[simp] theorem State.writeSrc_dad (s : State) (i : Count) (b : Byte) : (s.writeSrc i b).dad = s.dad := rfl
@[simp] theorem State.writeSrc_lwm (s : State) (i : Count) (b : Byte) : (s.writeSrc i b).lwm = s.lwm := rfl
@[simp] theorem State.writeSrc_lastOff (s : State) (i : Count) (b : Byte) : (s.writeSrc i b).lastOff = s.lastOff := rfl
@[simp] theorem State.writeSrc_key (s : State) (i : Count) (b : Byte) : (s.writeSrc i b).key = s.key := rfl
@[simp] theorem State.writeSrc_cipherKind (s : State) (i : Count) (b : Byte) : (s.writeSrc i b).cipherKind = s.cipherKind := rfl
@[simp] theorem State.writeSrc_src (s : State) (i : Count) (b : Byte) : (s.writeSrc i b).src = Memory.write Config.srcUnwritten s.src i.toNat b := rfl
@[simp] theorem State.writeSrc_dst (s : State) (i : Count) (b : Byte) : (s.writeSrc i b).dst = s.dst := rfl

end Sys2Proof.Machine
end

