-- ==== Sys2Proof/Laws/Ops.lean ====
section
/-! SUPPORT. For each shared operation, one lemma that says everything it can do: the outcomes of a read, of
`Produce` and of a copy, and which registers a walk of the match tree or a step of the encoder may write. -/

namespace Sys2Proof

-- ---------------------------------------------------------------------------------------------------------
-- The cursor and the bit reader (R130, R137)
-- ---------------------------------------------------------------------------------------------------------

theorem Cursor.readByte_cases (c : Cursor) :
    (c.pos = c.srcLen ∧ c.readByte = .endOfInput c) ∨
    (c.pos ≠ c.srcLen ∧
      c.readByte = .got (Machine.Memory.read Config.srcUnwritten c.src c.pos.toNat) { c with pos := c.pos + 1 }) := by
  by_cases h : c.pos = c.srcLen
  · exact .inl ⟨h, if_pos h⟩
  · exact .inr ⟨h, if_neg h⟩

theorem Cursor.getBit_cases (c : Cursor) :
    (c.bcnt ≠ 0 ∧ c.getBit = .got (c.acc.getLsbD 7) { c with acc := c.acc <<< 1, bcnt := c.bcnt - 1 }) ∨
    (c.bcnt = 0 ∧ c.pos = c.srcLen ∧ c.getBit = .endOfInput c) ∨
    (c.bcnt = 0 ∧ c.pos ≠ c.srcLen ∧
      c.getBit = .got ((Machine.Memory.read Config.srcUnwritten c.src c.pos.toNat).getLsbD 7)
        { c with
          pos := c.pos + 1, acc := Machine.Memory.read Config.srcUnwritten c.src c.pos.toNat <<< 1, bcnt := 7 }) := by
  by_cases hb : c.bcnt = 0
  · by_cases h : c.pos = c.srcLen
    · exact .inr (.inl ⟨hb, h, by simp [Cursor.getBit, Cursor.refill, Cursor.readByte, Fetched.andThen, hb, h]⟩)
    · refine .inr (.inr ⟨hb, h, ?_⟩)
      simp [Cursor.getBit, Cursor.refill, Cursor.readByte, Fetched.andThen, hb, h]
  · exact .inl ⟨hb, by rw [Cursor.getBit, Cursor.refill, if_neg hb]; rfl⟩

end Sys2Proof

namespace Sys2Proof.Machine

-- ---------------------------------------------------------------------------------------------------------
-- Frames
-- ---------------------------------------------------------------------------------------------------------

theorem ShellFrame.refl (s : State) : ShellFrame s s := rfl

theorem ShellFrame.trans {s t u : State} (h : ShellFrame s t) (h' : ShellFrame t u) : ShellFrame s u := by
  unfold ShellFrame at *
  rw [h', h]

/-- Only the links of the match tree may differ (R174, R175). -/
def TreeFrame (s t : State) : Prop := t = { s with lson := t.lson, rson := t.rson, dad := t.dad }

/-- Only the links of the match tree and the best match so far may differ (R174). -/
def MatchFrame (s t : State) : Prop :=
  t = { s with lson := t.lson, rson := t.rson, dad := t.dad, matchPos := t.matchPos, matchLen := t.matchLen }

theorem TreeFrame.refl (s : State) : TreeFrame s s := rfl

theorem TreeFrame.trans {s t u : State} (h : TreeFrame s t) (h' : TreeFrame t u) : TreeFrame s u := by
  unfold TreeFrame at *
  rw [h', h]

theorem MatchFrame.refl (s : State) : MatchFrame s s := rfl

theorem MatchFrame.trans {s t u : State} (h : MatchFrame s t) (h' : MatchFrame t u) : MatchFrame s u := by
  unfold MatchFrame at *
  rw [h', h]

theorem TreeFrame.toMatchFrame {s t : State} (h : TreeFrame s t) : MatchFrame s t := by
  unfold TreeFrame at h
  unfold MatchFrame
  rw [h]

theorem State.setLson_frame (s : State) (p v : TreeIdx) : TreeFrame s (s.setLson p v) := rfl
theorem State.setRson_frame (s : State) (p v : TreeIdx) : TreeFrame s (s.setRson p v) := rfl
theorem State.setDad_frame (s : State) (p v : TreeIdx) : TreeFrame s (s.setDad p v) := rfl

-- ---------------------------------------------------------------------------------------------------------
-- The stream, the window, the shell
-- ---------------------------------------------------------------------------------------------------------

theorem State.endOfInput_cases (s : State) :
    (s.lenKnown = true ∧ s.endOfInput = { s with phase := .failed, err := .truncatedInput }) ∨
    (s.lenKnown = false ∧ s.endOfInput = { s with phase := .done }) := by
  by_cases h : s.lenKnown = true
  · exact .inl ⟨h, if_pos h⟩
  · exact .inr ⟨by simpa using h, if_neg h⟩

theorem State.nextInput_cases (s : State) :
    (s.pos = s.srcLen ∧ s.nextInput = none) ∨
    (s.pos ≠ s.srcLen ∧
      s.nextInput = some (Memory.read Config.srcUnwritten s.src s.pos.toNat, { s with pos := s.pos + 1 })) := by
  by_cases h : s.pos = s.srcLen
  · exact .inl ⟨h, if_pos h⟩
  · exact .inr ⟨h, if_neg h⟩

/-- `TEXT[i]` after a write of `TEXT[j]`. -/
theorem State.winAt_setWin (s : State) (i j : Ring) (b : Byte) :
    (s.setWin j b).winAt i = if i = j then b else s.winAt i := by
  simp [State.winAt, Memory.read_write, BitVec.toNat_inj]

/-- `WIN[i]` after `Push` (R132). -/
theorem State.winAt_push (s : State) (i : Ring) (b : Byte) :
    (s.push b).winAt i = if i = s.cur then b else s.winAt i := by
  simp [State.winAt, Memory.read_write, BitVec.toNat_inj]

/-- `WIN[i]` after the fill at a command start (R28). -/
@[simp] theorem State.winAt_fillWindow (s : State) (i : Ring) : s.fillWindow.winAt i = s.fill := rfl

/-- `countByte` moves the cursor and the window only for a unit that has one (R135). -/
theorem State.countByte_eq (s : State) (b : Byte) :
    s.countByte b =
      { s with
        outCount := s.outCount + 1
        win := if s.unit.hasWindow then Memory.write s.winFill s.win s.cur.toNat b else s.win
        cur := if s.unit.hasWindow then s.cur + 1 else s.cur } := by
  unfold State.countByte
  split <;> rfl

/-- `Produce(b)` (R135): it overflows at the cap; withholds a skipped byte; delivers and goes on; or delivers the last
byte wanted and stops. -/
theorem State.produce_cases (s : State) (b : Byte) :
    (s.capEn = true ∧ s.outCount = s.maxOut ∧
      s.produce b = .halt { s with phase := .failed, err := .outputOverflow }) ∨
    (¬(s.capEn = true ∧ s.outCount = s.maxOut) ∧
      ((s.skipRem ≠ 0 ∧ s.produce b = .go { s.countByte b with skipRem := s.skipRem - 1 }) ∨
       (s.skipRem = 0 ∧ s.lenKnown = false ∧ s.produce b = .go { s.countByte b with dst := s.dst ++ [b] }) ∨
       (s.skipRem = 0 ∧ s.lenKnown = true ∧ s.takeRem ≠ 1 ∧
        s.produce b = .go { s.countByte b with dst := s.dst ++ [b], takeRem := s.takeRem - 1 }) ∨
       (s.skipRem = 0 ∧ s.lenKnown = true ∧ s.takeRem = 1 ∧
        s.produce b = .halt { s.countByte b with dst := s.dst ++ [b], takeRem := 0, phase := .done }))) := by
  by_cases hc : s.capEn = true ∧ s.outCount = s.maxOut
  · exact .inl ⟨hc.1, hc.2, by rw [State.produce, if_pos hc]; rfl⟩
  refine .inr ⟨hc, ?_⟩
  by_cases hs : s.skipRem = 0
  · cases hl : s.lenKnown
    · refine .inr (.inl ⟨hs, rfl, ?_⟩)
      rw [State.produce, if_neg hc, if_pos hs, State.countByte_eq]
      simp [State.deliver, hl, State.appendDst]
    · by_cases ht : s.takeRem = 1
      · refine .inr (.inr (.inr ⟨hs, rfl, ht, ?_⟩))
        rw [State.produce, if_neg hc, if_pos hs, State.countByte_eq]
        simp [State.deliver, hl, State.appendDst, State.stop, ht]
      · have ht' : ¬s.takeRem - 1#64 = 0#64 := fun h => ht (by simpa [BitVec.sub_eq_iff_eq_add] using h)
        refine .inr (.inr (.inl ⟨hs, rfl, ht, ?_⟩))
        rw [State.produce, if_neg hc, if_pos hs, State.countByte_eq]
        simp [State.deliver, hl, State.appendDst, ht']
  · exact .inl ⟨hs, by rw [State.produce, if_neg hc, if_neg hs]⟩

/-- `Produce` writes the shell, the window and `DST` only. -/
theorem State.produce_frame (s : State) (b : Byte) : ShellFrame s (s.produce b).state := by
  rcases s.produce_cases b with ⟨-, -, h⟩ | ⟨-, ⟨-, h⟩ | ⟨-, -, h⟩ | ⟨-, -, -, h⟩ | ⟨-, -, -, h⟩⟩ <;>
    rw [h, ShellFrame] <;> simp only [Flow.state, State.countByte_eq]

/-- A copy writes the shell, the window and `DST` only. -/
theorem State.copyBytes_frame (d n : Nat) (s : State) : ShellFrame s (State.copyBytes d n s).state := by
  induction n generalizing s with
  | zero => exact ShellFrame.refl s
  | succ n ih =>
    unfold State.copyBytes
    have h := s.produce_frame (s.winAt (s.cur - BitVec.ofNat 12 d))
    cases hp : s.produce (s.winAt (s.cur - BitVec.ofNat 12 d)) with
    | go s' => rw [hp] at h; exact h.trans (ih s')
    | halt s' => rw [hp] at h; exact h

theorem State.copyBack_frame (s : State) (d n : Nat) : ShellFrame s (s.copyBack d n).state := by
  unfold State.copyBack
  split
  · rfl
  · exact State.copyBytes_frame d n s

/-- A copy of more bytes is a copy of fewer, then of the rest. -/
theorem State.copyBytes_add (d m n : Nat) (s : State) :
    State.copyBytes d (m + n) s = (State.copyBytes d m s).andThen (State.copyBytes d n) := by
  induction m generalizing s with
  | zero => simp [State.copyBytes, Flow.andThen]
  | succ m ih =>
    rw [Nat.succ_add]
    unfold State.copyBytes
    cases s.produce (s.winAt (s.cur - BitVec.ofNat 12 d)) with
    | go s' => exact ih s'
    | halt s' => rfl

/-- `NextToken()` (R153) writes the flag register and `ustate` only. -/
theorem State.nextToken_frame (s : State) :
    s.nextToken = { s with
      flags := s.nextToken.flags, fcnt := s.nextToken.fcnt, ustate := s.nextToken.ustate } := by
  unfold State.nextToken
  split <;> rfl

-- ---------------------------------------------------------------------------------------------------------
-- The register file
-- ---------------------------------------------------------------------------------------------------------

/-- A host read of `DST[i]` always answers, and changes nothing but the answer and, past the end of `DST`, the count of
free bytes (R62, R296). -/
theorem hostReadDst_spec (i : Count) (s : State) :
    ∃ v n, hostReadDst i s = .next { s with readData := v, freeCount := n } ∧
      (s.resetLine = true ∨ i.toNat < s.dst.length → n = s.freeCount) := by
  unfold hostReadDst
  split
  · exact ⟨_, _, rfl, fun _ => rfl⟩
  · rename_i hr
    split
    · exact ⟨_, _, rfl, fun _ => rfl⟩
    · rename_i hd
      refine ⟨_, _, rfl, fun h => ?_⟩
      rcases h with h | h
      · exact absurd h hr
      · exact absurd (List.getElem?_eq_none_iff.mp hd) (by omega)

/-- Entry `k` of the table after a write to `HT_DATA`, and the registers it leaves (R33). -/
theorem State.writeHtData_spec (s : State) (v : BitVec 32) :
    (∀ k : BitVec 9, (s.writeHtData v).htAt k =
      if k = s.htAddr ∧ s.htAddr.toNat < 511 then htOfImage v else s.htAt k) ∧
    s.writeHtData v = { s with ht := (s.writeHtData v).ht, htAddr := s.htAddr + 1 } := by
  refine ⟨fun k => ?_, rfl⟩
  unfold State.htAt State.writeHtData
  by_cases h : s.htAddr.toNat < 511
  · simp [h, Memory.read_write, BitVec.toNat_inj]
  · simp [h]

/-- A register write outside Busy touches the operand registers, `HT_ADDR` and `HT` only (R22). -/
theorem State.writeReg_frame (s : State) (n v : Nat) :
    s.writeReg n v = { s with
      srcLen := (s.writeReg n v).srcLen, take := (s.writeReg n v).take, skip := (s.writeReg n v).skip
      maxOut := (s.writeReg n v).maxOut, fill := (s.writeReg n v).fill, keySeed := (s.writeReg n v).keySeed
      htAddr := (s.writeReg n v).htAddr, ht := (s.writeReg n v).ht } := by
  unfold State.writeReg
  split
  · rfl
  · split <;> rfl

-- ---------------------------------------------------------------------------------------------------------
-- The match tree (R174, R175)
-- ---------------------------------------------------------------------------------------------------------

theorem State.setDadUnlessNil_frame (s : State) (p v : TreeIdx) : TreeFrame s (s.setDadUnlessNil p v) := by
  unfold State.setDadUnlessNil
  split <;> rfl

theorem State.relink_frame (s : State) (p q : TreeIdx) : TreeFrame s (s.relink p q) := by
  unfold State.relink
  split <;> rfl

theorem State.attach_frame (s : State) (cmp : Int) (p r : TreeIdx) : TreeFrame s (s.attach cmp p r) := by
  unfold State.attach
  split <;> rfl

theorem State.replaceNode_frame (s : State) (p r : TreeIdx) : TreeFrame s (s.replaceNode p r) :=
  (State.setDad_frame ..).trans <| (State.setLson_frame ..).trans <| (State.setRson_frame ..).trans <|
    (State.setDadUnlessNil_frame ..).trans <| (State.setDadUnlessNil_frame ..).trans <|
    (State.relink_frame ..).trans <| State.setDad_frame ..

theorem State.noteMatch_frame (s : State) (p : Ring) (i : Nat) : MatchFrame s (s.noteMatch p i) := by
  unfold State.noteMatch
  split <;> rfl

theorem State.insertWalk_frame (r : Ring) (k : Nat) (cmp : Int) (p : TreeIdx) (s : State) {t : State}
    (h : State.insertWalk r k cmp p s = some t) : MatchFrame s t := by
  induction k generalizing cmp p s with
  | zero => cases h
  | succ k ih =>
    simp only [State.insertWalk] at h
    split at h
    · cases h
      exact (State.attach_frame ..).toMatchFrame
    · split at h
      · cases h
        exact (State.noteMatch_frame ..).trans (State.replaceNode_frame ..).toMatchFrame
      · exact (State.noteMatch_frame ..).trans (ih _ _ _ h)

/-- `InsertNode` writes the links of the tree and the best match only. -/
theorem State.insertNode_frame (s : State) (r : Ring) {t : State} (h : s.insertNode r = some t) : MatchFrame s t := by
  have h0 : MatchFrame s
      { (s.setRson (ringNode r) Config.nil).setLson (ringNode r) Config.nil with matchLen := 0 } := rfl
  exact h0.trans (State.insertWalk_frame _ _ _ _ _ h)

theorem State.takeRight_frame (s : State) (p q : TreeIdx) : TreeFrame s (s.takeRight p q) := rfl

theorem State.liftPredecessor_frame (s : State) (p q : TreeIdx) : TreeFrame s (s.liftPredecessor p q) :=
  (State.setRson_frame ..).trans <| (State.setDadUnlessNil_frame ..).trans <| (State.setLson_frame ..).trans <|
    State.setDad_frame ..

theorem State.successorOf_frame (s : State) (p : TreeIdx) {q : TreeIdx} {t : State}
    (h : s.successorOf p = some (q, t)) : TreeFrame s t := by
  unfold State.successorOf State.deleteTwoChildren at h
  split at h
  · cases h; rfl
  · split at h
    · cases h; rfl
    · split at h
      · cases h
        exact State.takeRight_frame ..
      · split at h
        · cases h
        · cases h
          exact (State.liftPredecessor_frame ..).trans (State.takeRight_frame ..)

/-- `DeleteNode` writes the links of the tree only. -/
theorem State.deleteNode_frame (s : State) (p : Ring) {t : State} (h : s.deleteNode p = some t) : TreeFrame s t := by
  unfold State.deleteNode at h
  split at h
  · cases h; rfl
  · split at h
    · cases h
    · next hs =>
      cases h
      exact (State.successorOf_frame _ _ hs).trans <| (State.setDadUnlessNil_frame ..).trans <|
        (State.relink_frame ..).trans <| State.setDad_frame ..

-- ---------------------------------------------------------------------------------------------------------
-- The encoder (R176 to R182)
-- ---------------------------------------------------------------------------------------------------------

/-- `Emit` of the first `n` bytes of `code_buf` (R180). -/
theorem State.emitCode_eq (s : State) (n : Nat) :
    s.emitCode n =
      { s with dst := s.dst ++ (List.range n).map s.codeAt, outCount := s.outCount + BitVec.ofNat 64 n } := by
  unfold State.emitCode
  induction n with
  | zero => simp
  | succ n ih =>
    rw [List.range_succ, List.foldl_append, ih]
    simp [State.emit, BitVec.ofNat_add, BitVec.add_assoc]

/-- What the encoder's search may write: the position, the window, the ring registers and the tree. -/
def SearchFrame (s t : State) : Prop :=
  t = { s with
    pos := t.pos, win := t.win, ringS := t.ringS, ringR := t.ringR, lookLen := t.lookLen
    matchPos := t.matchPos, matchLen := t.matchLen, lson := t.lson, rson := t.rson, dad := t.dad }

theorem SearchFrame.refl (s : State) : SearchFrame s s := rfl

theorem SearchFrame.trans {s t u : State} (h : SearchFrame s t) (h' : SearchFrame t u) : SearchFrame s u := by
  unfold SearchFrame at *
  rw [h', h]

theorem MatchFrame.toSearchFrame {s t : State} (h : MatchFrame s t) : SearchFrame s t := by
  unfold MatchFrame at h
  unfold SearchFrame
  rw [h]

/-- The loop of `Prime` (R176) loads the lookahead and nothing else. -/
theorem State.loadLookahead_frame (k : Nat) (s : State) : SearchFrame s (State.loadLookahead k s) := by
  induction k generalizing s with
  | zero => rfl
  | succ k ih =>
    unfold State.loadLookahead
    rcases s.nextInput_cases with ⟨-, h⟩ | ⟨-, h⟩ <;> rw [h]
    · exact .refl s
    · refine SearchFrame.trans ?_ (ih _)
      rfl

/-- `Drain(m)` (R182). -/
theorem State.drain_frame (m : Nat) (s : State) {t : State} (h : State.drain m s = some t) : SearchFrame s t := by
  induction m generalizing s with
  | zero => cases h; rfl
  | succ m ih =>
    unfold State.drain at h
    split at h
    · cases h
    · next s1 hd =>
      have h1 := (State.deleteNode_frame _ _ hd).toMatchFrame.toSearchFrame
      have h2 : SearchFrame s1 { s1.slide with lookLen := s1.lookLen - 1 } := rfl
      dsimp only at h
      split at h
      · exact (h1.trans h2).trans (ih _ h)
      · split at h
        · cases h
        · next s3 hi =>
          exact ((h1.trans h2).trans (State.insertNode_frame _ _ hi).toSearchFrame).trans (ih _ h)

/-- `Advance(k)` (R181). -/
theorem State.advance_frame (k : Nat) (s : State) {t : State} (h : State.advance k s = some t) : SearchFrame s t := by
  induction k generalizing s with
  | zero => cases h; rfl
  | succ k ih =>
    unfold State.advance at h
    rcases s.nextInput_cases with ⟨-, hn⟩ | ⟨-, hn⟩ <;> rw [hn] at h
    · exact State.drain_frame _ _ h
    · dsimp only at h
      split at h
      · cases h
      · next s2 hd =>
        have h1 := (State.deleteNode_frame _ _ hd).toMatchFrame.toSearchFrame
        split at h
        · cases h
        · next s3 hi =>
          have h0 : SearchFrame s { s with pos := s.pos + 1 } := rfl
          have h2 (b : Byte) : SearchFrame s2 (s2.setWin s2.ringS b).slide := rfl
          exact (((h0.trans h1).trans (h2 _)).trans (State.insertNode_frame _ _ hi).toSearchFrame).trans (ih _ h)

end Sys2Proof.Machine
end

