-- ==== Sys2Proof/Laws/PerInstr.lean ====
section
/-! SUPPORT. Statements made per instruction, one lemma per constructor of `Instr`. -/

namespace Sys2Proof.Laws

/-- The two kinds of code (R90): a host command has a command word and no pieces in a stream; a token has no command
word. -/
def CodeKind.Statement (i : Instr) : Prop :=
  (encodeCommand i).isSome = i.isCommand ∧ (i.isCommand = true → encodeToken i = [])

theorem CodeKind.nop (kind : BitVec 4) (lk ce : Bool) : CodeKind.Statement (.nop kind lk ce) := ⟨rfl, fun _ => rfl⟩
theorem CodeKind.decompressLzss (lk ce : Bool) : CodeKind.Statement (.decompressLzss lk ce) := ⟨rfl, fun _ => rfl⟩
theorem CodeKind.decompressHuffman (ce : Bool) : CodeKind.Statement (.decompressHuffman ce) := ⟨rfl, fun _ => rfl⟩
theorem CodeKind.decompressGammaLz (lk ce : Bool) : CodeKind.Statement (.decompressGammaLz lk ce) := ⟨rfl, fun _ => rfl⟩
theorem CodeKind.decompressSkipLzss (lk ce : Bool) : CodeKind.Statement (.decompressSkipLzss lk ce) := ⟨rfl, fun _ => rfl⟩
theorem CodeKind.decompressSkipHuffman (lk ce : Bool) : CodeKind.Statement (.decompressSkipHuffman lk ce) := ⟨rfl, fun _ => rfl⟩
theorem CodeKind.decompressSkipGammaLz (lk ce : Bool) : CodeKind.Statement (.decompressSkipGammaLz lk ce) := ⟨rfl, fun _ => rfl⟩
theorem CodeKind.compressLzss (lk ce : Bool) : CodeKind.Statement (.compressLzss lk ce) := ⟨rfl, fun _ => rfl⟩
theorem CodeKind.applyCipherLcgXor (lk ce : Bool) : CodeKind.Statement (.applyCipherLcgXor lk ce) := ⟨rfl, fun _ => rfl⟩
theorem CodeKind.applyCipherPosXor (lk ce : Bool) : CodeKind.Statement (.applyCipherPosXor lk ce) := ⟨rfl, fun _ => rfl⟩
theorem CodeKind.abort (rest : BitVec 28) : CodeKind.Statement (.abort rest) := ⟨rfl, fun _ => rfl⟩
theorem CodeKind.lzssFlags (f : Byte) : CodeKind.Statement (.lzssFlags f) := ⟨rfl, fun h => Bool.noConfusion h⟩
theorem CodeKind.lzssLit (b : Byte) : CodeKind.Statement (.lzssLit b) := ⟨rfl, fun h => Bool.noConfusion h⟩
theorem CodeKind.lzssMatch (plo : Byte) (phi nl : BitVec 4) : CodeKind.Statement (.lzssMatch plo phi nl) := ⟨rfl, fun h => Bool.noConfusion h⟩
theorem CodeKind.hufSym (path : List Bool) : CodeKind.Statement (.hufSym path) := ⟨rfl, fun h => Bool.noConfusion h⟩
theorem CodeKind.glzFirst (b : Byte) : CodeKind.Statement (.glzFirst b) := ⟨rfl, fun h => Bool.noConfusion h⟩
theorem CodeKind.glzLit (b : Byte) : CodeKind.Statement (.glzLit b) := ⟨rfl, fun h => Bool.noConfusion h⟩
theorem CodeKind.glzShort (d : BitVec 4) : CodeKind.Statement (.glzShort d) := ⟨rfl, fun h => Bool.noConfusion h⟩
theorem CodeKind.glzZero : CodeKind.Statement (.glzZero) := ⟨rfl, fun h => Bool.noConfusion h⟩
theorem CodeKind.glzNear (d : BitVec 7) (n : Bool) : CodeKind.Statement (.glzNear d n) := ⟨rfl, fun h => Bool.noConfusion h⟩
theorem CodeKind.glzEnd (x : Bool) : CodeKind.Statement (.glzEnd x) := ⟨rfl, fun h => Bool.noConfusion h⟩
theorem CodeKind.glzFar (g : BitVec 32) (lo : Byte) (n : BitVec 32) : CodeKind.Statement (.glzFar g lo n) := ⟨rfl, fun h => Bool.noConfusion h⟩
theorem CodeKind.glzRep (n : BitVec 32) : CodeKind.Statement (.glzRep n) := ⟨rfl, fun h => Bool.noConfusion h⟩

end Sys2Proof.Laws
end

