-- ==== Sys2Proof/Laws/Tree.lean ====
section
/-! SUPPORT. Lemmas about the tree RAMs and `code_buf` after a write, the node numbers, and trees shown by states that
agree on their cells. -/

namespace Sys2Proof.Machine

-- ---------------------------------------------------------------------------------------------------------
-- Reads after writes
-- ---------------------------------------------------------------------------------------------------------

theorem State.lsonAt_setLson (s : State) (p q v : TreeIdx) : (s.setLson p v).lsonAt q = if q = p then v else s.lsonAt q := by
  simp only [State.lsonAt, State.setLson, Memory.read_write, BitVec.toNat_inj]

theorem State.rsonAt_setRson (s : State) (p q v : TreeIdx) : (s.setRson p v).rsonAt q = if q = p then v else s.rsonAt q := by
  simp only [State.rsonAt, State.setRson, Memory.read_write, BitVec.toNat_inj]

theorem State.dadAt_setDad (s : State) (p q v : TreeIdx) : (s.setDad p v).dadAt q = if q = p then v else s.dadAt q := by
  simp only [State.dadAt, State.setDad, Memory.read_write, BitVec.toNat_inj]

@[simp] theorem State.lsonAt_setRson (s : State) (p q v : TreeIdx) : (s.setRson p v).lsonAt q = s.lsonAt q := rfl
@[simp] theorem State.lsonAt_setDad (s : State) (p q v : TreeIdx) : (s.setDad p v).lsonAt q = s.lsonAt q := rfl
@[simp] theorem State.rsonAt_setLson (s : State) (p q v : TreeIdx) : (s.setLson p v).rsonAt q = s.rsonAt q := rfl
@[simp] theorem State.rsonAt_setDad (s : State) (p q v : TreeIdx) : (s.setDad p v).rsonAt q = s.rsonAt q := rfl
@[simp] theorem State.dadAt_setLson (s : State) (p q v : TreeIdx) : (s.setLson p v).dadAt q = s.dadAt q := rfl
@[simp] theorem State.dadAt_setRson (s : State) (p q v : TreeIdx) : (s.setRson p v).dadAt q = s.dadAt q := rfl

theorem State.codeAt_setCode (s : State) (i j : Nat) (b : Byte) : (s.setCode i b).codeAt j = if j = i then b else s.codeAt j := by
  simp only [State.codeAt, State.setCode, Memory.read_write]

-- ---------------------------------------------------------------------------------------------------------
-- Node numbers (R35): ring positions, `NIL`, root slots
-- ---------------------------------------------------------------------------------------------------------

theorem ringNode_toNat (p : Ring) : (ringNode p).toNat = p.toNat := by
  simp only [ringNode, BitVec.toNat_setWidth]; omega

theorem rootSlot_toNat (c : Byte) : (rootSlot c).toNat = 4097 + c.toNat := by
  simp only [rootSlot, BitVec.toNat_add, BitVec.toNat_setWidth]; have := c.isLt; simp; omega

theorem ringNode_inj {p q : Ring} : ringNode p = ringNode q ↔ p = q := by
  rw [← BitVec.toNat_inj, ← BitVec.toNat_inj, ringNode_toNat, ringNode_toNat]

theorem rootSlot_inj {c d : Byte} : rootSlot c = rootSlot d ↔ c = d := by
  rw [← BitVec.toNat_inj, ← BitVec.toNat_inj, rootSlot_toNat, rootSlot_toNat]; omega

theorem ringNode_ne_nil (p : Ring) : ringNode p ≠ Config.nil := by
  rw [ne_eq, ← BitVec.toNat_inj, ringNode_toNat]; have := p.isLt; simp; omega

theorem rootSlot_ne_nil (c : Byte) : rootSlot c ≠ Config.nil := by
  rw [ne_eq, ← BitVec.toNat_inj, rootSlot_toNat]; simp; omega

theorem ringNode_ne_rootSlot (p : Ring) (c : Byte) : ringNode p ≠ rootSlot c := by
  rw [ne_eq, ← BitVec.toNat_inj, ringNode_toNat, rootSlot_toNat]; have := p.isLt; omega

@[simp] theorem ringNode_setWidth (p : Ring) : (ringNode p).setWidth 12 = p := by
  apply BitVec.eq_of_toNat_eq; simp only [BitVec.toNat_setWidth, ringNode_toNat]; have := p.isLt; omega

-- ---------------------------------------------------------------------------------------------------------
-- Trees shown by states
-- ---------------------------------------------------------------------------------------------------------

/-- States that agree on the cells of a tree's nodes show the same tree. -/
theorem ShowsTree.congr {s t : State} {T : SearchTree} {link parent : TreeIdx} (h : ShowsTree s link parent T)
    (hc : ∀ p ∈ T.positions, t.lsonAt (ringNode p) = s.lsonAt (ringNode p) ∧
      t.rsonAt (ringNode p) = s.rsonAt (ringNode p) ∧ t.dadAt (ringNode p) = s.dadAt (ringNode p)) :
    ShowsTree t link parent T := by
  induction T generalizing link parent with
  | nil => exact h
  | node l p r ihl ihr =>
    obtain ⟨rfl, hd, hl, hr⟩ := h
    obtain ⟨h1, h2, h3⟩ := hc p (by simp [SearchTree.positions])
    refine ⟨rfl, h3.trans hd, ?_, ?_⟩
    · rw [h1]; exact ihl hl fun q hq => hc q (by simp [SearchTree.positions, hq])
    · rw [h2]; exact ihr hr fun q hq => hc q (by simp [SearchTree.positions, hq])

/-- A node of a shown tree is where the walk from above finds it: its parent's link is its number. -/
theorem ShowsTree.link_node {s : State} {l r : SearchTree} {p : Ring} {link parent : TreeIdx}
    (h : ShowsTree s link parent (.node l p r)) : link = ringNode p ∧ s.dadAt (ringNode p) = parent := by
  obtain ⟨rfl, hd, -, -⟩ := h; exact ⟨rfl, hd⟩

/-- A tree shown from a link is not empty exactly if the link is not `NIL`. -/
theorem ShowsTree.eq_nil_iff {s : State} {T : SearchTree} {link parent : TreeIdx} (h : ShowsTree s link parent T) :
    link = Config.nil ↔ T = .nil := by
  cases T with
  | nil => exact ⟨fun _ => rfl, fun _ => h⟩
  | node l p r => exact ⟨fun e => absurd (h.1.symm.trans e) (ringNode_ne_nil p), fun e => nomatch e⟩

end Sys2Proof.Machine
end

