-- ==== Sys2Proof/Tests/Slice0.lean ====
section
/-! SUPPORT. Tests: the checks of `wellFormed`, words and bytes written out from the spec's encodings, single steps on
examples of the spec's rules, and for every statement with hypotheses a state and operands that meet them. -/

namespace Sys2Proof.Tests

open Sys2Proof Sys2Proof.Machine

-- ---------------------------------------------------------------------------------------------------------
-- Helpers
-- ---------------------------------------------------------------------------------------------------------

/-- A byte space holding `bs` from index `i` on. -/
def cells : Nat → List Byte → List Host.Cell
  | _, [] => []
  | i, b :: bs => (i, b) :: cells (i + 1) bs

/-- A cursor at the start of the stream `bs`. -/
def at0 (bs : List Byte) : Cursor := ⟨cells 0 bs, BitVec.ofNat 64 bs.length, 0, 0, 0⟩

/-- The token read from the stream `bs`, and the position and bit count after it. -/
def tokenOf (x : TokenContext) (bs : List Byte) : Option (Instr × Nat × Nat) :=
  match decodeToken x (at0 bs) with
  | .got i c => some (i, c.pos.toNat, c.bcnt.toNat)
  | .endOfInput _ => none
  | .malformed _ => none

/-- A view of the next state. -/
def view {α : Type} (o : Host.Outcome State Fault Refusal) (f : State → α) : Option α :=
  match o with
  | .next s => some (f s)
  | .fault _ => none
  | .refused _ => none

/-- The table of R202: codes `0` = 0x41, `10` = 0x42, `110` = 0x43, `111` none. -/
def table202 : List (Nat × HtEntry) :=
  [(0, .node 1 2), (1, .leaf 0x41), (2, .node 3 4), (3, .leaf 0x42), (4, .node 5 0x1FF), (5, .leaf 0x43)]

/-- Unit `u` at work on the stream `bs`, 10 bytes still wanted. -/
def busyOn (u : UnitSel) (ust : BitVec 3) (bs : List Byte) : State :=
  { State.reset with
    phase := .busy, unit := u, ustate := ust, src := cells 0 bs, srcLen := BitVec.ofNat 64 bs.length, cur := 4078
    lenKnown := true, take := 10, takeRem := 10, ht := table202 }

/-- The reset state with one host action to come. -/
def hostAbout (a : HostAction) : State := { State.reset with agenda := [.host a] }

/-- A decoder that has produced `A B`, `A` being the older byte. -/
def afterAB (u : UnitSel) : State :=
  { busyOn u 0 [] with win := [(4076, 0x41), (4077, 0x42)], cur := 4078, lastOff := 2, outCount := 2 }

-- ---------------------------------------------------------------------------------------------------------
-- Well-formedness (R103, R104)
-- ---------------------------------------------------------------------------------------------------------

theorem test_short_zero_refused : (Instr.glzShort 0).wellFormed = false := by decide
theorem test_near_zero_refused : (Instr.glzNear 0 true).wellFormed = false := by decide
theorem test_far_small_g_refused : (Instr.glzFar 1 0 2).wellFormed = false := by decide
theorem test_far_small_n_refused : (Instr.glzFar 2 0 1).wellFormed = false := by decide
theorem test_rep_small_n_refused : (Instr.glzRep 1).wellFormed = false := by decide
theorem test_far_accepted : (Instr.glzFar 2 0 2).wellFormed = true := by decide

-- ---------------------------------------------------------------------------------------------------------
-- Command words (R91 to R94; the words of 95_test_vectors.md section 7)
-- ---------------------------------------------------------------------------------------------------------

theorem test_decode_nop : decodeCommand 0x000003F0 = some (.nop 15 true true) := by decide
theorem test_decode_nop_reserved : decodeCommand 0x00000400 = none := by decide
theorem test_decode_decompress_lzss : decodeCommand 0x00000301 = some (.decompressLzss true true) := by decide
theorem test_decode_decompress_huffman : decodeCommand 0x00000111 = some (.decompressHuffman false) := by decide
theorem test_decode_huffman_unknown_length : decodeCommand 0x00000211 = none := by decide
theorem test_decode_decompress_gamma_lz : decodeCommand 0x00000121 = some (.decompressGammaLz true false) := by decide
theorem test_decode_skip_lzss : decodeCommand 0x00000202 = some (.decompressSkipLzss false true) := by decide
theorem test_decode_skip_huffman : decodeCommand 0x00000012 = some (.decompressSkipHuffman false false) := by decide
theorem test_decode_skip_gamma_lz : decodeCommand 0x00000022 = some (.decompressSkipGammaLz false false) := by decide
theorem test_decode_compress : decodeCommand 0x00000003 = some (.compressLzss false false) := by decide
theorem test_decode_compress_huffman : decodeCommand 0x00000013 = none := by decide
theorem test_decode_lcg : decodeCommand 0x00000004 = some (.applyCipherLcgXor false false) := by decide
theorem test_decode_pos : decodeCommand 0x00000014 = some (.applyCipherPosXor false false) := by decide
theorem test_decode_unknown_cipher : decodeCommand 0x00000024 = none := by decide
theorem test_decode_abort : decodeCommand 0xFFFFFFFF = some (.abort 0xFFFFFFF) := by decide
theorem test_decode_reserved_op : decodeCommand 0x00000005 = none := by decide
theorem test_encode_skip_lzss : encodeCommand (.decompressSkipLzss true false) = some 0x00000102 := by decide
theorem test_encode_abort : encodeCommand (.abort 0) = some 0x0000000F := by decide

-- ---------------------------------------------------------------------------------------------------------
-- Tokens (R95 to R97, R101 to R104)
-- ---------------------------------------------------------------------------------------------------------

theorem test_decode_flags : tokenOf .flagByte [0x05] = some (.lzssFlags 0x05, 1, 0) := by decide
theorem test_decode_lit : tokenOf .literal [0x41] = some (.lzssLit 0x41, 1, 0) := by decide
-- R155: the bytes 01 06; and phi = 0xA, nl = 0x3 in byte 1
theorem test_decode_match : tokenOf .matchBytes [0x01, 0x06] = some (.lzssMatch 0x01 0 6, 2, 0) := by decide
theorem test_decode_match_high : tokenOf .matchBytes [0x5C, 0xA3] = some (.lzssMatch 0x5C 0xA 3, 2, 0) := by decide
theorem test_decode_first : tokenOf .firstLiteral [0x41] = some (.glzFirst 0x41, 1, 0) := by decide
-- control bit 0, then the raw byte
theorem test_decode_glz_lit : tokenOf (.glzToken false) [0x00, 0x42] = some (.glzLit 0x42, 2, 7) := by decide
-- control bits 111 1000
theorem test_decode_short : tokenOf (.glzToken false) [0xF0] = some (.glzShort 8, 1, 1) := by decide
-- control bits 111 0000
theorem test_decode_zero : tokenOf (.glzToken true) [0xE0] = some (.glzZero, 1, 1) := by decide
-- control bits 110, raw byte (5 << 1) | 1
theorem test_decode_near : tokenOf (.glzToken false) [0xC0, 0x0B] = some (.glzNear 5 true, 2, 5) := by decide
theorem test_decode_end : tokenOf (.glzToken false) [0xC0, 0x01] = some (.glzEnd true, 2, 5) := by decide
-- R230's example: control bits 10, G(3) = 10, raw byte 0x03, G(2) = 00
theorem test_decode_far : tokenOf (.glzToken false) [0xA0, 0x03] = some (.glzFar 3 0x03 2, 2, 2) := by decide
-- R229's example: control bits 10 00 10; the same bits after a back-reference are a FAR (R103)
theorem test_decode_rep : tokenOf (.glzToken false) [0x88] = some (.glzRep 3, 1, 2) := by decide
theorem test_decode_rep_bits_far : tokenOf (.glzToken true) [0x88, 0x80] = some (.glzFar 2 0x80 3, 2, 2) := by decide
-- R202's example: 0x58 = 01011000, codes 0, 10, 110, 0
theorem test_decode_huf :
    decodeHuf table202 ⟨[(0, 0x58)], 1, 1, 0xB0, 7⟩ = .code [true, false] ⟨[(0, 0x58)], 1, 1, 0xC0, 5⟩ := by decide
-- R102: the control byte 0 110 0000 stands just before the first raw byte needed after its first bit
theorem test_layout :
    encodeStream [.glzFirst 0x41, .glzLit 0x42, .glzEnd false] = [0x41, 0x60, 0x42, 0x00] := by decide
-- R269's example: ten bytes 0x41 are a literal and a match, the unused flag bits 0
theorem test_group : encodeGroup [.lzssLit 0x41, .lzssMatch 0x01 0 6] = [0x01, 0x41, 0x01, 0x06] := by decide

-- ---------------------------------------------------------------------------------------------------------
-- The host's question
-- ---------------------------------------------------------------------------------------------------------

theorem test_table_word : decodeTableWord 32 0x00000014 = some (.applyCipherPosXor false false) := by decide
theorem test_fetch_word_runs :
    view (step (State.reset.withFetchWord 32 0x00000014)) (fun s => (s.phase, s.unit, s.agenda)) =
      some (.busy, .kc, []) := by decide
theorem test_fetch_word_reserved :
    view (step (State.reset.withFetchWord 32 0x00000024)) (fun s => (s.phase, s.err)) =
      some (.failed, .unsupportedVariant) := by decide

-- ---------------------------------------------------------------------------------------------------------
-- Commands
-- ---------------------------------------------------------------------------------------------------------

theorem test_nop_while_busy :
    exec (.nop 0 false false) (busyOn .lzd 1 []) = .next (busyOn .lzd 1 []) := rfl
-- R273: nothing wanted, so Done at once
theorem test_decompress_lzss_nothing_wanted :
    view (exec (.decompressLzss true false) State.reset) (fun s => (s.phase, s.unit, s.cur)) =
      some (.done, .lzd, 4078) := by decide
theorem test_decompress_lzss_unknown_length :
    view (exec (.decompressLzss false true) { State.reset with take := 9, fill := 0x20 })
      (fun s => (s.phase, s.takeRem, s.capEn, s.winAt 7)) = some (.busy, 0, true, 0x20) := by decide
theorem test_decompress_huffman :
    view (exec (.decompressHuffman false) { State.reset with take := 3, skip := 2 })
      (fun s => (s.phase, s.unit, s.takeRem, s.skipRem)) = some (.busy, .huf, 3, 0) := by decide
theorem test_decompress_gamma_lz :
    view (exec (.decompressGammaLz true true) { State.reset with take := 3, lastOff := 5, lwm := true })
      (fun s => (s.phase, s.unit, s.lastOff, s.lwm)) = some (.busy, .glz, 0, false) := by decide
theorem test_skip_lzss :
    view (exec (.decompressSkipLzss false false) { State.reset with take := 3, skip := 2 })
      (fun s => (s.phase, s.lenKnown, s.takeRem, s.skipRem)) = some (.busy, true, 3, 2) := by decide
-- R273: TAKE = 0, so Done at once whatever SKIP is
theorem test_skip_huffman_nothing_wanted :
    view (exec (.decompressSkipHuffman false false) { State.reset with skip := 2 }) State.phase = some .done := by decide
theorem test_skip_gamma_lz :
    view (exec (.decompressSkipGammaLz true true) { State.reset with take := 1 })
      (fun s => (s.phase, s.unit, s.capEn)) = some (.busy, .glz, true) := by decide
-- R269: LEN_KNOWN and CAP_EN are ignored; R172: r starts at W - F
theorem test_compress :
    view (exec (.compressLzss true true) { State.reset with take := 3, dad := [(5, 6)] })
      (fun s => (s.phase, s.capEn, s.ringR, s.dadAt 5)) = some (.busy, false, 4078, Config.nil) := by decide
theorem test_apply_lcg :
    view (exec (.applyCipherLcgXor false false) { State.reset with keySeed := 0x12345678 })
      (fun s => (s.phase, s.key)) = some (.busy, 0x12345678) := by decide
theorem test_apply_pos :
    view (exec (.applyCipherPosXor false false) { State.reset with phase := .failed, err := .outputOverflow })
      (fun s => (s.phase, s.err)) = some (.busy, .none) := by decide
theorem test_abort_while_busy :
    view (exec (.abort 0) { busyOn .lzd 2 [0x41] with dst := [0x41], pos := 1 })
      (fun s => (s.phase, s.unit, s.dst, s.pos, s.take)) = some (.idle, .none, [], 0, 10) := by decide

-- ---------------------------------------------------------------------------------------------------------
-- Tokens
-- ---------------------------------------------------------------------------------------------------------

-- R152's example
theorem test_flags_selects_literal :
    view (step (busyOn .lzd 0 [0x01])) (fun s => (s.flags, s.fcnt, s.ustate)) = some (0x00, 7, 1) := by decide
theorem test_flags_selects_match :
    view (exec (.lzssFlags 0x06) State.reset) (fun s => (s.flags, s.fcnt, s.ustate)) = some (0x03, 7, 2) := by decide
-- R154's example
theorem test_lit :
    view (step (busyOn .lzd 1 [0x41])) (fun s => (s.winAt 4078, s.cur, s.dst, s.pos)) =
      some (0x41, 4079, [0x41], 1) := by decide
-- R298 (b): the cap is tested before the byte has any effect
theorem test_lit_at_the_cap :
    view (exec (.lzssLit 0x41) { busyOn .lzd 1 [] with capEn := true })
      (fun s => (s.phase, s.err, s.dst)) = some (.failed, .outputOverflow, []) := by decide
-- R139: the last two bytes repeated cyclically
theorem test_match_overlaps :
    view (exec (.lzssMatch 0x02 0 2) (afterAB .lzd)) (fun s => s.dst) = some [0x41, 0x42, 0x41, 0x42, 0x41] := by decide
theorem test_match_distance_zero :
    view (exec (.lzssMatch 0 0 0) (afterAB .lzd)) (fun s => (s.phase, s.err)) =
      some (.failed, .backReferenceOutOfRange) := by decide
theorem test_huf :
    view (step (busyOn .huf 0 [0xC0])) (fun s => (s.dst, s.bcnt, s.win)) = some ([0x43], 5, []) := by decide
-- R292: bits 111 lead to HT_NONE
theorem test_huf_no_code :
    view (step (busyOn .huf 0 [0xE0])) (fun s => (s.phase, s.err)) = some (.failed, .invalidControlCode) := by decide
theorem test_first :
    view (step (busyOn .glz 0 [0x41])) (fun s => (s.dst, s.bcnt, s.ustate)) = some ([0x41], 0, 1) := by decide
theorem test_glz_lit :
    view (exec (.glzLit 0x42) { afterAB .glz with lwm := true }) (fun s => (s.dst, s.lwm, s.lastOff)) =
      some ([0x42], false, 2) := by decide
theorem test_short :
    view (exec (.glzShort 2) { afterAB .glz with lwm := true }) (fun s => (s.dst, s.lwm, s.lastOff)) =
      some ([0x41], false, 2) := by decide
theorem test_zero :
    view (exec .glzZero (afterAB .glz)) (fun s => (s.dst, s.lwm)) = some ([0x00], false) := by decide
theorem test_near :
    view (exec (.glzNear 1 true) (afterAB .glz)) (fun s => (s.dst, s.lwm, s.lastOff)) =
      some ([0x42, 0x42, 0x42], true, 1) := by decide
theorem test_end_known_length :
    view (exec (.glzEnd true) (afterAB .glz)) (fun s => (s.phase, s.err)) = some (.failed, .truncatedInput) := by decide
theorem test_end_unknown_length :
    view (exec (.glzEnd false) { afterAB .glz with lenKnown := false }) (fun s => (s.phase, s.err)) =
      some (.done, .none) := by decide
-- R230: h = g - 3 after a literal, and a distance under 128 makes the length 2 longer
theorem test_far_after_literal :
    view (exec (.glzFar 3 2 2) (afterAB .glz)) (fun s => (s.dst, s.lastOff)) =
      some ([0x41, 0x42, 0x41, 0x42], 2) := by decide
-- after a back-reference h = g - 2: here d = 256, no correction, FILL bytes
theorem test_far_after_reference :
    view (exec (.glzFar 3 0 2) { afterAB .glz with lwm := true }) (fun s => (s.dst, s.lastOff)) =
      some ([0x00, 0x00], 256) := by decide
theorem test_rep :
    view (exec (.glzRep 3) (afterAB .glz)) (fun s => (s.dst, s.lwm, s.lastOff)) =
      some ([0x41, 0x42, 0x41], true, 2) := by decide
theorem test_rep_without_reference :
    view (exec (.glzRep 2) { afterAB .glz with lastOff := 0 }) (fun s => (s.phase, s.err)) =
      some (.failed, .backReferenceOutOfRange) := by decide

-- ---------------------------------------------------------------------------------------------------------
-- The other steps
-- ---------------------------------------------------------------------------------------------------------

-- R252's example: the first byte of the key is its low byte
theorem test_lcg_step :
    view (step { busyOn .kc 0 [0x00] with key := 0x12345678 }) (fun s => (s.dst, s.key)) =
      some ([0x78], 0x12345678) := by decide
-- R253's example: the key starts at length + 1
theorem test_pos_step :
    view (step { busyOn .kc 0 [0x41, 0x42, 0x43, 0x44, 0x45] with cipherKind := .posXor }) State.dst =
      some [0x47] := by decide
-- R176, R174: the only position becomes the child of its root
theorem test_prime :
    view (step { busyOn .lze 0 [0x41] with ringR := 4078 })
      (fun s => (s.lookLen, s.matchLen, s.ustate, s.rsonAt (rootSlot 0x41))) = some (1, 0, 1, 4078) := by decide +kernel
-- R178: a literal sets its flag bit
theorem test_encode_literal :
    view (step { busyOn .lze 1 [] with ringR := 4078, win := [(4078, 0x41)], lookLen := 1, pos := 0 })
      (fun s => (s.codeAt 0, s.codeAt 1, s.codePtr, s.mask, s.ustate)) = some (0x01, 0x41, 2, 0x02, 2) := by decide +kernel
-- R100: the image of Node(1, 2)
theorem test_table_image : htImage (.node 1 2) = 0x00020001 ∧ htOfImage 0x80000041 = .leaf 0x41 := by decide
-- R33: HT_ADDR = 511 writes no entry and wraps
theorem test_table_write_past_end :
    view (step { hostAbout (.writeReg 13 0x80000041) with htAddr := 511 }) (fun s => (s.ht, s.htAddr)) =
      some ([], 0) := by decide
-- R23: Busy LZD in ReadMatch, length known
theorem test_status : (busyOn .lzd 2 []).status = 0x145 := by decide

-- ---------------------------------------------------------------------------------------------------------
-- Witnesses: the hypotheses of each statement can be met
-- ---------------------------------------------------------------------------------------------------------

theorem witness_NopHasNoEffect : CmdWord.op 0x000003F0 = 0 ∧ CmdWord.reserved 0x000003F0 = 0 := by decide

theorem witness_AbortReturnsToIdle : CmdWord.op 0xFFFFFFFF = 15 := by decide

theorem witness_CommandsIgnoredWhileBusy :
    (Instr.decompressLzss true true).isCommand = true ∧ (∀ rest, Instr.decompressLzss true true ≠ .abort rest) ∧
    CmdWord.op 0x00000400 ≠ 15 ∧ (busyOn .lzd 0 []).phase = .busy :=
  ⟨rfl, fun _ h => Instr.noConfusion h, by decide, rfl⟩

/-- For `DecodersStart`, `CompressStarts` and `CipherStarts`: each phase but Busy. -/
theorem witness_starts :
    State.reset.phase ≠ .busy ∧ { State.reset with phase := .done }.phase ≠ .busy ∧
    { State.reset with phase := .failed }.phase ≠ .busy := by decide

theorem witness_OnlyLegalWordsStartACommand :
    HostTurnNext (hostAbout (.writeReg 0 0x400)) (.writeReg 0 0x400) [] ∧
    (hostAbout (.writeReg 0 0x400)).phase ≠ .busy ∧ CmdWord.op (BitVec.ofNat 32 0x400) ≠ 15 ∧
    ¬ (CmdWord.op (BitVec.ofNat 32 0x400) = 0 ∧ CmdWord.reserved (BitVec.ofNat 32 0x400) = 0) ∧
    ¬ LegalStart (BitVec.ofNat 32 0x400) :=
  ⟨⟨rfl, rfl⟩, by decide, by decide, by decide, fun h => absurd h.1 (by decide)⟩

theorem witness_CommandWordRoundTrip :
    (Instr.abort 5).isCommand = true ∧ decodeCommand 0x0000005F = some (.abort 5) := by decide

theorem witness_StepRunsTheDecodedInstruction :
    (HostTurnNext (hostAbout (.writeReg 0 0x301)) (.writeReg 0 0x301) [] ∧
      decodeCommand (BitVec.ofNat 32 0x301) = some (.decompressLzss true true)) ∧
    (EngineTurnNext (busyOn .lzd 1 [0x41]) [] ∧ (busyOn .lzd 1 [0x41]).resetLine = false ∧
      (busyOn .lzd 1 [0x41]).phase = .busy ∧ (busyOn .lzd 1 [0x41]).tokenContext = some .literal ∧
      decodeToken .literal (busyOn .lzd 1 [0x41]).cursor = .got (.lzssLit 0x41) ⟨[(0, 0x41)], 1, 1, 0, 0⟩) ∧
    (EngineTurnNext (busyOn .huf 0 [0x00]) [] ∧ (busyOn .huf 0 [0x00]).resetLine = false ∧
      (busyOn .huf 0 [0x00]).phase = .busy ∧ (busyOn .huf 0 [0x00]).unit = .huf ∧
      (busyOn .huf 0 [0x00]).ustate = UState.symbol ∧
      decodeHuf (busyOn .huf 0 [0x00]).ht (busyOn .huf 0 [0x00]).cursor = .code [false] ⟨[(0, 0x00)], 1, 1, 0, 7⟩) :=
  ⟨⟨⟨rfl, rfl⟩, by decide⟩, ⟨.inl ⟨rfl, rfl⟩, rfl, rfl, by decide, by decide⟩,
    ⟨.inl ⟨rfl, rfl⟩, rfl, rfl, rfl, rfl, by decide⟩⟩

/-- A window decoder in the middle of a match, the length known and not known; and the Huffman walk. -/
theorem witness_UnreadableTokensEndTheCommand_end :
    (EngineTurnNext (busyOn .lzd 2 [0x01]) [] ∧ (busyOn .lzd 2 [0x01]).resetLine = false ∧
      (busyOn .lzd 2 [0x01]).phase = .busy ∧ (busyOn .lzd 2 [0x01]).tokenContext = some .matchBytes ∧
      decodeToken .matchBytes (busyOn .lzd 2 [0x01]).cursor = .endOfInput ⟨[(0, 0x01)], 1, 1, 0, 0⟩ ∧
      (busyOn .lzd 2 [0x01]).lenKnown = true ∧ { busyOn .lzd 2 [0x01] with lenKnown := false }.lenKnown = false) ∧
    (EngineTurnNext (busyOn .huf 0 []) [] ∧ (busyOn .huf 0 []).resetLine = false ∧
      (busyOn .huf 0 []).phase = .busy ∧ (busyOn .huf 0 []).unit = .huf ∧ (busyOn .huf 0 []).ustate = UState.symbol ∧
      decodeHuf (busyOn .huf 0 []).ht (busyOn .huf 0 []).cursor = .endOfInput 0 ⟨[], 0, 0, 0, 0⟩) :=
  ⟨⟨.inl ⟨rfl, rfl⟩, rfl, rfl, by decide, by decide, rfl, rfl⟩, ⟨.inl ⟨rfl, rfl⟩, rfl, rfl, rfl, rfl, by decide⟩⟩

/-- After prefix `10` a gamma code whose continue bits never end: control bytes of ones but for the prefix's 0. -/
def longGamma : State := busyOn .glz 1 [0xBF, 0xFF, 0xFF, 0xFF, 0xFF, 0xFF, 0xFF, 0xFF, 0xFF]

/-- The cursor as the reading of `longGamma` leaves it: 2 bits of the prefix and 31 pairs of the code are read. -/
def longGammaEnd : Cursor := { longGamma.cursor with pos := 8, acc := 0x00, bcnt := 0 }

theorem witness_UnreadableTokensEndTheCommand_bad :
    (EngineTurnNext longGamma [] ∧ longGamma.resetLine = false ∧ longGamma.phase = .busy ∧
      longGamma.tokenContext = some (.glzToken false) ∧
      decodeToken (.glzToken false) longGamma.cursor = .malformed longGammaEnd) ∧
    (EngineTurnNext (busyOn .huf 0 [0xE0]) [] ∧ (busyOn .huf 0 [0xE0]).resetLine = false ∧
      (busyOn .huf 0 [0xE0]).phase = .busy ∧ (busyOn .huf 0 [0xE0]).unit = .huf ∧
      (busyOn .huf 0 [0xE0]).ustate = UState.symbol ∧
      decodeHuf (busyOn .huf 0 [0xE0]).ht (busyOn .huf 0 [0xE0]).cursor = .noCode ⟨[(0, 0xE0)], 1, 1, 0, 5⟩) :=
  ⟨⟨.inl ⟨rfl, rfl⟩, rfl, rfl, by decide, by decide +kernel⟩, ⟨.inl ⟨rfl, rfl⟩, rfl, rfl, rfl, rfl, by decide⟩⟩

theorem witness_EngineStepsOnlyWhileBusy :
    (EngineTurnNext State.reset [] ∧ State.reset.phase ≠ .busy) ∧
    (EngineTurnNext { busyOn .lzd 0 [] with resetLine := true } [] ∧
      { busyOn .lzd 0 [] with resetLine := true }.resetLine = true) :=
  ⟨⟨.inl ⟨rfl, rfl⟩, by decide⟩, ⟨.inl ⟨rfl, rfl⟩, rfl⟩⟩

/-- One byte before the limit and at it; and one before the cap. -/
theorem witness_ByteTokensProduceTheirByte :
    (tokenByte (.lzssLit 0x41) = some 0x41 ∧ Unhindered 1 { busyOn .lzd 1 [] with takeRem := 2, capEn := true, maxOut := 1 }) ∧
    (tokenByte .glzZero = some 0x00 ∧ LimitAt 1 { busyOn .glz 1 [] with takeRem := 1, capEn := true, maxOut := 1 }) :=
  ⟨⟨rfl, by decide, by decide⟩, ⟨rfl, rfl, by decide, by decide, by decide⟩⟩

/-- Code `10` of R202's table, and the bits `111` that no code has. -/
theorem code_of_table202 : IsCode table202 [true, false] 3 0x42 ∧ IsNoCode table202 [true, true] true :=
  ⟨⟨⟨1, 2, by decide, by decide, 3, 4, by decide, by decide, rfl⟩, by decide⟩,
    ⟨4, 5, 0x1FF, ⟨1, 2, by decide, by decide, 3, 4, by decide, by decide, rfl⟩, by decide, by decide, by decide⟩⟩

/-- A leaf at the root: a code of no bits. -/
theorem code_of_no_bits : IsCode [(0, .leaf 0x41)] [] 0 0x41 := ⟨rfl, by decide⟩

theorem witness_HuffmanCodeDeliversItsLeaf :
    (busyOn .huf 0 []).unit = .huf ∧ IsCode (busyOn .huf 0 []).ht [true, false] 3 0x42 ∧
    Unhindered 1 (busyOn .huf 0 []) ∧ LimitAt 1 { busyOn .huf 0 [] with takeRem := 1 } ∧
    IsNoCode (busyOn .huf 0 []).ht [true, true] true :=
  ⟨rfl, code_of_table202.1, ⟨by decide, by decide⟩, ⟨rfl, by decide, by decide, by decide⟩, code_of_table202.2⟩

/-- The least and the greatest distance, the room for the copy being exact. -/
theorem witness_CopyTokensRepeatTheWindow :
    (copyOperands (afterAB .lzd) (.lzssMatch 1 0 6) = some (1, 9) ∧ (afterAB .lzd).unit.hasWindow = true ∧
      Unhindered 9 (afterAB .lzd)) ∧
    (copyOperands (afterAB .glz) (.glzFar 19 0 2) = some (4096, 3) ∧ (afterAB .glz).unit.hasWindow = true ∧
      Unhindered 3 { afterAB .glz with capEn := true, maxOut := 5 }) :=
  ⟨⟨by decide, rfl, by decide, by decide⟩, ⟨by decide, rfl, by decide, by decide⟩⟩

/-- The limit at the first byte and at the last byte of a copy of 9. -/
theorem witness_CopyTokensStopAtTheLimit :
    copyOperands (afterAB .lzd) (.lzssMatch 1 0 6) = some (1, 9) ∧ (afterAB .lzd).unit.hasWindow = true ∧
    LimitAt 1 { afterAB .lzd with takeRem := 1 } ∧ LimitAt 9 { afterAB .lzd with skipRem := 5, takeRem := 4 } :=
  ⟨by decide, rfl, ⟨rfl, by decide, by decide, by decide⟩, ⟨rfl, by decide, by decide, by decide⟩⟩

/-- A token of one byte, a Huffman code, and a copy of 9 with the cap before its first and before its last byte. -/
theorem witness_TokensOverflowAtTheCap :
    (tokenByte (.glzFirst 0x41) = some 0x41 ∧ { busyOn .glz 0 [] with capEn := true }.capEn = true ∧
      { busyOn .glz 0 [] with capEn := true }.outCount = { busyOn .glz 0 [] with capEn := true }.maxOut) ∧
    IsCode { busyOn .huf 0 [] with capEn := true }.ht [true, false] 3 0x42 ∧
    (copyOperands (afterAB .lzd) (.lzssMatch 1 0 6) = some (1, 9) ∧ (afterAB .lzd).unit.hasWindow = true ∧
      CapAt 0 { afterAB .lzd with capEn := true, maxOut := 2 } ∧
      CapAt 8 { afterAB .lzd with capEn := true, maxOut := 10 }) :=
  ⟨by decide, code_of_table202.1, by decide, rfl, ⟨rfl, by decide, by decide⟩, ⟨rfl, by decide, by decide⟩⟩

theorem witness_CopyOutOfRangeFails :
    copyOperands (afterAB .lzd) (.lzssMatch 0 0 0) = some (0, 3) ∧
    copyOperands { afterAB .glz with lastOff := 0 } (.glzRep 2) = some (0, 2) ∧
    copyOperands (afterAB .glz) (.glzFar 19 1 2) = some (4097, 3) := by decide

theorem witness_EndMarkerEndsTheCommand :
    (afterAB .glz).lenKnown = true ∧ { afterAB .glz with lenKnown := false }.lenKnown = false := by decide

theorem witness_MalformedTokensAreRefused :
    (Leads (busyOn .huf 0 []).ht 0 [true] 2 ∧ (busyOn .huf 0 []).htAt 2 = .node 3 4) ∧
    (2 : BitVec 32).toNat < (if (afterAB .glz).lwm then 2 else 3) ∧
    (1 : BitVec 32).toNat < (if { afterAB .glz with lwm := true }.lwm then 2 else 3) :=
  ⟨⟨⟨1, 2, by decide, by decide, rfl⟩, by decide⟩, by decide, by decide⟩

/-- R230's example stream, its bytes read from an empty accumulator, followed by nothing. -/
theorem witness_GammaLzTokenRoundTrip :
    (Instr.glzFar 3 3 2).wellFormed = true ∧ glzContext false (.glzFar 3 3 2) = some (.glzToken false) ∧
    (at0 [0xA0, 0x03]).Holds (encodeToken (.glzFar 3 3 2) ++ []) := by
  refine ⟨by decide, by decide, by decide, fun j b hj => absurd hj (Nat.not_lt_zero j), fun j b hj => ?_, by decide⟩
  have hl : layoutPieces (at0 [0xA0, 0x03]).bcnt.toNat (encodeToken (.glzFar 3 3 2) ++ []) = [0xA0, 0x03] := by decide
  rw [hl] at hj
  match j, hj with
  | 0, hj => exact Option.some.inj hj
  | 1, hj => exact Option.some.inj hj

theorem witness_LzssTokenRoundTrip :
    lzssContext (.lzssMatch 0x01 0 6) = some .matchBytes ∧
    (at0 [0x01, 0x06]).BytesAhead (Piece.bytes (encodeToken (.lzssMatch 0x01 0 6))) ∧
    [Instr.lzssLit 0x41, .lzssMatch 0x01 0 6].length ≤ 8 := by
  refine ⟨by decide, ⟨fun j b hj => ?_, by decide⟩, by decide⟩
  have hl : Piece.bytes (encodeToken (.lzssMatch 0x01 0 6)) = [0x01, 0x06] := by decide
  rw [hl] at hj
  match j, hj with
  | 0, hj => exact Option.some.inj hj
  | 1, hj => exact Option.some.inj hj

/-- Code `10` of R202's table in the byte 0x80, and the bits `111` in the byte 0xE0. -/
theorem witness_HuffmanCodeRoundTrip :
    (IsCode table202 [true, false] 3 0x42 ∧ (at0 [0x80]).Holds ([true, false].map .bit ++ [])) ∧
    (IsNoCode table202 [true, true] true ∧ (at0 [0xE0]).Holds (([true, true] ++ [true]).map .bit ++ [])) := by
  refine ⟨⟨code_of_table202.1, by decide, fun j b hj => absurd hj (Nat.not_lt_zero j), fun j b hj => ?_, by decide⟩,
    ⟨code_of_table202.2, by decide, fun j b hj => absurd hj (Nat.not_lt_zero j), fun j b hj => ?_, by decide⟩⟩
  · have hl : layoutPieces (at0 [0x80]).bcnt.toNat ([true, false].map .bit ++ []) = [0x80] := by decide
    rw [hl] at hj
    match j, hj with
    | 0, hj => exact Option.some.inj hj
  · have hl : layoutPieces (at0 [0xE0]).bcnt.toNat (([true, true] ++ [true]).map .bit ++ []) = [0xE0] := by decide
    rw [hl] at hj
    match j, hj with
    | 0, hj => exact Option.some.inj hj

/-- The least and the greatest place and length of a match, and the greatest place of a literal. -/
theorem witness_MatchBytesInvertTheField :
    (1 ≤ { State.reset with codePtr := 1, matchLen := 3 }.codePtr.toNat ∧
      3 ≤ { State.reset with codePtr := 1, matchLen := 3 }.matchLen.toNat) ∧
    ({ State.reset with codePtr := 15, matchLen := 18 }.codePtr.toNat ≤ 15 ∧
      { State.reset with codePtr := 15, matchLen := 18 }.matchLen.toNat ≤ 18) ∧
    { State.reset with codePtr := 16 }.codePtr.toNat ≤ 16 := by decide

/-- R100's images of `Leaf(0x41)` and `Node(1, 2)`: bit 31 set and clear. -/
theorem witness_TableImageRoundTrip : (0x00020001 : BitVec 32).toNat < 2 ^ 31 ∧ 2 ^ 31 ≤ (0x80000041 : BitVec 32).toNat := by
  decide

theorem witness_RegisterWriteIsReadBack :
    HostTurnNext (hostAbout (.writeReg 12 0x3FF)) (.writeReg 12 0x3FF) [] ∧
    (hostAbout (.writeReg 12 0x3FF)).phase ≠ .busy ∧ regWidth 12 ≠ 0 ∧ regWidth 3 ≠ 0 ∧ regWidth 8 ≠ 0 :=
  ⟨⟨rfl, rfl⟩, by decide, by decide, by decide, by decide⟩

/-- The last entry of the table, and the index past it. -/
theorem witness_TableWriteAdvancesTheAddress :
    HostTurnNext { hostAbout (.writeReg 13 1) with htAddr := 510 } (.writeReg 13 1) [] ∧
    { hostAbout (.writeReg 13 1) with htAddr := 510 }.phase ≠ .busy ∧
    HostTurnNext { hostAbout (.writeReg 13 1) with htAddr := 511 } (.writeReg 13 1) [] :=
  ⟨⟨rfl, rfl⟩, by decide, ⟨rfl, rfl⟩⟩

theorem witness_IgnoredWritesChangeNothing :
    (HostTurnNext { busyOn .lzd 0 [] with agenda := [.host (.writeReg 3 1)] } (.writeReg 3 1) [] ∧
      { busyOn .lzd 0 [] with agenda := [.host (.writeReg 3 1)] }.phase = .busy) ∧
    (HostTurnNext (hostAbout (.writeReg 14 1)) (.writeReg 14 1) [] ∧ regWidth 14 = 0 ∧ regWidth 1 = 0) ∧
    ({ hostAbout (.writeReg 0 3) with resetLine := true }.agenda = [.host (.writeReg 0 3)] ∧
      { hostAbout (.writeReg 0 3) with resetLine := true }.resetLine = true) :=
  ⟨⟨⟨rfl, rfl⟩, rfl⟩, ⟨⟨rfl, rfl⟩, by decide, by decide⟩, ⟨rfl, rfl⟩⟩

/-- A register read; the last byte of `DST` and the index after it; a read while reset is asserted; the index 511. -/
theorem witness_HostReadsHaveNoSideEffect :
    (hostAbout (.readReg 14)).agenda = .host (.readReg 14) :: [] ∧ (hostAbout (.readReg 14)).resetLine = false ∧
    { hostAbout (.readDst 0) with dst := [0x41] }.dst[(0 : Count).toNat]? = some 0x41 ∧
    ({ hostAbout (.readDst 1) with dst := [0x41] }.agenda = .host (.readDst 1) :: [] ∧
      { hostAbout (.readDst 1) with dst := [0x41] }.dst.length ≤ (1 : Count).toNat) ∧
    { hostAbout (.readDst 1) with resetLine := true }.resetLine = true ∧
    ({ State.reset with htAddr := 511 }.htAddr = 511 ∧
      Memory.wf HtEntry.empty 511 { State.reset with htAddr := 511 }.ht = true) :=
  ⟨rfl, rfl, rfl, ⟨rfl, by decide⟩, rfl, rfl, rfl⟩

/-- R296: a read past the end of `DST` is no fault, and takes one free byte. -/
theorem test_read_past_dst :
    view (step (hostAbout (.readDst 0))) (fun s => (s.phase, s.agenda, s.freeCount)) = some (.idle, [], 1) := rfl

theorem witness_SourceWriteChangesOneByte :
    HostTurnNext (hostAbout (.writeSrc 2 0x41)) (.writeSrc 2 0x41) [] := ⟨rfl, rfl⟩

theorem witness_ReleaseOfResetGivesTheResetValues :
    { busyOn .lzd 0 [] with agenda := [.host .releaseReset], resetLine := true }.agenda = [.host .releaseReset] ∧
    { busyOn .lzd 0 [] with agenda := [.host .releaseReset], resetLine := true }.resetLine = true := ⟨rfl, rfl⟩

/-- Positions 1 and 2 of first byte 0: 2 is the root's child, 1 its left child, as their keys begin `00 00 07` and `00 07`. -/
def twoNodes : State :=
  { State.reset with
    win := [(3, 7)], rson := [(4097, 2)], lson := [(2, 1)], dad := [(1, 2), (2, 4097)] }

theorem twoNodes_holds : HoldsTree twoNodes 0 (.node (.node .nil 1 .nil) 2 .nil) :=
  ⟨by decide, by decide, ⟨by decide, by decide, rfl, rfl⟩, rfl⟩

/-- A third position joins, and one that is there leaves; the empty tree; a position in no tree. -/
theorem witness_InsertNodeInsertsAndSearches :
    HoldsTree twoNodes (twoNodes.winAt 5) (.node (.node .nil 1 .nil) 2 .nil) ∧
    (SearchTree.node (.node .nil 1 .nil) 2 .nil).positions.Nodup ∧
    (∀ p ∈ (SearchTree.node (.node .nil 1 .nil) 2 .nil).positions, p ≠ 5 ∧ twoNodes.winAt p = twoNodes.winAt 5) ∧
    State.reset.rsonAt (rootSlot (State.reset.winAt 7)) = Config.nil :=
  ⟨twoNodes_holds, by decide, by decide, by decide⟩

theorem witness_DeleteNodeDeletes :
    HoldsTree twoNodes 0 (.node (.node .nil 1 .nil) 2 .nil) ∧
    (SearchTree.node (.node .nil 1 .nil) 2 .nil).positions.Nodup ∧
    2 ∈ (SearchTree.node (.node .nil 1 .nil) 2 .nil).positions ∧ twoNodes.dadAt (ringNode 7) = Config.nil :=
  ⟨twoNodes_holds, by decide, by decide, by decide⟩

-- R174: key 00 00 00 of position 5 differs from 00 07 at byte 1 and from 00 00 07 at byte 2, and is less than both
theorem test_insert_below_left :
    (twoNodes.insertNode 5).map (fun t => (t.matchLen, t.matchPos, t.lsonAt 1, t.dadAt 5)) = some (2, 1, 5, 1) := by
  decide +kernel
-- R175: the only child takes the place of the deleted node
theorem test_delete_with_one_child :
    (twoNodes.deleteNode 2).map (fun t => (t.rsonAt 4097, t.dadAt 1, t.dadAt 2)) = some (1, 4097, Config.nil) := by
  decide +kernel

/-- A group of one token, and an empty one. -/
theorem witness_FlushEmitsThePartialGroup :
    EngineTurnNext { busyOn .lze 2 [] with codePtr := 2 } [] ∧ { busyOn .lze 2 [] with codePtr := 2 }.resetLine = false ∧
    { busyOn .lze 2 [] with codePtr := 2 }.phase = .busy ∧ { busyOn .lze 2 [] with codePtr := 2 }.unit = .lze ∧
    { busyOn .lze 2 [] with codePtr := 2 }.ustate = UState.flush ∧
    1 < { busyOn .lze 2 [] with codePtr := 2 }.codePtr.toNat ∧ (busyOn .lze 2 []).codePtr.toNat ≤ 1 :=
  ⟨.inl ⟨rfl, rfl⟩, rfl, rfl, rfl, rfl, by decide, by decide⟩

/-- For `EmptyInputCompressesToNothing`, `PrimeLoadsTheLookahead`, `CompressionEndsDone`, `LcgXorTransformsTheBuffer` and
`PosXorTransformsTheBuffer`: the reset state, from which a command may start, with an input of no byte. -/
theorem witness_whole_commands : State.reset.phase ≠ .busy ∧ EngineAlone State.reset ∧ State.reset.srcLen = 0 :=
  ⟨by decide, ⟨rfl, rfl⟩, rfl⟩

/-- The reset state with the one byte 0x41 as its input. -/
def oneByte : State := { State.reset with src := [(0, 0x41)], srcLen := 1 }

/-- `oneByte` with a compression started. -/
def oneByteStarted : State :=
  { oneByte with phase := .busy, unit := .lze, winFill := 0, cur := 4078 }

/-- For `CompressionExpandsByAtMostOneEighth` and `CompressedStreamDecodesToItsInput`: three steps make of it one literal
in a partial group. -/
theorem witness_compression_finishes :
    oneByte.phase ≠ .busy ∧ EngineAlone oneByte ∧ exec (.compressLzss false false) oneByte = .next oneByteStarted ∧
    view (Host.Core.run Sys2Proof.core 3 oneByteStarted) (fun t => (t.phase, t.dst)) = some (.done, [0x01, 0x41]) :=
  ⟨by decide, ⟨rfl, rfl⟩, rfl, by decide +kernel⟩

/-- What was produced, loaded as the source of the decode. -/
theorem witness_CompressedStreamDecodesToItsInput (j : Nat) (b : Byte) (h : ([0x01, 0x41] : List Byte)[j]? = some b) :
    Memory.read Config.srcUnwritten [(0, 0x01), (1, 0x41)] j = b := by
  match j, h with
  | 0, h => exact Option.some.inj h
  | 1, h => exact Option.some.inj h

/-- For `LongestMatchIsFound`: after one step of it the encoder is about to code. -/
theorem witness_LongestMatchIsFound :
    view (Host.Core.run Sys2Proof.core 1 oneByteStarted) (fun t => (t.phase, t.ustate)) = some (.busy, UState.encode) := by
  decide +kernel

/-- An encoder about to code the byte at ring position 4078, the last of its input, the tree empty. -/
def coding : State :=
  { busyOn .lze 1 [] with
    ringR := 4078, ringS := 0, win := [(4078, 0x41)], lookLen := 1, lenKnown := false, codePtr := 1, mask := 0x01 }

theorem coding_encoderLegal : EncoderLegal coding := fun _ _ => ⟨by decide, by decide, by decide, by decide⟩

theorem coding_matchTreeLegal : MatchTreeLegal coding := fun _ _ =>
  ⟨fun _ => .nil, fun _ => ⟨rfl, .nil, fun _ h => nomatch h⟩, fun _ h => absurd rfl h, fun _ _ => rfl⟩

/-- The first token of a group, and the eighth. -/
theorem witness_EncodeStepCodesOneToken :
    EngineTurnNext coding [] ∧ coding.resetLine = false ∧ coding.phase = .busy ∧ coding.unit = .lze ∧
    coding.ustate = UState.encode ∧ coding.pos ≤ coding.srcLen ∧ EncoderLegal coding ∧ MatchTreeLegal coding ∧
    GroupLegal coding ∧ GroupLegal { coding with mask := 0x80, codePtr := 15 } :=
  ⟨.inl ⟨rfl, rfl⟩, rfl, rfl, rfl, rfl, by decide, coding_encoderLegal, coding_matchTreeLegal,
    ⟨0, by decide, by decide, by decide⟩, ⟨7, by decide, by decide, by decide⟩⟩

theorem witness_StepKeepsMatchTreeLegal :
    EncoderLegal coding ∧ MatchTreeLegal coding ∧ (view (step coding) State.phase).isSome = true :=
  ⟨coding_encoderLegal, coding_matchTreeLegal, by decide +kernel⟩

theorem witness_StepKeepsMemoryCanonical :
    MemoryCanonical oneByteStarted ∧ (view (step oneByteStarted) State.phase).isSome = true :=
  ⟨⟨by decide, by decide +kernel, by decide, by decide, by decide, by decide, by decide,
    fun _ _ => ⟨0, by decide, by decide, by decide⟩⟩, by decide +kernel⟩

theorem witness_StepKeepsControlLegal :
    ControlLegal (busyOn .lzd 2 [0x01, 0x06]) ∧ (view (step (busyOn .lzd 2 [0x01, 0x06])) State.phase).isSome = true :=
  ⟨⟨show (2 : BitVec 3) ≤ 2 by decide, by decide, by decide⟩, by decide⟩

theorem witness_StepKeepsReadersLegal :
    ReadersLegal (busyOn .glz 1 [0xC0, 0x0B]) ∧ (view (step (busyOn .glz 1 [0xC0, 0x0B])) State.phase).isSome = true :=
  ⟨fun _ => ⟨by decide, by decide, by decide, by decide⟩, by decide⟩

theorem witness_StepKeepsShellLegal :
    ShellLegal (busyOn .lzd 2 [0x01, 0x06]) ∧ (view (step (busyOn .lzd 2 [0x01, 0x06])) State.phase).isSome = true :=
  ⟨fun _ => ⟨fun _ => ⟨by decide, by decide, by decide⟩, by decide⟩, by decide⟩

theorem witness_StepKeepsEncoderLegal :
    EncoderLegal oneByteStarted ∧ (view (step oneByteStarted) State.phase).isSome = true :=
  ⟨fun _ _ => ⟨by decide, by decide, by decide, by decide⟩, by decide +kernel⟩

theorem witness_LegalStepsDoNotStop :
    ControlLegal (busyOn .glz 1 [0xA0, 0x03]) ∧ ControlLegal coding ∧ EncoderLegal coding ∧ MatchTreeLegal coding :=
  ⟨⟨show (1 : BitVec 3) ≤ 1 by decide, by decide, by decide⟩, ⟨show (1 : BitVec 3) ≤ 2 by decide, by decide, by decide⟩,
    coding_encoderLegal, coding_matchTreeLegal⟩

/-- Each failure a running unit can raise. -/
theorem witness_FailuresComeFromTheirUnits :
    EngineTurnNext (busyOn .lzd 0 []) [] ∧ (busyOn .lzd 0 []).err = .none ∧
    view (step (busyOn .lzd 0 [])) State.err = some .truncatedInput ∧
    view (step (busyOn .huf 0 [0xE0])) State.err = some .invalidControlCode ∧
    view (step (busyOn .lzd 2 [0x00, 0x00])) State.err = some .backReferenceOutOfRange ∧
    view (step { busyOn .lzd 1 [0x41] with capEn := true }) State.err = some .outputOverflow :=
  ⟨.inl ⟨rfl, rfl⟩, by decide, by decide, by decide, by decide, by decide⟩

/-- For `EngineKeepsOperandsAndResult`. -/
theorem witness_engine_turn :
    EngineTurnNext (busyOn .lzd 1 [0x41]) [] ∧ view (step (busyOn .lzd 1 [0x41])) State.dst = some [0x41] :=
  ⟨.inl ⟨rfl, rfl⟩, by decide⟩

/-- Nine of ten bytes delivered, the tenth at hand. -/
def lastByte : State := { busyOn .lzd 1 [0x41] with takeRem := 1, dst := List.replicate 9 0x41 }

theorem witness_DoneDeliversExactlyTake :
    EngineTurnNext lastByte [] ∧ ShellLegal lastByte ∧ lastByte.phase = .busy ∧ lastByte.unit.isDecoder = true ∧
    lastByte.lenKnown = true ∧ view (step lastByte) State.phase = some .done :=
  ⟨.inl ⟨rfl, rfl⟩, fun _ => ⟨fun _ => ⟨by decide, by decide, by decide⟩, by decide⟩, rfl, rfl, rfl, by decide⟩

/-- The start of a decode of one byte, which its third step ends. -/
theorem witness_whole_decode :
    { oneByte with take := 1, src := [(0, 0x01), (1, 0x41)], srcLen := 2 }.phase ≠ .busy ∧
    EngineAlone { oneByte with take := 1, src := [(0, 0x01), (1, 0x41)], srcLen := 2 } ∧
    view (exec (.decompressLzss true false) { oneByte with take := 1, src := [(0, 0x01), (1, 0x41)], srcLen := 2 })
      (fun u => view (Host.Core.run Sys2Proof.core 2 u) State.phase) = some (some .done) :=
  ⟨by decide, ⟨rfl, rfl⟩, by decide⟩

/-- A table with a node at its root, and one with a leaf there. -/
theorem witness_DecodersTerminate :
    (ControlLegal (busyOn .huf 0 [0x58]) ∧ ReadersLegal (busyOn .huf 0 [0x58]) ∧ EngineAlone (busyOn .huf 0 [0x58]) ∧
      (busyOn .huf 0 [0x58]).phase = .busy ∧ (busyOn .huf 0 [0x58]).unit = .huf ∧
      (busyOn .huf 0 [0x58]).htAt 0 = .node 1 2) ∧
    (ControlLegal { busyOn .huf 0 [] with ht := [(0, .leaf 0x41)] } ∧
      EngineAlone { busyOn .huf 0 [] with ht := [(0, .leaf 0x41)] } ∧
      { busyOn .huf 0 [] with ht := [(0, .leaf 0x41)] }.htAt 0 = .leaf 0x41 ∧
      { busyOn .huf 0 [] with ht := [(0, .leaf 0x41)] }.lenKnown = true ∧
      { busyOn .huf 0 [] with ht := [(0, .leaf 0x41)] }.takeRem ≠ 0 ∧
      { busyOn .huf 0 [] with ht := [(0, .leaf 0x41)] }.capEn = false) :=
  ⟨⟨⟨rfl, by decide, by decide⟩, fun _ => ⟨by decide, by decide, by decide, by decide⟩, ⟨rfl, rfl⟩, rfl, rfl,
    by decide⟩, ⟨rfl, by decide, by decide⟩, ⟨rfl, rfl⟩, rfl, rfl, by decide, rfl⟩

theorem witness_SkipTakeIsASliceOfTheFullDecode :
    { oneByte with skip := 2, take := 3 }.phase ≠ .busy ∧ EngineAlone { oneByte with skip := 2, take := 3 } ∧
    { oneByte with skip := 2, take := 3 }.take ≠ 0 ∧
    { oneByte with skip := 2, take := 3 }.skip.toNat + { oneByte with skip := 2, take := 3 }.take.toNat < 2 ^ 64 ∧
    (Instr.decompressSkipLzss true false, Instr.decompressLzss true false) ∈
      [(Instr.decompressSkipLzss true false, Instr.decompressLzss true false),
        (Instr.decompressSkipHuffman true false, Instr.decompressHuffman false),
        (Instr.decompressSkipGammaLz true false, Instr.decompressGammaLz true false)] :=
  ⟨by decide, ⟨rfl, rfl⟩, by decide, by decide, by simp⟩

/-- Two states that differ in everything a command leaves behind and agree on its operands. -/
theorem witness_ResultsForgetThePast :
    (Instr.decompressLzss true true).isCommand = true ∧ (∀ rest, Instr.decompressLzss true true ≠ .abort rest) ∧
    (∀ k lk ce, Instr.decompressLzss true true ≠ .nop k lk ce) ∧
    oneByte.phase ≠ .busy ∧
    { oneByte with phase := .failed, err := .outputOverflow, dst := [0x42], cur := 9, flags := 0xFF }.phase ≠ .busy ∧
    EngineAlone oneByte ∧
    EngineAlone { oneByte with phase := .failed, err := .outputOverflow, dst := [0x42], cur := 9, flags := 0xFF } ∧
    SameOperands oneByte
      { oneByte with phase := .failed, err := .outputOverflow, dst := [0x42], cur := 9, flags := 0xFF } :=
  ⟨rfl, fun _ h => Instr.noConfusion h, fun _ _ _ h => Instr.noConfusion h, by decide, by decide,
    ⟨rfl, rfl⟩, ⟨rfl, rfl⟩, rfl, rfl, rfl, rfl, rfl, rfl, rfl, rfl⟩

end Sys2Proof.Tests
end

section
/-! # What one turn can do

One inversion lemma for each kind of turn: a host action, a write to `CMD`, an engine step. The invariants and the
frames below are derived from these, so that `step` and `exec` are not taken apart again in every proof. -/

namespace Sys2Proof.Machine

/-! ## The start of a unit (R267 to R273) -/

/-- What a command that starts a unit hands to the common start: the unit, the cipher's kind, `len_known`, `cap_en`, and
which operands `skip_rem` and `take_rem` are loaded from. -/
structure StartSpec where
  unit : UnitSel
  kind : CipherKind
  lenKnown : Bool
  capEn : Bool
  usesSkip : Bool
  usesTake : Bool

/-- The start a command asks for; none for `NOP`, `ABORT` and the tokens. -/
def startSpec : Instr → Option StartSpec
  | .decompressLzss lk ce => some ⟨.lzd, .lcgXor, lk, ce, false, lk⟩
  | .decompressHuffman ce => some ⟨.huf, .lcgXor, true, ce, false, true⟩
  | .decompressGammaLz lk ce => some ⟨.glz, .lcgXor, lk, ce, false, lk⟩
  | .decompressSkipLzss _ ce => some ⟨.lzd, .lcgXor, true, ce, true, true⟩
  | .decompressSkipHuffman _ ce => some ⟨.huf, .lcgXor, true, ce, true, true⟩
  | .decompressSkipGammaLz _ ce => some ⟨.glz, .lcgXor, true, ce, true, true⟩
  | .compressLzss _ _ => some ⟨.lze, .lcgXor, false, false, false, false⟩
  | .applyCipherLcgXor _ _ => some ⟨.kc, .lcgXor, false, false, false, false⟩
  | .applyCipherPosXor _ _ => some ⟨.kc, .posXor, false, false, false, false⟩
  | _ => none

/-- The initialisation of each unit (R151, R172, R201, R221, R251). -/
def State.initUnit (s : State) (u : UnitSel) (k : CipherKind) : State :=
  match u with
  | .none => s
  | .lzd => s.initLzd
  | .lze => s.initLze
  | .huf => s.initHuf
  | .glz => s.initGlz
  | .kc => s.initKc k

/-- The common start, the unit's own, and the phase (R273). -/
def State.start (s : State) (p : StartSpec) : State :=
  ((s.startCommon p.unit p.lenKnown p.capEn (if p.usesSkip then s.skip else 0)
    (if p.usesTake then s.take else 0)).initUnit p.unit p.kind).startPhase

/-- A command with a start is accepted outside Busy and then does that start. -/
theorem exec_start {i : Instr} {p : StartSpec} (hp : startSpec i = some p) (s : State) :
    exec i s = s.accept fun s => s.start p := by
  cases i <;> cases hp <;> rfl

/-- The commands that start a unit are all but `NOP` and `ABORT`. -/
theorem startSpec_isSome {i : Instr} (hc : i.isCommand = true) (ha : ∀ rest, i ≠ .abort rest)
    (hn : ∀ k lk ce, i ≠ .nop k lk ce) : ∃ p, startSpec i = some p := by
  cases i with
  | nop k lk ce => exact absurd rfl (hn k lk ce)
  | abort rest => exact absurd rfl (ha rest)
  | _ => simp_all [startSpec, Instr.isCommand]

theorem startSpec_unit_ne_none {i : Instr} {p : StartSpec} (hp : startSpec i = some p) : p.unit ≠ .none := by
  cases i <;> cases hp <;> exact UnitSel.noConfusion

/-- `ABORT` (R271). -/
def State.aborted (s : State) : State :=
  { s with
    phase := .idle, unit := .none, ustate := 0, err := .none, dst := [], pos := 0, outCount := 0
    skipRem := 0, takeRem := 0, lenKnown := false, capEn := false }

theorem decodeCommand_isCommand {w : CmdWord} {i : Instr} (h : decodeCommand w = some i) : i.isCommand = true := by
  unfold decodeCommand at h
  repeat' split at h
  all_goals cases h
  all_goals rfl

/-- Everything a write to `CMD` can do (R272). -/
theorem runCommand_cases {w : CmdWord} {s t : State} (h : runCommand w s = .next t) :
    t = s ∨ t = s.aborted ∨ (s.phase ≠ .busy ∧ t = s.refuseCommand) ∨
    (s.phase ≠ .busy ∧ ∃ i p, startSpec i = some p ∧ t = s.start p) := by
  unfold runCommand at h
  split at h
  · next i hd =>
    by_cases hn : ∃ k lk ce, i = .nop k lk ce
    · obtain ⟨k, lk, ce, rfl⟩ := hn
      cases h; exact .inl rfl
    by_cases ha : ∃ rest, i = .abort rest
    · obtain ⟨rest, rfl⟩ := ha
      cases h; exact .inr (.inl rfl)
    simp only [not_exists] at hn ha
    obtain ⟨p, hp⟩ := startSpec_isSome (decodeCommand_isCommand hd) ha hn
    rw [exec_start hp, State.accept] at h
    cases h
    split
    · exact .inl rfl
    · next hb => exact .inr (.inr (.inr ⟨hb, i, p, hp, rfl⟩))
  · cases h
    split
    · exact .inl rfl
    · next hb => exact .inr (.inr (.inl ⟨hb, rfl⟩))

/-! ## Host actions (R265, R320) -/

/-- Everything a host action can do. -/
theorem hostTurn_cases {a : HostAction} {s t : State} (h : hostTurn a s = .next t) :
    (∃ w, runCommand w s = .next t) ∨ (∃ n v, t = s.writeReg n v) ∨ (∃ i b, t = s.writeSrc i b) ∨
    (∃ v n, t = { s with readData := v, freeCount := n }) ∨ t = { s with resetLine := true } ∨ t = s ∨
    t = { State.reset with agenda := s.agenda, freeCount := s.freeCount } := by
  cases a with
  | writeReg n v =>
    simp only [hostTurn] at h
    split at h
    · cases h; simp
    · split at h
      · exact .inl ⟨_, h⟩
      · cases h; exact .inr (.inl ⟨n, v, rfl⟩)
  | readReg n => cases h; exact .inr (.inr (.inr (.inl ⟨_, s.freeCount, rfl⟩)))
  | writeSrc i b =>
    simp only [hostTurn, Host.Outcome.next.injEq] at h
    subst h
    split
    · simp
    · exact .inr (.inr (.inl ⟨i, b, rfl⟩))
  | readDst i =>
    obtain ⟨v, n, hr, -⟩ := hostReadDst_spec i s
    rw [hostTurn, hr] at h
    cases h
    exact .inr (.inr (.inr (.inl ⟨v, n, rfl⟩)))
  | assertReset => cases h; simp
  | releaseReset =>
    simp only [hostTurn, Host.Outcome.next.injEq] at h
    subst h
    unfold releaseReset
    split <;> simp

/-! ## Turns -/

theorem step_engine {s : State} {rest : List Turn} (h : EngineTurnNext s rest) :
    step s = engineTurn { s with agenda := rest } := by
  unfold step takeTurn
  rcases h with ⟨ha, rfl⟩ | ha <;> rw [ha]
  have hs : { s with agenda := [] } = s := by rw [← ha]
  rw [hs]

theorem step_host {s : State} {a : HostAction} {rest : List Turn} (h : s.agenda = .host a :: rest) :
    step s = hostTurn a { s with agenda := rest } := by
  unfold step takeTurn
  rw [h]

theorem engineTurn_busy {s : State} (hb : s.phase = .busy) (hr : s.resetLine = false) :
    engineTurn s = stepUnit s := if_pos ⟨hb, hr⟩

/-- A predicate that every engine step and every host action keeps is kept by every step. -/
theorem step_keeps {P : State → Prop} (hagenda : ∀ s rest, P s → P { s with agenda := rest })
    (hengine : ∀ s t, P s → s.phase = .busy → stepUnit s = .next t → P t)
    (hhost : ∀ a s t, P s → hostTurn a s = .next t → P t) {s t : State} (hs : P s) (h : step s = .next t) : P t := by
  have engine : ∀ rest, engineTurn { s with agenda := rest } = .next t → P t := by
    intro rest he
    unfold engineTurn at he
    split at he
    · next hb => exact hengine _ _ (hagenda _ _ hs) hb.1 he
    · cases he; exact hagenda _ _ hs
  unfold step takeTurn at h
  split at h
  · exact engine s.agenda h
  · exact engine _ h
  · exact hhost _ _ _ (hagenda _ _ hs) h

/-- A predicate that no host action can break: it looks at none of the fields a host action other than `CMD` writes in a
way that matters, and the four outcomes of a write to `CMD` establish or keep it. -/
theorem host_keeps {P : State → Prop} (hcmd : ∀ s, P s → P s.aborted)
    (hrefuse : ∀ s, P s → s.phase ≠ .busy → P s.refuseCommand)
    (hstart : ∀ i p s, startSpec i = some p → P s → s.phase ≠ .busy → P (s.start p))
    (hreg : ∀ s n v, P s → P (s.writeReg n v)) (hsrc : ∀ s i b, P s → P (s.writeSrc i b))
    (hread : ∀ s v n, P s → P { s with readData := v, freeCount := n })
    (hassert : ∀ s, P s → P { s with resetLine := true })
    (hreset : ∀ a n, P { State.reset with agenda := a, freeCount := n })
    (a : HostAction) (s t : State) (hs : P s) (h : hostTurn a s = .next t) : P t := by
  rcases hostTurn_cases h with ⟨w, hw⟩ | ⟨n, v, rfl⟩ | ⟨i, b, rfl⟩ | ⟨v, n, rfl⟩ | rfl | rfl | rfl
  · rcases runCommand_cases hw with rfl | rfl | ⟨hb, rfl⟩ | ⟨hb, i, p, hp, rfl⟩
    · exact hs
    · exact hcmd s hs
    · exact hrefuse s hs hb
    · exact hstart i p s hp hs hb
  · exact hreg s n v hs
  · exact hsrc s i b hs
  · exact hread s v n hs
  · exact hassert s hs
  · exact hs
  · exact hreset _ _

end Sys2Proof.Machine
end

section
/-! # What reading a token can do (R130, R137, R223) -/

namespace Sys2Proof

/-- The cursor an outcome of a read carries. -/
def Fetched.cursor {α : Type} : Fetched α → Cursor
  | .got _ c => c
  | .endOfInput c => c
  | .malformed c => c

/-- Reading on from `c` may come to `c'`: `SRC` and its length stay, the position stays inside it, and at most 8 bits are
left of a control byte. -/
structure Cursor.Advances (c c' : Cursor) : Prop where
  src : c'.src = c.src
  srcLen : c'.srcLen = c.srcLen
  pos : c.pos ≤ c.srcLen → c'.pos ≤ c'.srcLen
  bcnt : c.bcnt ≤ 8 → c'.bcnt ≤ 8

theorem Cursor.Advances.refl (c : Cursor) : c.Advances c := ⟨rfl, rfl, id, id⟩

theorem Cursor.Advances.trans {c d e : Cursor} (h : c.Advances d) (h' : d.Advances e) : c.Advances e :=
  ⟨h'.src.trans h.src, h'.srcLen.trans h.srcLen, h'.pos ∘ h.pos, h'.bcnt ∘ h.bcnt⟩

theorem Count.succ_le_of_ne {p n : Count} (hne : p ≠ n) (h : p ≤ n) : p + 1 ≤ n := by bv_omega

theorem Cursor.readByte_advances (c : Cursor) : c.Advances c.readByte.cursor := by
  rcases c.readByte_cases with ⟨-, h⟩ | ⟨hne, h⟩ <;> rw [h]
  · exact .refl c
  · exact ⟨rfl, rfl, Count.succ_le_of_ne hne, id⟩

theorem Cursor.getBit_advances (c : Cursor) : c.Advances c.getBit.cursor := by
  rcases c.getBit_cases with ⟨hb, h⟩ | ⟨-, -, h⟩ | ⟨-, hne, h⟩ <;> rw [h]
  · exact ⟨rfl, rfl, id, fun (h8 : c.bcnt ≤ 8) => show c.bcnt - 1 ≤ 8 by bv_omega⟩
  · exact .refl c
  · exact ⟨rfl, rfl, Count.succ_le_of_ne hne, fun _ => show (7 : BitVec 4) ≤ 8 by decide⟩

/-- A reading in two parts advances if both do. -/
theorem Fetched.andThen_advances {α β : Type} {c : Cursor} {x : Fetched α} {k : α → Cursor → Fetched β}
    (hx : c.Advances x.cursor) (hk : ∀ a (d : Cursor), d.Advances (k a d).cursor) : c.Advances (x.andThen k).cursor := by
  cases x with
  | got a d => exact Cursor.Advances.trans hx (hk a d)
  | endOfInput d => exact hx
  | malformed d => exact hx

theorem Cursor.getBits_advances (k v : Nat) (c : Cursor) : c.Advances (Cursor.getBits k v c).cursor := by
  induction k generalizing v c with
  | zero => exact .refl c
  | succ k ih => exact Fetched.andThen_advances c.getBit_advances fun b d => ih _ d

theorem Cursor.gammaFrom_advances (k : Nat) (g : BitVec 32) (c : Cursor) :
    c.Advances (Cursor.gammaFrom k g c).cursor := by
  induction k generalizing g c with
  | zero => exact .refl c
  | succ k ih =>
    refine Fetched.andThen_advances c.getBit_advances fun b d => ?_
    refine Fetched.andThen_advances d.getBit_advances fun more e => ?_
    split
    · exact .refl e
    · split
      · exact .refl e
      · exact ih _ e

theorem Cursor.gamma_advances (c : Cursor) : c.Advances c.gamma.cursor := c.gammaFrom_advances _ _

theorem decodeLzssMatch_advances (c : Cursor) : c.Advances (decodeLzssMatch c).cursor :=
  Fetched.andThen_advances c.readByte_advances fun _ d =>
    Fetched.andThen_advances d.readByte_advances fun _ e => .refl e

theorem decodeFarOrRep_advances (lwm : Bool) (c : Cursor) : c.Advances (decodeFarOrRep lwm c).cursor := by
  refine Fetched.andThen_advances c.gamma_advances fun g d => ?_
  split
  · exact Fetched.andThen_advances d.gamma_advances fun _ e => .refl e
  · exact Fetched.andThen_advances d.readByte_advances fun _ e =>
      Fetched.andThen_advances e.gamma_advances fun _ f => .refl f

theorem decodeNearOrEnd_advances (c : Cursor) : c.Advances (decodeNearOrEnd c).cursor := by
  refine Fetched.andThen_advances c.readByte_advances fun v d => ?_
  split <;> exact .refl d

theorem decodeShort_advances (c : Cursor) : c.Advances (decodeShort c).cursor := by
  refine Fetched.andThen_advances (c.getBits_advances 4 0) fun v d => ?_
  split <;> exact .refl d

theorem decodeGlz_advances (lwm : Bool) (c : Cursor) : c.Advances (decodeGlz lwm c).cursor := by
  refine Fetched.andThen_advances c.getBit_advances fun b1 d => ?_
  split
  · exact Fetched.andThen_advances d.readByte_advances fun _ e => .refl e
  · refine Fetched.andThen_advances d.getBit_advances fun b2 e => ?_
    split
    · exact decodeFarOrRep_advances lwm e
    · refine Fetched.andThen_advances e.getBit_advances fun b3 f => ?_
      split
      · exact decodeNearOrEnd_advances f
      · exact decodeShort_advances f

/-- Reading a token of a window decoder, whether it ends or not, advances the cursor. -/
theorem decodeToken_advances (x : TokenContext) (c : Cursor) : c.Advances (decodeToken x c).cursor := by
  have raw (f : Byte → Instr) : c.Advances (c.readByte.andThen fun b d => .got (f b) d).cursor :=
    Fetched.andThen_advances c.readByte_advances fun _ d => .refl d
  cases x with
  | flagByte => exact raw _
  | literal => exact raw _
  | matchBytes => exact decodeLzssMatch_advances c
  | firstLiteral => exact raw _
  | glzToken lwm => exact decodeGlz_advances lwm c

/-- The cursor the Huffman walk ends with. -/
def HufFetched.cursor : HufFetched → Cursor
  | .code _ c => c
  | .endOfInput _ c => c
  | .noCode c => c

theorem decodeHufFrom_advances (ht : List (Nat × HtEntry)) (k : Nat) (n : BitVec 9) (path : List Bool) (c : Cursor) :
    c.Advances (decodeHufFrom ht k n path c).cursor := by
  induction k generalizing n path c with
  | zero =>
    unfold decodeHufFrom
    split <;> exact .refl c
  | succ k ih =>
    unfold decodeHufFrom
    split
    · exact .refl c
    · have hb := c.getBit_advances
      dsimp only
      split
      · next hg => rw [hg] at hb; exact hb
      · next hg => rw [hg] at hb; exact hb
      · next c0 c1 _ _ bit _ hg =>
        rw [hg] at hb
        generalize (if bit then c1 else c0) = m
        split
        · exact hb
        · exact hb.trans (ih _ _ _)

theorem decodeHuf_advances (ht : List (Nat × HtEntry)) (c : Cursor) : c.Advances (decodeHuf ht c).cursor :=
  decodeHufFrom_advances ..

/-! ## Which token a context gives -/

/-- The tokens that a context can give (R95 to R97, R102, R103), with the operands the decoder can answer: an extended
match has a gamma value that its form admits (R230). -/
def TokenContext.admits : TokenContext → Instr → Prop
  | .flagByte, .lzssFlags _ => True
  | .literal, .lzssLit _ => True
  | .matchBytes, .lzssMatch .. => True
  | .firstLiteral, .glzFirst _ => True
  | .glzToken lwm, .glzFar g _ _ => Machine.farLeast lwm ≤ g.toNat
  | .glzToken _, .glzLit _ | .glzToken _, .glzShort _ | .glzToken _, .glzZero | .glzToken _, .glzNear ..
  | .glzToken _, .glzEnd _ | .glzToken _, .glzRep _ => True
  | _, _ => False

/-- Whatever value a read gives satisfies `P`. -/
def Fetched.Gives {α : Type} (P : α → Prop) (x : Fetched α) : Prop := ∀ a c, x = .got a c → P a

theorem Fetched.gives_got {α : Type} {P : α → Prop} {a : α} {c : Cursor} (h : P a) : Fetched.Gives P (.got a c) := by
  rintro _ _ ⟨⟩; exact h

theorem Fetched.gives_malformed {α : Type} {P : α → Prop} {c : Cursor} : Fetched.Gives P (.malformed c) := nofun

theorem Fetched.andThen_gives {α β : Type} {Q : α → Prop} {P : β → Prop} {x : Fetched α} {k : α → Cursor → Fetched β}
    (hx : Fetched.Gives Q x) (hk : ∀ a c, Q a → Fetched.Gives P (k a c)) : Fetched.Gives P (x.andThen k) := by
  cases x with
  | got a c => exact hk a c (hx a c rfl)
  | endOfInput c => exact nofun
  | malformed c => exact nofun

theorem Fetched.gives_any {α : Type} (x : Fetched α) : Fetched.Gives (fun _ => True) x := fun _ _ _ => trivial

/-- A gamma code has the value 2 or more (R104). -/
theorem Cursor.gammaFrom_gives (k : Nat) (g : BitVec 32) (c : Cursor) (h1 : 1 ≤ g.toNat) (h2 : g.toNat < 2 ^ 31) :
    Fetched.Gives (fun v : BitVec 32 => 2 ≤ v.toNat) (Cursor.gammaFrom k g c) := by
  induction k generalizing g c with
  | zero => exact Fetched.gives_malformed
  | succ k ih =>
    refine Fetched.andThen_gives c.getBit.gives_any fun b d _ => ?_
    refine Fetched.andThen_gives d.getBit.gives_any fun more e _ => ?_
    have hv : ((g <<< 1) ||| BitVec.ofNat 32 b.toNat).toNat = 2 * g.toNat + b.toNat := by
      have hb : b.toNat < 2 := b.toNat_lt
      have hor : g.toNat * 2 ^ 1 ||| b.toNat = g.toNat * 2 ^ 1 + b.toNat := by
        have := Nat.shiftLeft_add_eq_or_of_lt (i := 1) (b := b.toNat) (by omega) g.toNat
        simpa only [Nat.shiftLeft_eq] using this.symm
      simp only [BitVec.toNat_or, BitVec.toNat_shiftLeft, Nat.shiftLeft_eq, BitVec.toNat_ofNat]
      rw [Nat.mod_eq_of_lt (by omega : g.toNat * 2 ^ 1 < 2 ^ 32), Nat.mod_eq_of_lt (by omega : b.toNat < 2 ^ 32)]
      omega
    split
    · exact Fetched.gives_got (by omega)
    · split
      · exact Fetched.gives_malformed
      · next hlt =>
        rw [BitVec.not_le, BitVec.lt_def, hv] at hlt
        exact ih _ _ (by omega) (hv ▸ hlt)

theorem Cursor.gamma_gives (c : Cursor) : Fetched.Gives (fun v : BitVec 32 => 2 ≤ v.toNat) c.gamma :=
  c.gammaFrom_gives 32 1 (by decide) (by decide)

theorem decodeFarOrRep_gives (lwm : Bool) (c : Cursor) :
    Fetched.Gives (TokenContext.admits (.glzToken lwm)) (decodeFarOrRep lwm c) := by
  refine Fetched.andThen_gives c.gamma_gives fun g d hg => ?_
  split
  · exact Fetched.andThen_gives d.gamma.gives_any fun _ e _ => Fetched.gives_got trivial
  · next hrep =>
    have hleast : Machine.farLeast lwm ≤ g.toNat := by
      unfold Machine.farLeast
      cases lwm with
      | true => exact hg
      | false =>
        have hne : g ≠ 2 := fun h => hrep ⟨rfl, h⟩
        have : g.toNat ≠ 2 := fun h => hne (BitVec.eq_of_toNat_eq h)
        simp only [Bool.false_eq_true, if_false]
        omega
    exact Fetched.andThen_gives d.readByte.gives_any fun _ e _ =>
      Fetched.andThen_gives e.gamma.gives_any fun _ f _ => Fetched.gives_got hleast

theorem decodeNearOrEnd_gives (lwm : Bool) (c : Cursor) :
    Fetched.Gives (TokenContext.admits (.glzToken lwm)) (decodeNearOrEnd c) := by
  refine Fetched.andThen_gives c.readByte.gives_any fun v d _ => ?_
  split <;> exact Fetched.gives_got trivial

theorem decodeShort_gives (lwm : Bool) (c : Cursor) :
    Fetched.Gives (TokenContext.admits (.glzToken lwm)) (decodeShort c) := by
  refine Fetched.andThen_gives (Cursor.getBits 4 0 c).gives_any fun v d _ => ?_
  split <;> exact Fetched.gives_got trivial

theorem decodeGlz_gives (lwm : Bool) (c : Cursor) :
    Fetched.Gives (TokenContext.admits (.glzToken lwm)) (decodeGlz lwm c) := by
  refine Fetched.andThen_gives c.getBit.gives_any fun b1 d _ => ?_
  split
  · exact Fetched.andThen_gives d.readByte.gives_any fun _ e _ => Fetched.gives_got trivial
  · refine Fetched.andThen_gives d.getBit.gives_any fun b2 e _ => ?_
    split
    · exact decodeFarOrRep_gives lwm e
    · refine Fetched.andThen_gives e.getBit.gives_any fun b3 f _ => ?_
      split
      · exact decodeNearOrEnd_gives lwm f
      · exact decodeShort_gives lwm f

/-- The decoder answers only tokens that its context admits. -/
theorem decodeToken_gives (x : TokenContext) (c : Cursor) : Fetched.Gives x.admits (decodeToken x c) := by
  cases x with
  | flagByte | literal | firstLiteral =>
    exact Fetched.andThen_gives c.readByte.gives_any fun _ d _ => Fetched.gives_got trivial
  | matchBytes =>
    exact Fetched.andThen_gives c.readByte.gives_any fun _ d _ =>
      Fetched.andThen_gives d.readByte.gives_any fun _ e _ => Fetched.gives_got trivial
  | glzToken lwm => exact decodeGlz_gives lwm c

open Machine in
/-- The bits of a code that the decoder has read lead from where it started to a leaf (R101, R202). -/
theorem decodeHufFrom_code (ht : List (Nat × HtEntry)) (k : Nat) (n : BitVec 9) (path p : List Bool) (c d : Cursor)
    (h : decodeHufFrom ht k n path c = .code p d) :
    ∃ bits m sym, p = path.reverse ++ bits ∧ hufFollow ht n bits = .leaf m sym := by
  induction k generalizing n path c with
  | zero =>
    unfold decodeHufFrom at h
    split at h
    · next sym hl => cases h; exact ⟨[], n, sym, by simp, by simp [hufFollow, hl]⟩
    · cases h
  | succ k ih =>
    unfold decodeHufFrom at h
    split at h
    · next sym hl => cases h; exact ⟨[], n, sym, by simp, by simp [hufFollow, hl]⟩
    · next c0 c1 hn =>
      dsimp only at h
      split at h
      · cases h
      · cases h
      · next bit c' hg =>
        generalize hnext : (if bit then c1 else c0) = n' at h
        split at h
        · cases h
        · next hne =>
          obtain ⟨bits, m, sym, hp, hf⟩ := ih _ _ _ h
          refine ⟨bit :: bits, m, sym, by simpa using hp, ?_⟩
          rw [hufFollow, hn]
          simpa only [hnext, if_neg hne] using hf

open Machine in
theorem decodeHuf_code {ht : List (Nat × HtEntry)} {c d : Cursor} {p : List Bool} (h : decodeHuf ht c = .code p d) :
    ∃ m sym, hufFollow ht 0 p = .leaf m sym := by
  obtain ⟨bits, m, sym, rfl, hf⟩ := decodeHufFrom_code _ _ _ _ _ _ _ h
  exact ⟨m, sym, by simpa using hf⟩

end Sys2Proof
end

section
/-! # What a decoder step can do (R135, R274) -/

namespace Sys2Proof.Machine

/-- The command has ended: `Done`, or `Failed` with an error (R136, R300). -/
def Ended (s t : State) : Prop := (t.phase = .done ∧ t.err = s.err) ∨ (t.phase = .failed ∧ t.err ≠ .none)

/-- The phase and the error stay. -/
def Continues (s t : State) : Prop := t.phase = s.phase ∧ t.err = s.err

/-- A flow that goes on keeps the phase and the error, one that halts has ended the command. -/
def Flow.EndsFrom (s : State) : Flow → Prop
  | .go t => Continues s t
  | .halt t => Ended s t

/-- What a decoder step may write, and what it keeps: no operand, no memory but the window and `DST`, which only grows;
the ranges of the readers; and the legality of the control state. -/
structure DecoderStep (s t : State) : Prop where
  frame : t = { s with
    pos := t.pos, acc := t.acc, bcnt := t.bcnt, node := t.node, err := t.err, phase := t.phase, skipRem := t.skipRem
    takeRem := t.takeRem, outCount := t.outCount, win := t.win, cur := t.cur, dst := t.dst
    flags := t.flags, fcnt := t.fcnt, ustate := t.ustate, lwm := t.lwm, lastOff := t.lastOff }
  cursor : s.cursor.Advances t.cursor
  dst : s.dst <+: t.dst
  win : Memory.wf s.winFill 4096 s.win = true → Memory.wf s.winFill 4096 t.win = true
  outcome : Continues s t ∨ Ended s t
  ustate : UStateLegal s → UStateLegal t
  fcnt : s.fcnt ≤ 8 → t.fcnt ≤ 8
  lastOff : s.lastOff ≤ 4096 → t.lastOff ≤ 4096

theorem DecoderStep.refl (s : State) : DecoderStep s s :=
  ⟨rfl, .refl _, List.prefix_refl _, id, .inl ⟨rfl, rfl⟩, id, id, id⟩

theorem Continues.trans_outcome {s t u : State} (h : Continues s t) (h' : Continues t u ∨ Ended t u) :
    Continues s u ∨ Ended s u := by
  obtain ⟨hp, he⟩ := h
  simp only [Continues, Ended, hp, he] at h' ⊢
  exact h'

theorem DecoderStep.trans {s t u : State} (h : DecoderStep s t) (hc : Continues s t) (h' : DecoderStep t u) :
    DecoderStep s u where
  frame := by rw [h'.frame, h.frame]
  cursor := h.cursor.trans h'.cursor
  dst := h.dst.trans h'.dst
  win hw := by
    have hf : t.winFill = s.winFill := by rw [h.frame]
    have := h'.win
    rw [hf] at this
    exact this (h.win hw)
  outcome := hc.trans_outcome h'.outcome
  ustate := h'.ustate ∘ h.ustate
  fcnt := h'.fcnt ∘ h.fcnt
  lastOff := h'.lastOff ∘ h.lastOff

/-! ## Producing bytes -/

/-- What `Produce` and a copy may do: a decoder step that writes the shell, the window and `DST` only. -/
structure Produces (s : State) (x : Flow) : Prop where
  step : DecoderStep s x.state
  shell : ShellFrame s x.state
  ends : x.EndsFrom s

/-- A shell frame keeps what the readers and the control code of a decoder are made of. -/
theorem DecoderStep.of_shell {s t : State} (hf : ShellFrame s t) (hd : s.dst <+: t.dst)
    (hw : Memory.wf s.winFill 4096 s.win = true → Memory.wf s.winFill 4096 t.win = true)
    (ho : Continues s t ∨ Ended s t) : DecoderStep s t := by
  refine ⟨?_, ?_, hd, hw, ho, ?_, ?_, ?_⟩ <;> rw [ShellFrame] at hf <;> rw [hf]
  · exact .refl _
  all_goals exact id

theorem State.countByte_win_wf (s : State) (b : Byte) (h : Memory.wf s.winFill 4096 s.win = true) :
    Memory.wf s.winFill 4096 (s.countByte b).win = true := by
  rw [State.countByte_eq]
  dsimp only
  split
  · exact Memory.wf_write _ h s.cur.isLt
  · exact h

theorem State.produce_produces (s : State) (b : Byte) : Produces s (s.produce b) := by
  have hf := s.produce_frame b
  have hw := s.countByte_win_wf b
  have hc : Continues s (s.countByte b) ∧ (s.countByte b).dst = s.dst := by
    rw [State.countByte_eq]; exact ⟨⟨rfl, rfl⟩, rfl⟩
  obtain ⟨⟨hp, he⟩, hd⟩ := hc
  rcases s.produce_cases b with ⟨-, -, h⟩ | ⟨-, ⟨-, h⟩ | ⟨-, -, h⟩ | ⟨-, -, -, h⟩ | ⟨-, -, -, h⟩⟩ <;> rw [h] at hf ⊢
  · have ho : Ended s { s with phase := .failed, err := .outputOverflow } := .inr ⟨rfl, ErrCode.noConfusion⟩
    exact ⟨.of_shell hf (List.prefix_refl _) id (.inr ho), hf, ho⟩
  · exact ⟨.of_shell hf (hd ▸ List.prefix_refl _) hw (.inl ⟨hp, he⟩), hf, hp, he⟩
  · exact ⟨.of_shell hf (List.prefix_append _ _) hw (.inl ⟨hp, he⟩), hf, hp, he⟩
  · exact ⟨.of_shell hf (List.prefix_append _ _) hw (.inl ⟨hp, he⟩), hf, hp, he⟩
  · exact ⟨.of_shell hf (List.prefix_append _ _) hw (.inr (.inl ⟨rfl, he⟩)), hf, .inl ⟨rfl, he⟩⟩

/-- Producing, then going on to produce. -/
theorem Produces.andThen {s : State} {x : Flow} {k : State → Flow} (hx : Produces s x)
    (hk : ∀ t, x = .go t → Produces t (k t)) : Produces s (x.andThen k) := by
  cases x with
  | halt t => exact hx
  | go t =>
    have h := hk t rfl
    have hc : Continues s t := hx.ends
    refine ⟨hx.step.trans hc h.step, hx.shell.trans h.shell, ?_⟩
    obtain ⟨hp, he⟩ := hc
    have he' := h.ends
    change Flow.EndsFrom s (k t)
    cases hkt : k t <;> rw [hkt] at he' <;> simp only [Flow.EndsFrom, Continues, Ended, hp, he] at he' ⊢ <;> exact he'

theorem State.copyBytes_produces (d n : Nat) (s : State) : Produces s (State.copyBytes d n s) := by
  induction n generalizing s with
  | zero => exact ⟨.refl s, .refl s, rfl, rfl⟩
  | succ n ih => exact (s.produce_produces _).andThen fun t _ => ih t

theorem State.raise_step (s : State) (e : ErrCode) (he : e ≠ .none) : DecoderStep s (s.raise e) :=
  .of_shell rfl (List.prefix_refl _) id (.inr (.inr ⟨rfl, he⟩))

theorem State.stop_step (s : State) : DecoderStep s s.stop :=
  .of_shell rfl (List.prefix_refl _) id (.inr (.inl ⟨rfl, rfl⟩))

theorem State.copyBack_produces (s : State) (d n : Nat) : Produces s (s.copyBack d n) := by
  unfold State.copyBack
  split
  · exact ⟨s.raise_step _ ErrCode.noConfusion, rfl, .inr ⟨rfl, ErrCode.noConfusion⟩⟩
  · exact State.copyBytes_produces d n s

/-- A copy that has not failed had a distance within the window (R133). -/
theorem State.copyBack_go {s t : State} {d n : Nat} (h : s.copyBack d n = .go t) : d ≤ 4096 := by
  unfold State.copyBack at h
  split at h
  · cases h
  · next hd => simp only [not_or, Config.W] at hd; omega

/-! ## Tokens -/

/-- Bytes produced, then the last lines of a token, which a halt cuts off. -/
theorem Produces.token {s : State} {x : Flow} {f : State → State} (hx : Produces s x)
    (hf : ∀ t, x = .go t → t.unit = s.unit → DecoderStep t (f t)) :
    DecoderStep s (x.andThen fun t => .go (f t)).state := by
  cases x with
  | halt t => exact hx.step
  | go t =>
    have hf' : ShellFrame s t := hx.shell
    have hu : t.unit = s.unit := by rw [hf']
    exact hx.step.trans hx.ends (hf t rfl hu)

/-- `NextToken()` (R153). -/
theorem State.nextToken_step {s : State} (hu : s.unit = .lzd) : DecoderStep s s.nextToken := by
  unfold State.nextToken
  split
  · exact ⟨rfl, .refl _, List.prefix_refl _, id, .inl ⟨rfl, rfl⟩, fun _ => by simp [UStateLegal, hu], id, id⟩
  · next h0 =>
    refine ⟨rfl, .refl _, List.prefix_refl _, id, .inl ⟨rfl, rfl⟩, fun _ => ?_, fun h => ?_, id⟩
    · simp only [UStateLegal, hu]; split <;> decide
    · change s.fcnt - 1 ≤ 8; bv_omega

/-- The last lines of a Gamma-LZ token (R224, R231). -/
theorem State.glzNext_step {s : State} (hu : s.unit = .glz) (w : Bool) (o : BitVec 13)
    (ho : s.lastOff ≤ 4096 → o ≤ 4096) : DecoderStep s { s with lwm := w, lastOff := o }.glzNext :=
  ⟨rfl, .refl _, List.prefix_refl _, id, .inl ⟨rfl, rfl⟩, fun _ => by simp [UStateLegal, hu], id, ho⟩

/-- The unit that reads in a context. -/
def tokenUnit : TokenContext → UnitSel
  | .flagByte | .literal | .matchBytes => .lzd
  | .firstLiteral | .glzToken _ => .glz

theorem State.tokenContext_unit {s : State} {x : TokenContext} (h : s.tokenContext = some x) :
    s.unit = tokenUnit x ∧ ∀ w, x = .glzToken w → w = s.lwm := by
  unfold State.tokenContext at h
  split at h
  · next hu => repeat' split at h
               all_goals cases h
               all_goals exact ⟨hu, nofun⟩
  · next hu =>
    repeat' split at h
    all_goals cases h
    · exact ⟨hu, nofun⟩
    · exact ⟨hu, fun w hw => (TokenContext.glzToken.inj hw).symm⟩
  all_goals cases h

/-- The literal-class tokens of Gamma-LZ (R222, R225, R226). -/
theorem State.produce_glz_step {s : State} (hu : s.unit = .glz) (b : Byte) :
    DecoderStep s ((s.produce b).andThen fun s' => .go { s' with lwm := false }.glzNext).state :=
  (s.produce_produces b).token fun t _ ht => State.glzNext_step (ht.trans hu) false t.lastOff id

/-- A Gamma-LZ copy, after which `last_off` is kept or is the distance of the copy (R226, R227, R229, R230). -/
theorem State.copyBack_glz_step {s : State} (hu : s.unit = .glz) (d n : Nat) (w : Bool) (o : State → BitVec 13)
    (ho : ∀ t, d ≤ 4096 → t.lastOff ≤ 4096 → o t ≤ 4096) :
    DecoderStep s ((s.copyBack d n).andThen fun s' => .go { s' with lwm := w, lastOff := o s' }.glzNext).state :=
  (s.copyBack_produces d n).token fun t hg ht => State.glzNext_step (ht.trans hu) w (o t) (ho t (State.copyBack_go hg))

theorem ofNat_le_4096 {d : Nat} (h : d ≤ 4096) : BitVec.ofNat 13 d ≤ 4096 := by
  rw [BitVec.le_def, BitVec.toNat_ofNat]; exact (Nat.mod_le _ _).trans h

theorem setWidth_le_4096 (d : BitVec 7) : d.setWidth 13 ≤ 4096 := by
  have := d.isLt; bv_omega

theorem State.tokShort_step {s : State} (hu : s.unit = .glz) (d : BitVec 4) : DecoderStep s (s.tokShort d).state := by
  unfold State.tokShort
  split
  · exact State.produce_glz_step hu _
  · exact State.copyBack_glz_step hu _ _ false State.lastOff fun _ _ h => h

theorem State.tokNearOrEnd_step {s : State} (hu : s.unit = .glz) (d : BitVec 7) (n : Bool) :
    DecoderStep s (s.tokNearOrEnd d n).state := by
  unfold State.tokNearOrEnd
  split
  · split
    · exact s.raise_step _ ErrCode.noConfusion
    · exact s.stop_step
  · exact State.copyBack_glz_step hu _ _ true (fun _ => d.setWidth 13) fun _ _ _ => setWidth_le_4096 d

/-- A token that its context admits is executed: it is never refused, and does what a decoder step may do. -/
theorem exec_token {s : State} {x : TokenContext} {i : Instr} (hx : s.tokenContext = some x) (hi : x.admits i) :
    ∃ t, exec i s = .next t ∧ DecoderStep s t := by
  obtain ⟨hu, hw⟩ := State.tokenContext_unit hx
  cases x with
  | flagByte =>
    cases i with
    | lzssFlags f =>
      have hl : DecoderStep s { s with flags := f, fcnt := 8 } :=
        ⟨rfl, .refl _, List.prefix_refl _, id, .inl ⟨rfl, rfl⟩, id, fun _ => (by decide : (8 : BitVec 4) ≤ 8), id⟩
      exact ⟨_, rfl, hl.trans ⟨rfl, rfl⟩ (State.nextToken_step hu)⟩
    | _ => exact hi.elim
  | literal =>
    cases i with
    | lzssLit b => exact ⟨_, rfl, (s.produce_produces b).token fun _ _ ht => State.nextToken_step (ht.trans hu)⟩
    | _ => exact hi.elim
  | matchBytes =>
    cases i with
    | lzssMatch plo phi nl =>
      exact ⟨_, rfl, (s.copyBack_produces _ _).token fun _ _ ht => State.nextToken_step (ht.trans hu)⟩
    | _ => exact hi.elim
  | firstLiteral =>
    cases i with
    | glzFirst b => exact ⟨_, rfl, State.produce_glz_step hu b⟩
    | _ => exact hi.elim
  | glzToken w =>
    obtain rfl := hw w rfl
    cases i with
    | glzLit b => exact ⟨_, rfl, State.produce_glz_step hu b⟩
    | glzShort d => exact ⟨_, rfl, State.tokShort_step hu d⟩
    | glzZero => exact ⟨_, rfl, State.tokShort_step hu 0⟩
    | glzNear d n => exact ⟨_, rfl, State.tokNearOrEnd_step hu d n⟩
    | glzEnd v => exact ⟨_, rfl, State.tokNearOrEnd_step hu 0 v⟩
    | glzFar g lo n =>
      have hg : ¬ g.toNat < farLeast s.lwm := Nat.not_lt.mpr hi
      refine ⟨_, if_neg hg, State.copyBack_glz_step hu _ _ true (fun _ => BitVec.ofNat 13 (farDistance s.lwm g lo)) ?_⟩
      exact fun _ hd _ => ofNat_le_4096 hd
    | glzRep n => exact ⟨_, rfl, State.copyBack_glz_step hu _ _ true State.lastOff fun _ _ h => h⟩
    | _ => exact hi.elim

/-- A code that leads to a leaf is executed (R202). -/
theorem exec_hufSym {s : State} {path : List Bool} {m : BitVec 9} {sym : Byte} (hu : s.unit = .huf)
    (h : hufFollow s.ht 0 path = .leaf m sym) :
    exec (.hufSym path) s =
      .next (({ s with node := m }.produce sym).andThen fun s' => .go { s' with ustate := UState.symbol }).state ∧
    DecoderStep s
      (({ s with node := m }.produce sym).andThen fun s' => .go { s' with ustate := UState.symbol }).state := by
  refine ⟨by rw [exec, execHufSym, h]; rfl, ?_⟩
  have hn : DecoderStep s { s with node := m } :=
    ⟨rfl, .refl _, List.prefix_refl _, id, .inl ⟨rfl, rfl⟩, id, id, id⟩
  refine hn.trans ⟨rfl, rfl⟩ ((State.produce_produces _ sym).token fun t _ ht => ?_)
  exact ⟨rfl, .refl _, List.prefix_refl _, id, .inl ⟨rfl, rfl⟩, fun _ => by simp [UStateLegal, ht, hu], id, id⟩

/-! ## The step -/

/-- Reading on moves the cursor and writes nothing else. -/
theorem State.withCursor_step {s : State} {c : Cursor} (h : s.cursor.Advances c) : DecoderStep s (s.withCursor c) :=
  ⟨rfl, ⟨rfl, rfl, h.srcLen ▸ h.pos, h.bcnt⟩, List.prefix_refl _, id, .inl ⟨rfl, rfl⟩, id, id, id⟩

theorem State.endOfInput_step (s : State) : DecoderStep s s.endOfInput := by
  unfold State.endOfInput
  split
  · exact s.raise_step _ ErrCode.noConfusion
  · exact s.stop_step

theorem State.node_step (s : State) (m : BitVec 9) : DecoderStep s { s with node := m } :=
  ⟨rfl, .refl _, List.prefix_refl _, id, .inl ⟨rfl, rfl⟩, id, id, id⟩

/-- What a step does with what it has read. -/
def TokenRead.run : TokenRead → Host.Outcome State Fault Refusal
  | .token i s => exec i s
  | .ended s => .next s

theorem stepUnit_of_readToken {s : State} {r : TokenRead} (h : s.readToken = some r) : stepUnit s = r.run := by
  rw [stepUnit, h]
  cases r <;> rfl

/-- A step of a window decoder: the token is read, and performed if there is one. -/
theorem stepUnit_of_tokenContext {s : State} {x : TokenContext} (hx : s.tokenContext = some x) :
    stepUnit s = (s.afterFetch (decodeToken x s.cursor)).run := by
  refine stepUnit_of_readToken ?_
  unfold State.readToken
  split
  · next hu => cases x <;> exact nomatch hu.symm.trans (State.tokenContext_unit hx).1
  · rw [hx]

/-- A step of the Huffman decoder. -/
theorem stepUnit_of_huf {s : State} (hu : s.unit = .huf) (hus : s.ustate = UState.symbol) :
    stepUnit s = (s.afterHuf (decodeHuf s.ht s.cursor)).run := by
  refine stepUnit_of_readToken ?_
  unfold State.readToken
  rw [hu]
  exact if_pos hus

theorem stepUnit_window_step {s : State} {x : TokenContext} (hx : s.tokenContext = some x) :
    ∃ t, stepUnit s = .next t ∧ DecoderStep s t := by
  have hm : DecoderStep s (s.withCursor (decodeToken x s.cursor).cursor) :=
    State.withCursor_step (decodeToken_advances x s.cursor)
  rw [stepUnit_of_tokenContext hx]
  cases hd : decodeToken x s.cursor with
  | got i c =>
    rw [hd] at hm
    obtain ⟨t, he, ht⟩ := exec_token (s := s.withCursor c) hx (decodeToken_gives x _ i c hd)
    exact ⟨t, he, hm.trans ⟨rfl, rfl⟩ ht⟩
  | endOfInput c => rw [hd] at hm; exact ⟨_, rfl, hm.trans ⟨rfl, rfl⟩ (State.endOfInput_step _)⟩
  | malformed c => rw [hd] at hm; exact ⟨_, rfl, hm.trans ⟨rfl, rfl⟩ (State.raise_step _ _ ErrCode.noConfusion)⟩

theorem stepUnit_huf_step {s : State} (hu : s.unit = .huf) (hus : s.ustate = UState.symbol) :
    ∃ t, stepUnit s = .next t ∧ DecoderStep s t := by
  have hm : DecoderStep s (s.withCursor (decodeHuf s.ht s.cursor).cursor) :=
    State.withCursor_step (decodeHuf_advances s.ht s.cursor)
  rw [stepUnit_of_huf hu hus]
  cases hd : decodeHuf s.ht s.cursor with
  | code path c =>
    rw [hd] at hm
    obtain ⟨m, sym, hf⟩ := decodeHuf_code hd
    obtain ⟨he, ht⟩ := exec_hufSym (s := s.withCursor c) hu hf
    exact ⟨_, he, hm.trans ⟨rfl, rfl⟩ ht⟩
  | endOfInput n c =>
    rw [hd] at hm
    exact ⟨_, rfl, (hm.trans ⟨rfl, rfl⟩ (State.node_step _ n)).trans ⟨rfl, rfl⟩ (State.endOfInput_step _)⟩
  | noCode c =>
    rw [hd] at hm
    exact ⟨_, rfl, (hm.trans ⟨rfl, rfl⟩ (State.node_step _ _)).trans ⟨rfl, rfl⟩
      (State.raise_step _ _ ErrCode.noConfusion)⟩

/-- Every engine step is a decoder's, which has a next state, or a step of the encoder or the cipher. -/
theorem stepUnit_cases (s : State) :
    (s.unit.isDecoder = true ∧ ∃ t, stepUnit s = .next t ∧ DecoderStep s t) ∨
    (s.unit.isDecoder = false ∧ stepUnit s = stepPlainUnit s) ∨ stepUnit s = .fault .noStepRule := by
  by_cases hhuf : s.unit = .huf
  · by_cases hus : s.ustate = UState.symbol
    · exact .inl ⟨by rw [hhuf]; rfl, stepUnit_huf_step hhuf hus⟩
    · have hr : s.readToken = none := by
        unfold State.readToken
        rw [hhuf]
        exact if_neg hus
      exact .inr (.inr (by rw [stepUnit, hr, stepPlainUnit, hhuf]))
  · cases hx : s.tokenContext with
    | some x =>
      refine .inl ⟨?_, stepUnit_window_step hx⟩
      rw [(State.tokenContext_unit hx).1]
      cases x <;> rfl
    | none =>
      have hs : stepUnit s = stepPlainUnit s := by
        have hr : s.readToken = none := by
          unfold State.readToken
          split
          · next hu => exact absurd hu hhuf
          · rw [hx]
        rw [stepUnit, hr]
      cases hu : s.unit with
      | lzd | glz => exact .inr (.inr (by rw [hs, stepPlainUnit, hu]))
      | huf => exact absurd hu hhuf
      | none | lze | kc => exact .inr (.inl ⟨rfl, hs⟩)

end Sys2Proof.Machine
end

section
/-! # What a step of the encoder or of the cipher can do (R176 to R183, R252, R253) -/

namespace Sys2Proof.Machine

/-! ## Predicates that the encoder's search keeps

The search writes the links of the tree, the best match, the position, the window, the ring positions and the length of
the lookahead, each through one operation. What these operations keep, the loops keep. -/

/-- `P` does not depend on the order of the writes of a tree operation: each single write keeps it. -/
structure TreeClosed (P : State → Prop) : Prop where
  lson : ∀ s p v, P s → P (s.setLson p v)
  rson : ∀ s p v, P s → P (s.setRson p v)
  dad : ∀ s p v, P s → P (s.setDad p v)
  best : ∀ s p n, P s → P { s with matchPos := p, matchLen := n }

/-- The same of the other writes of `Prime`, `Advance` and `Drain`. -/
structure SearchClosed (P : State → Prop) : Prop extends TreeClosed P where
  load : ∀ s, s.pos ≠ s.srcLen → P s → P { s with pos := s.pos + 1 }
  win : ∀ s i b, P s → P (s.setWin i b)
  slide : ∀ s, P s → P s.slide
  look : ∀ s n, P s → P { s with lookLen := n }

section TreeClosed

variable {P : State → Prop} (hP : TreeClosed P)
include hP

theorem TreeClosed.setDadUnlessNil (s : State) (p v : TreeIdx) (h : P s) : P (s.setDadUnlessNil p v) := by
  unfold State.setDadUnlessNil
  split
  · exact h
  · exact hP.dad _ _ _ h

theorem TreeClosed.relink (s : State) (p q : TreeIdx) (h : P s) : P (s.relink p q) := by
  unfold State.relink
  split
  · exact hP.rson _ _ _ h
  · exact hP.lson _ _ _ h

theorem TreeClosed.attach (s : State) (cmp : Int) (p r : TreeIdx) (h : P s) : P (s.attach cmp p r) := by
  unfold State.attach
  split
  · exact hP.dad _ _ _ (hP.rson _ _ _ h)
  · exact hP.dad _ _ _ (hP.lson _ _ _ h)

theorem TreeClosed.replaceNode (s : State) (p r : TreeIdx) (h : P s) : P (s.replaceNode p r) :=
  hP.dad _ _ _ <| hP.relink _ _ _ <| hP.setDadUnlessNil _ _ _ <| hP.setDadUnlessNil _ _ _ <|
    hP.rson _ _ _ <| hP.lson _ _ _ <| hP.dad _ _ _ h

theorem TreeClosed.noteMatch (s : State) (p : Ring) (i : Nat) (h : P s) : P (s.noteMatch p i) := by
  unfold State.noteMatch
  split
  · exact hP.best _ _ _ h
  · exact h

theorem TreeClosed.insertWalk (r : Ring) (k : Nat) (cmp : Int) (p : TreeIdx) (s : State) {t : State} (h : P s)
    (ht : State.insertWalk r k cmp p s = some t) : P t := by
  induction k generalizing cmp p s with
  | zero => cases ht
  | succ k ih =>
    simp only [State.insertWalk] at ht
    split at ht
    · exact Option.some.inj ht ▸ hP.attach _ _ _ _ h
    · split at ht
      · exact Option.some.inj ht ▸ hP.replaceNode _ _ _ (hP.noteMatch _ _ _ h)
      · exact ih _ _ _ (hP.noteMatch _ _ _ h) ht

theorem TreeClosed.insertNode (s : State) (r : Ring) {t : State} (h : P s) (ht : s.insertNode r = some t) : P t :=
  hP.insertWalk _ _ _ _ _ (hP.best _ s.matchPos 0 (hP.lson _ _ _ (hP.rson _ _ _ h))) ht

theorem TreeClosed.takeRight (s : State) (p q : TreeIdx) (h : P s) : P (s.takeRight p q) :=
  hP.dad _ _ _ (hP.rson _ _ _ h)

theorem TreeClosed.liftPredecessor (s : State) (p q : TreeIdx) (h : P s) : P (s.liftPredecessor p q) :=
  hP.dad _ _ _ <| hP.lson _ _ _ <| hP.setDadUnlessNil _ _ _ <| hP.rson _ _ _ h

theorem TreeClosed.successorOf (s : State) (p : TreeIdx) {q : TreeIdx} {t : State} (h : P s)
    (ht : s.successorOf p = some (q, t)) : P t := by
  unfold State.successorOf State.deleteTwoChildren at ht
  split at ht
  · cases ht; exact h
  · split at ht
    · cases ht; exact h
    · split at ht
      · cases ht
        exact hP.takeRight _ _ _ h
      · split at ht
        · cases ht
        · cases ht
          exact hP.takeRight _ _ _ (hP.liftPredecessor _ _ _ h)

theorem TreeClosed.deleteNode (s : State) (p : Ring) {t : State} (h : P s) (ht : s.deleteNode p = some t) : P t := by
  unfold State.deleteNode at ht
  split at ht
  · cases ht; exact h
  · split at ht
    · cases ht
    · next hs =>
      cases ht
      exact hP.dad _ _ _ <| hP.relink _ _ _ <| hP.setDadUnlessNil _ _ _ <| hP.successorOf _ _ h hs

end TreeClosed

section SearchClosed

variable {P : State → Prop} (hP : SearchClosed P)
include hP

theorem SearchClosed.loadLookahead (k : Nat) (s : State) (h : P s) : P (State.loadLookahead k s) := by
  induction k generalizing s with
  | zero => exact h
  | succ k ih =>
    unfold State.loadLookahead
    rcases s.nextInput_cases with ⟨-, hn⟩ | ⟨hne, hn⟩ <;> rw [hn]
    · exact h
    · exact ih _ (hP.look _ _ (hP.win _ _ _ (hP.load s hne h)))

theorem SearchClosed.drain (m : Nat) (s : State) {t : State} (h : P s) (ht : State.drain m s = some t) : P t := by
  induction m generalizing s with
  | zero => cases ht; exact h
  | succ m ih =>
    unfold State.drain at ht
    split at ht
    · cases ht
    · next s1 hd =>
      have h2 := hP.look _ (s1.lookLen - 1) (hP.slide _ (hP.toTreeClosed.deleteNode _ _ h hd))
      dsimp only at ht
      split at ht
      · exact ih _ h2 ht
      · split at ht
        · cases ht
        · next hi => exact ih _ (hP.toTreeClosed.insertNode _ _ h2 hi) ht

theorem SearchClosed.advance (k : Nat) (s : State) {t : State} (h : P s) (ht : State.advance k s = some t) : P t := by
  induction k generalizing s with
  | zero => cases ht; exact h
  | succ k ih =>
    unfold State.advance at ht
    rcases s.nextInput_cases with ⟨-, hn⟩ | ⟨hne, hn⟩ <;> rw [hn] at ht
    · exact hP.drain _ _ h ht
    · dsimp only at ht
      split at ht
      · cases ht
      · next s2 hd =>
        have h2 := hP.toTreeClosed.deleteNode _ _ (hP.load s hne h) hd
        split at ht
        · cases ht
        · next s3 hi => exact ih _ (hP.toTreeClosed.insertNode _ _ (hP.slide _ (hP.win _ _ _ h2)) hi) ht

end SearchClosed

/-- The memories that the search writes are canonical. -/
def SearchMemories (s : State) : Prop :=
  Memory.wf s.winFill 4096 s.win = true ∧ Memory.wf Config.nil 8192 s.lson = true ∧
  Memory.wf Config.nil 8192 s.rson = true ∧ Memory.wf Config.nil 8192 s.dad = true

theorem SearchMemories.closed : SearchClosed SearchMemories where
  lson _ p v := fun ⟨hw, hl, hr, hd⟩ => ⟨hw, Memory.wf_write v hl p.isLt, hr, hd⟩
  rson _ p v := fun ⟨hw, hl, hr, hd⟩ => ⟨hw, hl, Memory.wf_write v hr p.isLt, hd⟩
  dad _ p v := fun ⟨hw, hl, hr, hd⟩ => ⟨hw, hl, hr, Memory.wf_write v hd p.isLt⟩
  best _ _ _ := id
  load _ _ := id
  win _ i b := fun ⟨hw, ht⟩ => ⟨Memory.wf_write b hw i.isLt, ht⟩
  slide _ := id
  look _ _ := id

/-- The cursor of the encoder stays inside `SRC`. -/
theorem posInSource_closed : SearchClosed fun s => s.pos ≤ s.srcLen where
  lson _ _ _ := id
  rson _ _ _ := id
  dad _ _ _ := id
  best _ _ _ := id
  load _ hne := Count.succ_le_of_ne hne
  win _ _ _ := id
  slide _ := id
  look _ _ := id

/-! ## The ring positions and the lengths (R177, R181, R182) -/

/-- `s` stays `F` ahead of `r`, and the lengths stay within `F` (R34, R186 (e)). -/
def RingLegal (s : State) : Prop := s.ringS = s.ringR + 18 ∧ s.lookLen ≤ 18 ∧ s.matchLen ≤ 18

theorem State.compareKeys_le (s : State) (r p : Ring) (k i : Nat) : (s.compareKeys r p k i).1 ≤ i + k := by
  induction k generalizing i with
  | zero => exact le_refl i
  | succ k ih =>
    unfold State.compareKeys
    split
    · exact (ih (i + 1)).trans (by omega)
    · exact Nat.le_add_right i _

theorem State.noteMatch_matchLen_le (s : State) (p : Ring) {i : Nat} (hi : i ≤ 18) (h : s.matchLen ≤ 18) :
    (s.noteMatch p i).matchLen ≤ 18 := by
  unfold State.noteMatch
  split
  · rw [BitVec.le_def, BitVec.toNat_ofNat]; exact (Nat.mod_le _ _).trans hi
  · exact h

theorem State.insertWalk_matchLen_le (r : Ring) (k : Nat) (cmp : Int) (p : TreeIdx) (s : State) {t : State}
    (h : s.matchLen ≤ 18) (ht : State.insertWalk r k cmp p s = some t) : t.matchLen ≤ 18 := by
  induction k generalizing cmp p s with
  | zero => cases ht
  | succ k ih =>
    simp only [State.insertWalk] at ht
    have hn := s.noteMatch_matchLen_le ((s.childAt cmp p).setWidth 12)
      (s.compareKeys_le r ((s.childAt cmp p).setWidth 12) (Config.F - 1) 1) h
    split at ht
    · rw [← Option.some.inj ht, State.attach_frame]; exact h
    · split at ht
      · rw [← Option.some.inj ht, State.replaceNode_frame]; exact hn
      · exact ih _ _ _ hn ht

theorem State.insertNode_ring {s t : State} {r : Ring} (h : RingLegal s) (ht : s.insertNode r = some t) :
    RingLegal t ∧ t.lookLen = s.lookLen := by
  have hm : t.matchLen ≤ 18 := State.insertWalk_matchLen_le _ _ _ _ _ (show (0 : BitVec 5) ≤ 18 by decide) ht
  have hf := State.insertNode_frame _ _ ht
  rw [MatchFrame] at hf
  obtain ⟨hs, hl, -⟩ := h
  rw [hf]
  exact ⟨⟨hs, hl, hm⟩, rfl⟩

theorem State.deleteNode_ring {s t : State} {r : Ring} (h : RingLegal s) (ht : s.deleteNode r = some t) :
    RingLegal t ∧ t.lookLen = s.lookLen := by
  have hf := State.deleteNode_frame _ _ ht
  rw [TreeFrame] at hf
  rw [hf]
  exact ⟨h, rfl⟩

theorem State.slide_ring {s : State} (h : RingLegal s) : RingLegal s.slide := by
  obtain ⟨hs, hl⟩ := h
  refine ⟨?_, hl⟩
  rw [State.slide_ringS, State.slide_ringR, hs]
  bv_omega

theorem State.loadLookahead_ring (k : Nat) {s : State} (h : RingLegal s) (hk : s.lookLen.toNat + k ≤ 18) :
    RingLegal (State.loadLookahead k s) := by
  induction k generalizing s with
  | zero => exact h
  | succ k ih =>
    unfold State.loadLookahead
    rcases s.nextInput_cases with ⟨-, hn⟩ | ⟨-, hn⟩ <;> rw [hn]
    · exact h
    · obtain ⟨hs, -, hm⟩ := h
      refine ih ⟨hs, ?_, hm⟩ ?_
      · change s.lookLen + 1 ≤ 18; bv_omega
      · change (s.lookLen + 1).toNat + k ≤ 18; bv_omega

/-- `Drain` of no more positions than the lookahead has (R182). -/
theorem State.drain_ring (m : Nat) {s t : State} (h : RingLegal s) (hm : m ≤ s.lookLen.toNat)
    (ht : State.drain m s = some t) : RingLegal t := by
  induction m generalizing s with
  | zero => cases ht; exact h
  | succ m ih =>
    unfold State.drain at ht
    split at ht
    · cases ht
    · next s1 hd =>
      obtain ⟨h1, hl1⟩ := State.deleteNode_ring h hd
      obtain ⟨hs2, hl2, hm2⟩ := State.slide_ring h1
      have hlook : (s1.lookLen - 1).toNat = s.lookLen.toNat - 1 := by rw [hl1]; bv_omega
      have h2 : RingLegal { s1.slide with lookLen := s1.lookLen - 1 } := by
        refine ⟨hs2, ?_, hm2⟩
        have := h.2.1
        change s1.lookLen - 1 ≤ 18; bv_omega
      dsimp only at ht
      split at ht
      · exact ih h2 (by change m ≤ (s1.lookLen - 1).toNat; omega) ht
      · split at ht
        · cases ht
        · next hi =>
          obtain ⟨h3, hl3⟩ := State.insertNode_ring h2 hi
          exact ih h3 (by rw [hl3]; change m ≤ (s1.lookLen - 1).toNat; omega) ht

/-- `Advance` by no more positions than the lookahead has (R181). -/
theorem State.advance_ring (k : Nat) {s t : State} (h : RingLegal s) (hk : k ≤ s.lookLen.toNat)
    (ht : State.advance k s = some t) : RingLegal t := by
  induction k generalizing s with
  | zero => cases ht; exact h
  | succ k ih =>
    unfold State.advance at ht
    rcases s.nextInput_cases with ⟨-, hn⟩ | ⟨-, hn⟩ <;> rw [hn] at ht
    · exact State.drain_ring _ h hk ht
    · dsimp only at ht
      split at ht
      · cases ht
      · next s2 hd =>
        obtain ⟨h2, hl2⟩ := State.deleteNode_ring (s := { s with pos := s.pos + 1 }) h hd
        split at ht
        · cases ht
        · next s3 hi =>
          obtain ⟨h3, hl3⟩ := State.insertNode_ring (State.slide_ring (s := s2.setWin s2.ringS _) h2) hi
          refine ih h3 ?_ ht
          rw [hl3]
          change k ≤ s2.lookLen.toNat
          rw [hl2]
          change k ≤ s.lookLen.toNat
          omega

/-! ## The group (R34, R178 to R180) -/

/-- `code_buf` is canonical and the group is legal (R186 (f)). -/
def GroupMemory (s : State) : Prop := Memory.wf Config.codeBufUnwritten 17 s.codeBuf = true ∧ GroupLegal s

/-- What a token and its flag write. -/
def GroupFrame (s t : State) : Prop :=
  t = { s with
    matchLen := t.matchLen, codeBuf := t.codeBuf, codePtr := t.codePtr, mask := t.mask, dst := t.dst
    outCount := t.outCount }

theorem GroupFrame.trans {s t u : State} (h : GroupFrame s t) (h' : GroupFrame t u) : GroupFrame s u := by
  unfold GroupFrame at *
  rw [h', h]

theorem State.clampMatch_frame (s : State) : GroupFrame s s.clampMatch := by
  unfold State.clampMatch
  split <;> rfl

/-- `EmitLiteral()` (R178), its writes to `code_buf` one after the other. -/
theorem State.emitLiteral_eq (s : State) : s.emitLiteral =
    { s with
      codeBuf := Memory.write Config.codeBufUnwritten
        (Memory.write Config.codeBufUnwritten s.codeBuf 0 (s.codeAt 0 ||| s.mask)) s.codePtr.toNat (s.winAt s.ringR)
      matchLen := 1, codePtr := s.codePtr + 1 } := by
  simp only [State.emitLiteral, State.setCode]

theorem State.emitMatch_eq (s : State) : s.emitMatch =
    { s with
      codeBuf := Memory.write Config.codeBufUnwritten
        (Memory.write Config.codeBufUnwritten s.codeBuf s.codePtr.toNat
          ((encodeLzssField Config.posMode s.ringR s.matchPos).extractLsb' 0 8))
        (s.codePtr.toNat + 1)
        ((encodeLzssField Config.posMode s.ringR s.matchPos).extractLsb' 8 4 ++
          BitVec.ofNat 4 (s.matchLen.toNat - (Config.threshold + 1)))
      codePtr := s.codePtr + 2 } := by
  simp only [State.emitMatch, State.setCode]

theorem State.emitToken_frame (s : State) : GroupFrame s s.emitToken := by
  unfold State.emitToken
  split
  · rw [State.emitLiteral_eq]; rfl
  · rw [State.emitMatch_eq]; rfl

theorem State.flushGroup_eq (s : State) : s.flushGroup =
    { s with
      dst := s.dst ++ (List.range s.codePtr.toNat).map s.codeAt
      outCount := s.outCount + BitVec.ofNat 64 s.codePtr.toNat
      codeBuf := Memory.write Config.codeBufUnwritten s.codeBuf 0 0, codePtr := 1, mask := 0x01 } := by
  unfold State.flushGroup
  rw [State.emitCode_eq]
  rfl

theorem State.endToken_frame (s : State) : GroupFrame s s.endToken := by
  unfold State.endToken
  split
  · rw [State.flushGroup_eq]; rfl
  · rfl

/-- The token part of `Encode` (R177) up to the search. -/
theorem State.codeToken_frame (s : State) : GroupFrame s s.clampMatch.emitToken.endToken :=
  (s.clampMatch_frame.trans s.clampMatch.emitToken_frame).trans s.clampMatch.emitToken.endToken_frame

theorem State.emitToken_dst (s : State) : s.emitToken.dst = s.dst := by
  unfold State.emitToken
  split
  · rw [State.emitLiteral_eq]
  · rw [State.emitMatch_eq]

theorem State.endToken_dst (s : State) : s.dst <+: s.endToken.dst := by
  unfold State.endToken
  split
  · rw [State.flushGroup_eq]; exact List.prefix_append _ _
  · exact List.prefix_refl _

theorem State.clampMatch_eq (s : State) :
    s.clampMatch = { s with matchLen := if s.lookLen < s.matchLen then s.lookLen else s.matchLen } := by
  unfold State.clampMatch
  split <;> rfl

theorem State.codeToken_dst (s : State) : s.dst <+: s.clampMatch.emitToken.endToken.dst := by
  have hc : s.clampMatch.dst = s.dst := by rw [State.clampMatch_eq]
  have h := s.clampMatch.emitToken.endToken_dst
  rwa [State.emitToken_dst, hc] at h

/-- A token takes one byte or two of `code_buf` (R178, R179). -/
theorem State.emitToken_group {s : State} (hw : Memory.wf Config.codeBufUnwritten 17 s.codeBuf = true)
    (hp : s.codePtr.toNat ≤ 15) :
    Memory.wf Config.codeBufUnwritten 17 s.emitToken.codeBuf = true ∧ s.emitToken.mask = s.mask ∧
    (s.emitToken.codePtr = s.codePtr + 1 ∨ s.emitToken.codePtr = s.codePtr + 2) := by
  unfold State.emitToken
  split
  · rw [State.emitLiteral_eq]
    exact ⟨Memory.wf_write _ (Memory.wf_write _ hw (by omega)) (by omega), rfl, .inl rfl⟩
  · rw [State.emitMatch_eq]
    exact ⟨Memory.wf_write _ (Memory.wf_write _ hw (by omega)) (by omega), rfl, .inr rfl⟩

/-- The mask of the next token: none after the eighth. -/
theorem mask_shiftLeft {m : Byte} {k : Fin 8} (hm : m = 1 <<< k.val) :
    (m <<< 1 = 0 ↔ k.val = 7) ∧ m <<< 1 = 1 <<< (k.val + 1) := by
  subst hm
  revert k
  decide

/-- After the eighth token the group is emitted and a new one begun (R177, R180). -/
theorem State.codeToken_group {s : State} (h : GroupMemory s) : GroupMemory s.clampMatch.emitToken.endToken := by
  obtain ⟨hw, k, hm, hlo, hhi⟩ := h
  have hk := k.isLt
  have hclamp : s.clampMatch.codeBuf = s.codeBuf ∧ s.clampMatch.codePtr = s.codePtr ∧ s.clampMatch.mask = s.mask := by
    rw [State.clampMatch_eq]; exact ⟨rfl, rfl, rfl⟩
  obtain ⟨hcb, hcp, hcm⟩ := hclamp
  have he := State.emitToken_group (s := s.clampMatch) (by rwa [hcb]) (by rw [hcp]; omega)
  rw [hcp, hcm, hm] at he
  generalize s.clampMatch.emitToken = u at he
  obtain ⟨huw, hum, hup⟩ := he
  unfold State.endToken
  split
  · rw [State.flushGroup_eq]
    have hzero := Memory.wf_write (a := 0) 0 huw (by decide)
    exact ⟨hzero, 0, rfl, le_refl 1, le_refl 1⟩
  · next hne =>
    obtain ⟨hzero, hnext⟩ := mask_shiftLeft hum
    rw [hzero] at hne
    refine ⟨huw, ⟨k.val + 1, by omega⟩, hnext, ?_⟩
    · change 1 + (k.val + 1) ≤ u.codePtr.toNat ∧ u.codePtr.toNat ≤ 1 + 2 * (k.val + 1)
      rcases hup with hup | hup <;> rw [hup] <;> bv_omega

/-- The length coded is at least 1 and within the lookahead (R177). -/
theorem State.codeToken_matchLen {s : State} (hl : s.lookLen ≤ 18) (h0 : s.lookLen ≠ 0) :
    s.clampMatch.emitToken.endToken.matchLen ≤ 18 ∧
    s.clampMatch.emitToken.endToken.matchLen.toNat ≤ s.lookLen.toNat := by
  have hend (u : State) : u.endToken.matchLen = u.matchLen := by
    unfold State.endToken
    split
    · rw [State.flushGroup_eq]
    · rfl
  rw [hend]
  unfold State.emitToken
  split
  · rw [State.emitLiteral_eq]
    dsimp only
    exact ⟨by decide, by bv_omega⟩
  · rw [State.emitMatch_eq, State.clampMatch_eq]
    dsimp only
    split
    · exact ⟨hl, le_refl _⟩
    · bv_omega

/-! ## The steps of the encoder -/

/-- What a step of the encoder may write. -/
def EncoderFrame (s t : State) : Prop :=
  t = { s with
    pos := t.pos, win := t.win, ringS := t.ringS, ringR := t.ringR, lookLen := t.lookLen, matchPos := t.matchPos
    matchLen := t.matchLen, lastLen := t.lastLen, codeBuf := t.codeBuf, codePtr := t.codePtr, mask := t.mask
    lson := t.lson, rson := t.rson, dad := t.dad, ustate := t.ustate, dst := t.dst, outCount := t.outCount
    phase := t.phase }

theorem EncoderFrame.trans {s t u : State} (h : EncoderFrame s t) (h' : EncoderFrame t u) : EncoderFrame s u := by
  unfold EncoderFrame at *
  rw [h', h]

theorem SearchFrame.toEncoderFrame {s t : State} (h : SearchFrame s t) : EncoderFrame s t := by
  unfold SearchFrame at h
  unfold EncoderFrame
  rw [h]

theorem GroupFrame.toEncoderFrame {s t : State} (h : GroupFrame s t) : EncoderFrame s t := by
  unfold GroupFrame at h
  unfold EncoderFrame
  rw [h]

/-- What a step of the encoder keeps, whatever state it starts from. -/
structure EncoderStep (s t : State) : Prop where
  frame : EncoderFrame s t
  dst : s.dst <+: t.dst
  phase : t.phase = s.phase ∨ t.phase = .done
  ustate : t.ustate ≤ 2
  pos : s.pos ≤ s.srcLen → t.pos ≤ t.srcLen
  memory : SearchMemories s → SearchMemories t
  group : GroupMemory s → GroupMemory t

theorem SearchFrame.group {s t : State} (h : SearchFrame s t) (hg : GroupMemory s) : GroupMemory t := by
  rw [SearchFrame] at h
  rw [h]
  exact hg

theorem State.stepPrime_step {s t : State} (h : s.stepPrime = some t) : EncoderStep s t := by
  have hload := State.loadLookahead_frame (Config.F - s.lookLen.toNat) s
  have hpos := posInSource_closed.loadLookahead (Config.F - s.lookLen.toNat) s
  have hmem := SearchMemories.closed.loadLookahead (Config.F - s.lookLen.toNat) s
  unfold State.stepPrime at h
  dsimp only at h
  generalize State.loadLookahead (Config.F - s.lookLen.toNat) s = s1 at *
  have hsrc : s1.srcLen = s.srcLen ∧ s1.dst = s.dst ∧ s1.phase = s.phase := by
    rw [SearchFrame] at hload; rw [hload]; exact ⟨rfl, rfl, rfl⟩
  obtain ⟨-, hdst, hphase⟩ := hsrc
  split at h
  · cases h
    exact ⟨hload.toEncoderFrame.trans rfl, hdst ▸ List.prefix_refl _, .inl hphase, (by decide : (2 : BitVec 3) ≤ 2),
      hpos, hmem, hload.group⟩
  · split at h
    · cases h
    · next s2 hi =>
      have hf := hload.trans (State.insertNode_frame _ _ hi).toSearchFrame
      have hpos2 : s.pos ≤ s.srcLen → s2.pos ≤ s2.srcLen := fun hp =>
        posInSource_closed.toTreeClosed.insertNode _ _ (hpos hp) hi
      have hmem2 : SearchMemories s → SearchMemories s2 := fun hm =>
        SearchMemories.closed.toTreeClosed.insertNode _ _ (hmem hm) hi
      have hkeep : s2.dst = s.dst ∧ s2.phase = s.phase := by
        rw [SearchFrame] at hf; rw [hf]; exact ⟨rfl, rfl⟩
      cases h
      exact ⟨hf.toEncoderFrame.trans rfl, hkeep.1 ▸ List.prefix_refl _, .inl hkeep.2, (by decide : (1 : BitVec 3) ≤ 2),
        hpos2, hmem2, hf.group⟩

theorem State.stepEncode_step {s t : State} (hu : s.ustate ≤ 2) (h : s.stepEncode = some t) : EncoderStep s t := by
  have hframe := s.codeToken_frame
  have hdst := s.codeToken_dst
  have hgroup := State.codeToken_group (s := s)
  unfold State.stepEncode at h
  dsimp only at h
  generalize s.clampMatch.emitToken.endToken = s1 at *
  split at h
  · cases h
  · next s2 ha =>
    have hlast : EncoderFrame s1 { s1 with lastLen := s1.matchLen } := rfl
    have hf := State.advance_frame _ _ ha
    have hmem : SearchMemories s → SearchMemories s2 := by
      intro hm
      refine SearchMemories.closed.advance _ _ ?_ ha
      rw [GroupFrame] at hframe
      rw [hframe]
      exact hm
    have hpos : s.pos ≤ s.srcLen → s2.pos ≤ s2.srcLen := by
      intro hp
      refine posInSource_closed.advance _ _ ?_ ha
      rw [GroupFrame] at hframe
      rw [hframe]
      exact hp
    have hgrp : GroupMemory s → GroupMemory s2 := fun hg => hf.group (hgroup hg)
    have henc : EncoderFrame s s2 := (hframe.toEncoderFrame.trans hlast).trans hf.toEncoderFrame
    have hkeep : s2.dst = s1.dst ∧ s2.phase = s.phase ∧ s2.ustate = s.ustate := by
      rw [SearchFrame] at hf; rw [hf]; rw [GroupFrame] at hframe; rw [hframe]; exact ⟨rfl, rfl, rfl⟩
    obtain ⟨hd2, hp2, hu2⟩ := hkeep
    cases h
    split
    · exact ⟨henc.trans rfl, hd2 ▸ hdst, .inl hp2, (by decide : (2 : BitVec 3) ≤ 2), hpos, hmem, hgrp⟩
    · exact ⟨henc, hd2 ▸ hdst, .inl hp2, hu2 ▸ hu, hpos, hmem, hgrp⟩

theorem State.stepFlush_eq (s : State) : s.stepFlush =
    { s with
      phase := .done
      dst := if 1 < s.codePtr.toNat then s.dst ++ (List.range s.codePtr.toNat).map s.codeAt else s.dst
      outCount := if 1 < s.codePtr.toNat then s.outCount + BitVec.ofNat 64 s.codePtr.toNat else s.outCount } := by
  unfold State.stepFlush
  split
  · rw [State.emitCode_eq]; rfl
  · rfl

theorem State.stepFlush_step {s : State} (hu : s.ustate ≤ 2) : EncoderStep s s.stepFlush := by
  rw [State.stepFlush_eq]
  refine ⟨rfl, ?_, .inr rfl, hu, id, id, id⟩
  dsimp only
  split
  · exact List.prefix_append _ _
  · exact List.prefix_refl _

/-! ## The cipher -/

/-- What a step of the cipher may do. -/
structure CipherStep (s t : State) : Prop where
  frame : t = { s with pos := t.pos, dst := t.dst, outCount := t.outCount, key := t.key, phase := t.phase }
  dst : s.dst <+: t.dst
  phase : t.phase = s.phase ∨ t.phase = .done
  pos : s.pos ≤ s.srcLen → t.pos ≤ t.srcLen

theorem State.stepCipher_step (s : State) : CipherStep s s.stepCipher := by
  unfold State.stepCipher
  rcases s.nextInput_cases with ⟨-, hn⟩ | ⟨hne, hn⟩ <;> rw [hn]
  · exact ⟨rfl, List.prefix_refl _, .inr rfl, id⟩
  · have hpos : s.pos ≤ s.srcLen → s.pos + 1 ≤ s.srcLen := Count.succ_le_of_ne hne
    dsimp only
    split <;> exact ⟨rfl, List.prefix_append _ _, .inl rfl, hpos⟩

/-- A step of the encoder or of the cipher. -/
theorem stepPlainUnit_cases {s t : State} (h : stepPlainUnit s = .next t) :
    (s.unit = .lze ∧ EncoderStep s t ∧
      ((s.ustate = UState.prime ∧ s.stepPrime = some t) ∨ (s.ustate = UState.encode ∧ s.stepEncode = some t) ∨
        (s.ustate = UState.flush ∧ t = s.stepFlush))) ∨
    (s.unit = .kc ∧ s.ustate = UState.byte ∧ CipherStep s t ∧ t = s.stepCipher) := by
  unfold stepPlainUnit at h
  split at h
  · next hu =>
    refine .inl ⟨hu, ?_⟩
    split at h
    · next hs =>
      cases hp : s.stepPrime with
      | none => rw [hp] at h; cases h
      | some u => rw [hp] at h; cases h; exact ⟨State.stepPrime_step hp, .inl ⟨hs, rfl⟩⟩
    · split at h
      · next hs =>
        cases he : s.stepEncode with
        | none => rw [he] at h; cases h
        | some u => rw [he] at h; cases h; exact ⟨State.stepEncode_step (hs ▸ by decide) he, .inr (.inl ⟨hs, rfl⟩)⟩
      · split at h
        · next hs => cases h; exact ⟨State.stepFlush_step (hs ▸ by decide), .inr (.inr ⟨hs, rfl⟩)⟩
        · cases h
  · next hu =>
    split at h
    · next hs => cases h; exact .inr ⟨hu, hs, s.stepCipher_step, rfl⟩
    · cases h
  all_goals cases h

end Sys2Proof.Machine
end

section
/-! # The invariants of a run -/

namespace Sys2Proof.Machine

/-- An engine step, inverted: a decoder's, the encoder's, or the cipher's. -/
theorem stepUnit_next {s t : State} (h : stepUnit s = .next t) :
    (s.unit.isDecoder = true ∧ DecoderStep s t) ∨ (s.unit = .lze ∧ EncoderStep s t) ∨
    (s.unit = .kc ∧ s.ustate = UState.byte ∧ CipherStep s t) := by
  rcases stepUnit_cases s with ⟨hd, u, hu, hstep⟩ | ⟨-, hp⟩ | hf
  · cases hu.symm.trans h
    exact .inl ⟨hd, hstep⟩
  · rcases stepPlainUnit_cases (hp ▸ h) with ⟨hl, he, -⟩ | ⟨hk, hb, hc, -⟩
    · exact .inr (.inl ⟨hl, he⟩)
    · exact .inr (.inr ⟨hk, hb, hc⟩)
  · cases hf.symm.trans h

/-! ## What a start writes -/

theorem State.startPhase_eq (s : State) : s.startPhase =
    { s with
      phase := if s.unit.isDecoder = true ∧ s.lenKnown = true ∧ s.takeRem = 0 then .done else .busy } := by
  unfold State.startPhase
  split <;> rfl

/-- The shell and the control state after a start (R273). -/
theorem State.start_shell (s : State) {p : StartSpec} (hp : p.unit ≠ .none) :
    StartedShell p.unit p.lenKnown p.capEn (if p.usesSkip then s.skip else 0) (if p.usesTake then s.take else 0)
      (s.start p) := by
  obtain ⟨u, k, lk, ce, us, ut⟩ := p
  rw [State.start, State.startPhase_eq]
  cases u with
  | none => exact absurd rfl hp
  | _ => exact ⟨rfl, rfl, rfl, rfl, rfl, rfl, rfl, rfl, rfl, rfl, rfl⟩

/-- A start writes no operand, no `SRC`, no `HT` and no left link of the tree (R273, and R28, R151, R172, R173, R201,
R221, R251 for the units). -/
theorem State.start_frame (s : State) (p : StartSpec) :
    s.start p = { s with
      err := (s.start p).err, dst := (s.start p).dst, pos := (s.start p).pos, outCount := (s.start p).outCount
      lenKnown := (s.start p).lenKnown, capEn := (s.start p).capEn, skipRem := (s.start p).skipRem
      takeRem := (s.start p).takeRem, unit := (s.start p).unit, ustate := (s.start p).ustate
      phase := (s.start p).phase, winFill := (s.start p).winFill, win := (s.start p).win, cur := (s.start p).cur
      flags := (s.start p).flags, fcnt := (s.start p).fcnt, acc := (s.start p).acc, bcnt := (s.start p).bcnt
      node := (s.start p).node, lwm := (s.start p).lwm, lastOff := (s.start p).lastOff
      ringR := (s.start p).ringR, ringS := (s.start p).ringS, lookLen := (s.start p).lookLen
      matchPos := (s.start p).matchPos, matchLen := (s.start p).matchLen, lastLen := (s.start p).lastLen
      codeBuf := (s.start p).codeBuf, codePtr := (s.start p).codePtr, mask := (s.start p).mask
      rson := (s.start p).rson, dad := (s.start p).dad, key := (s.start p).key
      cipherKind := (s.start p).cipherKind } := by
  obtain ⟨u, k, lk, ce, us, ut⟩ := p
  rw [State.start, State.startPhase_eq]
  cases u <;> rfl

/-- The window after a start: filled for a unit that uses it (R28), else as it was. -/
theorem State.start_window (s : State) (p : StartSpec) :
    (p.unit = .lzd ∨ p.unit = .glz ∨ p.unit = .lze) ∧
      (s.start p).winFill = s.fill ∧ (s.start p).win = [] ∧ (s.start p).cur = Config.curInit ∨
    ¬ (p.unit = .lzd ∨ p.unit = .glz ∨ p.unit = .lze) ∧
      (s.start p).winFill = s.winFill ∧ (s.start p).win = s.win ∧ (s.start p).cur = s.cur := by
  obtain ⟨u, k, lk, ce, us, ut⟩ := p
  rw [State.start, State.startPhase_eq]
  cases u
  case lzd | glz | lze => exact .inl ⟨by simp, rfl, rfl, rfl⟩
  case none | huf | kc => exact .inr ⟨by simp, rfl, rfl, rfl⟩

/-- The encoder's memories and registers after a start: those of R172 and R173 for the encoder, else as they were. -/
theorem State.start_encoder (s : State) (p : StartSpec) :
    p.unit = .lze ∧
      (s.start p).codeBuf = Memory.write Config.codeBufUnwritten s.codeBuf 0 0 ∧
      (s.start p).rson = Memory.clear 4097 4353 s.rson ∧ (s.start p).dad = Memory.clear 0 4096 s.dad ∧
      (s.start p).ringR = 4078 ∧ (s.start p).ringS = 0 ∧ (s.start p).lookLen = 0 ∧ (s.start p).matchPos = 0 ∧
      (s.start p).matchLen = 0 ∧ (s.start p).lastLen = 0 ∧ (s.start p).codePtr = 1 ∧ (s.start p).mask = 0x01 ∨
    p.unit ≠ .lze ∧
      (s.start p).codeBuf = s.codeBuf ∧ (s.start p).rson = s.rson ∧ (s.start p).dad = s.dad := by
  obtain ⟨u, k, lk, ce, us, ut⟩ := p
  rw [State.start, State.startPhase_eq]
  cases u
  case lze => exact .inl ⟨rfl, rfl, rfl, rfl, rfl, rfl, rfl, rfl, rfl, rfl, rfl, rfl⟩
  all_goals exact .inr ⟨nofun, rfl, rfl, rfl⟩

/-- The readers after a start (R151, R201, R221): the running unit's are cleared. -/
theorem State.start_readers (s : State) (p : StartSpec) :
    (p.unit = .lzd → (s.start p).flags = 0 ∧ (s.start p).fcnt = 0) ∧
    (p.unit = .huf ∨ p.unit = .glz → (s.start p).acc = 0 ∧ (s.start p).bcnt = 0) ∧
    (p.unit = .huf → (s.start p).node = 0) ∧
    (p.unit = .glz → (s.start p).lwm = false ∧ (s.start p).lastOff = 0) ∧
    (p.unit = .kc → (s.start p).key = s.keySeed ∧ (s.start p).cipherKind = p.kind) := by
  obtain ⟨u, k, lk, ce, us, ut⟩ := p
  rw [State.start, State.startPhase_eq]
  cases u with
  | none | lze => exact ⟨nofun, nofun, nofun, nofun, nofun⟩
  | lzd => exact ⟨fun _ => ⟨rfl, rfl⟩, nofun, nofun, nofun, nofun⟩
  | huf => exact ⟨nofun, fun _ => ⟨rfl, rfl⟩, fun _ => rfl, nofun, nofun⟩
  | glz => exact ⟨nofun, fun _ => ⟨rfl, rfl⟩, nofun, fun _ => ⟨rfl, rfl⟩, nofun⟩
  | kc => exact ⟨nofun, nofun, nofun, nofun, fun _ => ⟨rfl, rfl⟩⟩

/-! ## The memories (R33, R34, R60, R63, R64) -/

/-- Memories and the encoder's group as they are: only registers differ, and no encoder comes to be Busy. -/
theorem MemoryCanonical.of_same {s t : State} (h : MemoryCanonical s)
    (hmem : (t.winFill, t.win, t.src, t.ht, t.codeBuf, t.lson, t.rson, t.dad) =
      (s.winFill, s.win, s.src, s.ht, s.codeBuf, s.lson, s.rson, s.dad))
    (hg : t.phase = .busy → t.unit = .lze → s.phase = .busy ∧ s.unit = .lze ∧ t.mask = s.mask ∧ t.codePtr = s.codePtr) :
    MemoryCanonical t := by
  simp only [Prod.mk.injEq] at hmem
  obtain ⟨hf, hw, hs, hh, hc, hl, hr, hd⟩ := hmem
  obtain ⟨h1, h2, h3, h4, h5, h6, h7, h8⟩ := h
  refine ⟨?_, ?_, ?_, ?_, ?_, ?_, ?_, fun hb hu => ?_⟩
  · rwa [hf, hw]
  · rwa [hs]
  · rwa [hh]
  · rwa [hc]
  · rwa [hl]
  · rwa [hr]
  · rwa [hd]
  · obtain ⟨hb', hu', hm, hp⟩ := hg hb hu
    unfold GroupLegal
    rw [hm, hp]
    exact h8 hb' hu'

theorem MemoryCanonical.engine {s t : State} (h : MemoryCanonical s) (hb : s.phase = .busy)
    (ht : stepUnit s = .next t) : MemoryCanonical t := by
  obtain ⟨hw, hsrc, hht, hcode, hl, hr, hd, hg⟩ := h
  rcases stepUnit_next ht with ⟨hu, hs⟩ | ⟨hu, hs⟩ | ⟨hu, -, hs⟩
  · have hwin := hs.win hw
    have hf := hs.frame
    rw [hf]
    refine ⟨hwin, hsrc, hht, hcode, hl, hr, hd, fun _ hu' => ?_⟩
    have hlze : s.unit = .lze := hu'
    rw [hlze] at hu
    cases hu
  · obtain ⟨hw', hl', hr', hd'⟩ := hs.memory ⟨hw, hl, hr, hd⟩
    obtain ⟨hcode', hg'⟩ := hs.group ⟨hcode, hg hb hu⟩
    have hf := hs.frame
    rw [EncoderFrame] at hf
    have hkeep : t.src = s.src ∧ t.ht = s.ht := by rw [hf]; exact ⟨rfl, rfl⟩
    exact ⟨hw', hkeep.1 ▸ hsrc, hkeep.2 ▸ hht, hcode', hl', hr', hd', fun _ _ => hg'⟩
  · have hf := hs.frame
    rw [hf]
    refine ⟨hw, hsrc, hht, hcode, hl, hr, hd, fun _ hu' => ?_⟩
    have hlze : s.unit = .lze := hu'
    rw [hlze] at hu
    cases hu

theorem MemoryCanonical.start {s : State} (h : MemoryCanonical s) {p : StartSpec} (hp : p.unit ≠ .none) :
    MemoryCanonical (s.start p) := by
  obtain ⟨hw, hsrc, hht, hcode, hl, hr, hd, -⟩ := h
  obtain ⟨-, -, -, -, -, -, -, -, hunit, -⟩ := s.start_shell hp
  have hframe := s.start_frame p
  have hkeep : (s.start p).src = s.src ∧ (s.start p).ht = s.ht ∧ (s.start p).lson = s.lson := by
    rw [hframe]; exact ⟨rfl, rfl, rfl⟩
  obtain ⟨hks, hkh, hkl⟩ := hkeep
  have hwin : Memory.wf (s.start p).winFill 4096 (s.start p).win = true := by
    rcases s.start_window p with ⟨-, -, hwn, -⟩ | ⟨-, hwf, hwn, -⟩
    · rw [hwn]; rfl
    · rwa [hwf, hwn]
  rcases s.start_encoder p with ⟨-, hc, hrs, hda, -, -, -, -, -, -, hptr, hmask⟩ | ⟨hne, hc, hrs, hda⟩
  · refine ⟨hwin, hks ▸ hsrc, hkh ▸ hht, ?_, hkl ▸ hl, ?_, ?_, fun _ _ => ⟨0, hmask, ?_⟩⟩
    · rw [hc]; exact Memory.wf_write _ hcode (by decide)
    · rw [hrs]; exact Memory.wf_clear _ _ hr
    · rw [hda]; exact Memory.wf_clear _ _ hd
    · rw [hptr]; decide
  · refine ⟨hwin, hks ▸ hsrc, hkh ▸ hht, hc ▸ hcode, hkl ▸ hl, hrs ▸ hr, hda ▸ hd, fun _ hu => ?_⟩
    exact absurd (hunit.symm.trans hu) hne

theorem State.writeHtData_wf {s : State} (v : BitVec 32) (h : Memory.wf HtEntry.empty 511 s.ht = true) :
    Memory.wf HtEntry.empty 511 (s.writeHtData v).ht = true := by
  unfold State.writeHtData
  dsimp only
  split
  · next hlt => exact Memory.wf_write _ h hlt
  · exact h

theorem State.writeReg_ht_wf {s : State} (n v : Nat) (h : Memory.wf HtEntry.empty 511 s.ht = true) :
    Memory.wf HtEntry.empty 511 (s.writeReg n v).ht = true := by
  unfold State.writeReg
  split
  · exact h
  · split
    case h_8 => exact State.writeHtData_wf _ h
    all_goals exact h

theorem MemoryCanonical.writeReg {s : State} (h : MemoryCanonical s) (n v : Nat) : MemoryCanonical (s.writeReg n v) := by
  obtain ⟨hw, hsrc, hht, hrest⟩ := h
  have hht' := State.writeReg_ht_wf n v hht
  rw [State.writeReg_frame]
  exact ⟨hw, hsrc, hht', hrest⟩

theorem MemoryCanonical.writeSrc {s : State} (h : MemoryCanonical s) (i : Count) (b : Byte) :
    MemoryCanonical (s.writeSrc i b) := by
  obtain ⟨hw, hsrc, hrest⟩ := h
  exact ⟨hw, Memory.wf_write _ hsrc i.isLt, hrest⟩

theorem MemoryCanonical.reset (a : List Turn) (n : Nat) :
    MemoryCanonical { State.reset with agenda := a, freeCount := n } :=
  ⟨rfl, rfl, rfl, rfl, rfl, rfl, rfl, nofun⟩

theorem MemoryCanonical.host {a : HostAction} {s t : State} (h : MemoryCanonical s) (ht : hostTurn a s = .next t) :
    MemoryCanonical t :=
  host_keeps (fun _ h => h.of_same rfl nofun) (fun _ h _ => h.of_same rfl nofun)
    (fun _ _ _ hp h _ => h.start (startSpec_unit_ne_none hp)) (fun _ n v h => h.writeReg n v)
    (fun _ i b h => h.writeSrc i b) (fun _ _ _ h => h) (fun _ h => h) MemoryCanonical.reset a s t h ht

/-! ## The control state (R24, R25) -/

theorem ControlLegal.engine {s t : State} (h : ControlLegal s) (hb : s.phase = .busy) (ht : stepUnit s = .next t) :
    ControlLegal t := by
  obtain ⟨hus, hunit, herr⟩ := h
  have hnone : s.err = .none := by
    by_contra hne
    exact nomatch hb.symm.trans (herr.mpr hne)
  rcases stepUnit_next ht with ⟨hu, hs⟩ | ⟨hu, hs⟩ | ⟨hu, hby, hs⟩
  · have hus' := hs.ustate hus
    have hu' : t.unit = s.unit := by rw [hs.frame]
    refine ⟨hus', fun _ => hu' ▸ hunit hb, ?_⟩
    rcases hs.outcome with ⟨hp, he⟩ | ⟨hp, he⟩ | ⟨hp, he⟩
    · rw [hp, he]; exact herr
    · rw [hp, he, hnone]; decide
    · exact ⟨fun _ => he, fun _ => hp⟩
  · have hf := hs.frame
    rw [EncoderFrame] at hf
    have hkeep : t.unit = s.unit ∧ t.err = s.err := by rw [hf]; exact ⟨rfl, rfl⟩
    obtain ⟨hu', he'⟩ := hkeep
    refine ⟨?_, fun _ => hu' ▸ hunit hb, ?_⟩
    · rw [UStateLegal, hu', hu]; exact hs.ustate
    · rw [he', hnone]
      rcases hs.phase with hp | hp <;> rw [hp]
      · rw [hb]; decide
      · decide
  · have hf := hs.frame
    have hkeep : t.unit = s.unit ∧ t.err = s.err ∧ t.ustate = s.ustate := by rw [hf]; exact ⟨rfl, rfl, rfl⟩
    obtain ⟨hu', he', hus'⟩ := hkeep
    refine ⟨?_, fun _ => hu' ▸ hunit hb, ?_⟩
    · rw [UStateLegal, hu', hu, hus']; exact hby
    · rw [he', hnone]
      rcases hs.phase with hp | hp <;> rw [hp]
      · rw [hb]; decide
      · decide

theorem ControlLegal.start (s : State) {p : StartSpec} (hp : p.unit ≠ .none) : ControlLegal (s.start p) := by
  obtain ⟨herr, -, -, -, -, -, -, -, hunit, hus, hphase⟩ := s.start_shell hp
  refine ⟨?_, fun _ => hunit ▸ hp, ?_⟩
  · rw [UStateLegal, hunit, hus]
    cases p.unit <;> simp
  · have hne : (s.start p).phase ≠ .failed := by
      rw [hphase]
      split_ifs <;> exact nofun
    exact ⟨fun h => absurd h hne, fun h => absurd herr h⟩

theorem ControlLegal.writeReg {s : State} (h : ControlLegal s) (n v : Nat) : ControlLegal (s.writeReg n v) := by
  rw [State.writeReg_frame]
  exact h

theorem ControlLegal.reset (a : List Turn) (n : Nat) :
    ControlLegal { State.reset with agenda := a, freeCount := n } :=
  ⟨rfl, nofun, nofun, fun h => absurd rfl h⟩

theorem ControlLegal.host {a : HostAction} {s t : State} (h : ControlLegal s) (ht : hostTurn a s = .next t) :
    ControlLegal t :=
  host_keeps (fun _ _ => ⟨rfl, nofun, nofun, fun h => absurd rfl h⟩) (fun _ _ _ => ⟨rfl, nofun, fun _ => nofun, fun _ => rfl⟩)
    (fun _ _ s hp _ _ => .start s (startSpec_unit_ne_none hp)) (fun _ n v h => h.writeReg n v)
    (fun _ _ _ h => h) (fun _ _ _ h => h) (fun _ h => h) ControlLegal.reset a s t h ht

/-! ## The readers (R26, R30, R31, R36) -/

theorem ReadersLegal.engine {s t : State} (h : ReadersLegal s) (hb : s.phase = .busy) (ht : stepUnit s = .next t) :
    ReadersLegal t := by
  obtain ⟨hpos, hf, hbc, hlo⟩ := h hb
  intro _
  rcases stepUnit_next ht with ⟨hu, hs⟩ | ⟨hu, hs⟩ | ⟨hu, -, hs⟩
  · have hu' : t.unit = s.unit := by rw [hs.frame]
    rw [hu']
    exact ⟨hs.cursor.pos hpos, fun h => hs.fcnt (hf h), fun h => hs.cursor.bcnt (hbc h), fun h => hs.lastOff (hlo h)⟩
  · have hfr := hs.frame
    rw [EncoderFrame] at hfr
    have hu' : t.unit = .lze := by rw [hfr]; exact hu
    rw [hu']
    exact ⟨hs.pos hpos, nofun, nofun, nofun⟩
  · have hu' : t.unit = .kc := by rw [hs.frame]; exact hu
    rw [hu']
    exact ⟨hs.pos hpos, nofun, nofun, nofun⟩

theorem ReadersLegal.start (s : State) {p : StartSpec} (hp : p.unit ≠ .none) : ReadersLegal (s.start p) := by
  obtain ⟨-, -, hpos, -, -, -, -, -, hunit, -⟩ := s.start_shell hp
  obtain ⟨hlzd, hbits, -, hglz, -⟩ := s.start_readers p
  intro _
  rw [hpos, hunit]
  refine ⟨by rw [BitVec.le_def]; exact Nat.zero_le _, fun h => ?_, fun h => ?_, fun h => ?_⟩
  · rw [(hlzd h).2]; decide
  · rw [(hbits h).2]; decide
  · rw [(hglz h).2]; decide

/-- A register write takes effect outside Busy only (R22). -/
theorem State.writeReg_busy {s : State} (h : s.phase = .busy) (n v : Nat) : s.writeReg n v = s := if_pos h

theorem State.writeReg_phase (s : State) (n v : Nat) : (s.writeReg n v).phase = s.phase := by
  rw [State.writeReg_frame]

theorem ReadersLegal.writeReg {s : State} (h : ReadersLegal s) (n v : Nat) : ReadersLegal (s.writeReg n v) := by
  intro hb
  rw [State.writeReg_phase] at hb
  rw [State.writeReg_busy hb]
  exact h hb

theorem ReadersLegal.host {a : HostAction} {s t : State} (h : ReadersLegal s) (ht : hostTurn a s = .next t) :
    ReadersLegal t :=
  host_keeps (fun _ _ => nofun) (fun _ _ _ => nofun)
    (fun _ _ s hp _ _ => .start s (startSpec_unit_ne_none hp)) (fun _ n v h => h.writeReg n v)
    (fun _ _ _ h => h) (fun _ _ _ h => h) (fun _ h => h) (fun _ _ => nofun) a s t h ht

/-! ## The encoder's ring (R34, R186 (e)) -/

theorem State.stepPrime_ring {s t : State} (h : RingLegal s) (ht : s.stepPrime = some t) :
    RingLegal t ∧ (t.ustate = UState.encode → t.lookLen ≠ 0) := by
  have hlook := h.2.1
  have h1 := State.loadLookahead_ring (Config.F - s.lookLen.toNat) h (by simp only [Config.F]; bv_omega)
  unfold State.stepPrime at ht
  dsimp only at ht
  generalize State.loadLookahead (Config.F - s.lookLen.toNat) s = s1 at *
  split at ht
  · rw [← Option.some.inj ht]
    exact ⟨h1, nofun⟩
  · next hne =>
    split at ht
    · cases ht
    · next s2 hi =>
      obtain ⟨h2, hl⟩ := State.insertNode_ring h1 hi
      rw [← Option.some.inj ht]
      exact ⟨h2, fun _ => hl ▸ hne⟩

theorem State.stepEncode_ring {s t : State} (h : RingLegal s) (hne : s.lookLen ≠ 0) (ht : s.stepEncode = some t) :
    RingLegal t ∧ (t.ustate = UState.encode → t.lookLen ≠ 0) := by
  obtain ⟨hs, hl, -⟩ := h
  obtain ⟨hm, hml⟩ := State.codeToken_matchLen hl hne
  have hf := s.codeToken_frame
  unfold State.stepEncode at ht
  dsimp only at ht
  generalize s.clampMatch.emitToken.endToken = s1 at *
  rw [GroupFrame] at hf
  have hkeep : s1.ringS = s.ringS ∧ s1.ringR = s.ringR ∧ s1.lookLen = s.lookLen := by rw [hf]; exact ⟨rfl, rfl, rfl⟩
  obtain ⟨hks, hkr, hkl⟩ := hkeep
  split at ht
  · cases ht
  · next s2 ha =>
    have h2 : RingLegal s2 := by
      refine State.advance_ring _ (s := { s1 with lastLen := s1.matchLen }) ⟨?_, ?_, hm⟩ ?_ ha
      · change s1.ringS = s1.ringR + 18; rw [hks, hkr]; exact hs
      · change s1.lookLen ≤ 18; rw [hkl]; exact hl
      · change s1.matchLen.toNat ≤ s1.lookLen.toNat; rw [hkl]; exact hml
    rw [← Option.some.inj ht]
    split
    · exact ⟨h2, nofun⟩
    · next hne' => exact ⟨h2, fun _ => hne'⟩

theorem EncoderLegal.engine {s t : State} (h : EncoderLegal s) (hb : s.phase = .busy) (ht : stepUnit s = .next t) :
    EncoderLegal t := by
  intro hb' hu'
  have hu : s.unit = .lze := by
    rcases stepUnit_next ht with ⟨-, hs⟩ | ⟨hu, -⟩ | ⟨-, -, hs⟩
    · rw [hs.frame] at hu'; exact hu'
    · exact hu
    · rw [hs.frame] at hu'; exact hu'
  obtain ⟨hs, hl, hm, hne⟩ := h hb hu
  have hplain : stepPlainUnit s = .next t := by
    rcases stepUnit_cases s with ⟨hd, -⟩ | ⟨-, hp⟩ | hf
    · rw [hu] at hd; cases hd
    · exact hp ▸ ht
    · cases hf.symm.trans ht
  have key : RingLegal t ∧ (t.ustate = UState.encode → t.lookLen ≠ 0) := by
    rcases stepPlainUnit_cases hplain with ⟨-, -, ⟨-, hp⟩ | ⟨hus, he⟩ | ⟨-, hfl⟩⟩ | ⟨hk, -⟩
    · exact State.stepPrime_ring ⟨hs, hl, hm⟩ hp
    · exact State.stepEncode_ring ⟨hs, hl, hm⟩ (hne hus) he
    · rw [hfl, State.stepFlush_eq] at hb'; cases hb'
    · exact nomatch hu.symm.trans hk
  obtain ⟨⟨hs', hl', hm'⟩, hne'⟩ := key
  exact ⟨hs', hl', hm', hne'⟩

theorem EncoderLegal.start (s : State) {p : StartSpec} (hp : p.unit ≠ .none) : EncoderLegal (s.start p) := by
  obtain ⟨-, -, -, -, -, -, -, -, hunit, hus, -⟩ := s.start_shell hp
  intro _ hu
  rcases s.start_encoder p with ⟨-, -, -, -, hr, hs, hl, -, hm, -⟩ | ⟨hne, -⟩
  · rw [hr, hs, hl, hm, hus]
    decide
  · exact absurd (hunit.symm.trans hu) hne

theorem EncoderLegal.writeReg {s : State} (h : EncoderLegal s) (n v : Nat) : EncoderLegal (s.writeReg n v) := by
  rw [State.writeReg_frame]
  exact h

theorem EncoderLegal.host {a : HostAction} {s t : State} (h : EncoderLegal s) (ht : hostTurn a s = .next t) :
    EncoderLegal t :=
  host_keeps (fun _ _ => nofun) (fun _ _ _ => nofun)
    (fun _ _ s hp _ _ => .start s (startSpec_unit_ne_none hp)) (fun _ n v h => h.writeReg n v)
    (fun _ _ _ h => h) (fun _ _ _ h => h) (fun _ h => h) (fun _ _ => nofun) a s t h ht

/-! ## Every step keeps them -/

/-- Settles O47: the memories stay canonical under engine steps and host actions. -/
theorem stepKeepsMemoryCanonical : Obligations.StepKeepsMemoryCanonical := fun _ _ hs h =>
  step_keeps (fun _ _ h => h) (fun _ _ h hb ht => h.engine hb ht) (fun _ _ _ h ht => h.host ht) hs h

/-- Settles O48: the control state stays legal under engine steps and host actions. -/
theorem stepKeepsControlLegal : Obligations.StepKeepsControlLegal := fun _ _ hs h =>
  step_keeps (fun _ _ h => h) (fun _ _ h hb ht => h.engine hb ht) (fun _ _ _ h ht => h.host ht) hs h

/-- Settles O49: the readers stay in range under engine steps and host actions. -/
theorem stepKeepsReadersLegal : Obligations.StepKeepsReadersLegal := fun _ _ hs h =>
  step_keeps (fun _ _ h => h) (fun _ _ h hb ht => h.engine hb ht) (fun _ _ _ h ht => h.host ht) hs h

/-- Settles O51: the ring stays legal under engine steps and host actions. -/
theorem stepKeepsEncoderLegal : Obligations.StepKeepsEncoderLegal := fun _ _ hs h =>
  step_keeps (fun _ _ h => h) (fun _ _ h hb ht => h.engine hb ht) (fun _ _ _ h ht => h.host ht) hs h

end Sys2Proof.Machine
end

section
/-! # Starts, registers, reset, and what an engine step leaves alone -/

namespace Sys2Proof.Machine

/-! ## Starts (R267 to R269) -/

/-- Outside Busy a command with a start does that start. -/
theorem exec_start_next {i : Instr} {p : StartSpec} (hp : startSpec i = some p) {s : State} (hb : s.phase ≠ .busy) :
    exec i s = .next (s.start p) := by
  rw [exec_start hp, State.accept, if_neg hb]

theorem State.start_windowFilled (s : State) {p : StartSpec} (hu : p.unit = .lzd ∨ p.unit = .glz ∨ p.unit = .lze) :
    WindowFilled s (s.start p) := by
  rcases s.start_window p with ⟨-, hf, hw, hc⟩ | ⟨hn, -⟩
  · refine ⟨fun i => ?_, hc⟩
    rw [State.winAt, hf, hw, Memory.read_nil]
  · exact absurd hu hn

/-- What a start of LZD may write. -/
theorem State.start_lzd_frame (s : State) {p : StartSpec} (hu : p.unit = .lzd) : s.start p = { s with
    err := (s.start p).err, dst := (s.start p).dst, pos := (s.start p).pos, outCount := (s.start p).outCount
    lenKnown := (s.start p).lenKnown, capEn := (s.start p).capEn, skipRem := (s.start p).skipRem
    takeRem := (s.start p).takeRem, unit := (s.start p).unit, ustate := (s.start p).ustate
    phase := (s.start p).phase, winFill := (s.start p).winFill, win := (s.start p).win, cur := (s.start p).cur
    flags := (s.start p).flags, fcnt := (s.start p).fcnt } := by
  obtain ⟨u, k, lk, ce, us, ut⟩ := p
  cases hu
  rw [State.start, State.startPhase_eq]
  rfl

/-- What a start of HUF may write. -/
theorem State.start_huf_frame (s : State) {p : StartSpec} (hu : p.unit = .huf) : s.start p = { s with
    err := (s.start p).err, dst := (s.start p).dst, pos := (s.start p).pos, outCount := (s.start p).outCount
    lenKnown := (s.start p).lenKnown, capEn := (s.start p).capEn, skipRem := (s.start p).skipRem
    takeRem := (s.start p).takeRem, unit := (s.start p).unit, ustate := (s.start p).ustate
    phase := (s.start p).phase, acc := (s.start p).acc, bcnt := (s.start p).bcnt, node := (s.start p).node } := by
  obtain ⟨u, k, lk, ce, us, ut⟩ := p
  cases hu
  rw [State.start, State.startPhase_eq]
  rfl

/-- What a start of GLZ may write. -/
theorem State.start_glz_frame (s : State) {p : StartSpec} (hu : p.unit = .glz) : s.start p = { s with
    err := (s.start p).err, dst := (s.start p).dst, pos := (s.start p).pos, outCount := (s.start p).outCount
    lenKnown := (s.start p).lenKnown, capEn := (s.start p).capEn, skipRem := (s.start p).skipRem
    takeRem := (s.start p).takeRem, unit := (s.start p).unit, ustate := (s.start p).ustate
    phase := (s.start p).phase, winFill := (s.start p).winFill, win := (s.start p).win, cur := (s.start p).cur
    acc := (s.start p).acc, bcnt := (s.start p).bcnt, lwm := (s.start p).lwm, lastOff := (s.start p).lastOff } := by
  obtain ⟨u, k, lk, ce, us, ut⟩ := p
  cases hu
  rw [State.start, State.startPhase_eq]
  rfl

/-- What a start of LZE may write. -/
theorem State.start_lze_frame (s : State) {p : StartSpec} (hu : p.unit = .lze) : s.start p = { s with
    err := (s.start p).err, dst := (s.start p).dst, pos := (s.start p).pos, outCount := (s.start p).outCount
    lenKnown := (s.start p).lenKnown, capEn := (s.start p).capEn, skipRem := (s.start p).skipRem
    takeRem := (s.start p).takeRem, unit := (s.start p).unit, ustate := (s.start p).ustate
    phase := (s.start p).phase, winFill := (s.start p).winFill, win := (s.start p).win, cur := (s.start p).cur
    ringR := (s.start p).ringR, ringS := (s.start p).ringS, lookLen := (s.start p).lookLen
    matchPos := (s.start p).matchPos, matchLen := (s.start p).matchLen, lastLen := (s.start p).lastLen
    codeBuf := (s.start p).codeBuf, codePtr := (s.start p).codePtr, mask := (s.start p).mask
    rson := (s.start p).rson, dad := (s.start p).dad } := by
  obtain ⟨u, k, lk, ce, us, ut⟩ := p
  cases hu
  rw [State.start, State.startPhase_eq]
  rfl

/-- Settles O4: each of the six commands has a start, whose writes the lemmas on starts list. -/
theorem decodersStart : Obligations.DecodersStart := by
  intro i lk ce s hb
  refine ⟨?_, ?_, ?_⟩
  · have lzd {p : StartSpec} (hp : startSpec i = some p) (hu : p.unit = .lzd) :
        exec i s = .next (s.start p) ∧ WindowFilled s (s.start p) ∧ (s.start p).flags = 0 ∧ (s.start p).fcnt = 0 :=
      ⟨exec_start_next hp hb, s.start_windowFilled (.inl hu), (s.start_readers p).1 hu⟩
    rintro (rfl | rfl)
    · obtain ⟨he, hw, hf, hc⟩ := lzd rfl rfl
      exact ⟨_, he, fun _ => s.start_shell nofun, nofun, hw, hf, hc, s.start_lzd_frame rfl⟩
    · obtain ⟨he, hw, hf, hc⟩ := lzd rfl rfl
      exact ⟨_, he, nofun, fun _ => s.start_shell nofun, hw, hf, hc, s.start_lzd_frame rfl⟩
  · have huf {p : StartSpec} (hp : startSpec i = some p) (hu : p.unit = .huf) :
        exec i s = .next (s.start p) ∧ ((s.start p).acc = 0 ∧ (s.start p).bcnt = 0) ∧ (s.start p).node = 0 :=
      ⟨exec_start_next hp hb, (s.start_readers p).2.1 (.inl hu), (s.start_readers p).2.2.1 hu⟩
    rintro (rfl | rfl)
    · obtain ⟨he, ⟨ha, hc⟩, hn⟩ := huf rfl rfl
      exact ⟨_, he, fun _ => s.start_shell nofun, nofun, ha, hc, hn, s.start_huf_frame rfl⟩
    · obtain ⟨he, ⟨ha, hc⟩, hn⟩ := huf rfl rfl
      exact ⟨_, he, nofun, fun _ => s.start_shell nofun, ha, hc, hn, s.start_huf_frame rfl⟩
  · have glz {p : StartSpec} (hp : startSpec i = some p) (hu : p.unit = .glz) :
        exec i s = .next (s.start p) ∧ WindowFilled s (s.start p) ∧
          ((s.start p).acc = 0 ∧ (s.start p).bcnt = 0) ∧ (s.start p).lwm = false ∧ (s.start p).lastOff = 0 :=
      ⟨exec_start_next hp hb, s.start_windowFilled (.inr (.inl hu)), (s.start_readers p).2.1 (.inr hu),
        (s.start_readers p).2.2.2.1 hu⟩
    rintro (rfl | rfl)
    · obtain ⟨he, hw, ⟨ha, hc⟩, hl, ho⟩ := glz rfl rfl
      exact ⟨_, he, fun _ => s.start_shell nofun, nofun, hw, ha, hc, hl, ho, s.start_glz_frame rfl⟩
    · obtain ⟨he, hw, ⟨ha, hc⟩, hl, ho⟩ := glz rfl rfl
      exact ⟨_, he, nofun, fun _ => s.start_shell nofun, hw, ha, hc, hl, ho, s.start_glz_frame rfl⟩

/-- The spec of a `COMPRESS` start (R269). -/
def compressSpec : StartSpec := ⟨.lze, .lcgXor, false, false, false, false⟩

/-- Settles O5: the start of the encoder, its memories read cell by cell. -/
theorem compressStarts : Obligations.CompressStarts := by
  intro lk ce s hb
  have he : exec (.compressLzss lk ce) s = .next (s.start compressSpec) := exec_start_next rfl hb
  rcases s.start_encoder compressSpec with ⟨-, hc, hr, hd, hR, hS, hl, hmp, hml, hll, hcp, hm⟩ | ⟨hne, -⟩
  · refine ⟨_, he, s.start_shell nofun, s.start_windowFilled (.inr (.inr rfl)), hR, hS, hl, hmp, hml, hll, hcp, hm,
      fun j => ?_, fun p => ?_, fun p => ?_, s.start_lze_frame rfl⟩
    · rw [State.codeAt, hc, Memory.read_write]; rfl
    · rw [State.rsonAt, hr, Memory.read_clear]
      simp only [Nat.lt_succ_iff (m := p.toNat) (n := 4352)]
      rfl
    · rw [State.dadAt, hd, Memory.read_clear]
      simp only [Nat.zero_le, true_and]
      rfl
  · exact absurd rfl hne

/-! ## What an engine step leaves alone (R21, R61, R62, R65) -/

/-- An engine step that takes a step of a unit. -/
theorem stepUnit_keeps {s t : State} (h : stepUnit s = .next t) :
    SameOperands s t ∧ t.htAddr = s.htAddr ∧ t.unit = s.unit ∧ t.lenKnown = s.lenKnown ∧ t.capEn = s.capEn ∧
    t.winFill = s.winFill ∧ t.cipherKind = s.cipherKind ∧ t.resetLine = s.resetLine ∧ t.readData = s.readData ∧
    t.freeCount = s.freeCount ∧ t.agenda = s.agenda ∧ s.dst <+: t.dst := by
  rcases stepUnit_next h with ⟨-, hs⟩ | ⟨-, hs⟩ | ⟨-, -, hs⟩
  all_goals
    have hd := hs.dst
    have hf : t = _ := hs.frame
    refine ⟨?_, ?_, ?_, ?_, ?_, ?_, ?_, ?_, ?_, ?_, ?_, hd⟩
    · rw [hf]; exact ⟨rfl, rfl, rfl, rfl, rfl, rfl, rfl, rfl⟩
    all_goals rw [hf]

/-- Settles O56: an engine turn outside Busy changes the agenda only, and the steps of the units keep what is listed. -/
theorem engineKeepsOperandsAndResult : Obligations.EngineKeepsOperandsAndResult := by
  intro rest s t hn h
  rw [step_engine hn, engineTurn] at h
  split at h
  · obtain ⟨ho, h1, h2, h3, h4, h5, h6, h7, h8, h9, ha, bs, hbs⟩ := stepUnit_keeps h
    exact ⟨ho, h1, h2, h3, h4, h5, h6, h7, h8, h9, ha, bs, hbs.symm⟩
  · cases h
    exact ⟨⟨rfl, rfl, rfl, rfl, rfl, rfl, rfl, rfl⟩, rfl, rfl, rfl, rfl, rfl, rfl, rfl, rfl, rfl, rfl, [],
      (List.append_nil _).symm⟩

/-! ## Tokens that cannot be read (R131, R223, R292) -/

/-- An engine turn of a Busy unit. -/
theorem step_busy {s : State} {rest : List Turn} (hn : EngineTurnNext s rest) (hr : s.resetLine = false)
    (hb : s.phase = .busy) : step s = stepUnit { s with agenda := rest } := by
  exact (step_engine hn).trans (engineTurn_busy (s := { s with agenda := rest }) hb hr)

/-- The end of input (R131): what it does to the phase and the error, and that it does nothing else. -/
theorem State.endOfInput_spec (s : State) :
    (s.lenKnown = true → s.endOfInput.phase = .failed ∧ s.endOfInput.err = .truncatedInput) ∧
    (s.lenKnown = false → s.endOfInput.phase = .done ∧ s.endOfInput.err = s.err) ∧
    s.endOfInput = { s with phase := s.endOfInput.phase, err := s.endOfInput.err } := by
  rcases s.endOfInput_cases with ⟨hl, h⟩ | ⟨hl, h⟩ <;> rw [h, hl]
  · exact ⟨fun _ => ⟨rfl, rfl⟩, nofun, by rw [← hl]⟩
  · exact ⟨nofun, fun _ => ⟨rfl, rfl⟩, by rw [← hl]⟩

/-- An engine turn of a Busy window decoder. -/
theorem step_window {s : State} {rest : List Turn} {x : TokenContext} (hn : EngineTurnNext s rest)
    (hr : s.resetLine = false) (hb : s.phase = .busy) (hx : s.tokenContext = some x) :
    step s = (({ s with agenda := rest } : State).afterFetch (decodeToken x s.cursor)).run :=
  (step_busy hn hr hb).trans (stepUnit_of_tokenContext (s := { s with agenda := rest }) hx)

/-- An engine turn of a Busy Huffman decoder. -/
theorem step_huf {s : State} {rest : List Turn} (hn : EngineTurnNext s rest) (hr : s.resetLine = false)
    (hb : s.phase = .busy) (hu : s.unit = .huf) (hus : s.ustate = UState.symbol) :
    step s = (({ s with agenda := rest } : State).afterHuf (decodeHuf s.ht s.cursor)).run :=
  (step_busy hn hr hb).trans (stepUnit_of_huf (s := { s with agenda := rest }) hu hus)

/-- Settles O10: the four ways a reading ends, each as the step's own equation gives it. -/
theorem unreadableTokensEndTheCommand : Obligations.UnreadableTokensEndTheCommand := by
  refine ⟨fun x c rest s hn hr hb hx hd => ?_, fun n c rest s hn hr hb hu hus hd => ?_,
    fun x c rest s hn hr hb hx hd => ?_, fun c rest s hn hr hb hu hus hd => ?_⟩
  · rw [step_window hn hr hb hx, hd]
    exact ⟨_, rfl, State.endOfInput_spec (({ s with agenda := rest } : State).withCursor c)⟩
  · rw [step_huf hn hr hb hu hus, hd]
    exact ⟨_, rfl, State.endOfInput_spec { ({ s with agenda := rest } : State).withCursor c with node := n }⟩
  · rw [step_window hn hr hb hx, hd]
    rfl
  · rw [step_huf hn hr hb hu hus, hd]
    rfl

/-! ## The register file (R22, R23, R33) -/

/-- A host turn with reset not asserted. -/
theorem step_hostTurnNext {s : State} {a : HostAction} {rest : List Turn} (h : HostTurnNext s a rest) :
    step s = hostTurn a { s with agenda := rest } := step_host h.1

/-- A write of a register other than `CMD`. -/
theorem step_writeReg {s : State} {n v : Nat} {rest : List Turn} (h : HostTurnNext s (.writeReg n v) rest) (hn : n ≠ 0) :
    step s = .next ({ s with agenda := rest }.writeReg n v) := by
  obtain ⟨-, hr⟩ := id h
  rw [step_hostTurnNext h, hostTurn]
  dsimp only
  rw [hr, if_neg Bool.false_ne_true, if_neg hn]

/-- The writable registers but `HT_DATA` (R22). -/
theorem regWidth_ne_zero {n : Nat} (h : regWidth n ≠ 0) :
    n = 3 ∨ n = 4 ∨ n = 5 ∨ n = 6 ∨ n = 7 ∨ n = 8 ∨ n = 12 := by
  unfold regWidth at h
  split at h <;> simp_all

/-- Settles O28: for each of the seven registers, the write and then a read of every register. -/
theorem registerWriteIsReadBack : Obligations.RegisterWriteIsReadBack := by
  intro n v rest s h hb hw
  obtain ⟨-, hr⟩ := id h
  have hn : n ≠ 0 := fun h0 => hw (by rw [h0]; rfl)
  have hs := step_writeReg h hn
  have hb' : ¬ ({ s with agenda := rest } : State).phase = .busy := hb
  unfold State.writeReg at hs
  rw [if_neg hb'] at hs
  rcases regWidth_ne_zero hw with rfl | rfl | rfl | rfl | rfl | rfl | rfl
  all_goals
    refine ⟨_, hs, ?_, fun m hm hx => ?_, rfl⟩
    · simp only [State.readReg, hr, Bool.false_eq_true, if_false, regWidth, BitVec.toNat_setWidth, BitVec.toNat_ofNat] <;>
        omega
    · simp only [State.readReg, hr, Bool.false_eq_true, if_false]
      -- another register reads as before; the written one is `hm`'s, `HT_DATA` after `HT_ADDR` is `hx`'s
      split <;> first | rfl | exact absurd rfl hm | exact absurd ⟨rfl, rfl⟩ hx

/-- Settles O29: the write to the table and the advance of `HT_ADDR` (R33). -/
theorem tableWriteAdvancesTheAddress : Obligations.TableWriteAdvancesTheAddress := by
  intro v rest s h hb
  have hb' : ¬ ({ s with agenda := rest } : State).phase = .busy := hb
  have hs := step_writeReg h (by decide)
  rw [State.writeReg, if_neg hb'] at hs
  obtain ⟨hat, hf⟩ := State.writeHtData_spec { s with agenda := rest } (BitVec.ofNat 32 v)
  refine ⟨_, hs, ?_, fun k => ?_, hf⟩
  · exact BitVec.toNat_add s.htAddr 1
  · have hk : (k = s.htAddr ∧ s.htAddr.toNat < 511) ↔ (k = s.htAddr ∧ k.toNat ≤ 510) := by
      constructor <;> rintro ⟨rfl, hlt⟩ <;> exact ⟨rfl, by omega⟩
    have := hat k
    simp only [hk] at this
    exact this

/-- Outside the writable registers a write does nothing (R22). -/
theorem State.writeReg_ignored {s : State} {n : Nat} (v : Nat) (h : s.phase = .busy ∨ (regWidth n = 0 ∧ n ≠ 13)) :
    s.writeReg n v = s := by
  unfold State.writeReg
  split
  · rfl
  · next hb =>
    obtain ⟨hw, hn⟩ := h.resolve_left hb
    split <;> simp_all [regWidth]

/-- Settles O30: the guards of a write. -/
theorem ignoredWritesChangeNothing : Obligations.IgnoredWritesChangeNothing := by
  refine ⟨fun n v rest s h hn hig => ?_, fun a rest s ha hr hw => ?_⟩
  · rw [step_writeReg h hn]
    exact congrArg _ (State.writeReg_ignored v hig)
  · rw [step_host ha]
    rcases hw with ⟨n, v, rfl⟩ | ⟨i, b, rfl⟩
    · exact if_pos hr
    · exact congrArg _ (if_pos hr)

/-- Beyond its size a memory in canonical form reads as `base`. -/
theorem Memory.read_beyond {α : Type} [DecidableEq α] {base : α} {size lo a : Nat} {m : List (Nat × α)}
    (h : Memory.wfFrom base size lo m = true) (ha : size ≤ a) : Memory.read base m a = base := by
  induction m generalizing lo with
  | nil => rfl
  | cons e m ih =>
    obtain ⟨k, v⟩ := e
    obtain ⟨-, hk, -, hm⟩ := (Memory.wfFrom_cons ..).mp h
    rw [Memory.read_cons, if_neg (by omega)]
    exact ih hm

/-- Settles O31: a read answers the register, and its turn writes `readData` only. -/
theorem hostReadsHaveNoSideEffect : Obligations.HostReadsHaveNoSideEffect := by
  refine ⟨fun n rest s ha => ⟨step_host ha, fun hr => if_pos hr⟩, fun s hr => ?_, fun i rest s ha => ?_⟩
  · have read (n : Nat) : s.readReg n = ({ s with resetLine := false } : State).readReg n := by rw [← hr]
    have setWidth_toNat {w : Nat} (hw : w ≤ 64) (v : BitVec w) : (v.setWidth 64).toNat = v.toNat := by
      rw [BitVec.toNat_setWidth]
      exact Nat.mod_eq_of_lt (v.isLt.trans_le (Nat.pow_le_pow_right (by decide) hw))
    simp only [read]
    refine ⟨rfl, setWidth_toNat (by decide) s.status, ?_, rfl, rfl, rfl, rfl, setWidth_toNat (by decide) s.fill,
      setWidth_toNat (by decide) s.keySeed, rfl, rfl, BitVec.toNat_ofNat _ _, setWidth_toNat (by decide) s.htAddr,
      setWidth_toNat (by decide) (htImage (s.htAt s.htAddr)), fun h511 hwf => ?_, fun n hn => ?_⟩
    · refine (setWidth_toNat (by decide) s.err.code).trans ?_
      cases s.err <;> rfl
    · have he : s.htAt s.htAddr = HtEntry.empty := by
        rw [State.htAt, h511]
        exact Memory.read_beyond hwf (by decide)
      change (htImage (s.htAt s.htAddr)).setWidth 64 = _
      rw [he]
      decide
    · unfold State.readReg
      dsimp only
      split
      · rfl
      · split <;> simp_all
  · rw [step_host ha]
    refine ⟨fun hr => if_pos hr, fun hr b hb => ?_, fun hr hlen => ⟨Config.freeByte s.freeCount, ?_⟩⟩
    · change hostReadDst i _ = _
      rw [hostReadDst]
      dsimp only
      rw [hr, if_neg Bool.false_ne_true, hb]
    · change hostReadDst i _ = _
      rw [hostReadDst]
      dsimp only
      rw [hr, if_neg Bool.false_ne_true, List.getElem?_eq_none hlen]

/-! ## `STATUS` (R23) -/

theorem append_toNat {m n : Nat} (x : BitVec m) (y : BitVec n) : (x ++ y).toNat = x.toNat * 2 ^ n + y.toNat := by
  rw [BitVec.toNat_append, ← Nat.shiftLeft_add_eq_or_of_lt y.isLt, Nat.shiftLeft_eq]

/-- `STATUS` as a number: the fields, each with the weight of its lowest bit (R23). -/
theorem State.status_toNat (s : State) :
    s.status.toNat = s.phase.code.toNat + 4 * s.unit.code.toNat + 32 * s.ustate.toNat + 256 * s.lenKnown.toNat +
      512 * s.capEn.toNat + 1024 * s.statusLwm.toNat := by
  refine (append_toNat _ s.phase.code).trans ?_
  simp only [append_toNat, BitVec.toNat_ofBool, BitVec.toNat_ofNat]
  omega

theorem State.statusLwm_of_glz {s : State} (h : s.unit = .glz) : s.statusLwm = s.lwm := by
  rw [State.statusLwm, h]
  rfl

theorem State.statusLwm_of_ne {s : State} (h : s.unit ≠ .glz) : s.statusLwm = false := by
  rw [State.statusLwm, decide_eq_false h]
  rfl

/-- Settles O27: each field is cut out of the number that `STATUS` is. -/
theorem statusFieldsAreTheRegisters : Obligations.StatusFieldsAreTheRegisters := by
  refine ⟨fun s => ?_, ⟨rfl, rfl, rfl, rfl⟩, ⟨rfl, rfl, rfl, rfl, rfl, rfl⟩, rfl⟩
  have hv := s.status_toNat
  have hp := s.phase.code.isLt
  have hu := s.unit.code.isLt
  have hus := s.ustate.isLt
  have hlk := s.lenKnown.toNat_lt
  have hce := s.capEn.toNat_lt
  have hlw := s.statusLwm.toNat_lt
  have bit (k : Nat) (b : Bool) (h : s.status.toNat / 2 ^ k % 2 = b.toNat) : s.status.getLsbD k = b := by
    rw [BitVec.getLsbD, Nat.testBit_eq_decide_div_mod_eq, h]
    cases b <;> rfl
  have field {n : Nat} (k : Nat) (f : BitVec n) (h : s.status.toNat / 2 ^ k % 2 ^ n = f.toNat) :
      s.status.extractLsb' k n = f := by
    apply BitVec.eq_of_toNat_eq
    rw [BitVec.extractLsb'_toNat, Nat.shiftRight_eq_div_pow, h]
  refine ⟨field 0 _ ?_, field 2 _ ?_, field 5 _ ?_, bit 8 _ ?_, bit 9 _ ?_, fun hg => ?_, fun hg => ?_, field 11 _ ?_⟩
  · omega
  · omega
  · omega
  · omega
  · omega
  · rw [← State.statusLwm_of_glz hg]; exact bit 10 _ (by omega)
  · rw [← State.statusLwm_of_ne hg]; exact bit 10 _ (by omega)
  · change _ = 0; omega

/-! ## Reset (R40, R320) -/

/-- Settles O33: the state after the release is `State.reset` but for the agenda and the free bytes. -/
theorem releaseOfResetGivesTheResetValues : Obligations.ReleaseOfResetGivesTheResetValues := by
  intro rest s ha hr
  have hs : step s = .next { State.reset with agenda := rest, freeCount := s.freeCount } := by
    rw [step_host ha]
    exact congrArg _ (if_pos hr)
  have hstatus : State.reset.status = 0 := rfl
  exact ⟨_, hs, rfl, rfl, rfl, rfl, rfl, rfl, hstatus, rfl, rfl, rfl, rfl, rfl, rfl, rfl, fun _ => rfl, rfl, rfl, rfl, rfl,
    rfl, rfl, rfl, rfl⟩

/-- Settles O53: outside Busy only the memories and the control state say anything, and reset clears both. -/
theorem resetMeetsTheInvariants : Obligations.ResetMeetsTheInvariants :=
  ⟨MemoryCanonical.reset [] 0, ControlLegal.reset [] 0, nofun, nofun, nofun, nofun⟩

end Sys2Proof.Machine
end

section
/-! # The match tree as a tree (R174, R175, R186)

What `DeleteNode` and `InsertNode` do to the cells of the tree RAMs is what deletion and insertion do to a binary tree of
ring positions. A walk then ends because a tree has no more nodes than there are positions. -/

namespace Sys2Proof.Machine

/-! ## Binary trees of positions -/

theorem SearchTree.mem_node {l r : SearchTree} {p x : Ring} :
    x ∈ (SearchTree.node l p r).positions ↔ x ∈ l.positions ∨ x = p ∨ x ∈ r.positions := by
  simp [SearchTree.positions]

theorem SearchTree.nodup_node {l r : SearchTree} {p : Ring} :
    (SearchTree.node l p r).positions.Nodup ↔
      l.positions.Nodup ∧ r.positions.Nodup ∧ p ∉ l.positions ∧ p ∉ r.positions ∧
        ∀ x ∈ l.positions, x ∉ r.positions := by
  simp only [SearchTree.positions, List.nodup_append, List.nodup_cons, List.mem_cons]
  constructor
  · rintro ⟨hl, ⟨hpr, hr⟩, hd⟩
    exact ⟨hl, hr, fun h => hd p h p (.inl rfl) rfl, hpr, fun x hx hxr => hd x hx x (.inr hxr) rfl⟩
  · rintro ⟨hl, hr, hpl, hpr, hd⟩
    refine ⟨hl, ⟨hpr, hr⟩, fun x hx y hy hxy => ?_⟩
    rcases hy with rfl | hy
    · exact hpl (hxy ▸ hx)
    · exact hd x hx (hxy ▸ hy)

/-- A tree of distinct positions has at most 4096 nodes. -/
theorem SearchTree.length_le {T : SearchTree} (h : T.positions.Nodup) : T.positions.length ≤ 4096 := by
  have hcard : Fintype.card (Fin 4096) = 4096 := Fintype.card_fin _
  have hmap : (T.positions.map BitVec.toFin).Nodup := h.map fun _ _ he => BitVec.eq_of_toFin_eq he
  have := hmap.length_le_card
  rwa [List.length_map, hcard] at this

theorem SearchTree.popLast_eq_none {T : SearchTree} (h : T.popLast = none) : T = .nil := by
  cases T with
  | nil => rfl
  | node l p r =>
    unfold SearchTree.popLast at h
    split at h <;> cases h

theorem SearchTree.popLast_positions {T T' : SearchTree} {q : Ring} (h : T.popLast = some (T', q)) :
    T.positions = T'.positions ++ [q] := by
  induction T generalizing T' with
  | nil => cases h
  | node l p r _ ihr =>
    unfold SearchTree.popLast at h
    split at h
    · next hr =>
      cases h
      rw [SearchTree.popLast_eq_none hr]
      rfl
    · next r' q' hr =>
      cases h
      simp [SearchTree.positions, ihr hr]

theorem SearchTree.join_nil (l : SearchTree) : l.join .nil = l := by
  cases h : l.popLast <;> simp [SearchTree.join]

theorem SearchTree.nil_join (r : SearchTree) : SearchTree.nil.join r = r := by
  cases r <;> rfl

theorem SearchTree.join_of_popLast {l l' r : SearchTree} {q : Ring} (h : l.popLast = some (l', q)) (hr : r ≠ .nil) :
    l.join r = .node l' q r := by
  cases r with
  | nil => exact absurd rfl hr
  | node a x b =>
    unfold SearchTree.join
    rw [h]

theorem SearchTree.join_positions (l r : SearchTree) : (l.join r).positions = l.positions ++ r.positions := by
  by_cases hr : r = .nil
  · rw [hr, SearchTree.join_nil]
    exact (List.append_nil _).symm
  · cases hl : l.popLast with
    | none => rw [SearchTree.popLast_eq_none hl, SearchTree.nil_join]; rfl
    | some e =>
      obtain ⟨l', q⟩ := e
      rw [SearchTree.join_of_popLast hl hr, SearchTree.popLast_positions hl]
      simp [SearchTree.positions]

theorem SearchTree.delete_of_not_mem {T : SearchTree} {p : Ring} (h : p ∉ T.positions) : T.delete p = T := by
  induction T with
  | nil => rfl
  | node l x r ihl ihr =>
    simp only [SearchTree.mem_node, not_or] at h
    obtain ⟨hl, hx, hr⟩ := h
    rw [SearchTree.delete, if_neg (Ne.symm hx), ihl hl, ihr hr]

/-- Deletion takes one position out and keeps the order of the others (R175). -/
theorem SearchTree.delete_positions {T : SearchTree} {p : Ring} (h : T.positions.Nodup) :
    (T.delete p).positions = T.positions.filter (· ≠ p) := by
  induction T with
  | nil => rfl
  | node l x r ihl ihr =>
    obtain ⟨hl, hr, hxl, hxr, -⟩ := SearchTree.nodup_node.mp h
    unfold SearchTree.delete
    split
    · next hx =>
      subst hx
      have keep {A : List Ring} (hA : x ∉ A) : A.filter (· ≠ x) = A :=
        List.filter_eq_self.mpr fun y hy => by simpa using fun e : y = x => hA (e ▸ hy)
      rw [SearchTree.join_positions, SearchTree.positions, List.filter_append, List.filter_cons_of_neg (by simp),
        keep hxl, keep hxr]
    · next hx =>
      rw [SearchTree.positions, SearchTree.positions, List.filter_append, List.filter_cons_of_pos (by simpa using hx),
        ihl hl, ihr hr]

theorem SearchTree.mem_delete {T : SearchTree} {p x : Ring} (h : T.positions.Nodup) :
    x ∈ (T.delete p).positions ↔ x ∈ T.positions ∧ x ≠ p := by
  rw [SearchTree.delete_positions h, List.mem_filter]
  simp

theorem SearchTree.nodup_delete {T : SearchTree} {p : Ring} (h : T.positions.Nodup) :
    (T.delete p).positions.Nodup := by
  rw [SearchTree.delete_positions h]
  exact h.filter _

/-- The node `p` with the subtrees `l` and `r` is in the tree. -/
def SearchTree.HasNode (l : SearchTree) (p : Ring) (r : SearchTree) : SearchTree → Prop
  | .nil => False
  | .node a x b => (a = l ∧ x = p ∧ b = r) ∨ SearchTree.HasNode l p r a ∨ SearchTree.HasNode l p r b

theorem SearchTree.hasNode_of_mem {T : SearchTree} {p : Ring} (h : p ∈ T.positions) :
    ∃ l r, SearchTree.HasNode l p r T := by
  induction T with
  | nil => cases h
  | node a x b iha ihb =>
    rcases SearchTree.mem_node.mp h with ha | rfl | hb
    · obtain ⟨l, r, hn⟩ := iha ha
      exact ⟨l, r, .inr (.inl hn)⟩
    · exact ⟨a, b, .inl ⟨rfl, rfl, rfl⟩⟩
    · obtain ⟨l, r, hn⟩ := ihb hb
      exact ⟨l, r, .inr (.inr hn)⟩

/-- The positions of a node of the tree are positions of the tree, in the same order. -/
theorem SearchTree.HasNode.sublist {l r T : SearchTree} {p : Ring} (h : SearchTree.HasNode l p r T) :
    (SearchTree.node l p r).positions.Sublist T.positions := by
  induction T with
  | nil => cases h
  | node a x b iha ihb =>
    rcases h with ⟨rfl, rfl, rfl⟩ | ha | hb
    · exact List.Sublist.refl _
    · exact (iha ha).trans (List.sublist_append_left _ _)
    · exact (ihb hb).trans ((List.sublist_cons_self _ _).trans (List.sublist_append_right _ _))

theorem SearchTree.HasNode.mem {l r T : SearchTree} {p x : Ring} (h : SearchTree.HasNode l p r T)
    (hx : x ∈ l.positions ∨ x = p ∨ x ∈ r.positions) : x ∈ T.positions :=
  h.sublist.subset (SearchTree.mem_node.mpr hx)

/-- The last position has no right subtree, and taking it off is deleting it. -/
theorem SearchTree.popLast_delete {T T' : SearchTree} {q : Ring} (hn : T.positions.Nodup)
    (h : T.popLast = some (T', q)) : T' = T.delete q ∧ ∃ l, SearchTree.HasNode l q .nil T := by
  induction T generalizing T' with
  | nil => cases h
  | node a x b _ ihb =>
    unfold SearchTree.popLast at h
    split at h
    · next hb =>
      cases h
      rw [SearchTree.popLast_eq_none hb, SearchTree.delete, if_pos rfl, SearchTree.join_nil]
      exact ⟨rfl, _, .inl ⟨rfl, rfl, rfl⟩⟩
    · next b' q' hb =>
      cases h
      obtain ⟨-, hnb, -, hxb, hab⟩ := SearchTree.nodup_node.mp hn
      obtain ⟨hdel, l, hl⟩ := ihb hnb hb
      have hqb : q ∈ b.positions := hl.mem (.inr (.inl rfl))
      have hqa : q ∉ a.positions := fun ha => hab q ha hqb
      have hxq : x ≠ q := fun e => hxb (e ▸ hqb)
      refine ⟨?_, l, .inr (.inr hl)⟩
      rw [SearchTree.delete, if_neg hxq, SearchTree.delete_of_not_mem hqa, hdel]

/-! ## The cells of a shown tree -/

theorem State.dadAt_setDadUnlessNil (s : State) (p q v : TreeIdx) :
    (s.setDadUnlessNil p v).dadAt q = if q = p ∧ p ≠ Config.nil then v else s.dadAt q := by
  unfold State.setDadUnlessNil
  split
  · next h => simp [h]
  · next h => simp only [State.dadAt_setDad, ne_eq, h, not_false_iff, and_true]

@[simp] theorem State.lsonAt_setDadUnlessNil (s : State) (p q v : TreeIdx) :
    (s.setDadUnlessNil p v).lsonAt q = s.lsonAt q := by
  unfold State.setDadUnlessNil
  split <;> rfl

@[simp] theorem State.rsonAt_setDadUnlessNil (s : State) (p q v : TreeIdx) :
    (s.setDadUnlessNil p v).rsonAt q = s.rsonAt q := by
  unfold State.setDadUnlessNil
  split <;> rfl

/-- A position of a list and one outside it have different nodes. -/
theorem ringNode_ne_of_mem {A : List Ring} {x y : Ring} (hx : x ∈ A) (hy : y ∉ A) : ringNode x ≠ ringNode y :=
  fun e => hy (ringNode_inj.mp e ▸ hx)

section ShowsTree

variable {s t : State} {T : SearchTree} {link parent : TreeIdx}

/-- The link to a shown tree is `NIL` or the number of one of its nodes. -/
theorem ShowsTree.link_cases (h : ShowsTree s link parent T) :
    link = Config.nil ∨ ∃ p ∈ T.positions, link = ringNode p := by
  cases T with
  | nil => exact .inl h
  | node l p r => exact .inr ⟨p, SearchTree.mem_node.mpr (.inr (.inl rfl)), h.1⟩

theorem ShowsTree.link_ne {p : Ring} (h : ShowsTree s link parent T) (hp : p ∉ T.positions) : link ≠ ringNode p := by
  rcases h.link_cases with rfl | ⟨q, hq, rfl⟩
  · exact (ringNode_ne_nil p).symm
  · exact fun e => hp (ringNode_inj.mp e ▸ hq)

/-- The children of a node of a shown tree are shown below it. -/
theorem ShowsTree.children {l r : SearchTree} {p : Ring} (h : ShowsTree s link parent T)
    (hn : SearchTree.HasNode l p r T) :
    ShowsTree s (s.lsonAt (ringNode p)) (ringNode p) l ∧ ShowsTree s (s.rsonAt (ringNode p)) (ringNode p) r := by
  induction T generalizing link parent with
  | nil => cases hn
  | node a x b iha ihb =>
    obtain ⟨rfl, -, ha, hb⟩ := h
    rcases hn with ⟨rfl, rfl, rfl⟩ | hn | hn
    · exact ⟨ha, hb⟩
    · exact iha ha hn
    · exact ihb hb hn

/-- What a link of a node points at points back at the node. -/
theorem ShowsTree.dad_of_link {x p : Ring} (h : ShowsTree s link parent T) (hx : x ∈ T.positions)
    (hl : s.lsonAt (ringNode x) = ringNode p ∨ s.rsonAt (ringNode x) = ringNode p) :
    s.dadAt (ringNode p) = ringNode x := by
  obtain ⟨l, r, hn⟩ := SearchTree.hasNode_of_mem hx
  obtain ⟨hsl, hsr⟩ := h.children hn
  have root {U : SearchTree} (hU : ShowsTree s (ringNode p) (ringNode x) U) : s.dadAt (ringNode p) = ringNode x := by
    cases U with
    | nil => exact absurd hU (ringNode_ne_nil p)
    | node a y b => exact hU.2.1
  rcases hl with hl | hl
  · exact root (hl ▸ hsl)
  · exact root (hl ▸ hsr)

/-- The links inside a shown tree are `NIL` or nodes of it. -/
theorem ShowsTree.inner_link_ne {x p : Ring} (h : ShowsTree s link parent T) (hx : x ∈ T.positions)
    (hp : p ∉ T.positions) : s.lsonAt (ringNode x) ≠ ringNode p ∧ s.rsonAt (ringNode x) ≠ ringNode p := by
  obtain ⟨l, r, hn⟩ := SearchTree.hasNode_of_mem hx
  obtain ⟨hl, hr⟩ := h.children hn
  exact ⟨hl.link_ne fun hm => hp (hn.mem (.inl hm)), hr.link_ne fun hm => hp (hn.mem (.inr (.inr hm)))⟩

/-- A node of a shown tree hangs below the link to the tree, or below exactly one link of another node outside its own
subtrees. -/
theorem ShowsTree.parent_cases {l r : SearchTree} {p : Ring} (h : ShowsTree s link parent T) (hd : T.positions.Nodup)
    (hn : SearchTree.HasNode l p r T) :
    (link = ringNode p ∧ s.dadAt (ringNode p) = parent) ∨
    (link ≠ ringNode p ∧ ∃ x ∈ T.positions, x ≠ p ∧ x ∉ l.positions ∧ x ∉ r.positions ∧
      s.dadAt (ringNode p) = ringNode x ∧
      ((s.lsonAt (ringNode x) = ringNode p ∧ s.rsonAt (ringNode x) ≠ ringNode p) ∨
        (s.rsonAt (ringNode x) = ringNode p ∧ s.lsonAt (ringNode x) ≠ ringNode p))) := by
  induction T generalizing link parent with
  | nil => cases hn
  | node a x b iha ihb =>
    obtain ⟨rfl, hdad, ha, hb⟩ := h
    obtain ⟨hda, hdb, hxa, hxb, hab⟩ := SearchTree.nodup_node.mp hd
    rcases hn with ⟨rfl, rfl, rfl⟩ | hn | hn
    · exact .inl ⟨rfl, hdad⟩
    · have hpa : p ∈ a.positions := hn.mem (.inr (.inl rfl))
      have hxp : x ≠ p := fun e => hxa (e ▸ hpa)
      refine .inr ⟨fun e => hxp (ringNode_inj.mp e), ?_⟩
      rcases iha ha hda hn with ⟨hlink, hpar⟩ | ⟨-, y, hy, hrest⟩
      · exact ⟨x, SearchTree.mem_node.mpr (.inr (.inl rfl)), hxp, fun hm => hxa (hn.mem (.inl hm)),
          fun hm => hxa (hn.mem (.inr (.inr hm))), hpar, .inl ⟨hlink, hb.link_ne (hab p hpa)⟩⟩
      · exact ⟨y, SearchTree.mem_node.mpr (.inl hy), hrest⟩
    · have hpb : p ∈ b.positions := hn.mem (.inr (.inl rfl))
      have hxp : x ≠ p := fun e => hxb (e ▸ hpb)
      refine .inr ⟨fun e => hxp (ringNode_inj.mp e), ?_⟩
      rcases ihb hb hdb hn with ⟨hlink, hpar⟩ | ⟨-, y, hy, hrest⟩
      · exact ⟨x, SearchTree.mem_node.mpr (.inr (.inl rfl)), hxp, fun hm => hxb (hn.mem (.inl hm)),
          fun hm => hxb (hn.mem (.inr (.inr hm))), hpar, .inr ⟨hlink, ha.link_ne fun hm => hab p hm hpb⟩⟩
      · exact ⟨y, SearchTree.mem_node.mpr (.inr (.inr hy)), hrest⟩

/-- A tree hung below another parent: its links stay, and of the parents only its root's changes. -/
theorem ShowsTree.reparent {parent' : TreeIdx} (h : ShowsTree s link parent T) (hn : T.positions.Nodup)
    (hson : ∀ x ∈ T.positions, t.lsonAt (ringNode x) = s.lsonAt (ringNode x) ∧
      t.rsonAt (ringNode x) = s.rsonAt (ringNode x))
    (hdad : ∀ x ∈ T.positions, ringNode x ≠ link → t.dadAt (ringNode x) = s.dadAt (ringNode x))
    (hroot : link ≠ Config.nil → t.dadAt link = parent') : ShowsTree t link parent' T := by
  cases T with
  | nil => exact h
  | node l p r =>
    obtain ⟨rfl, -, hl, hr⟩ := h
    obtain ⟨-, -, hpl, hpr, -⟩ := SearchTree.nodup_node.mp hn
    obtain ⟨hlp, hrp⟩ := hson p (SearchTree.mem_node.mpr (.inr (.inl rfl)))
    have cells {x : Ring} (hm : x ∈ (SearchTree.node l p r).positions) (hxp : x ≠ p) :
        t.lsonAt (ringNode x) = s.lsonAt (ringNode x) ∧ t.rsonAt (ringNode x) = s.rsonAt (ringNode x) ∧
          t.dadAt (ringNode x) = s.dadAt (ringNode x) :=
      ⟨(hson x hm).1, (hson x hm).2, hdad x hm fun e => hxp (ringNode_inj.mp e)⟩
    refine ⟨rfl, hroot (ringNode_ne_nil p), ?_, ?_⟩
    · rw [hlp]
      exact hl.congr fun x hx => cells (SearchTree.mem_node.mpr (.inl hx)) fun e => hpl (e ▸ hx)
    · rw [hrp]
      exact hr.congr fun x hx => cells (SearchTree.mem_node.mpr (.inr (.inr hx))) fun e => hpr (e ▸ hx)

/-- Surgery on a shown tree: the node `p` gives way to what stands for both its subtrees, shown from `q`; outside them
only the link to `p` changes, to `q`. The state then shows the tree without `p`. -/
theorem ShowsTree.splice {l r : SearchTree} {p : Ring} {q : TreeIdx} (h : ShowsTree s link parent T)
    (hd : T.positions.Nodup) (hn : SearchTree.HasNode l p r T)
    (hjoin : ShowsTree t q (s.dadAt (ringNode p)) (l.join r))
    (hkeep : ∀ x ∈ T.positions, x ≠ p → x ∉ l.positions → x ∉ r.positions →
      t.dadAt (ringNode x) = s.dadAt (ringNode x) ∧
      t.lsonAt (ringNode x) = (if s.lsonAt (ringNode x) = ringNode p then q else s.lsonAt (ringNode x)) ∧
      t.rsonAt (ringNode x) = (if s.rsonAt (ringNode x) = ringNode p then q else s.rsonAt (ringNode x))) :
    ShowsTree t (if link = ringNode p then q else link) parent (T.delete p) := by
  induction T generalizing link parent with
  | nil => cases hn
  | node a x b iha ihb =>
    obtain ⟨rfl, hdad, ha, hb⟩ := h
    obtain ⟨hda, hdb, hxa, hxb, hab⟩ := SearchTree.nodup_node.mp hd
    have hxm : x ∈ (SearchTree.node a x b).positions := SearchTree.mem_node.mpr (.inr (.inl rfl))
    -- a subtree without `p` is shown as before
    have other {U : SearchTree} {k : TreeIdx} (hU : ShowsTree s k (ringNode x) U)
        (hsub : ∀ y ∈ U.positions, y ∈ (SearchTree.node a x b).positions ∧ y ∉ l.positions ∧ y ∉ r.positions)
        (hp : p ∉ U.positions) : ShowsTree t k (ringNode x) (U.delete p) := by
      rw [SearchTree.delete_of_not_mem hp]
      refine hU.congr fun y hy => ?_
      obtain ⟨hym, hyl, hyr⟩ := hsub y hy
      obtain ⟨hyd, hyls, hyrs⟩ := hkeep y hym (fun e => hp (e ▸ hy)) hyl hyr
      obtain ⟨hnl, hnr⟩ := hU.inner_link_ne hy hp
      rw [if_neg hnl] at hyls
      rw [if_neg hnr] at hyrs
      exact ⟨hyls, hyrs, hyd⟩
    rcases hn with ⟨rfl, rfl, rfl⟩ | hn | hn
    · rw [if_pos rfl, SearchTree.delete, if_pos rfl, ← hdad]
      exact hjoin
    · have hpa : p ∈ a.positions := hn.mem (.inr (.inl rfl))
      have hxp : x ≠ p := fun e => hxa (e ▸ hpa)
      obtain ⟨hxd, hxl, hxr⟩ := hkeep x hxm hxp (fun hm => hxa (hn.mem (.inl hm)))
        (fun hm => hxa (hn.mem (.inr (.inr hm))))
      rw [if_neg fun e => hxp (ringNode_inj.mp e), SearchTree.delete, if_neg hxp]
      rw [if_neg (hb.link_ne (hab p hpa))] at hxr
      refine ⟨rfl, hxd.trans hdad, ?_, ?_⟩
      · rw [hxl]
        exact iha ha hda hn fun y hy => hkeep y (SearchTree.mem_node.mpr (.inl hy))
      · rw [hxr]
        exact other hb (fun y hy => ⟨SearchTree.mem_node.mpr (.inr (.inr hy)),
          fun hm => hab y (hn.mem (.inl hm)) hy, fun hm => hab y (hn.mem (.inr (.inr hm))) hy⟩) (hab p hpa)
    · have hpb : p ∈ b.positions := hn.mem (.inr (.inl rfl))
      have hpa : p ∉ a.positions := fun hm => hab p hm hpb
      have hxp : x ≠ p := fun e => hxb (e ▸ hpb)
      obtain ⟨hxd, hxl, hxr⟩ := hkeep x hxm hxp (fun hm => hxb (hn.mem (.inl hm)))
        (fun hm => hxb (hn.mem (.inr (.inr hm))))
      rw [if_neg fun e => hxp (ringNode_inj.mp e), SearchTree.delete, if_neg hxp]
      rw [if_neg (ha.link_ne hpa)] at hxl
      refine ⟨rfl, hxd.trans hdad, ?_, ?_⟩
      · rw [hxl]
        exact other ha (fun y hy => ⟨SearchTree.mem_node.mpr (.inl hy),
          fun hm => hab y hy (hn.mem (.inl hm)), fun hm => hab y hy (hn.mem (.inr (.inr hm)))⟩) hpa
      · rw [hxr]
        exact ihb hb hdb hn fun y hy => hkeep y (SearchTree.mem_node.mpr (.inr (.inr hy)))

end ShowsTree

end Sys2Proof.Machine
end

section
/-! # `DeleteNode` deletes (R175) -/

namespace Sys2Proof.Machine

/-! ## The cells after each part of the operation -/

theorem State.lsonAt_relink (s : State) (p q x : TreeIdx) : (s.relink p q).lsonAt x =
    if x = s.dadAt p ∧ s.rsonAt (s.dadAt p) ≠ p then q else s.lsonAt x := by
  unfold State.relink
  split
  · next h => rw [State.lsonAt_setRson, if_neg fun hx => hx.2 h]
  · next h => simp only [State.lsonAt_setLson, ne_eq, h, not_false_iff, and_true]

theorem State.rsonAt_relink (s : State) (p q x : TreeIdx) : (s.relink p q).rsonAt x =
    if x = s.dadAt p ∧ s.rsonAt (s.dadAt p) = p then q else s.rsonAt x := by
  unfold State.relink
  split
  · next h => simp only [State.rsonAt_setRson, h, and_true]
  · next h => rw [State.rsonAt_setLson, if_neg fun hx => h hx.2]

@[simp] theorem State.dadAt_relink (s : State) (p q x : TreeIdx) : (s.relink p q).dadAt x = s.dadAt x := by
  unfold State.relink
  split <;> rfl

@[simp] theorem State.lsonAt_takeRight (s : State) (p q x : TreeIdx) : (s.takeRight p q).lsonAt x = s.lsonAt x := rfl

theorem State.rsonAt_takeRight (s : State) (p q x : TreeIdx) :
    (s.takeRight p q).rsonAt x = if x = q then s.rsonAt p else s.rsonAt x := by
  rw [State.takeRight, State.rsonAt_setDad, State.rsonAt_setRson]

theorem State.dadAt_takeRight (s : State) (p q x : TreeIdx) :
    (s.takeRight p q).dadAt x = if x = s.rsonAt p then q else s.dadAt x := by
  rw [State.takeRight, State.dadAt_setDad, State.dadAt_setRson]

/-- The three cells of each index after the predecessor `q` of `p` has been lifted out of the left subtree. -/
theorem State.liftPredecessor_cells (s : State) {p q : TreeIdx} (hpq : p ≠ q) (x : TreeIdx) :
    (s.liftPredecessor p q).lsonAt x = (if x = q then s.lsonAt p else s.lsonAt x) ∧
    (s.liftPredecessor p q).rsonAt x = (if x = s.dadAt q then s.lsonAt q else s.rsonAt x) ∧
    (s.liftPredecessor p q).dadAt x = (if x = s.lsonAt p then q else
      if x = s.lsonAt q ∧ s.lsonAt q ≠ Config.nil then s.dadAt q else s.dadAt x) := by
  unfold State.liftPredecessor
  simp only [State.lsonAt_setDad, State.rsonAt_setDad, State.dadAt_setDad, State.lsonAt_setLson, State.rsonAt_setLson,
    State.dadAt_setLson, State.lsonAt_setDadUnlessNil, State.rsonAt_setDadUnlessNil, State.dadAt_setDadUnlessNil,
    State.lsonAt_setRson, State.rsonAt_setRson, State.dadAt_setRson, if_neg hpq, and_self]

/-! ## The node that takes the place of the deleted one -/

/-- The walk to the rightmost node ends at the last position of the tree, if its root has a right child. -/
theorem ShowsTree.rightmost {s : State} {T : SearchTree} {link parent : TreeIdx} (h : ShowsTree s link parent T)
    {k : Nat} (hk : T.positions.length ≤ k) (hlink : link ≠ Config.nil) (hr : s.rsonAt link ≠ Config.nil) :
    ∃ T' q x, T.popLast = some (T', q) ∧ s.rightmost k link = some (ringNode q) ∧ x ∈ T.positions ∧
      s.dadAt (ringNode q) = ringNode x ∧ s.rsonAt (ringNode x) = ringNode q := by
  induction T generalizing link parent k with
  | nil => exact absurd h hlink
  | node a x b _ ihb =>
    obtain ⟨rfl, -, -, hb⟩ := h
    have hxm : x ∈ (SearchTree.node a x b).positions := SearchTree.mem_node.mpr (.inr (.inl rfl))
    have hlen : (SearchTree.node a x b).positions.length = a.positions.length + (b.positions.length + 1) := by
      simp [SearchTree.positions]
    obtain ⟨k, rfl⟩ : ∃ j, k = j + 1 := ⟨k - 1, by omega⟩
    unfold State.rightmost
    cases b with
    | nil => exact absurd hb hr
    | node c y d =>
      obtain ⟨hy, hyd⟩ := hb.link_node
      split
      · next hnil =>
        have hd : d = .nil := by
          obtain ⟨-, -, -, hd⟩ := hb
          exact hd.eq_nil_iff.mp hnil
        subst hd
        exact ⟨.node a x c, y, x, rfl, by rw [hy], hxm, hyd, hy⟩
      · next hne =>
        obtain ⟨T', q, z, hpop, hwalk, hz, hdad, hson⟩ := ihb hb (k := k) (by omega) hr hne
        exact ⟨.node a x T', q, z, by rw [SearchTree.popLast, hpop], hwalk,
          SearchTree.mem_node.mpr (.inr (.inr hz)), hdad, hson⟩

/-- The predecessor's place in the left subtree is taken by its own left subtree. -/
theorem ShowsTree.lift_left {s : State} {p : Ring} {l l' : SearchTree} {y x : Ring}
    (hl : ShowsTree s (s.lsonAt (ringNode p)) (ringNode p) l) (hd : l.positions.Nodup) (hpl : p ∉ l.positions)
    (hpop : l.popLast = some (l', y)) (hdad : s.dadAt (ringNode y) = ringNode x)
    (hson : s.rsonAt (ringNode x) = ringNode y) (hroot : s.lsonAt (ringNode p) ≠ ringNode y) :
    ShowsTree (s.liftPredecessor (ringNode p) (ringNode y)) (s.lsonAt (ringNode p)) (ringNode y) l' := by
  obtain ⟨rfl, ly, hn⟩ := SearchTree.popLast_delete hd hpop
  have hy : y ∈ l.positions := hn.mem (.inr (.inl rfl))
  have hpy : ringNode p ≠ ringNode y := (ringNode_ne_of_mem hy hpl).symm
  have cells := s.liftPredecessor_cells hpy
  obtain ⟨hly, -⟩ := hl.children hn
  have hndy := hd.sublist hn.sublist
  obtain ⟨hdly, -, hyly, -, -⟩ := SearchTree.nodup_node.mp hndy
  -- the same surgery, before the parent of the left subtree's root is set
  let u := (s.setRson (s.dadAt (ringNode y)) (s.lsonAt (ringNode y))).setDadUnlessNil (s.lsonAt (ringNode y))
    (s.dadAt (ringNode y))
  have hul (z : TreeIdx) : u.lsonAt z = s.lsonAt z := by simp [u]
  have hur (z : TreeIdx) : u.rsonAt z = if z = s.dadAt (ringNode y) then s.lsonAt (ringNode y) else s.rsonAt z := by
    simp [u, State.rsonAt_setRson]
  have hud (z : TreeIdx) : u.dadAt z =
      if z = s.lsonAt (ringNode y) ∧ s.lsonAt (ringNode y) ≠ Config.nil then s.dadAt (ringNode y) else s.dadAt z := by
    simp only [u, State.dadAt_setDadUnlessNil, State.dadAt_setRson]
  have hparent : l.positions.Nodup → x ≠ y ∧ x ∉ ly.positions ∧ s.lsonAt (ringNode x) ≠ ringNode y := by
    intro hd
    rcases hl.parent_cases hd hn with ⟨hlink, -⟩ | ⟨-, z, -, hzy, hzl, -, hzd, hz⟩
    · exact absurd hlink hroot
    · obtain rfl : x = z := ringNode_inj.mp (hdad.symm.trans hzd)
      rcases hz with ⟨-, hne⟩ | ⟨-, hne⟩
      · exact absurd hson hne
      · exact ⟨hzy, hzl, hne⟩
  obtain ⟨hxy, hxly, hxl⟩ := hparent hd
  have hu : ShowsTree u (s.lsonAt (ringNode p)) (ringNode p) (l.delete y) := by
    have := hl.splice (t := u) (q := s.lsonAt (ringNode y)) hd hn ?_ ?_
    · rwa [if_neg hroot] at this
    · rw [SearchTree.join_nil]
      refine hly.reparent hdly (fun z hz => ⟨hul _, ?_⟩) (fun z hz hne => ?_) (fun hne => ?_)
      · rw [hur, if_neg]
        rw [hdad]
        exact fun e => hxly (ringNode_inj.mp e ▸ hz)
      · rw [hud, if_neg fun e => hne e.1]
      · rw [hud, if_pos ⟨rfl, hne⟩]
    · intro z hz hzy hzl _
      refine ⟨?_, ?_, ?_⟩
      · rw [hud, if_neg fun e => hly.link_ne hzl e.1.symm]
      · rw [hul, if_neg]
        intro e
        have hzx : z = x := ringNode_inj.mp ((hl.dad_of_link hz (.inl e)).symm.trans hdad)
        exact hxl (hzx ▸ e)
      · have hiff : ringNode z = s.dadAt (ringNode y) ↔ s.rsonAt (ringNode z) = ringNode y := by
          constructor
          · intro e
            rw [e, hdad, hson]
          · exact fun e => (hl.dad_of_link hz (.inr e)).symm
        rw [hur]
        simp only [hiff]
  have hmem {z : Ring} (hz : z ∈ (l.delete y).positions) : z ∈ l.positions ∧ z ≠ y := (SearchTree.mem_delete hd).mp hz
  refine hu.reparent (SearchTree.nodup_delete hd) (fun z hz => ?_) (fun z hz hne => ?_) (fun _ => ?_)
  · obtain ⟨hzl, hzr, -⟩ := cells (ringNode z)
    rw [hzl, hzr, hul, hur, if_neg fun e => (hmem hz).2 (ringNode_inj.mp e)]
    exact ⟨rfl, rfl⟩
  · obtain ⟨-, -, hzd⟩ := cells (ringNode z)
    rw [hzd, if_neg hne, hud]
  · obtain ⟨-, -, hzd⟩ := cells (s.lsonAt (ringNode p))
    rw [hzd, if_pos rfl]

/-- The three cells of `x` are the same in both states. -/
def CellsKept (s t : State) (x : TreeIdx) : Prop :=
  t.lsonAt x = s.lsonAt x ∧ t.rsonAt x = s.rsonAt x ∧ t.dadAt x = s.dadAt x

theorem CellsKept.trans {s t u : State} {x : TreeIdx} (h : CellsKept s t x) (h' : CellsKept t u x) : CellsKept s u x :=
  ⟨h'.1.trans h.1, h'.2.1.trans h.2.1, h'.2.2.trans h.2.2⟩

/-- `y`, shown with its left subtree, is given the right subtree of `p`. -/
theorem ShowsTree.takeRight {s : State} {p y : Ring} {l r : SearchTree}
    (hl : ShowsTree s (s.lsonAt (ringNode y)) (ringNode y) l) (hr : ShowsTree s (s.rsonAt (ringNode p)) (ringNode p) r)
    (hd : (SearchTree.node l y r).positions.Nodup) (hne : r ≠ .nil) :
    ShowsTree (s.takeRight (ringNode p) (ringNode y)) (ringNode y) (s.dadAt (ringNode y)) (.node l y r) ∧
    ∀ x, x ≠ ringNode y → (∀ v ∈ r.positions, x ≠ ringNode v) →
      CellsKept s (s.takeRight (ringNode p) (ringNode y)) x := by
  obtain ⟨-, hdr, hyl, hyr, hlr⟩ := SearchTree.nodup_node.mp hd
  obtain ⟨w, hw, hRw⟩ := hr.link_cases.resolve_left fun e => hne (hr.eq_nil_iff.mp e)
  have outer {z : Ring} (hz : z ∉ r.positions) : ringNode z ≠ s.rsonAt (ringNode p) := fun e => hr.link_ne hz e.symm
  refine ⟨⟨rfl, ?_, ?_, ?_⟩, fun x hxy hxr => ⟨rfl, ?_, ?_⟩⟩
  · rw [State.dadAt_takeRight, if_neg (outer hyr)]
  · refine hl.congr fun z hz => ⟨rfl, ?_, ?_⟩
    · rw [State.rsonAt_takeRight, if_neg (ringNode_ne_of_mem hz hyl)]
    · rw [State.dadAt_takeRight, if_neg (outer (hlr z hz))]
  · rw [State.rsonAt_takeRight, if_pos rfl]
    refine hr.reparent hdr (fun z hz => ⟨rfl, ?_⟩) (fun z hz hne => ?_) (fun _ => ?_)
    · rw [State.rsonAt_takeRight, if_neg (ringNode_ne_of_mem hz hyr)]
    · rw [State.dadAt_takeRight, if_neg hne]
    · rw [State.dadAt_takeRight, if_pos rfl]
  · rw [State.rsonAt_takeRight, if_neg hxy]
  · rw [State.dadAt_takeRight, hRw, if_neg (hxr w hw)]

/-- Lifting the predecessor `y` out of the left subtree of `p` writes cells of that subtree only. -/
theorem ShowsTree.lift_kept {s : State} {p y x : Ring} {l ly : SearchTree}
    (hl : ShowsTree s (s.lsonAt (ringNode p)) (ringNode p) l) (hn : SearchTree.HasNode ly y .nil l) (hpy : ringNode p ≠ ringNode y)
    (hx : x ∈ l.positions) (hdad : s.dadAt (ringNode y) = ringNode x) (z : TreeIdx)
    (hz : ∀ v ∈ l.positions, z ≠ ringNode v) : CellsKept s (s.liftPredecessor (ringNode p) (ringNode y)) z := by
  have hy : y ∈ l.positions := hn.mem (.inr (.inl rfl))
  obtain ⟨hzl, hzr, hzd⟩ := s.liftPredecessor_cells hpy z
  obtain ⟨hly, -⟩ := hl.children hn
  have hlne : s.lsonAt (ringNode p) ≠ Config.nil := by
    intro e
    rw [hl.eq_nil_iff.mp e] at hy
    cases hy
  obtain ⟨v, hv, hLv⟩ := hl.link_cases.resolve_left hlne
  refine ⟨by rw [hzl, if_neg (hz y hy)], by rw [hzr, hdad, if_neg (hz x hx)], ?_⟩
  rw [hzd, hLv, if_neg (hz v hv), if_neg]
  rintro ⟨e, hne⟩
  obtain ⟨u, hu, hLu⟩ := hly.link_cases.resolve_left hne
  exact hz u (hn.mem (.inl hu)) (e.trans hLu)

/-- The case of two children: the predecessor of `p` takes its place, with both subtrees. -/
theorem State.deleteTwoChildren_spec {s : State} {p : Ring} {l r : SearchTree}
    (hl : ShowsTree s (s.lsonAt (ringNode p)) (ringNode p) l) (hr : ShowsTree s (s.rsonAt (ringNode p)) (ringNode p) r)
    (hd : (SearchTree.node l p r).positions.Nodup) (hln : s.lsonAt (ringNode p) ≠ Config.nil) (hrne : r ≠ .nil) :
    ∃ q t, s.deleteTwoChildren (ringNode p) = some (q, t) ∧ (∃ d, ShowsTree t q d (l.join r)) ∧
      ∀ x, (∀ y, y ∈ l.positions ∨ y ∈ r.positions → x ≠ ringNode y) → CellsKept s t x := by
  obtain ⟨hdl, hdr, hpl, hpr, hlr⟩ := SearchTree.nodup_node.mp hd
  by_cases hlr0 : s.rsonAt (s.lsonAt (ringNode p)) = Config.nil
  · -- the left child has no right child: it takes the place itself
    have hdel : s.deleteTwoChildren (ringNode p) =
        some (s.lsonAt (ringNode p), s.takeRight (ringNode p) (s.lsonAt (ringNode p))) := if_pos hlr0
    cases l with
    | nil => exact absurd hl hln
    | node a y b =>
      obtain ⟨hy, -, ha, hb⟩ := hl
      obtain rfl := hb.eq_nil_iff.mp hlr0
      rw [hy] at ha hdel
      obtain ⟨hda, -, hya, -, -⟩ := SearchTree.nodup_node.mp hdl
      have hym : y ∈ (SearchTree.node a y .nil).positions := SearchTree.mem_node.mpr (.inr (.inl rfl))
      have hdn : (SearchTree.node a y r).positions.Nodup :=
        SearchTree.nodup_node.mpr ⟨hda, hdr, hya, hlr y hym, fun z hz => hlr z (SearchTree.mem_node.mpr (.inl hz))⟩
      obtain ⟨hshow, hkept⟩ := ha.takeRight hr hdn hrne
      rw [← SearchTree.join_of_popLast (l := .node a y .nil) rfl hrne] at hshow
      exact ⟨_, _, hdel, ⟨_, hshow⟩, fun x hx => hkept x (hx y (.inl hym)) fun v hv => hx v (.inr hv)⟩
  · -- the predecessor is further down: it is lifted out and gets both subtrees
    obtain ⟨l', y, x, hpop, hwalk, hx, hdad, hson⟩ :=
      hl.rightmost (k := Config.W + 1) ((SearchTree.length_le hdl).trans (by decide)) hln hlr0
    have hdel : s.deleteTwoChildren (ringNode p) = some (ringNode y,
        (s.liftPredecessor (ringNode p) (ringNode y)).takeRight (ringNode p) (ringNode y)) := by
      rw [State.deleteTwoChildren, if_neg hlr0, hwalk]
    obtain ⟨hl', ly, hn⟩ := SearchTree.popLast_delete hdl hpop
    have hy : y ∈ l.positions := hn.mem (.inr (.inl rfl))
    have hpy : ringNode p ≠ ringNode y := (ringNode_ne_of_mem hy hpl).symm
    have hroot : s.lsonAt (ringNode p) ≠ ringNode y := by
      intro e
      rw [e] at hlr0
      obtain ⟨-, hnil⟩ := hl.children hn
      exact hlr0 hnil
    have hleft := hl.lift_left hdl hpl hpop hdad hson hroot
    have hkept := hl.lift_kept hn hpy hx hdad
    have hRp := (hkept (ringNode p) fun v hv => (ringNode_ne_of_mem hv hpl).symm).2.1
    obtain ⟨hson', -⟩ := s.liftPredecessor_cells hpy (ringNode y)
    rw [if_pos rfl] at hson'
    generalize s.liftPredecessor (ringNode p) (ringNode y) = u at *
    rw [← hson'] at hleft
    have hright : ShowsTree u (u.rsonAt (ringNode p)) (ringNode p) r := by
      rw [hRp]
      exact hr.congr fun z hz => hkept (ringNode z) fun v hv => ringNode_ne_of_mem hz (hlr v hv)
    have hmem {z : Ring} (hz : z ∈ l'.positions) : z ∈ l.positions ∧ z ≠ y := (SearchTree.mem_delete hdl).mp (hl' ▸ hz)
    have hdn : (SearchTree.node l' y r).positions.Nodup :=
      SearchTree.nodup_node.mpr ⟨hl' ▸ SearchTree.nodup_delete hdl, hdr, fun h => (hmem h).2 rfl, hlr y hy,
        fun z hz => hlr z (hmem hz).1⟩
    obtain ⟨hshow, hkept'⟩ := hleft.takeRight hright hdn hrne
    rw [← SearchTree.join_of_popLast hpop hrne] at hshow
    exact ⟨_, _, hdel, ⟨_, hshow⟩, fun z hz =>
      (hkept z fun v hv => hz v (.inl hv)).trans (hkept' z (hz y (.inl hy)) fun v hv => hz v (.inr hv))⟩

/-- What takes the place of `p`: a shown tree of the positions of both subtrees, in which only they have changed. -/
theorem State.successorOf_spec {s : State} {p : Ring} {l r : SearchTree}
    (hl : ShowsTree s (s.lsonAt (ringNode p)) (ringNode p) l) (hr : ShowsTree s (s.rsonAt (ringNode p)) (ringNode p) r)
    (hd : (SearchTree.node l p r).positions.Nodup) :
    ∃ q t, s.successorOf (ringNode p) = some (q, t) ∧ (∃ d, ShowsTree t q d (l.join r)) ∧
      ∀ x, (∀ y, y ∈ l.positions ∨ y ∈ r.positions → x ≠ ringNode y) → CellsKept s t x := by
  by_cases hrn : s.rsonAt (ringNode p) = Config.nil
  · rw [State.successorOf, if_pos hrn, hr.eq_nil_iff.mp hrn, SearchTree.join_nil]
    exact ⟨_, _, rfl, ⟨_, hl⟩, fun _ _ => ⟨rfl, rfl, rfl⟩⟩
  · by_cases hln : s.lsonAt (ringNode p) = Config.nil
    · rw [State.successorOf, if_neg hrn, if_pos hln, hl.eq_nil_iff.mp hln, SearchTree.nil_join]
      exact ⟨_, _, rfl, ⟨_, hr⟩, fun _ _ => ⟨rfl, rfl, rfl⟩⟩
    · rw [State.successorOf, if_neg hrn, if_neg hln]
      exact State.deleteTwoChildren_spec hl hr hd hln fun e => hrn (hr.eq_nil_iff.mpr e)

/-! ## The whole operation -/

/-- `DeleteNode(p)` on the tree that holds `p` (R175). -/
theorem HoldsTree.deleteNode {s : State} {c : Byte} {p : Ring} {T : SearchTree} (h : HoldsTree s c T)
    (hd : T.positions.Nodup) (hp : p ∈ T.positions) :
    ∃ t, s.deleteNode p = some t ∧ HoldsTree t c (T.delete p) ∧ t.dadAt (ringNode p) = Config.nil ∧
      OtherCellsKept c T.positions s t := by
  obtain ⟨l, r, hn⟩ := SearchTree.hasNode_of_mem hp
  obtain ⟨hl, hr⟩ := ShowsTree.children h hn
  have hdn := hd.sublist hn.sublist
  obtain ⟨hdl, hdr, hpl, hpr, hlr⟩ := SearchTree.nodup_node.mp hdn
  obtain ⟨q, s1, hsucc, ⟨d, hjoin⟩, hkept⟩ := State.successorOf_spec hl hr hdn
  have hjm {x : Ring} : x ∈ (l.join r).positions ↔ x ∈ l.positions ∨ x ∈ r.positions := by
    rw [SearchTree.join_positions, List.mem_append]
  have hjd : (l.join r).positions.Nodup := by
    rw [SearchTree.join_positions, List.nodup_append]
    exact ⟨hdl, hdr, fun x hx y hy e => hlr x hx (e ▸ hy)⟩
  -- the one link that points at `p`
  have hparent := ShowsTree.parent_cases h hd hn
  have hkeptRing {x : Ring} (hxl : x ∉ l.positions) (hxr : x ∉ r.positions) :=
    hkept (ringNode x) fun y hy e => hy.elim (fun hm => hxl (ringNode_inj.mp e ▸ hm)) fun hm =>
      hxr (ringNode_inj.mp e ▸ hm)
  have hkeptRoot (b : Byte) := hkept (rootSlot b) fun y _ e => ringNode_ne_rootSlot y b e.symm
  have hD : s.dadAt (ringNode p) ≠ Config.nil ∧ s.dadAt (ringNode p) ≠ ringNode p ∧
      (∀ x, x ∈ (l.join r).positions → ringNode x ≠ s.dadAt (ringNode p)) ∧
      s1.rsonAt (s.dadAt (ringNode p)) = s.rsonAt (s.dadAt (ringNode p)) := by
    rcases hparent with ⟨-, hdad⟩ | ⟨-, x, -, hxp, hxl, hxr, hdad, -⟩ <;> rw [hdad]
    · exact ⟨rootSlot_ne_nil c, (ringNode_ne_rootSlot p c).symm, fun x _ => ringNode_ne_rootSlot x c,
        (hkeptRoot c).2.1⟩
    · refine ⟨ringNode_ne_nil x, fun e => hxp (ringNode_inj.mp e), fun y hy e => ?_, (hkeptRing hxl hxr).2.1⟩
      obtain rfl := ringNode_inj.mp e
      exact (hjm.mp hy).elim hxl hxr
  obtain ⟨hDnil, hDp, hDout, hDson⟩ := hD
  have hpd : s1.dadAt (ringNode p) = s.dadAt (ringNode p) := (hkeptRing hpl hpr).2.2
  have hpj : p ∉ (l.join r).positions := fun hm => (hjm.mp hm).elim hpl hpr
  have hqp : ringNode p ≠ q := fun e => hjoin.link_ne hpj e.symm
  generalize hDdef : s.dadAt (ringNode p) = D at *
  let t := ((s1.setDadUnlessNil q (s1.dadAt (ringNode p))).relink (ringNode p) q).setDad (ringNode p) Config.nil
  have ht : s.deleteNode p = some t := by
    unfold State.deleteNode
    rw [if_neg (hDdef ▸ hDnil), hsucc]
  have hdad2 : (s1.setDadUnlessNil q (s1.dadAt (ringNode p))).dadAt (ringNode p) = D := by
    rw [State.dadAt_setDadUnlessNil, if_neg fun e => hqp e.1, hpd]
  have htl (x : TreeIdx) : t.lsonAt x = if x = D ∧ s.rsonAt D ≠ ringNode p then q else s1.lsonAt x := by
    simp only [t, State.lsonAt_setDad, State.lsonAt_relink, hdad2, State.rsonAt_setDadUnlessNil,
      State.lsonAt_setDadUnlessNil, hDson]
  have htr (x : TreeIdx) : t.rsonAt x = if x = D ∧ s.rsonAt D = ringNode p then q else s1.rsonAt x := by
    simp only [t, State.rsonAt_setDad, State.rsonAt_relink, hdad2, State.rsonAt_setDadUnlessNil, hDson]
  have htd (x : TreeIdx) : t.dadAt x =
      if x = ringNode p then Config.nil else if x = q ∧ q ≠ Config.nil then D else s1.dadAt x := by
    simp only [t, State.dadAt_setDad, State.dadAt_relink, State.dadAt_setDadUnlessNil, hpd]
  have hqout {x : TreeIdx} (hx : ∀ y, y ∈ l.positions ∨ y ∈ r.positions → x ≠ ringNode y) :
      ¬ (x = q ∧ q ≠ Config.nil) := by
    rintro ⟨e, hq⟩
    obtain ⟨y, hy, hqy⟩ := hjoin.link_cases.resolve_left hq
    exact hx y (hjm.mp hy) (e.trans hqy)
  have htjoin : ShowsTree t q D (l.join r) := by
    refine hjoin.reparent hjd (fun x hx => ⟨?_, ?_⟩) (fun x hx hne => ?_) (fun hq => ?_)
    · rw [htl, if_neg fun e => hDout x hx e.1]
    · rw [htr, if_neg fun e => hDout x hx e.1]
    · rw [htd, if_neg (ringNode_ne_of_mem hx hpj), if_neg fun e => hne e.1]
    · rw [htd, if_neg fun e => hqp e.symm, if_pos ⟨rfl, hq⟩]
  have hsplice : ShowsTree t (if s.rsonAt (rootSlot c) = ringNode p then q else s.rsonAt (rootSlot c)) (rootSlot c)
      (T.delete p) := by
    refine ShowsTree.splice h hd hn (hDdef ▸ htjoin) fun x hx hxp hxl hxr => ?_
    obtain ⟨hkl, hkr, hkd⟩ := hkeptRing hxl hxr
    have hback (hlink : s.lsonAt (ringNode x) = ringNode p ∨ s.rsonAt (ringNode x) = ringNode p) : D = ringNode x :=
      hDdef.symm.trans (ShowsTree.dad_of_link h hx hlink)
    have hleft : (ringNode x = D ∧ s.rsonAt D ≠ ringNode p) ↔ s.lsonAt (ringNode x) = ringNode p := by
      rcases hparent with ⟨-, hroot⟩ | ⟨-, y, -, -, -, -, hy, hside⟩
      · constructor
        · rintro ⟨e, -⟩
          exact absurd (e.trans hroot) (ringNode_ne_rootSlot x c)
        · exact fun e => absurd ((hback (.inl e)).symm.trans hroot) (ringNode_ne_rootSlot x c)
      · rw [hy]
        constructor
        · rintro ⟨e, hne⟩
          obtain rfl := ringNode_inj.mp e
          exact hside.elim (fun hs => hs.1) fun hs => absurd hs.1 hne
        · intro e
          obtain rfl := ringNode_inj.mp ((hback (.inl e)).symm.trans hy)
          exact ⟨rfl, hside.elim (fun hs => hs.2) fun hs => absurd e hs.2⟩
    have hright : (ringNode x = D ∧ s.rsonAt D = ringNode p) ↔ s.rsonAt (ringNode x) = ringNode p :=
      ⟨fun e => e.1 ▸ e.2, fun e => ⟨(hback (.inr e)).symm, hback (.inr e) ▸ e⟩⟩
    refine ⟨?_, ?_, ?_⟩
    · rw [htd, if_neg fun e => hxp (ringNode_inj.mp e), if_neg, hkd]
      exact hqout fun y hy e => hy.elim (fun hm => hxl (ringNode_inj.mp e ▸ hm)) fun hm =>
        hxr (ringNode_inj.mp e ▸ hm)
    · rw [htl, hkl]
      simp only [hleft]
    · rw [htr, hkr]
      simp only [hright]
  refine ⟨t, ht, ?_, ?_, fun x hx => ⟨?_, ?_, fun hxr => ?_⟩⟩
  · have hrootLink : (rootSlot c = D ∧ s.rsonAt D = ringNode p) ↔ s.rsonAt (rootSlot c) = ringNode p := by
      refine ⟨fun e => e.1 ▸ e.2, fun e => ?_⟩
      rcases hparent with ⟨-, hroot⟩ | ⟨hne, -⟩
      · exact ⟨hroot.symm, hroot ▸ e⟩
      · exact absurd e hne
    have hroot : t.rsonAt (rootSlot c) =
        if s.rsonAt (rootSlot c) = ringNode p then q else s.rsonAt (rootSlot c) := by
      rw [htr, (hkeptRoot c).2.1]
      simp only [hrootLink]
    rw [HoldsTree, hroot]
    exact hsplice
  · rw [htd, if_pos rfl]
  all_goals
    have hxn : ∀ y, y ∈ l.positions ∨ y ∈ r.positions → x ≠ ringNode y := fun y hy =>
      hx y (hn.mem (hy.elim .inl fun hm => .inr (.inr hm)))
    obtain ⟨hkl, hkr, hkd⟩ := hkept x hxn
  · rw [htl, if_neg, hkl]
    rintro ⟨e, hne⟩
    rcases hparent with ⟨hlink, hroot⟩ | ⟨-, y, hy, -, -, -, hyd, -⟩
    · exact hne (hroot ▸ hlink)
    · exact hx y hy (e.trans hyd)
  · rw [htd, if_neg (hx p hp), if_neg (hqout hxn), hkd]
  · rw [htr, if_neg, hkr]
    rintro ⟨e, -⟩
    rcases hparent with ⟨-, hroot⟩ | ⟨-, y, hy, -, -, -, hyd, -⟩
    · exact hxr (e.trans hroot)
    · exact hx y hy (e.trans hyd)

/-- `DeleteNode(p)` on a position in no tree (R175). -/
theorem State.deleteNode_absent {s : State} {p : Ring} (h : s.dadAt (ringNode p) = Config.nil) :
    s.deleteNode p = some s := if_pos h

end Sys2Proof.Machine
end

section
/-! # `InsertNode` inserts and searches (R174, R185) -/

namespace Sys2Proof.Machine

/-! ## The comparison of keys -/

/-- `k` bytes of the ring from byte `i` of the key of `p` on. -/
def keyFrom (s : State) (p : Ring) (i k : Nat) : List Byte :=
  (List.range' i k).map fun j => s.winAt (p + BitVec.ofNat 12 j)

theorem keyFrom_succ (s : State) (p : Ring) (i k : Nat) :
    keyFrom s p i (k + 1) = s.winAt (p + BitVec.ofNat 12 i) :: keyFrom s p (i + 1) k := by
  rw [keyFrom, List.range'_succ, List.map_cons]
  rfl

theorem keyAt_eq (s : State) (p : Ring) : keyAt s p = s.winAt p :: keyFrom s p 1 17 := by
  have h0 : p + BitVec.ofNat 12 0 = p := BitVec.add_zero p
  have h := keyFrom_succ s p 0 17
  rw [h0] at h
  rw [← h, keyFrom, keyAt, List.range_eq_range']

theorem commonLength_cons_self (a : Byte) (A B : List Byte) : commonLength (a :: A) (a :: B) = commonLength A B + 1 := by
  rw [commonLength, if_pos rfl]

theorem keyBefore_cons_self (a : Byte) (A B : List Byte) : keyBefore (a :: A) (a :: B) = keyBefore A B := by
  simp [keyBefore]

/-- The inner loop of `InsertNode` counts the bytes on which the keys agree, and its difference orders them. -/
theorem State.compareKeys_spec (s : State) (r p : Ring) (k i : Nat) :
    (s.compareKeys r p k i).1 = i + commonLength (keyFrom s r i k) (keyFrom s p i k) ∧
    (keyFrom s r i k = keyFrom s p i k → commonLength (keyFrom s r i k) (keyFrom s p i k) = k) ∧
    (keyFrom s r i k ≠ keyFrom s p i k → commonLength (keyFrom s r i k) (keyFrom s p i k) < k ∧
      (0 ≤ (s.compareKeys r p k i).2 ↔ keyBefore (keyFrom s r i k) (keyFrom s p i k) = false)) := by
  induction k generalizing i with
  | zero => exact ⟨rfl, fun _ => rfl, fun h => absurd rfl h⟩
  | succ k ih =>
    obtain ⟨hlen, heq, hne⟩ := ih (i + 1)
    rw [keyFrom_succ, keyFrom_succ]
    unfold State.compareKeys
    split
    · next hb =>
      rw [hb, commonLength_cons_self, keyBefore_cons_self]
      refine ⟨hlen.trans (by omega), fun h => ?_, fun h => ?_⟩
      · rw [heq (List.cons.inj h).2]
      · obtain ⟨hlt, hcmp⟩ := hne fun e => h (by rw [e])
        exact ⟨by omega, hcmp⟩
    · next hb =>
      have h0 (A B : List Byte) : commonLength (s.winAt (r + BitVec.ofNat 12 i) :: A)
          (s.winAt (p + BitVec.ofNat 12 i) :: B) = 0 := by rw [commonLength, if_neg hb]
      rw [h0]
      refine ⟨rfl, fun h => absurd (List.cons.inj h).1 hb, fun _ => ⟨Nat.succ_pos k, ?_⟩⟩
      simp only [keyBefore, hb, decide_false, Bool.false_and, Bool.or_false, decide_eq_false_iff_not, BitVec.lt_def]
      omega

/-- The comparison of two keys with the same first byte, which the tree stands for. -/
theorem State.compareKeys_keyAt {s : State} {r p : Ring} (h : s.winAt p = s.winAt r) :
    (s.compareKeys r p 17 1).1 = commonLength (keyAt s r) (keyAt s p) ∧
    (keyAt s r = keyAt s p → (s.compareKeys r p 17 1).1 = 18) ∧
    (keyAt s r ≠ keyAt s p → (s.compareKeys r p 17 1).1 < 18 ∧
      (0 ≤ (s.compareKeys r p 17 1).2 ↔ keyBefore (keyAt s r) (keyAt s p) = false)) := by
  obtain ⟨hlen, heq, hne⟩ := s.compareKeys_spec r p 17 1
  rw [keyAt_eq, keyAt_eq, h, commonLength_cons_self, keyBefore_cons_self]
  refine ⟨hlen.trans (Nat.add_comm _ _), fun e => ?_, fun e => ?_⟩
  · rw [hlen, heq (List.cons.inj e).2]
  · obtain ⟨hlt, hcmp⟩ := hne fun e' => e (by rw [e'])
    exact ⟨by omega, hcmp⟩

/-! ## The best match -/

/-- The match registers as `SearchTree.search` has them. -/
def State.best (s : State) : Nat × Ring := (s.matchLen.toNat, s.matchPos)

theorem State.best_noteMatch (s : State) (p : Ring) {i : Nat} (hi : i ≤ 18) :
    (s.noteMatch p i).best = if s.best.1 < i then (i, p) else s.best := by
  unfold State.noteMatch State.best
  split
  · simp only [BitVec.toNat_ofNat]
    rw [Nat.mod_eq_of_lt (by omega)]
  · rfl

section noteMatch

variable (s : State) (p : Ring) (i : Nat)

@[simp] theorem State.lsonAt_noteMatch (x : TreeIdx) : (s.noteMatch p i).lsonAt x = s.lsonAt x := by
  unfold State.noteMatch
  split <;> rfl

@[simp] theorem State.rsonAt_noteMatch (x : TreeIdx) : (s.noteMatch p i).rsonAt x = s.rsonAt x := by
  unfold State.noteMatch
  split <;> rfl

@[simp] theorem State.dadAt_noteMatch (x : TreeIdx) : (s.noteMatch p i).dadAt x = s.dadAt x := by
  unfold State.noteMatch
  split <;> rfl

@[simp] theorem State.winAt_noteMatch (x : Ring) : (s.noteMatch p i).winAt x = s.winAt x := by
  unfold State.noteMatch
  split <;> rfl

@[simp] theorem keyAt_noteMatch : keyAt (s.noteMatch p i) = keyAt s := by
  unfold State.noteMatch
  split <;> rfl

end noteMatch

/-- States that agree on the cells show the same trees. -/
theorem ShowsTree.of_cells {s t : State} {T : SearchTree} {link parent : TreeIdx} (h : ShowsTree s link parent T)
    (hc : ∀ x, CellsKept s t x) : ShowsTree t link parent T := h.congr fun p _ => hc (ringNode p)

/-! ## The descent -/

/-- The descent stands at `p`, and goes on into the tree `T` on the side of the last comparison; `r` is a leaf in no
tree. -/
structure WalkAbove (s : State) (r : Ring) (cmp : Int) (p : TreeIdx) (T : SearchTree) : Prop where
  shows : ShowsTree s (s.childAt cmp p) p T
  nodup : T.positions.Nodup
  fresh : r ∉ T.positions
  above_ne : p ≠ ringNode r
  above_out : ∀ q ∈ T.positions, p ≠ ringNode q
  side : cmp < 0 → ∀ q ∈ T.positions, s.rsonAt p ≠ ringNode q
  byte : ∀ q ∈ T.positions, s.winAt q = s.winAt r
  leaf : s.lsonAt (ringNode r) = Config.nil ∧ s.rsonAt (ringNode r) = Config.nil

/-- The descent has put `r` into the tree below `p` and written no other cell than the link it took, those of `r` and
those of the tree; a node no longer in the tree has no parent. -/
structure Inserted (s : State) (r : Ring) (cmp : Int) (p : TreeIdx) (T T' : SearchTree) (t : State) : Prop where
  shows : ShowsTree t (t.childAt cmp p) p T'
  unlinked : ∀ q ∈ T.positions, q ∉ T'.positions → t.dadAt (ringNode q) = Config.nil
  lson : ∀ x, x ≠ ringNode r → (∀ q ∈ T.positions, x ≠ ringNode q) → ¬ (x = p ∧ cmp < 0) → t.lsonAt x = s.lsonAt x
  rson : ∀ x, x ≠ ringNode r → (∀ q ∈ T.positions, x ≠ ringNode q) → ¬ (x = p ∧ 0 ≤ cmp) → t.rsonAt x = s.rsonAt x
  dad : ∀ x, x ≠ ringNode r → (∀ q ∈ T.positions, x ≠ ringNode q) → t.dadAt x = s.dadAt x

theorem State.childAt_of_neg (s : State) {cmp : Int} (h : cmp < 0) (p : TreeIdx) : s.childAt cmp p = s.lsonAt p :=
  if_neg (by omega)

theorem State.childAt_of_nonneg (s : State) {cmp : Int} (h : 0 ≤ cmp) (p : TreeIdx) : s.childAt cmp p = s.rsonAt p :=
  if_pos h

/-- At an empty place `r` becomes a leaf. -/
theorem WalkAbove.attach {s : State} {r : Ring} {cmp : Int} {p : TreeIdx} (h : WalkAbove s r cmp p .nil) :
    Inserted s r cmp p .nil (.node .nil r .nil) (s.attach cmp p (ringNode r)) := by
  obtain ⟨hl, hr⟩ := h.leaf
  have hne := h.above_ne
  have hdad (x : TreeIdx) : (s.attach cmp p (ringNode r)).dadAt x = if x = ringNode r then p else s.dadAt x := by
    unfold State.attach
    rw [State.dadAt_setDad]
    split
    · rfl
    · split <;> rfl
  by_cases hc : 0 ≤ cmp
  · have hson (x : TreeIdx) : (s.attach cmp p (ringNode r)).lsonAt x = s.lsonAt x ∧
        (s.attach cmp p (ringNode r)).rsonAt x = if x = p then ringNode r else s.rsonAt x := by
      rw [State.attach, if_pos hc, State.lsonAt_setDad, State.rsonAt_setDad, State.rsonAt_setRson]
      exact ⟨rfl, rfl⟩
    refine ⟨?_, nofun, fun x _ _ _ => (hson x).1, fun x _ _ hx => ?_, fun x hx _ => ?_⟩
    · rw [State.childAt_of_nonneg _ hc, (hson p).2, if_pos rfl]
      refine ⟨rfl, ?_, ?_, ?_⟩
      · rw [hdad, if_pos rfl]
      · exact (hson _).1.trans hl
      · rw [ShowsTree, (hson _).2, if_neg (Ne.symm hne), hr]
    · rw [(hson x).2, if_neg fun e => hx ⟨e, hc⟩]
    · rw [hdad, if_neg hx]
  · have hson (x : TreeIdx) : (s.attach cmp p (ringNode r)).rsonAt x = s.rsonAt x ∧
        (s.attach cmp p (ringNode r)).lsonAt x = if x = p then ringNode r else s.lsonAt x := by
      rw [State.attach, if_neg hc, State.rsonAt_setDad, State.lsonAt_setDad, State.lsonAt_setLson]
      exact ⟨rfl, rfl⟩
    have hc' : cmp < 0 := by omega
    refine ⟨?_, nofun, fun x _ _ hx => ?_, fun x _ _ _ => (hson x).1, fun x hx _ => ?_⟩
    · rw [State.childAt_of_neg _ hc', (hson p).2, if_pos rfl]
      refine ⟨rfl, ?_, ?_, ?_⟩
      · rw [hdad, if_pos rfl]
      · rw [ShowsTree, (hson _).2, if_neg (Ne.symm hne), hl]
      · exact (hson _).1.trans hr
    · rw [(hson x).2, if_neg fun e => hx ⟨e, hc'⟩]
    · rw [hdad, if_neg hx]

/-- The cells after `r` has taken the place of `q`, whose parent is neither. -/
theorem State.replaceNode_cells {s : State} {q r : TreeIdx} (hqr : q ≠ r) (hdr : s.dadAt q ≠ r)
    (hl : q ≠ s.lsonAt q) (hr : q ≠ s.rsonAt q) (x : TreeIdx) :
    (s.replaceNode q r).lsonAt x = (if x = s.dadAt q ∧ s.rsonAt (s.dadAt q) ≠ q then r else
      if x = r then s.lsonAt q else s.lsonAt x) ∧
    (s.replaceNode q r).rsonAt x = (if x = s.dadAt q ∧ s.rsonAt (s.dadAt q) = q then r else
      if x = r then s.rsonAt q else s.rsonAt x) ∧
    (s.replaceNode q r).dadAt x = (if x = q then Config.nil else
      if x = s.rsonAt q ∧ s.rsonAt q ≠ Config.nil then r else
      if x = s.lsonAt q ∧ s.lsonAt q ≠ Config.nil then r else
      if x = r then s.dadAt q else s.dadAt x) := by
  have hlq : ¬ (q = s.lsonAt q ∧ s.lsonAt q ≠ Config.nil) := fun e => hl e.1
  have hrq : ¬ (q = s.rsonAt q ∧ s.rsonAt q ≠ Config.nil) := fun e => hr e.1
  unfold State.replaceNode
  simp only [State.lsonAt_setDad, State.rsonAt_setDad, State.dadAt_setDad, State.lsonAt_relink, State.rsonAt_relink,
    State.dadAt_relink, State.lsonAt_setDadUnlessNil, State.rsonAt_setDadUnlessNil, State.dadAt_setDadUnlessNil,
    State.lsonAt_setRson, State.rsonAt_setRson, State.dadAt_setRson, State.lsonAt_setLson, State.rsonAt_setLson,
    State.dadAt_setLson, if_neg hlq, if_neg hrq, if_neg hqr, if_neg hdr, and_self]

/-- A node with the same key gives its place to `r`. -/
theorem WalkAbove.replace {s : State} {r q : Ring} {cmp : Int} {p : TreeIdx} {a b : SearchTree}
    (h : WalkAbove s r cmp p (.node a q b)) :
    Inserted s r cmp p (.node a q b) (.node a r b) (s.replaceNode (ringNode q) (ringNode r)) := by
  obtain ⟨hlink, hdad, ha, hb⟩ := h.shows
  rw [hlink] at hdad ha hb
  obtain ⟨hda, hdb, hqa, hqb, hab⟩ := SearchTree.nodup_node.mp h.nodup
  have hqm : q ∈ (SearchTree.node a q b).positions := SearchTree.mem_node.mpr (.inr (.inl rfl))
  have hfresh := h.fresh
  simp only [SearchTree.mem_node, not_or] at hfresh
  obtain ⟨hra, hrq, hrb⟩ := hfresh
  have hqr : ringNode q ≠ ringNode r := fun e => hrq (ringNode_inj.mp e).symm
  have cells := State.replaceNode_cells (s := s) hqr (hdad ▸ h.above_ne) (ha.link_ne hqa).symm (hb.link_ne hqb).symm
  rw [hdad] at cells
  have hside : s.rsonAt p = ringNode q ↔ 0 ≤ cmp := by
    constructor
    · intro e
      by_contra hc
      exact h.side (by omega) q hqm e
    · intro hc
      rw [← State.childAt_of_nonneg s hc, hlink]
  simp only [ne_eq, hside, Int.not_le] at cells
  generalize s.replaceNode (ringNode q) (ringNode r) = t at *
  have hroot : t.childAt cmp p = ringNode r := by
    by_cases hc : 0 ≤ cmp
    · rw [State.childAt_of_nonneg t hc, (cells p).2.1, if_pos ⟨rfl, hc⟩]
    · have hc' : cmp < 0 := by omega
      rw [State.childAt_of_neg t hc', (cells p).1, if_pos ⟨rfl, hc'⟩]
  -- inside both subtrees the links stay
  have sons {x : Ring} (hx : x ∈ a.positions ∨ x ∈ b.positions) :
      t.lsonAt (ringNode x) = s.lsonAt (ringNode x) ∧ t.rsonAt (ringNode x) = s.rsonAt (ringNode x) := by
    have hxp : ringNode x ≠ p := (h.above_out x (SearchTree.mem_node.mpr (hx.elim .inl fun e => .inr (.inr e)))).symm
    have hxr : ringNode x ≠ ringNode r := hx.elim (fun e => ringNode_ne_of_mem e hra) fun e => ringNode_ne_of_mem e hrb
    obtain ⟨hl, hr, -⟩ := cells (ringNode x)
    exact ⟨by rw [hl, if_neg fun e => hxp e.1, if_neg hxr], by rw [hr, if_neg fun e => hxp e.1, if_neg hxr]⟩
  have hpr := h.above_ne
  refine ⟨?_, fun x hx hx' => ?_, fun x hxr hx hxp => ?_, fun x hxr hx hxp => ?_, fun x hxr hx => ?_⟩
  · rw [hroot]
    obtain ⟨hl, hr, hd⟩ := cells (ringNode r)
    refine ⟨rfl, ?_, ?_, ?_⟩
    · rw [hd, if_neg (Ne.symm hqr), if_neg fun e => hb.link_ne hrb e.1.symm, if_neg fun e => ha.link_ne hra e.1.symm,
        if_pos rfl]
    · rw [hl, if_neg fun e => hpr e.1.symm, if_pos rfl]
      refine ha.reparent hda (fun x hx => sons (.inl hx)) (fun x hx hne => ?_) (fun hn => ?_)
      · rw [(cells (ringNode x)).2.2, if_neg (ringNode_ne_of_mem hx hqa), if_neg fun e => hb.link_ne (hab x hx) e.1.symm,
          if_neg fun e => hne e.1, if_neg (ringNode_ne_of_mem hx hra)]
      · rw [(cells (s.lsonAt (ringNode q))).2.2, if_neg (ha.link_ne hqa)]
        split
        · rfl
        · rw [if_pos ⟨rfl, hn⟩]
    · rw [hr, if_neg fun e => hpr e.1.symm, if_pos rfl]
      refine hb.reparent hdb (fun x hx => sons (.inr hx)) (fun x hx hne => ?_) (fun hn => ?_)
      · rw [(cells (ringNode x)).2.2, if_neg (ringNode_ne_of_mem hx hqb), if_neg fun e => hne e.1,
          if_neg fun e => ha.link_ne (fun hm => hab x hm hx) e.1.symm, if_neg (ringNode_ne_of_mem hx hrb)]
      · rw [(cells (s.rsonAt (ringNode q))).2.2, if_neg (hb.link_ne hqb), if_pos ⟨rfl, hn⟩]
  · obtain rfl : x = q := by
      simp only [SearchTree.mem_node, not_or] at hx hx'
      exact (hx.resolve_left hx'.1).resolve_right hx'.2.2
    rw [(cells (ringNode x)).2.2, if_pos rfl]
  · rw [(cells x).1, if_neg hxp, if_neg hxr]
  · rw [(cells x).2.1, if_neg hxp, if_neg hxr]
  · have out {U : SearchTree} {k : TreeIdx} (hU : ShowsTree s k (ringNode q) U)
        (hsub : ∀ y ∈ U.positions, y ∈ (SearchTree.node a q b).positions) : ¬ (x = k ∧ k ≠ Config.nil) := by
      rintro ⟨e, hn⟩
      obtain ⟨y, hy, hk⟩ := hU.link_cases.resolve_left hn
      exact hx y (hsub y hy) (e.trans hk)
    rw [(cells x).2.2, if_neg (hx q hqm), if_neg (out hb fun y hy => SearchTree.mem_node.mpr (.inr (.inr hy))),
      if_neg (out ha fun y hy => SearchTree.mem_node.mpr (.inl hy)), if_neg hxr]

/-- One step down: from the node `q` into the subtree on the side of the comparison with it. -/
theorem WalkAbove.down {s s' : State} {r q : Ring} {cmp cmp' : Int} {p : TreeIdx} {a b : SearchTree}
    (h : WalkAbove s r cmp p (.node a q b)) (hc : ∀ x, CellsKept s s' x) (hw : ∀ x, s'.winAt x = s.winAt x) :
    WalkAbove s' r cmp' (ringNode q) (if 0 ≤ cmp' then b else a) := by
  obtain ⟨hlink, -, ha, hb⟩ := h.shows
  rw [hlink] at ha hb
  obtain ⟨hda, hdb, hqa, hqb, hab⟩ := SearchTree.nodup_node.mp h.nodup
  have hfresh := h.fresh
  simp only [SearchTree.mem_node, not_or] at hfresh
  obtain ⟨hra, hrq, hrb⟩ := hfresh
  have hqr : ringNode q ≠ ringNode r := fun e => hrq (ringNode_inj.mp e).symm
  have hleaf : s'.lsonAt (ringNode r) = Config.nil ∧ s'.rsonAt (ringNode r) = Config.nil := by
    rw [(hc _).1, (hc _).2.1]
    exact h.leaf
  have byte {x : Ring} (hx : x ∈ (SearchTree.node a q b).positions) : s'.winAt x = s'.winAt r := by
    rw [hw, hw]
    exact h.byte x hx
  by_cases h0 : 0 ≤ cmp'
  · rw [if_pos h0]
    refine ⟨?_, hdb, hrb, hqr, fun x hx => (ringNode_ne_of_mem hx hqb).symm, fun hn => absurd h0 (by omega),
      fun x hx => byte (SearchTree.mem_node.mpr (.inr (.inr hx))), hleaf⟩
    rw [State.childAt_of_nonneg s' h0, (hc _).2.1]
    exact hb.of_cells hc
  · rw [if_neg h0]
    refine ⟨?_, hda, hra, hqr, fun x hx => (ringNode_ne_of_mem hx hqa).symm, fun _ x hx => ?_,
      fun x hx => byte (SearchTree.mem_node.mpr (.inl hx)), hleaf⟩
    · rw [State.childAt_of_neg s' (by omega), (hc _).1]
      exact ha.of_cells hc
    · rw [(hc _).2.1]
      exact hb.link_ne (hab x hx)

/-- And back up: the subtree with `r` stands below `q` in the tree with `r`. -/
theorem Inserted.up {s s' t : State} {r q : Ring} {cmp cmp' : Int} {p : TreeIdx} {a b U : SearchTree}
    (h : WalkAbove s r cmp p (.node a q b)) (hc : ∀ x, CellsKept s s' x)
    (hi : Inserted s' r cmp' (ringNode q) (if 0 ≤ cmp' then b else a) U t) :
    Inserted s r cmp p (.node a q b) (if 0 ≤ cmp' then .node a q U else .node U q b) t := by
  obtain ⟨hlink, hdad, ha, hb⟩ := h.shows
  rw [hlink] at hdad ha hb
  obtain ⟨hda, hdb, hqa, hqb, hab⟩ := SearchTree.nodup_node.mp h.nodup
  have hqm : q ∈ (SearchTree.node a q b).positions := SearchTree.mem_node.mpr (.inr (.inl rfl))
  have hfresh := h.fresh
  simp only [SearchTree.mem_node, not_or] at hfresh
  obtain ⟨hra, hrq, hrb⟩ := hfresh
  have hqr : ringNode q ≠ ringNode r := fun e => hrq (ringNode_inj.mp e).symm
  have hsub {x : Ring} (hx : x ∈ (if 0 ≤ cmp' then b else a).positions) : x ∈ (SearchTree.node a q b).positions := by
    split at hx
    · exact SearchTree.mem_node.mpr (.inr (.inr hx))
    · exact SearchTree.mem_node.mpr (.inl hx)
  -- what stands outside the subtree that was entered keeps its cells
  have kept {x : TreeIdx} (hxr : x ≠ ringNode r) (hx : ∀ y ∈ (if 0 ≤ cmp' then b else a).positions, x ≠ ringNode y)
      (hxq : x ≠ ringNode q) : CellsKept s t x :=
    (hc x).trans ⟨hi.lson x hxr hx fun e => hxq e.1, hi.rson x hxr hx fun e => hxq e.1, hi.dad x hxr hx⟩
  have outer {x : TreeIdx} (hxr : x ≠ ringNode r) (hx : ∀ y ∈ (SearchTree.node a q b).positions, x ≠ ringNode y) :
      CellsKept s t x := kept hxr (fun y hy => hx y (hsub hy)) (hx q hqm)
  have hp := outer h.above_ne h.above_out
  have hroot : t.childAt cmp p = ringNode q := by
    rw [← hlink]
    unfold State.childAt
    rw [hp.1, hp.2.1]
  have hqout : ∀ y ∈ (if 0 ≤ cmp' then b else a).positions, ringNode q ≠ ringNode y := by
    intro y hy
    split at hy
    · exact (ringNode_ne_of_mem hy hqb).symm
    · exact (ringNode_ne_of_mem hy hqa).symm
  have hqd : t.dadAt (ringNode q) = p := by rw [hi.dad _ hqr hqout, (hc _).2.2, hdad]
  have hshow := hi.shows
  have hunl := hi.unlinked
  refine ⟨?_, fun x hx hx' => hunl x ?_ ?_, fun x hxr hx _ => (outer hxr hx).1, fun x hxr hx _ => (outer hxr hx).2.1,
    fun x hxr hx => (outer hxr hx).2.2⟩
  · rw [hroot]
    by_cases h0 : 0 ≤ cmp'
    · rw [State.childAt_of_nonneg t h0] at hshow
      simp only [if_pos h0] at hshow kept hqout ⊢
      refine ⟨rfl, hqd, ?_, hshow⟩
      rw [hi.lson _ hqr (by rwa [if_pos h0]) fun e => absurd h0 (by omega), (hc _).1]
      exact ha.congr fun x hx => kept (ringNode_ne_of_mem hx hra) (fun y hy => (ringNode_ne_of_mem hy (hab x hx)).symm)
        (ringNode_ne_of_mem hx hqa)
    · have hc' : cmp' < 0 := by omega
      rw [State.childAt_of_neg t hc'] at hshow
      simp only [if_neg h0] at hshow kept hqout ⊢
      refine ⟨rfl, hqd, hshow, ?_⟩
      rw [hi.rson _ hqr (by rwa [if_neg h0]) fun e => h0 e.2, (hc _).2.1]
      exact hb.congr fun x hx => kept (ringNode_ne_of_mem hx hrb) (fun y hy => ringNode_ne_of_mem hx (hab y hy))
        (ringNode_ne_of_mem hx hqb)
  all_goals
    split at hx' <;> simp only [SearchTree.mem_node, not_or] at hx hx'
  · simp only [if_pos ‹0 ≤ cmp'›]; exact (hx.resolve_left hx'.1).resolve_left hx'.2.1
  · simp only [if_neg ‹¬ 0 ≤ cmp'›]; exact hx.resolve_right fun e => e.elim hx'.2.1 hx'.2.2
  · exact hx'.2.2
  · exact hx'.1

/-- The descent of `InsertNode` ends with `r` in the tree by the order of the keys, and with the longest match on its
way (R174, R185). -/
theorem State.insertWalk_spec {r : Ring} {T : SearchTree} {s : State} {k : Nat} {cmp : Int} {p : TreeIdx}
    (h : WalkAbove s r cmp p T) (hk : T.positions.length < k) (hm : s.best.1 < 18) :
    ∃ t, State.insertWalk r k cmp p s = some t ∧ Inserted s r cmp p T (T.insert (keyAt s) r) t ∧
      t.best = T.search (keyAt s) r s.best := by
  induction T generalizing s k cmp p with
  | nil =>
    obtain ⟨k, rfl⟩ : ∃ j, k = j + 1 := ⟨k - 1, by omega⟩
    have hnil : s.childAt cmp p = Config.nil := h.shows
    refine ⟨_, if_pos hnil, h.attach, ?_⟩
    rw [State.attach_frame]
    rfl
  | node a q b iha ihb =>
    obtain ⟨k, rfl⟩ : ∃ j, k = j + 1 := ⟨k - 1, by omega⟩
    have hlen : (SearchTree.node a q b).positions.length = a.positions.length + (b.positions.length + 1) := by
      simp [SearchTree.positions]
    obtain ⟨hlink, -, -, -⟩ := h.shows
    have hq : s.winAt q = s.winAt r := h.byte q (SearchTree.mem_node.mpr (.inr (.inl rfl)))
    obtain ⟨hcommon, heq, hne⟩ := State.compareKeys_keyAt hq
    have hle := s.compareKeys_le r q 17 1
    simp only [State.insertWalk]
    rw [if_neg (hlink ▸ ringNode_ne_nil q), hlink, ringNode_setWidth]
    change ∃ t, (if s.matchLen.toNat < (s.compareKeys r q 17 1).1 ∧ 18 ≤ (s.compareKeys r q 17 1).1 then _ else
      State.insertWalk r k (s.compareKeys r q 17 1).2 _ (s.noteMatch q (s.compareKeys r q 17 1).1)) = some t ∧ _
    generalize s.compareKeys r q 17 1 = found at *
    obtain ⟨i, cmp'⟩ := found
    dsimp only at hcommon heq hne hle ⊢
    have hbest := s.best_noteMatch q (i := i) hle
    have hcells : ∀ x, CellsKept s (s.noteMatch q i) x := fun x => by simp [CellsKept]
    have hwin : ∀ x, (s.noteMatch q i).winAt x = s.winAt x := fun x => by simp
    have hkey : keyAt (s.noteMatch q i) = keyAt s := by simp
    rw [SearchTree.search, SearchTree.insert, ← hcommon, ← hbest]
    by_cases hsame : keyAt s r = keyAt s q
    · have hi := heq hsame
      rw [if_pos ⟨by rw [hi]; exact hm, by omega⟩, if_pos hsame, if_pos hsame]
      have h' : WalkAbove (s.noteMatch q i) r cmp p (.node a q b) := by
        obtain ⟨h1, h2, h3, h4, h5, h6, h7, h8⟩ := h
        refine ⟨?_, h2, h3, h4, h5, by simpa using h6, by simpa using h7, by simpa using h8⟩
        have hchild : (s.noteMatch q i).childAt cmp p = s.childAt cmp p := by simp [State.childAt]
        rw [hchild]
        exact h1.of_cells hcells
      obtain ⟨hs, hu, hl, hr, hd⟩ := h'.replace
      simp only [State.lsonAt_noteMatch, State.rsonAt_noteMatch, State.dadAt_noteMatch] at hl hr hd
      refine ⟨_, rfl, ⟨hs, hu, hl, hr, hd⟩, ?_⟩
      rw [State.replaceNode_frame]
      rfl
    · obtain ⟨hlt, hcmp⟩ := hne hsame
      rw [if_neg fun e => by omega, if_neg hsame, if_neg hsame]
      have hm' : (s.noteMatch q i).best.1 < 18 := by
        rw [hbest]
        split
        · exact hlt
        · exact hm
      have hdown := h.down (cmp' := cmp') hcells hwin
      by_cases h0 : 0 ≤ cmp'
      · rw [hcmp.mp h0, if_neg Bool.false_ne_true, if_neg Bool.false_ne_true]
        simp only [if_pos h0] at hdown
        obtain ⟨t, ht, hi, hb⟩ := ihb (k := k) hdown (by omega) hm'
        rw [hkey] at hi hb
        have hup := Inserted.up (U := b.insert (keyAt s) r) (cmp' := cmp') h hcells (by rwa [if_pos h0])
        rw [if_pos h0] at hup
        exact ⟨t, ht, hup, hb⟩
      · have hbefore : keyBefore (keyAt s r) (keyAt s q) = true := by
          rw [← Bool.not_eq_false]
          exact fun e => h0 (hcmp.mpr e)
        rw [hbefore, if_pos rfl, if_pos rfl]
        simp only [if_neg h0] at hdown
        obtain ⟨t, ht, hi, hb⟩ := iha (k := k) hdown (by omega) hm'
        rw [hkey] at hi hb
        have hup := Inserted.up (U := a.insert (keyAt s) r) (cmp' := cmp') h hcells (by rwa [if_neg h0])
        rw [if_neg h0] at hup
        exact ⟨t, ht, hup, hb⟩

end Sys2Proof.Machine
end

section
/-! # The search trees of all first bytes (R35, R186) -/

namespace Sys2Proof.Machine

/-! ## Insertion into a binary tree -/

section insert

variable {T : SearchTree} {key : Ring → List Byte} {q : Ring}

theorem SearchTree.mem_insert_self : q ∈ (T.insert key q).positions := by
  induction T with
  | nil => exact List.mem_singleton.mpr rfl
  | node a p b iha ihb =>
    rw [SearchTree.insert]
    split_ifs <;> rw [SearchTree.mem_node]
    · exact .inr (.inl rfl)
    · exact .inl iha
    · exact .inr (.inr ihb)

theorem SearchTree.mem_of_mem_insert {x : Ring} (h : x ∈ (T.insert key q).positions) : x = q ∨ x ∈ T.positions := by
  induction T with
  | nil => exact .inl (List.mem_singleton.mp h)
  | node a p b iha ihb =>
    rw [SearchTree.insert] at h
    split_ifs at h <;> rw [SearchTree.mem_node] at h <;> rw [SearchTree.mem_node]
    · tauto
    · rcases h with h | h
      · exact (iha h).imp_right .inl
      · exact .inr (.inr h)
    · rcases h with h | h | h
      · exact .inr (.inl h)
      · exact .inr (.inr (.inl h))
      · exact (ihb h).imp_right fun e => .inr (.inr e)

theorem SearchTree.nodup_insert (hn : T.positions.Nodup) (hq : q ∉ T.positions) : (T.insert key q).positions.Nodup := by
  induction T with
  | nil => exact List.nodup_singleton q
  | node a p b iha ihb =>
    obtain ⟨hda, hdb, hpa, hpb, hab⟩ := SearchTree.nodup_node.mp hn
    simp only [SearchTree.mem_node, not_or] at hq
    obtain ⟨hqa, hqp, hqb⟩ := hq
    rw [SearchTree.insert]
    split_ifs <;> rw [SearchTree.nodup_node]
    · exact ⟨hda, hdb, hqa, hqb, hab⟩
    · refine ⟨iha hda hqa, hdb, fun h => ?_, hpb, fun x hx => ?_⟩
      · exact (SearchTree.mem_of_mem_insert h).elim (Ne.symm hqp) hpa
      · rcases SearchTree.mem_of_mem_insert hx with rfl | hx
        · exact hqb
        · exact hab x hx
    · refine ⟨hda, ihb hdb hqb, hpa, fun h => ?_, fun x hx h => ?_⟩
      · exact (SearchTree.mem_of_mem_insert h).elim (Ne.symm hqp) hpb
      · rcases SearchTree.mem_of_mem_insert h with rfl | h
        · exact hqa hx
        · exact hab x hx h

end insert

/-! ## `InsertNode` on one tree -/

/-- The state in which the descent of `InsertNode` begins: `r` is a leaf and no match is found (R174). -/
def State.beginInsert (s : State) (r : Ring) : State :=
  { (s.setRson (ringNode r) Config.nil).setLson (ringNode r) Config.nil with matchLen := 0 }

theorem State.insertNode_eq (s : State) (r : Ring) :
    s.insertNode r = State.insertWalk r (Config.W + 1) 1 (rootSlot (s.winAt r)) (s.beginInsert r) := rfl

theorem State.beginInsert_cells (s : State) (r : Ring) (x : TreeIdx) :
    (s.beginInsert r).lsonAt x = (if x = ringNode r then Config.nil else s.lsonAt x) ∧
    (s.beginInsert r).rsonAt x = (if x = ringNode r then Config.nil else s.rsonAt x) ∧
    (s.beginInsert r).dadAt x = s.dadAt x := by
  have hl := (s.setRson (ringNode r) Config.nil).lsonAt_setLson (ringNode r) x Config.nil
  have hr := s.rsonAt_setRson (ringNode r) x Config.nil
  exact ⟨hl, hr, rfl⟩

theorem State.beginInsert_kept (s : State) {r : Ring} {x : TreeIdx} (h : x ≠ ringNode r) :
    CellsKept s (s.beginInsert r) x := by
  obtain ⟨hl, hr, hd⟩ := s.beginInsert_cells r x
  exact ⟨hl.trans (if_neg h), hr.trans (if_neg h), hd⟩

theorem State.winAt_beginInsert (s : State) (r x : Ring) : (s.beginInsert r).winAt x = s.winAt x := rfl

theorem keyAt_beginInsert (s : State) (r : Ring) : keyAt (s.beginInsert r) = keyAt s := by
  unfold keyAt
  simp only [State.winAt_beginInsert]

theorem State.best_beginInsert (s : State) (r : Ring) : (s.beginInsert r).best = (0, s.matchPos) := rfl

/-- `InsertNode` on the tree of the first byte of `r` is insertion and search (R174, R185). -/
theorem HoldsTree.insertNode {s : State} {r : Ring} {T : SearchTree} (h : HoldsTree s (s.winAt r) T)
    (hn : T.positions.Nodup) (hr : r ∉ T.positions) (hb : ∀ p ∈ T.positions, s.winAt p = s.winAt r) :
    ∃ t, s.insertNode r = some t ∧ HoldsTree t (s.winAt r) (T.insert (keyAt s) r) ∧
      t.best = T.search (keyAt s) r (0, s.matchPos) ∧
      (∀ p ∈ T.positions, p ∉ (T.insert (keyAt s) r).positions → t.dadAt (ringNode p) = Config.nil) ∧
      OtherCellsKept (s.winAt r) (r :: T.positions) s t := by
  obtain ⟨hl0, hr0, -⟩ := s.beginInsert_cells r (ringNode r)
  have hroot : rootSlot (s.winAt r) ≠ ringNode r := (ringNode_ne_rootSlot r _).symm
  have hwalk : WalkAbove (s.beginInsert r) r 1 (rootSlot (s.winAt r)) T := by
    refine ⟨?_, hn, hr, hroot, fun q _ => (ringNode_ne_rootSlot q _).symm, fun e => absurd e (by decide),
      fun q hq => ?_, hl0.trans (if_pos rfl), hr0.trans (if_pos rfl)⟩
    · rw [State.childAt_of_nonneg _ (by decide), (s.beginInsert_kept hroot).2.1]
      exact ShowsTree.congr h fun q hq => s.beginInsert_kept (ringNode_ne_of_mem hq hr)
    · rw [State.winAt_beginInsert, State.winAt_beginInsert]
      exact hb q hq
  have hlen : T.positions.length < Config.W + 1 := Nat.lt_succ_of_le (SearchTree.length_le hn)
  obtain ⟨t, ht, ⟨hshow, hunl, hl, hrs, hd⟩, hbest⟩ := State.insertWalk_spec hwalk hlen (Nat.succ_pos 17)
  rw [keyAt_beginInsert] at hshow hunl hbest
  rw [State.best_beginInsert] at hbest
  rw [State.childAt_of_nonneg _ (by decide)] at hshow
  refine ⟨t, (s.insertNode_eq r).trans ht, hshow, hbest, hunl, fun x hx => ?_⟩
  have hxr : x ≠ ringNode r := hx r (List.mem_cons_self ..)
  have hxT : ∀ q ∈ T.positions, x ≠ ringNode q := fun q hq => hx q (List.mem_cons_of_mem _ hq)
  obtain ⟨hl1, hr1, hd1⟩ := s.beginInsert_kept hxr
  exact ⟨(hl x hxr hxT fun e => absurd e.2 (by decide)).trans hl1, (hd x hxr hxT).trans hd1,
    fun hx' => (hrs x hxr hxT fun e => hx' e.1).trans hr1⟩

/-! ## The trees of all first bytes -/

/-- The tree RAMs hold the tree `T c` under every first byte `c`, of positions with that first byte, and only these
positions have a parent. -/
structure Forest (s : State) (T : Byte → SearchTree) : Prop where
  holds : ∀ c, HoldsTree s c (T c)
  nodup : ∀ c, (T c).positions.Nodup
  byte : ∀ c, ∀ p ∈ (T c).positions, s.winAt p = c
  linked : ∀ p, s.dadAt (ringNode p) ≠ Config.nil → ∃ c, p ∈ (T c).positions

/-- A tree of another first byte keeps its cells. -/
theorem HoldsTree.other {s t : State} {c d : Byte} {U : SearchTree} {ps : List Ring} (h : HoldsTree s d U)
    (hk : OtherCellsKept c ps s t) (hd : d ≠ c) (hout : ∀ x ∈ U.positions, x ∉ ps) : HoldsTree t d U := by
  have hroot := (hk (rootSlot d) fun p _ => (ringNode_ne_rootSlot p d).symm).2.2 fun e => hd (rootSlot_inj.mp e)
  rw [HoldsTree, hroot]
  refine ShowsTree.congr h fun x hx => ?_
  obtain ⟨hl, hdad, hr⟩ := hk (ringNode x) fun p hp e => hout x hx (ringNode_inj.mp e ▸ hp)
  exact ⟨hl, hr (ringNode_ne_rootSlot x c), hdad⟩

theorem ShowsTree.dad_ne_nil {s : State} {link parent : TreeIdx} {T : SearchTree} (h : ShowsTree s link parent T)
    (hp : parent ≠ Config.nil) {q : Ring} (hq : q ∈ T.positions) : s.dadAt (ringNode q) ≠ Config.nil := by
  induction T generalizing link parent with
  | nil => cases hq
  | node a p b iha ihb =>
    obtain ⟨rfl, hd, ha, hb⟩ := h
    rcases SearchTree.mem_node.mp hq with hq | rfl | hq
    · exact iha ha (ringNode_ne_nil p) hq
    · rwa [hd]
    · exact ihb hb (ringNode_ne_nil p) hq

section Forest

variable {s : State} {T : Byte → SearchTree}

/-- The positions with a parent are those of the trees. -/
theorem Forest.dad_iff (h : Forest s T) (p : Ring) :
    s.dadAt (ringNode p) ≠ Config.nil ↔ ∃ c, p ∈ (T c).positions :=
  ⟨h.linked p, fun ⟨c, hp⟩ => ShowsTree.dad_ne_nil (h.holds c) (rootSlot_ne_nil c) hp⟩

/-- Only the tree of its first byte holds a position. -/
theorem Forest.unique (h : Forest s T) {c d : Byte} {p : Ring} (hc : p ∈ (T c).positions) (hd : p ∈ (T d).positions) :
    d = c := (h.byte d p hd).symm.trans (h.byte c p hc)

/-- `DeleteNode` takes the position out of its tree, if it is in one (R175). -/
theorem Forest.deleteNode (h : Forest s T) (p : Ring) :
    ∃ t, s.deleteNode p = some t ∧ TreeFrame s t ∧ Forest t fun c => (T c).delete p := by
  by_cases hp : s.dadAt (ringNode p) = Config.nil
  · refine ⟨s, State.deleteNode_absent hp, .refl s, ?_⟩
    have hout : ∀ c, (T c).delete p = T c := fun c =>
      SearchTree.delete_of_not_mem fun e => (h.dad_iff p).mpr ⟨c, e⟩ hp
    simp only [hout]
    exact h
  · obtain ⟨c, hc⟩ := h.linked p hp
    obtain ⟨t, ht, hhold, hnil, hk⟩ := (h.holds c).deleteNode (h.nodup c) hc
    have hf := s.deleteNode_frame p ht
    have hwin : t.winAt = s.winAt := by rw [hf]; rfl
    have hmem {d : Byte} {x : Ring} : x ∈ ((T d).delete p).positions ↔ x ∈ (T d).positions ∧ x ≠ p :=
      SearchTree.mem_delete (h.nodup d)
    refine ⟨t, ht, hf, fun d => ?_, fun d => SearchTree.nodup_delete (h.nodup d), fun d x hx => ?_, fun x hx => ?_⟩
    · by_cases hd : d = c
      · rw [hd]
        exact hhold
      · rw [SearchTree.delete_of_not_mem fun e => hd (h.unique hc e)]
        exact (h.holds d).other hk hd fun x hx e => hd (h.unique e hx)
    · rw [hwin]
      exact h.byte d x (hmem.mp hx).1
    · have hxp : x ≠ p := fun e => hx (e ▸ hnil)
      by_cases hxc : x ∈ (T c).positions
      · exact ⟨c, hmem.mpr ⟨hxc, hxp⟩⟩
      · rw [(hk (ringNode x) fun q hq => ringNode_ne_of_mem hq hxc |>.symm).2.1] at hx
        obtain ⟨d, hd⟩ := h.linked x hx
        exact ⟨d, hmem.mpr ⟨hd, hxp⟩⟩

/-- The trees after an insertion of `r`. -/
def insertedForest (s : State) (T : Byte → SearchTree) (r : Ring) : Byte → SearchTree :=
  Function.update T (s.winAt r) ((T (s.winAt r)).insert (keyAt s) r)

theorem mem_insertedForest {c : Byte} {r x : Ring} (h : x ∈ (insertedForest s T r c).positions) :
    x = r ∨ x ∈ (T c).positions := by
  unfold insertedForest at h
  rcases eq_or_ne c (s.winAt r) with rfl | hc
  · rw [Function.update_self] at h
    exact SearchTree.mem_of_mem_insert h
  · rw [Function.update_of_ne hc] at h
    exact .inr h

/-- `InsertNode` puts a position that is in no tree into the tree of its first byte, and searches that tree (R174). -/
theorem Forest.insertNode (h : Forest s T) {r : Ring} (hr : ∀ c, r ∉ (T c).positions) :
    ∃ t, s.insertNode r = some t ∧ MatchFrame s t ∧ Forest t (insertedForest s T r) ∧
      t.best = (T (s.winAt r)).search (keyAt s) r (0, s.matchPos) := by
  obtain ⟨t, ht, hhold, hbest, hunl, hk⟩ := (h.holds (s.winAt r)).insertNode (h.nodup _) (hr _) (h.byte _)
  have hf := s.insertNode_frame r ht
  have hwin : t.winAt = s.winAt := by rw [hf]; rfl
  refine ⟨t, ht, hf, ⟨fun c => ?_, fun c => ?_, fun c x hx => ?_, fun x hx => ?_⟩, hbest⟩
  · unfold insertedForest
    rcases eq_or_ne c (s.winAt r) with rfl | hc
    · rw [Function.update_self]
      exact hhold
    · rw [Function.update_of_ne hc]
      refine (h.holds c).other hk hc fun x hx e => ?_
      rcases List.mem_cons.mp e with rfl | e
      · exact hr c hx
      · exact hc (h.unique e hx)
  · unfold insertedForest
    rcases eq_or_ne c (s.winAt r) with rfl | hc
    · rw [Function.update_self]
      exact SearchTree.nodup_insert (h.nodup _) (hr _)
    · rw [Function.update_of_ne hc]
      exact h.nodup c
  · rw [hwin]
    unfold insertedForest at hx
    rcases eq_or_ne c (s.winAt r) with rfl | hc
    · rw [Function.update_self] at hx
      exact (SearchTree.mem_of_mem_insert hx).elim (fun e => by rw [e]) (h.byte _ x)
    · rw [Function.update_of_ne hc] at hx
      exact h.byte c x hx
  · unfold insertedForest
    by_cases hx' : x ∈ ((T (s.winAt r)).insert (keyAt s) r).positions
    · exact ⟨s.winAt r, by rwa [Function.update_self]⟩
    · by_cases hxT : x ∈ (T (s.winAt r)).positions
      · exact absurd (hunl x hxT hx') hx
      · have hxr : x ≠ r := fun e => hx' (e ▸ SearchTree.mem_insert_self)
        have hout : ∀ q ∈ r :: (T (s.winAt r)).positions, ringNode x ≠ ringNode q := fun q hq e => by
          rcases List.mem_cons.mp hq with rfl | hq
          · exact hxr (ringNode_inj.mp e)
          · exact hxT (ringNode_inj.mp e ▸ hq)
        rw [(hk _ hout).2.1] at hx
        obtain ⟨c, hc⟩ := h.linked x hx
        have hcr : c ≠ s.winAt r := fun e => hxT (e ▸ hc)
        exact ⟨c, by rwa [Function.update_of_ne hcr]⟩

end Forest

end Sys2Proof.Machine
end

section
/-! # What the running unit sees of the state (R39, R281, R321)

The view of a unit is the state with every register the unit does not use, and every RAM a start leaves as it was, at a
fixed value. A decoder or cipher step commutes with the view of its unit, so what a past command left elsewhere does not
show in it. -/

namespace Sys2Proof

/-! ## The cursor as a unit sees it -/

/-- The groups of registers a unit may use: the window, the flag register, the bit reader, `node`, the offset registers of
GLZ, the ring and group registers of LZE, the cipher's. -/
structure Uses where
  window : Bool
  flags : Bool
  bits : Bool
  node : Bool
  offset : Bool
  ring : Bool
  cipher : Bool

/-- The cursor as a unit sees it. -/
def Cursor.view (u : Uses) (c : Cursor) : Cursor :=
  { c with acc := cond u.bits c.acc 0, bcnt := cond u.bits c.bcnt 0 }

def Fetched.map {α : Type} (f : Cursor → Cursor) : Fetched α → Fetched α
  | .got a c => .got a (f c)
  | .endOfInput c => .endOfInput (f c)
  | .malformed c => .malformed (f c)

theorem Fetched.map_andThen {α β : Type} {f : Cursor → Cursor} {x : Fetched α} {k : α → Cursor → Fetched β}
    (h : ∀ a c, k a (f c) = (k a c).map f) : (x.map f).andThen k = (x.andThen k).map f := by
  cases x with
  | got a c => exact h a c
  | endOfInput c => rfl
  | malformed c => rfl

theorem Cursor.view_of_bits {u : Uses} (h : u.bits = true) : Cursor.view u = id := by
  funext c
  rw [Cursor.view, h]
  rfl

theorem Fetched.map_id {α : Type} (x : Fetched α) : x.map id = x := by
  cases x <;> rfl

theorem Cursor.readByte_view (u : Uses) (c : Cursor) : (c.view u).readByte = c.readByte.map (Cursor.view u) := by
  unfold Cursor.readByte Cursor.view
  split <;> rfl

end Sys2Proof

namespace Sys2Proof.Machine

/-! ## Views -/

/-- What each unit uses (R28 to R37). -/
def UnitSel.uses : UnitSel → Uses
  | .none => ⟨false, false, false, false, false, false, false⟩
  | .lzd => ⟨true, true, false, false, false, false, false⟩
  | .lze => ⟨true, false, false, false, false, true, false⟩
  | .huf => ⟨false, false, true, true, false, false, false⟩
  | .glz => ⟨true, false, true, false, true, false, false⟩
  | .kc => ⟨false, false, false, false, false, false, true⟩

/-- The state as a unit sees it. The memories of the encoder are in no view: a start does not write all of them. -/
def State.view (u : Uses) (s : State) : State :=
  { s with
    readData := 0, freeCount := 0, htAddr := 0, codeBuf := [], lson := [], rson := [], dad := []
    winFill := cond u.window s.winFill 0, win := cond u.window s.win [], cur := cond u.window s.cur 0
    flags := cond u.flags s.flags 0, fcnt := cond u.flags s.fcnt 0
    acc := cond u.bits s.acc 0, bcnt := cond u.bits s.bcnt 0, node := cond u.node s.node 0
    lwm := cond u.offset s.lwm false, lastOff := cond u.offset s.lastOff 0
    ringS := cond u.ring s.ringS 0, ringR := cond u.ring s.ringR 0, lookLen := cond u.ring s.lookLen 0
    matchPos := cond u.ring s.matchPos 0, matchLen := cond u.ring s.matchLen 0, lastLen := cond u.ring s.lastLen 0
    codePtr := cond u.ring s.codePtr 0, mask := cond u.ring s.mask 0
    key := cond u.cipher s.key 0, cipherKind := cond u.cipher s.cipherKind .lcgXor }

def Flow.map (f : State → State) : Flow → Flow
  | .go s => .go (f s)
  | .halt s => .halt (f s)

def TokenRead.map (f : State → State) : TokenRead → TokenRead
  | .token i s => .token i (f s)
  | .ended s => .ended (f s)

/-- The outcome with `f` done to its next state. -/
def mapNext (f : State → State) : Host.Outcome State Fault Refusal → Host.Outcome State Fault Refusal
  | .next s => .next (f s)
  | .fault r => .fault r
  | .refused r => .refused r

theorem mapNext_toOutcome (f : State → State) (x : Flow) : mapNext f x.toOutcome = (x.map f).toOutcome := by
  cases x <;> rfl

theorem Flow.map_andThen {f : State → State} {x : Flow} {j k : State → Flow} (h : ∀ s, j (f s) = (k s).map f) :
    (x.map f).andThen j = (x.andThen k).map f := by
  cases x with
  | go s => exact h s
  | halt s => rfl

/-! ## Reading commutes with the view -/

/-- A token of bytes alone is read past the bit reader, and any token with it. -/
theorem decodeToken_view {u : Uses} {x : TokenContext} (h : u.bits = true ∨ tokenUnit x = .lzd) (c : Cursor) :
    decodeToken x (c.view u) = (decodeToken x c).map (Cursor.view u) := by
  rcases h with h | h
  · rw [Cursor.view_of_bits h, Fetched.map_id]
    rfl
  · cases x with
    | flagByte | literal =>
      unfold decodeToken
      rw [Cursor.readByte_view]
      exact Fetched.map_andThen fun _ _ => rfl
    | matchBytes =>
      unfold decodeToken decodeLzssMatch
      rw [Cursor.readByte_view]
      refine Fetched.map_andThen fun _ c1 => ?_
      rw [Cursor.readByte_view]
      exact Fetched.map_andThen fun _ _ => rfl
    | firstLiteral | glzToken => cases h

theorem State.cursor_view (u : Uses) (s : State) : (s.view u).cursor = s.cursor.view u := rfl

theorem State.endOfInput_view (u : Uses) (s : State) : (s.view u).endOfInput = s.endOfInput.view u := by
  have hl : (s.view u).lenKnown = s.lenKnown := rfl
  unfold State.endOfInput
  rw [hl]
  split <;> rfl

theorem State.afterFetch_view (u : Uses) (s : State) (x : Fetched Instr) :
    (s.view u).afterFetch (x.map (Cursor.view u)) = (s.afterFetch x).map (State.view u) := by
  cases x with
  | got i c => rfl
  | endOfInput c => exact congrArg TokenRead.ended ((s.withCursor c).endOfInput_view u)
  | malformed c => rfl

/-! ## Producing commutes with the view -/

section window

variable {u : Uses}

theorem State.push_view (h : u.window = true) (s : State) (b : Byte) : (s.view u).push b = (s.push b).view u := by
  simp only [State.view, State.push, h, cond_true]

theorem State.winAt_view (h : u.window = true) (s : State) : (s.view u).winAt = s.winAt := by
  funext i
  simp only [State.winAt, State.view, h, cond_true]

theorem State.cur_view (h : u.window = true) (s : State) : (s.view u).cur = s.cur := by
  simp only [State.view, h, cond_true]

theorem State.countByte_view {s : State} (h : s.unit.hasWindow = true → u.window = true) (b : Byte) :
    (s.view u).countByte b = (s.countByte b).view u := by
  have hu : (s.view u).unit = s.unit := rfl
  unfold State.countByte
  rw [hu]
  split
  · next hw => rw [State.push_view (h hw)]; rfl
  · rfl

theorem State.deliver_view (s : State) (b : Byte) : (s.view u).deliver b = (s.deliver b).map (State.view u) := by
  have hl : (s.view u).lenKnown = s.lenKnown := rfl
  have ht : (s.view u).takeRem = s.takeRem := rfl
  unfold State.deliver
  rw [hl, ht]
  split
  · split <;> rfl
  · rfl

theorem State.produce_view {s : State} (h : s.unit.hasWindow = true → u.window = true) (b : Byte) :
    (s.view u).produce b = (s.produce b).map (State.view u) := by
  have hc : (s.view u).capEn = s.capEn := rfl
  have ho : (s.view u).outCount = s.outCount := rfl
  have hm : (s.view u).maxOut = s.maxOut := rfl
  have hs : (s.view u).skipRem = s.skipRem := rfl
  unfold State.produce
  rw [hc, ho, hm, hs, State.countByte_view h]
  split
  · rfl
  · split
    · exact (s.countByte b).deliver_view b
    · rfl

theorem State.copyBytes_view (h : u.window = true) (d n : Nat) (s : State) :
    State.copyBytes d n (s.view u) = (State.copyBytes d n s).map (State.view u) := by
  induction n generalizing s with
  | zero => rfl
  | succ n ih =>
    unfold State.copyBytes
    rw [State.winAt_view h, State.cur_view h, State.produce_view fun _ => h]
    exact Flow.map_andThen ih

theorem State.copyBack_view (h : u.window = true) (s : State) (d n : Nat) :
    (s.view u).copyBack d n = (s.copyBack d n).map (State.view u) := by
  unfold State.copyBack
  split
  · rfl
  · exact State.copyBytes_view h d n s

end window

/-! ## The tokens commute with the view of their unit -/

theorem State.nextToken_view {u : Uses} (h : u.flags = true) (s : State) :
    (s.view u).nextToken = s.nextToken.view u := by
  have hf : (s.view u).flags = s.flags := by simp only [State.view, h, cond_true]
  have hc : (s.view u).fcnt = s.fcnt := by simp only [State.view, h, cond_true]
  unfold State.nextToken
  rw [hf, hc]
  split <;> simp only [State.view, h, cond_true]

/-- What a GLZ token writes at its end (R231). -/
def State.glzEnd (w : Bool) (o : State → BitVec 13) (s : State) : State := { s with lastOff := o s, lwm := w }.glzNext

theorem State.glzEnd_view {u : Uses} (h : u.offset = true) {o : State → BitVec 13} (ho : ∀ s : State, o (s.view u) = o s)
    (w : Bool) (s : State) : (s.view u).glzEnd w o = (s.glzEnd w o).view u := by
  unfold State.glzEnd
  rw [ho]
  simp only [State.view, State.glzNext, h, cond_true]

theorem exec_lzss_view {x : TokenContext} {i : Instr} (hx : tokenUnit x = .lzd) (hi : x.admits i) (s : State) :
    exec i (s.view (UnitSel.uses .lzd)) = mapNext (State.view (UnitSel.uses .lzd)) (exec i s) := by
  have next (s' : State) : Flow.go (s'.view (UnitSel.uses .lzd)).nextToken =
      Flow.map (State.view (UnitSel.uses .lzd)) (.go s'.nextToken) := congrArg Flow.go (s'.nextToken_view rfl)
  cases x with
  | flagByte =>
    cases i with
    | lzssFlags f =>
      exact congrArg Host.Outcome.next (State.nextToken_view (u := UnitSel.uses .lzd) rfl { s with flags := f, fcnt := 8 })
    | _ => exact hi.elim
  | literal =>
    cases i with
    | lzssLit b =>
      refine Eq.trans ?_ (mapNext_toOutcome _ _).symm
      refine congrArg Flow.toOutcome ?_
      rw [State.produce_view fun _ => rfl]
      exact Flow.map_andThen next
    | _ => exact hi.elim
  | matchBytes =>
    cases i with
    | lzssMatch plo phi nl =>
      refine Eq.trans ?_ (mapNext_toOutcome _ _).symm
      refine congrArg Flow.toOutcome ?_
      rw [State.cur_view rfl, State.copyBack_view rfl]
      exact Flow.map_andThen next
    | _ => exact hi.elim
  | firstLiteral | glzToken => cases hx

theorem Flow.glzEnd_view {u : Uses} (h : u.offset = true) {o : State → BitVec 13} (ho : ∀ s : State, o (s.view u) = o s)
    (w : Bool) (x : Flow) :
    (x.map (State.view u)).andThen (fun s => .go (s.glzEnd w o)) =
      (x.andThen fun s => .go (s.glzEnd w o)).map (State.view u) :=
  Flow.map_andThen fun s => congrArg Flow.go (s.glzEnd_view h ho w)

theorem State.lastOff_view {u : Uses} (h : u.offset = true) (s : State) : (s.view u).lastOff = s.lastOff := by
  simp only [State.view, h, cond_true]

theorem State.lwm_view {u : Uses} (h : u.offset = true) (s : State) : (s.view u).lwm = s.lwm := by
  simp only [State.view, h, cond_true]

theorem State.tokShort_view {u : Uses} (hw : u.window = true) (ho : u.offset = true) (s : State) (d : BitVec 4) :
    (s.view u).tokShort d = (s.tokShort d).map (State.view u) := by
  have h : (if d = 0 then (s.view u).produce 0x00 else (s.view u).copyBack d.toNat 1) =
      (if d = 0 then s.produce 0x00 else s.copyBack d.toNat 1).map (State.view u) := by
    split
    · exact State.produce_view (fun _ => hw) _
    · exact State.copyBack_view hw s _ _
  unfold State.tokShort
  rw [h]
  exact Flow.glzEnd_view ho (State.lastOff_view ho) false _

theorem State.tokNearOrEnd_view {u : Uses} (hw : u.window = true) (ho : u.offset = true) (s : State) (d : BitVec 7)
    (n : Bool) : (s.view u).tokNearOrEnd d n = (s.tokNearOrEnd d n).map (State.view u) := by
  have hl : (s.view u).lenKnown = s.lenKnown := rfl
  unfold State.tokNearOrEnd
  rw [hl]
  split
  · split <;> rfl
  · rw [State.copyBack_view hw]
    exact Flow.glzEnd_view ho (fun _ => rfl) true _

theorem exec_glz_view {x : TokenContext} {i : Instr} (hx : tokenUnit x = .glz) (hi : x.admits i) (s : State) :
    exec i (s.view (UnitSel.uses .glz)) = mapNext (State.view (UnitSel.uses .glz)) (exec i s) := by
  have token {x y : Flow} (h : x = y.map (State.view (UnitSel.uses .glz))) :
      x.toOutcome = mapNext (State.view (UnitSel.uses .glz)) y.toOutcome :=
    (congrArg Flow.toOutcome h).trans (mapNext_toOutcome _ y).symm
  have literal (b : Byte) : ((s.view (UnitSel.uses .glz)).produce b).andThen (fun s => .go (s.glzEnd false State.lastOff)) =
      ((s.produce b).andThen fun s => .go (s.glzEnd false State.lastOff)).map (State.view (UnitSel.uses .glz)) := by
    rw [State.produce_view fun _ => rfl]
    exact Flow.glzEnd_view rfl (State.lastOff_view rfl) false _
  cases x with
  | flagByte | literal | matchBytes => cases hx
  | firstLiteral =>
    cases i with
    | glzFirst b => exact token (literal b)
    | _ => exact hi.elim
  | glzToken w =>
    cases i with
    | glzLit b => exact token (literal b)
    | glzShort d => exact token (s.tokShort_view rfl rfl d)
    | glzZero => exact token (s.tokShort_view rfl rfl 0)
    | glzNear d n => exact token (s.tokNearOrEnd_view rfl rfl d n)
    | glzEnd v => exact token (s.tokNearOrEnd_view rfl rfl 0 v)
    | glzFar g lo n =>
      change execGlzFar g lo n _ = mapNext _ (execGlzFar g lo n s)
      unfold execGlzFar
      rw [State.lwm_view rfl]
      split
      · rfl
      · refine token ?_
        rw [State.copyBack_view rfl]
        exact Flow.glzEnd_view rfl (fun _ => rfl) true _
    | glzRep n =>
      refine token ?_
      rw [State.lastOff_view rfl, State.copyBack_view rfl]
      exact Flow.glzEnd_view rfl (State.lastOff_view rfl) true _
    | _ => exact hi.elim

/-! ## The Huffman code commutes with the view -/

theorem exec_hufSym_view (s : State) (hu : s.unit = .huf) (path : List Bool) :
    exec (.hufSym path) (s.view (UnitSel.uses .huf)) = mapNext (State.view (UnitSel.uses .huf)) (exec (.hufSym path) s) := by
  have hh : (s.view (UnitSel.uses .huf)).ht = s.ht := rfl
  change execHufSym path _ = mapNext _ (execHufSym path s)
  unfold execHufSym
  rw [hh]
  split
  · next n sym _ =>
    refine Eq.trans (congrArg Flow.toOutcome ?_) (mapNext_toOutcome _ _).symm
    have hp := State.produce_view (u := UnitSel.uses .huf) (s := { s with node := n }) (fun e => by rw [hu] at e; cases e) sym
    refine Eq.trans (congrArg (fun x => Flow.andThen x _) hp) ?_
    exact Flow.map_andThen fun _ => rfl
  · rfl
  · rfl

/-! ## The step commutes with the view -/

theorem TokenRead.run_map {f : State → State} {r : TokenRead}
    (h : ∀ i s, r = .token i s → exec i (f s) = mapNext f (exec i s)) : (r.map f).run = mapNext f r.run := by
  cases r with
  | token i s => exact h i s rfl
  | ended s => rfl

theorem State.afterFetch_token {s t : State} {x : Fetched Instr} {i : Instr} (h : s.afterFetch x = .token i t) :
    ∃ c, x = .got i c ∧ t = s.withCursor c := by
  cases x with
  | got j c =>
    obtain ⟨rfl, rfl⟩ := TokenRead.token.inj h
    exact ⟨c, rfl, rfl⟩
  | endOfInput c => cases h
  | malformed c => cases h

theorem stepUnit_window_view {s : State} {x : TokenContext} (hx : s.tokenContext = some x) :
    stepUnit (s.view s.unit.uses) = mapNext (State.view s.unit.uses) (stepUnit s) := by
  have hu := (State.tokenContext_unit hx).1
  have hx' : (s.view s.unit.uses).tokenContext = some x := by
    rw [← hx, hu]
    unfold State.tokenContext
    have hu' : (s.view (tokenUnit x).uses).unit = tokenUnit x := hu
    have hs : (s.view (tokenUnit x).uses).ustate = s.ustate := rfl
    rw [hu', hu, hs]
    cases x <;> rfl
  have hread : s.unit.uses.bits = true ∨ tokenUnit x = .lzd := by
    cases x <;> simp [hu, tokenUnit, UnitSel.uses]
  rw [stepUnit_of_tokenContext hx', stepUnit_of_tokenContext hx, State.cursor_view, decodeToken_view hread,
    State.afterFetch_view]
  refine TokenRead.run_map fun i t ht => ?_
  obtain ⟨c, hd, -⟩ := State.afterFetch_token ht
  have hi := decodeToken_gives x _ i c hd
  rw [hu]
  cases x with
  | flagByte | literal | matchBytes => exact exec_lzss_view rfl hi t
  | firstLiteral | glzToken => exact exec_glz_view rfl hi t

theorem stepUnit_huf_view {s : State} (hu : s.unit = .huf) (hus : s.ustate = UState.symbol) :
    stepUnit (s.view s.unit.uses) = mapNext (State.view s.unit.uses) (stepUnit s) := by
  rw [stepUnit_of_huf (s := s.view s.unit.uses) hu hus, stepUnit_of_huf hu hus, hu]
  have hc : decodeHuf (s.view (UnitSel.uses .huf)).ht (s.view (UnitSel.uses .huf)).cursor = decodeHuf s.ht s.cursor := rfl
  rw [hc]
  cases decodeHuf s.ht s.cursor with
  | code path c => exact exec_hufSym_view (s.withCursor c) hu path
  | endOfInput n c => exact congrArg Host.Outcome.next (State.endOfInput_view (UnitSel.uses .huf) { s.withCursor c with node := n })
  | noCode c => rfl

theorem State.stepCipher_view (s : State) :
    (s.view (UnitSel.uses .kc)).stepCipher = s.stepCipher.view (UnitSel.uses .kc) := by
  unfold State.stepCipher
  rcases s.nextInput_cases with ⟨h, hn⟩ | ⟨h, hn⟩
  · have hn' : (s.view (UnitSel.uses .kc)).nextInput = none := if_pos h
    rw [hn, hn']
    rfl
  · have hn' : (s.view (UnitSel.uses .kc)).nextInput = some (Memory.read Config.srcUnwritten s.src s.pos.toNat,
        State.view (UnitSel.uses .kc) { s with pos := s.pos + 1 }) := if_neg h
    have hk : (s.view (UnitSel.uses .kc)).cipherKind = s.cipherKind := rfl
    rw [hn, hn', hk]
    dsimp only
    split <;> rfl

/-- In each of its states a window decoder reads a token. -/
theorem UStateLegal.tokenContext {s : State} (hs : UStateLegal s) (hu : s.unit = .lzd ∨ s.unit = .glz) :
    ∃ x, s.tokenContext = some x := by
  unfold UStateLegal at hs
  unfold State.tokenContext
  rcases hu with hu | hu <;> rw [hu] at hs ⊢ <;> dsimp only at hs ⊢
  · split_ifs with h0 h1 h2
    · exact ⟨_, rfl⟩
    · exact ⟨_, rfl⟩
    · exact ⟨_, rfl⟩
    · exact absurd hs (by bv_omega)
  · split_ifs with h0 h1
    · exact ⟨_, rfl⟩
    · exact ⟨_, rfl⟩
    · exact absurd hs (by bv_omega)

/-- The encoder and the cipher read no token. -/
theorem stepUnit_of_plain {s : State} (hu : s.unit = .lze ∨ s.unit = .kc) : stepUnit s = stepPlainUnit s := by
  have hr : s.readToken = none := by
    unfold State.readToken State.tokenContext
    rcases hu with hu | hu <;> rw [hu]
  rw [stepUnit, hr]

theorem stepUnit_of_cipher {s : State} (hu : s.unit = .kc) (hus : s.ustate = UState.byte) :
    stepUnit s = .next s.stepCipher := by
  rw [stepUnit_of_plain (.inr hu), stepPlainUnit, hu]
  exact if_pos hus

/-- A step of a decoder or of the cipher sees the registers of its unit alone, and always has a next state. -/
theorem stepUnit_view {s : State} (hs : UStateLegal s) (hn : s.unit ≠ .none) (he : s.unit ≠ .lze) :
    stepUnit (s.view s.unit.uses) = mapNext (State.view s.unit.uses) (stepUnit s) ∧ ∃ t, stepUnit s = .next t := by
  cases hu : s.unit with
  | none => exact absurd hu hn
  | lze => exact absurd hu he
  | lzd | glz =>
    obtain ⟨x, hx⟩ := hs.tokenContext (by simp [hu])
    obtain ⟨t, ht, -⟩ := stepUnit_window_step hx
    exact ⟨hu ▸ stepUnit_window_view hx, t, ht⟩
  | huf =>
    have hus : s.ustate = UState.symbol := by rwa [UStateLegal, hu] at hs
    obtain ⟨t, ht, -⟩ := stepUnit_huf_step hu hus
    exact ⟨hu ▸ stepUnit_huf_view hu hus, t, ht⟩
  | kc =>
    have hus : s.ustate = UState.byte := by rwa [UStateLegal, hu] at hs
    rw [stepUnit_of_cipher hu hus, stepUnit_of_cipher (s := s.view (UnitSel.uses .kc)) hu hus]
    exact ⟨congrArg Host.Outcome.next s.stepCipher_view, _, rfl⟩

/-- Two states of a decoder or of the cipher that look alike to the unit still do after a step. -/
theorem stepUnit_sameView {s1 s2 : State} (hs : UStateLegal s1) (hn : s1.unit ≠ .none) (he : s1.unit ≠ .lze)
    (hv : s1.view s1.unit.uses = s2.view s1.unit.uses) :
    ∃ t1 t2, stepUnit s1 = .next t1 ∧ stepUnit s2 = .next t2 ∧ t1.view s1.unit.uses = t2.view s1.unit.uses := by
  have hu : s2.unit = s1.unit := (congrArg State.unit hv).symm
  have hus : s2.ustate = s1.ustate := (congrArg State.ustate hv).symm
  have hs2 : UStateLegal s2 := by rwa [UStateLegal, hu, hus]
  obtain ⟨h1, t1, ht1⟩ := stepUnit_view hs hn he
  obtain ⟨h2, t2, ht2⟩ := stepUnit_view hs2 (hu ▸ hn) (hu ▸ he)
  rw [hu, ← hv, h1, ht1, ht2] at h2
  exact ⟨t1, t2, ht1, ht2, Host.Outcome.next.inj h2⟩

end Sys2Proof.Machine
end

section
/-! # Two encoders that hold the same trees (R39, R321)

The links of the tree RAMs that a start leaves as they were differ between two runs, the trees they hold do not, and the
search sees the trees alone. -/

namespace Sys2Proof.Machine

/-- What the encoder uses. -/
abbrev lzeUses : Uses := UnitSel.uses .lze

theorem TreeFrame.view {s t : State} (h : TreeFrame s t) : t.view lzeUses = s.view lzeUses := by
  rw [h]
  rfl

theorem MatchFrame.view {s t : State} (h : MatchFrame s t) :
    t.view lzeUses = { s.view lzeUses with matchPos := t.matchPos, matchLen := t.matchLen } := by
  rw [h]
  rfl

theorem MatchFrame.code {s t : State} (h : MatchFrame s t) : t.codePtr = s.codePtr ∧ t.codeAt = s.codeAt := by
  rw [h]
  exact ⟨rfl, rfl⟩

/-- A write of other registers, or of a window byte that is the first byte of no key in the trees, keeps the trees. -/
theorem Forest.of_same {s t : State} {T : Byte → SearchTree} (h : Forest s T)
    (hm : (t.lson, t.rson, t.dad) = (s.lson, s.rson, s.dad))
    (hw : ∀ c, ∀ p ∈ (T c).positions, t.winAt p = s.winAt p) : Forest t T := by
  simp only [Prod.mk.injEq] at hm
  obtain ⟨hl, hr, hd⟩ := hm
  have cells (x : TreeIdx) : CellsKept s t x := by
    rw [CellsKept, State.lsonAt, State.rsonAt, State.dadAt, hl, hr, hd]
    exact ⟨rfl, rfl, rfl⟩
  refine ⟨fun c => ?_, h.nodup, fun c p hp => (hw c p hp).trans (h.byte c p hp), fun p hp => h.linked p ?_⟩
  · rw [HoldsTree, (cells _).2.1]
    exact (h.holds c).of_cells cells
  · rwa [(cells _).2.2] at hp

/-- The positions of the trees are at least `lo` and at most `hi` behind `r` in the ring. -/
def Behind (T : Byte → SearchTree) (r : Ring) (lo hi : Nat) : Prop :=
  ∀ c, ∀ p ∈ (T c).positions, lo ≤ (r - p).toNat ∧ (r - p).toNat ≤ hi

theorem Behind.mono {T : Byte → SearchTree} {r : Ring} {lo lo' hi hi' : Nat} (h : Behind T r lo hi) (hl : lo' ≤ lo)
    (hh : hi ≤ hi') : Behind T r lo' hi' := fun c p hp =>
  ⟨hl.trans (h c p hp).1, (h c p hp).2.trans hh⟩

/-- Two states that look alike to the encoder, with the same bytes coded and the same trees. -/
structure SameSearch (T : Byte → SearchTree) (s1 s2 : State) : Prop where
  view : s1.view lzeUses = s2.view lzeUses
  code : ∀ i < s1.codePtr.toNat, s1.codeAt i = s2.codeAt i
  left : Forest s1 T
  right : Forest s2 T

section SameSearch

variable {T : Byte → SearchTree} {s1 s2 : State}

/-- What the view keeps is the same in both. -/
theorem SameSearch.same {α : Type} (h : SameSearch T s1 s2) (f : State → α) (hf : ∀ s : State, f (s.view lzeUses) = f s) :
    f s1 = f s2 := by
  rw [← hf s1, h.view, hf]

theorem SameSearch.winAt (h : SameSearch T s1 s2) : s1.winAt = s2.winAt := h.same State.winAt fun _ => rfl

theorem SameSearch.ringS (h : SameSearch T s1 s2) : s1.ringS = s2.ringS := h.same State.ringS fun _ => rfl

theorem SameSearch.ringR (h : SameSearch T s1 s2) : s1.ringR = s2.ringR := h.same State.ringR fun _ => rfl

theorem SameSearch.lookLen (h : SameSearch T s1 s2) : s1.lookLen = s2.lookLen := h.same State.lookLen fun _ => rfl

theorem SameSearch.matchLen (h : SameSearch T s1 s2) : s1.matchLen = s2.matchLen := h.same State.matchLen fun _ => rfl

theorem SameSearch.matchPos (h : SameSearch T s1 s2) : s1.matchPos = s2.matchPos := h.same State.matchPos fun _ => rfl

theorem SameSearch.codePtr (h : SameSearch T s1 s2) : s1.codePtr = s2.codePtr := h.same State.codePtr fun _ => rfl

theorem SameSearch.keyAt_eq (h : SameSearch T s1 s2) : keyAt s1 = keyAt s2 := h.same keyAt fun _ => rfl

/-- A change of registers that is the same to the view of both. -/
theorem SameSearch.map (h : SameSearch T s1 s2) {f : State → State}
    (hv : ∀ s, (f s).view lzeUses = f (s.view lzeUses))
    (hm : ∀ s, ((f s).lson, (f s).rson, (f s).dad) = (s.lson, s.rson, s.dad))
    (hc : ∀ s, (f s).codePtr = s.codePtr ∧ (f s).codeAt = s.codeAt)
    (hw : ∀ s c, ∀ p ∈ (T c).positions, (f s).winAt p = s.winAt p) : SameSearch T (f s1) (f s2) := by
  refine ⟨?_, fun i hi => ?_, h.left.of_same (hm s1) (hw s1), h.right.of_same (hm s2) (hw s2)⟩
  · rw [hv, hv, h.view]
  · rw [(hc s1).2, (hc s2).2]
    exact h.code i ((hc s1).1 ▸ hi)

/-- `DeleteNode` does the same to both. -/
theorem SameSearch.deleteNode (h : SameSearch T s1 s2) (p : Ring) :
    ∃ t1 t2, s1.deleteNode p = some t1 ∧ s2.deleteNode p = some t2 ∧ TreeFrame s1 t1 ∧
      SameSearch (fun c => (T c).delete p) t1 t2 := by
  obtain ⟨t1, h1, hf1, hT1⟩ := h.left.deleteNode p
  obtain ⟨t2, h2, hf2, hT2⟩ := h.right.deleteNode p
  refine ⟨t1, t2, h1, h2, hf1, hf1.view.trans (h.view.trans hf2.view.symm), ?_, hT1, hT2⟩
  rw [hf1.toMatchFrame.code.1, hf1.toMatchFrame.code.2, hf2.toMatchFrame.code.2]
  exact h.code

/-- `InsertNode` does the same to both, and finds the same match. -/
theorem SameSearch.insertNode (h : SameSearch T s1 s2) {r : Ring} (hr : ∀ c, r ∉ (T c).positions) :
    ∃ t1 t2, s1.insertNode r = some t1 ∧ s2.insertNode r = some t2 ∧ MatchFrame s1 t1 ∧
      SameSearch (insertedForest s1 T r) t1 t2 := by
  obtain ⟨t1, h1, hf1, hT1, hb1⟩ := h.left.insertNode hr
  obtain ⟨t2, h2, hf2, hT2, hb2⟩ := h.right.insertNode hr
  have hforest : insertedForest s2 T r = insertedForest s1 T r := by
    rw [insertedForest, insertedForest, h.winAt, h.keyAt_eq]
  have hbest : t1.best = t2.best := by rw [hb1, hb2, h.winAt, h.keyAt_eq, h.matchPos]
  obtain ⟨hlen, hpos⟩ := Prod.mk.inj hbest
  refine ⟨t1, t2, h1, h2, hf1, ?_, ?_, hT1, hforest ▸ hT2⟩
  · rw [hf1.view, hf2.view, h.view, hpos, BitVec.eq_of_toNat_eq hlen]
  · rw [hf1.code.1, hf1.code.2, hf2.code.2]
    exact h.code

/-! ## Coding a token (R177 to R180) -/

/-- The view and the coded bytes may change, the trees and the window stay. -/
theorem SameSearch.of_coded (h : SameSearch T s1 s2) {t1 t2 : State} (h1 : GroupFrame s1 t1) (h2 : GroupFrame s2 t2)
    (hv : t1.view lzeUses = t2.view lzeUses) (hc : ∀ i < t1.codePtr.toNat, t1.codeAt i = t2.codeAt i) :
    SameSearch T t1 t2 := by
  have hw1 : t1.winAt = s1.winAt := by rw [h1]; rfl
  have hw2 : t2.winAt = s2.winAt := by rw [h2]; rfl
  refine ⟨hv, hc, h.left.of_same ?_ fun _ p _ => congrFun hw1 p, h.right.of_same ?_ fun _ p _ => congrFun hw2 p⟩
  · rw [h1]
  · rw [h2]

theorem SameSearch.clampMatch (h : SameSearch T s1 s2) : SameSearch T s1.clampMatch s2.clampMatch := by
  have hv (s : State) : s.clampMatch.view lzeUses = (s.view lzeUses).clampMatch := by
    rw [State.clampMatch_eq, State.clampMatch_eq]
    rfl
  refine h.of_coded s1.clampMatch_frame s2.clampMatch_frame ?_ ?_
  · rw [hv, hv, h.view]
  · rw [State.clampMatch_eq, State.clampMatch_eq]
    exact h.code

theorem SameSearch.emitLiteral (h : SameSearch T s1 s2) :
    s1.emitLiteral.view lzeUses = s2.emitLiteral.view lzeUses ∧
      ∀ i < s1.emitLiteral.codePtr.toNat, s1.emitLiteral.codeAt i = s2.emitLiteral.codeAt i := by
  have hmask : s1.mask = s2.mask := h.same State.mask fun _ => rfl
  rw [State.emitLiteral_eq, State.emitLiteral_eq]
  refine ⟨congrArg (fun s : State => { s with matchLen := 1, codePtr := s.codePtr + 1 }) h.view, fun i hi => ?_⟩
  have hlt : i ≠ s1.codePtr.toNat → i < s1.codePtr.toNat := by
    have : (s1.codePtr + 1).toNat ≤ s1.codePtr.toNat + 1 := by bv_omega
    dsimp only at hi
    omega
  simp only [State.codeAt, Memory.read_write]
  rw [← h.codePtr, h.winAt, h.ringR]
  split
  · rfl
  · next hi' =>
    have hci := h.code i (hlt hi')
    split
    · next h0 =>
      subst h0
      rw [hmask]
      exact congrArg (· ||| s2.mask) hci
    · exact hci

theorem SameSearch.emitMatch (h : SameSearch T s1 s2) :
    s1.emitMatch.view lzeUses = s2.emitMatch.view lzeUses ∧
      ∀ i < s1.emitMatch.codePtr.toNat, s1.emitMatch.codeAt i = s2.emitMatch.codeAt i := by
  rw [State.emitMatch_eq, State.emitMatch_eq]
  refine ⟨congrArg (fun s : State => { s with codePtr := s.codePtr + 2 }) h.view, fun i hi => ?_⟩
  have hlt : i ≠ s1.codePtr.toNat + 1 → i ≠ s1.codePtr.toNat → i < s1.codePtr.toNat := by
    have : (s1.codePtr + 2).toNat ≤ s1.codePtr.toNat + 2 := by bv_omega
    dsimp only at hi
    omega
  simp only [State.codeAt, Memory.read_write]
  rw [← h.codePtr, h.ringR, h.matchPos, h.matchLen]
  split
  · rfl
  · next h1 =>
    split
    · rfl
    · next h0 => exact h.code i (hlt h1 h0)

theorem SameSearch.emitToken (h : SameSearch T s1 s2) : SameSearch T s1.emitToken s2.emitToken := by
  have hboth : s1.emitToken.view lzeUses = s2.emitToken.view lzeUses ∧
      ∀ i < s1.emitToken.codePtr.toNat, s1.emitToken.codeAt i = s2.emitToken.codeAt i := by
    unfold State.emitToken
    rw [← h.matchLen]
    split
    · exact h.emitLiteral
    · exact h.emitMatch
  exact h.of_coded s1.emitToken_frame s2.emitToken_frame hboth.1 hboth.2

/-- The bytes coded so far are the same in both. -/
theorem SameSearch.codeBytes (h : SameSearch T s1 s2) :
    (List.range s1.codePtr.toNat).map s1.codeAt = (List.range s2.codePtr.toNat).map s2.codeAt := by
  rw [← h.codePtr]
  exact List.map_congr_left fun i hi => h.code i (List.mem_range.mp hi)

theorem SameSearch.flushGroup (h : SameSearch T s1 s2) : SameSearch T s1.flushGroup s2.flushGroup := by
  have hf (s : State) : GroupFrame s s.flushGroup := by rw [State.flushGroup_eq]; rfl
  refine h.of_coded (hf s1) (hf s2) ?_ ?_
  · rw [State.flushGroup_eq, State.flushGroup_eq, h.codeBytes, h.codePtr]
    exact congrArg (fun s : State => { s with
      dst := s.dst ++ (List.range s2.codePtr.toNat).map s2.codeAt
      outCount := s.outCount + BitVec.ofNat 64 s2.codePtr.toNat, codePtr := 1, mask := 0x01 }) h.view
  · rw [State.flushGroup_eq, State.flushGroup_eq]
    intro i hi
    obtain rfl : i = 0 := Nat.lt_one_iff.mp hi
    simp only [State.codeAt, Memory.read_write, if_pos]

theorem SameSearch.endToken (h : SameSearch T s1 s2) : SameSearch T s1.endToken s2.endToken := by
  have hmask : s1.mask = s2.mask := h.same State.mask fun _ => rfl
  have hshift : SameSearch T { s1 with mask := s1.mask <<< 1 } { s2 with mask := s2.mask <<< 1 } :=
    h.of_coded rfl rfl (congrArg (fun s : State => { s with mask := s.mask <<< 1 }) h.view) h.code
  unfold State.endToken
  rw [← hmask] at hshift ⊢
  split
  · exact hshift.flushGroup
  · exact hshift

end SameSearch

end Sys2Proof.Machine
end

section
/-! # The steps of two encoders (R176 to R183) -/

namespace Sys2Proof.Machine

/-- Two running encoders between two tokens: alike, with the same trees, `s` `F` ahead of `r`, and no position in a tree
but the 4078 before `r` and, if `lo` is 0, `r` itself (R186 (e), (g)). -/
def SameEncoder (lo : Nat) (s1 s2 : State) : Prop :=
  ∃ T, SameSearch T s1 s2 ∧ s1.ringS = s1.ringR + 18 ∧ Behind T s1.ringR lo 4078

theorem SameEncoder.mono {s1 s2 : State} (h : SameEncoder 1 s1 s2) : SameEncoder 0 s1 s2 := by
  obtain ⟨T, hs, hr, hb⟩ := h
  exact ⟨T, hs, hr, hb.mono (Nat.zero_le 1) le_rfl⟩

/-! ## One position on (R181, R182) -/

/-- `DeleteNode(s)` takes the oldest position out of the trees. -/
theorem SameEncoder.deleteOldest {s1 s2 : State} (h : SameEncoder 0 s1 s2) :
    ∃ t1 t2 T, s1.deleteNode s1.ringS = some t1 ∧ s2.deleteNode s2.ringS = some t2 ∧ SameSearch T t1 t2 ∧
      t1.ringS = t1.ringR + 18 ∧ Behind T t1.ringR 0 4077 := by
  obtain ⟨T, hs, hr, hb⟩ := h
  obtain ⟨t1, t2, h1, h2, hf, ht⟩ := hs.deleteNode s1.ringS
  have hkeep : t1.ringS = s1.ringS ∧ t1.ringR = s1.ringR := by rw [hf]; exact ⟨rfl, rfl⟩
  obtain ⟨hkS, hkR⟩ := hkeep
  refine ⟨t1, t2, _, h1, hs.ringS ▸ h2, ht, by rw [hkS, hkR, hr], fun c p hp => ⟨Nat.zero_le _, ?_⟩⟩
  obtain ⟨hp, hne⟩ := (SearchTree.mem_delete (hs.left.nodup c)).mp hp
  have hle := (hb c p hp).2
  rw [hkR]
  rw [hr] at hne
  bv_omega

/-- With the oldest position out of the trees, both rings move on. -/
theorem SameSearch.slide {T : Byte → SearchTree} {s1 s2 : State} (h : SameSearch T s1 s2)
    (hr : s1.ringS = s1.ringR + 18) (hb : Behind T s1.ringR 0 4077) : SameEncoder 1 s1.slide s2.slide := by
  refine ⟨T, h.map (fun _ => rfl) (fun _ => rfl) (fun _ => ⟨rfl, rfl⟩) fun _ _ _ _ => rfl, ?_, fun c p hp => ?_⟩
  · change s1.ringS + 1 = s1.ringR + 1 + 18
    bv_omega
  · have hle := (hb c p hp).2
    change 1 ≤ (s1.ringR + 1 - p).toNat ∧ (s1.ringR + 1 - p).toNat ≤ 4078
    bv_omega

/-- A byte at the place of the oldest position, which is in no tree. -/
theorem SameSearch.load {T : Byte → SearchTree} {s1 s2 : State} (h : SameSearch T s1 s2)
    (hr : s1.ringS = s1.ringR + 18) (hb : Behind T s1.ringR 0 4077) (c : Byte) :
    SameSearch T (s1.setWin s1.ringS c) (s2.setWin s2.ringS c) := by
  rw [← h.ringS]
  refine h.map (f := fun s => s.setWin s1.ringS c) (fun _ => rfl) (fun _ => rfl) (fun _ => ⟨rfl, rfl⟩) fun s d p hp => ?_
  have hle := (hb d p hp).2
  rw [State.winAt_setWin, if_neg]
  rintro rfl
  bv_omega

/-- `InsertNode(r)` at the new position. -/
theorem SameEncoder.insertNewest {s1 s2 : State} (h : SameEncoder 1 s1 s2) :
    ∃ t1 t2, s1.insertNode s1.ringR = some t1 ∧ s2.insertNode s2.ringR = some t2 ∧ SameEncoder 0 t1 t2 := by
  obtain ⟨T, hs, hr, hb⟩ := h
  have hfresh : ∀ c, s1.ringR ∉ (T c).positions := fun c hp => by
    have hle := (hb c _ hp).1
    bv_omega
  obtain ⟨t1, t2, h1, h2, hf, ht⟩ := hs.insertNode hfresh
  have hkeep : t1.ringS = s1.ringS ∧ t1.ringR = s1.ringR := by rw [hf]; exact ⟨rfl, rfl⟩
  obtain ⟨hkS, hkR⟩ := hkeep
  refine ⟨t1, t2, h1, hs.ringR ▸ h2, _, ht, by rw [hkS, hkR, hr], fun c p hp => ⟨Nat.zero_le _, ?_⟩⟩
  rw [hkR]
  rcases mem_insertedForest hp with rfl | hp
  · simp
  · exact (hb c p hp).2

/-! ## `Drain` and `Advance` -/

theorem SameEncoder.drain (m : Nat) {s1 s2 : State} (h : SameEncoder 0 s1 s2) :
    ∃ t1 t2, State.drain m s1 = some t1 ∧ State.drain m s2 = some t2 ∧ SameEncoder 0 t1 t2 := by
  induction m generalizing s1 s2 with
  | zero => exact ⟨s1, s2, rfl, rfl, h⟩
  | succ m ih =>
    obtain ⟨d1, d2, T, h1, h2, hs, hr, hb⟩ := h.deleteOldest
    have hdec : SameSearch T { d1 with lookLen := d1.lookLen - 1 } { d2 with lookLen := d2.lookLen - 1 } :=
      hs.map (f := fun s => { s with lookLen := s.lookLen - 1 }) (fun _ => rfl) (fun _ => rfl) (fun _ => ⟨rfl, rfl⟩)
        fun _ _ _ _ => rfl
    have hslide : SameEncoder 1 { d1.slide with lookLen := d1.lookLen - 1 } { d2.slide with lookLen := d2.lookLen - 1 } :=
      hdec.slide hr hb
    have hlook : d1.lookLen = d2.lookLen := hs.lookLen
    unfold State.drain
    rw [h1, h2]
    dsimp only
    rw [← hlook] at hslide ⊢
    split
    · exact ih hslide.mono
    · obtain ⟨i1, i2, hi1, hi2, hi⟩ := hslide.insertNewest
      have hi1' : State.insertNode { d1.slide with lookLen := d1.lookLen - 1 } d1.slide.ringR = some i1 := hi1
      have hi2' : State.insertNode { d2.slide with lookLen := d1.lookLen - 1 } d2.slide.ringR = some i2 := hi2
      rw [hi1', hi2']
      exact ih hi

/-- Both read the same byte of `SRC`, or both are at its end. -/
theorem SameSearch.nextInput {T : Byte → SearchTree} {s1 s2 : State} (h : SameSearch T s1 s2) :
    (s1.nextInput = none ∧ s2.nextInput = none) ∨
    ∃ c, s1.nextInput = some (c, { s1 with pos := s1.pos + 1 }) ∧ s2.nextInput = some (c, { s2 with pos := s2.pos + 1 }) ∧
      SameSearch T { s1 with pos := s1.pos + 1 } { s2 with pos := s2.pos + 1 } := by
  have hpos : s1.pos = s2.pos := h.same State.pos fun _ => rfl
  have hlen : s1.srcLen = s2.srcLen := h.same State.srcLen fun _ => rfl
  have hsrc : s1.src = s2.src := h.same State.src fun _ => rfl
  rcases s1.nextInput_cases with ⟨he, h1⟩ | ⟨he, h1⟩
  · exact .inl ⟨h1, if_pos (by rw [← hpos, ← hlen, he])⟩
  · refine .inr ⟨_, h1, ?_, h.map (f := fun s => { s with pos := s.pos + 1 }) (fun _ => rfl) (fun _ => rfl)
      (fun _ => ⟨rfl, rfl⟩) fun _ _ _ _ => rfl⟩
    rw [hsrc, hpos]
    exact if_neg (by rw [← hpos, ← hlen]; exact he)

theorem SameEncoder.advance (k : Nat) {s1 s2 : State} (h : SameEncoder 0 s1 s2) :
    ∃ t1 t2, State.advance k s1 = some t1 ∧ State.advance k s2 = some t2 ∧ SameEncoder 0 t1 t2 := by
  induction k generalizing s1 s2 with
  | zero => exact ⟨s1, s2, rfl, rfl, h⟩
  | succ k ih =>
    obtain ⟨T, hs, hr, hb⟩ := h
    unfold State.advance
    rcases hs.nextInput with ⟨h1, h2⟩ | ⟨c, h1, h2, hn⟩ <;> rw [h1, h2] <;> dsimp only
    · exact SameEncoder.drain (k + 1) ⟨T, hs, hr, hb⟩
    · obtain ⟨d1, d2, U, hd1, hd2, hd, hdr, hdb⟩ := SameEncoder.deleteOldest ⟨T, hn, hr, hb⟩
      dsimp only at hd1 hd2
      rw [hd1, hd2]
      dsimp only
      obtain ⟨i1, i2, hi1, hi2, hi⟩ := ((hd.load hdr hdb c).slide hdr hdb).insertNewest
      rw [hi1, hi2]
      exact ih hi

/-! ## The steps -/

/-- No position is in a tree before the first search. -/
def emptyForest : Byte → SearchTree := fun _ => .nil

theorem behind_emptyForest (r : Ring) (lo hi : Nat) : Behind emptyForest r lo hi := fun _ _ hp => nomatch hp

theorem SameSearch.loadLookahead (k : Nat) {s1 s2 : State} (h : SameSearch emptyForest s1 s2)
    (hr : s1.ringS = s1.ringR + 18) :
    SameSearch emptyForest (State.loadLookahead k s1) (State.loadLookahead k s2) ∧
      (State.loadLookahead k s1).ringS = (State.loadLookahead k s1).ringR + 18 := by
  induction k generalizing s1 s2 with
  | zero => exact ⟨h, hr⟩
  | succ k ih =>
    unfold State.loadLookahead
    rcases h.nextInput with ⟨h1, h2⟩ | ⟨c, h1, h2, hn⟩ <;> rw [h1, h2] <;> dsimp only
    · exact ⟨h, hr⟩
    · refine ih ?_ hr
      have hload := hn.map (f := fun s => { s.setWin (s1.ringR + s1.lookLen.setWidth 12) c with lookLen := s.lookLen + 1 })
        (fun _ => rfl) (fun _ => rfl) (fun _ => ⟨rfl, rfl⟩) fun _ _ _ hp => nomatch hp
      rw [← h.ringR, ← h.lookLen] at *
      exact hload

/-- Two running encoders: alike, with the same trees, which are empty before `Prime`. -/
def SameEncoderRun (s1 s2 : State) : Prop :=
  SameEncoder 0 s1 s2 ∧ (s1.ustate = UState.prime → SameSearch emptyForest s1 s2)

/-- After `Prime`, `ustate` is the same in both. -/
theorem SameEncoder.setUstate {s1 s2 : State} (h : SameEncoder 0 s1 s2) {x : BitVec 3} (hx : x ≠ UState.prime) :
    SameEncoderRun { s1 with ustate := x } { s2 with ustate := x } := by
  obtain ⟨T, hs, hr, hb⟩ := h
  exact ⟨⟨T, hs.map (f := fun s => { s with ustate := x }) (fun _ => rfl) (fun _ => rfl) (fun _ => ⟨rfl, rfl⟩)
    fun _ _ _ _ => rfl, hr, hb⟩, fun e => absurd e hx⟩

theorem SameSearch.stepPrime {s1 s2 : State} (h : SameSearch emptyForest s1 s2) (hr : s1.ringS = s1.ringR + 18) :
    ∃ t1 t2, s1.stepPrime = some t1 ∧ s2.stepPrime = some t2 ∧ SameEncoderRun t1 t2 := by
  obtain ⟨hl, hlr⟩ := h.loadLookahead (Config.F - s1.lookLen.toNat) hr
  unfold State.stepPrime
  rw [← h.lookLen]
  dsimp only
  generalize State.loadLookahead (Config.F - s1.lookLen.toNat) s1 = l1 at *
  generalize State.loadLookahead (Config.F - s1.lookLen.toNat) s2 = l2 at *
  have hlook : l1.lookLen = l2.lookLen := hl.lookLen
  by_cases h0 : l1.lookLen = 0
  · rw [if_pos h0, if_pos (hlook ▸ h0)]
    exact ⟨_, _, rfl, rfl, SameEncoder.setUstate (x := UState.flush) ⟨_, hl, hlr, behind_emptyForest _ _ _⟩ (by decide)⟩
  · obtain ⟨i1, i2, hi1, hi2, hi⟩ := SameEncoder.insertNewest ⟨_, hl, hlr, behind_emptyForest _ _ _⟩
    rw [if_neg h0, if_neg (hlook ▸ h0), hi1, hi2]
    exact ⟨_, _, rfl, rfl, hi.setUstate (x := UState.encode) (by decide)⟩

theorem SameEncoder.codeToken {s1 s2 : State} (h : SameEncoder 0 s1 s2) :
    SameEncoder 0 s1.clampMatch.emitToken.endToken s2.clampMatch.emitToken.endToken := by
  obtain ⟨T, hs, hr, hb⟩ := h
  have hf := s1.codeToken_frame
  have hkeep : s1.clampMatch.emitToken.endToken.ringS = s1.ringS ∧
      s1.clampMatch.emitToken.endToken.ringR = s1.ringR := by rw [hf]; exact ⟨rfl, rfl⟩
  obtain ⟨hkS, hkR⟩ := hkeep
  exact ⟨T, hs.clampMatch.emitToken.endToken, by rw [hkS, hkR, hr], hkR ▸ hb⟩

theorem SameEncoder.stepEncode {s1 s2 : State} (h : SameEncoder 0 s1 s2) (hus : s1.ustate = UState.encode) :
    ∃ t1 t2, s1.stepEncode = some t1 ∧ s2.stepEncode = some t2 ∧ SameEncoderRun t1 t2 := by
  have hc := h.codeToken
  have hf := s1.codeToken_frame
  unfold State.stepEncode
  dsimp only
  generalize s1.clampMatch.emitToken.endToken = c1 at *
  generalize s2.clampMatch.emitToken.endToken = c2 at *
  have hcu : c1.ustate = UState.encode := by rw [hf]; exact hus
  obtain ⟨T, hs, hr, hb⟩ := hc
  have hlen := hs.matchLen
  have hlast : SameEncoder 0 { c1 with lastLen := c1.matchLen } { c2 with lastLen := c2.matchLen } :=
    ⟨T, hs.map (f := fun s => { s with lastLen := s.matchLen }) (fun _ => rfl) (fun _ => rfl) (fun _ => ⟨rfl, rfl⟩)
      fun _ _ _ _ => rfl, hr, hb⟩
  obtain ⟨a1, a2, ha1, ha2, ha⟩ := hlast.advance c1.matchLen.toNat
  rw [← hlen] at ha2 ⊢
  rw [ha1, ha2]
  dsimp only
  have hau : a1.ustate = UState.encode := by
    have hfa := State.advance_frame _ _ ha1
    rw [hfa]
    exact hcu
  have hlook : a1.lookLen = a2.lookLen := by
    obtain ⟨_, hs', -⟩ := ha
    exact hs'.lookLen
  by_cases h0 : a1.lookLen = 0
  · rw [if_pos h0, if_pos (hlook ▸ h0)]
    exact ⟨_, _, rfl, rfl, ha.setUstate (x := UState.flush) (by decide)⟩
  · rw [if_neg h0, if_neg (hlook ▸ h0)]
    exact ⟨_, _, rfl, rfl, ha, fun e => by rw [hau] at e; exact absurd e (by decide)⟩

theorem SameEncoder.stepFlush {s1 s2 : State} (h : SameEncoder 0 s1 s2) (hus : s1.ustate = UState.flush) :
    SameEncoderRun s1.stepFlush s2.stepFlush := by
  obtain ⟨T, hs, hr, hb⟩ := h
  rw [State.stepFlush_eq, State.stepFlush_eq]
  refine ⟨⟨T, ⟨?_, hs.code, hs.left.of_same rfl fun _ _ _ => rfl, hs.right.of_same rfl fun _ _ _ => rfl⟩, hr, hb⟩,
    fun e => ?_⟩
  · rw [hs.codeBytes]
    exact congrArg (fun s : State => { s with
      phase := .done
      dst := if 1 < s.codePtr.toNat then s.dst ++ (List.range s2.codePtr.toNat).map s2.codeAt else s.dst
      outCount := if 1 < s.codePtr.toNat then s.outCount + BitVec.ofNat 64 s.codePtr.toNat else s.outCount }) hs.view
  · exact absurd (hus.symm.trans e) (by decide)

/-- Two encoders that are alike, with the same trees, still are after a step, which both can do. -/
theorem stepUnit_sameEncoder {s1 s2 : State} (hu : s1.unit = .lze) (hus : UStateLegal s1) (h : SameEncoderRun s1 s2) :
    ∃ t1 t2, stepUnit s1 = .next t1 ∧ stepUnit s2 = .next t2 ∧ SameEncoderRun t1 t2 := by
  obtain ⟨hs, hprime⟩ := h
  have hview : s2.unit = s1.unit ∧ s2.ustate = s1.ustate := by
    obtain ⟨_, hs', -⟩ := hs
    exact ⟨(hs'.same State.unit fun _ => rfl).symm, (hs'.same State.ustate fun _ => rfl).symm⟩
  obtain ⟨hu2, hus2⟩ := hview
  have plain {s : State} (hu : s.unit = .lze) : stepUnit s =
      if s.ustate = UState.prime then treeStep s.stepPrime
      else if s.ustate = UState.encode then treeStep s.stepEncode
      else if s.ustate = UState.flush then .next s.stepFlush
      else .fault .noStepRule := by
    rw [stepUnit_of_plain (.inl hu), stepPlainUnit, hu]
  have hle : s1.ustate ≤ 2 := by rwa [UStateLegal, hu] at hus
  rw [plain hu, plain (hu2.trans hu), hus2]
  split
  · next hp =>
    obtain ⟨T, -, hr, -⟩ := hs
    obtain ⟨t1, t2, h1, h2, ht⟩ := (hprime hp).stepPrime hr
    rw [h1, h2]
    exact ⟨t1, t2, rfl, rfl, ht⟩
  · next hp =>
    split
    · next he =>
      obtain ⟨t1, t2, h1, h2, ht⟩ := hs.stepEncode he
      rw [h1, h2]
      exact ⟨t1, t2, rfl, rfl, ht⟩
    · next he =>
      split
      · next hf => exact ⟨_, _, rfl, rfl, hs.stepFlush hf⟩
      · next hf => exact absurd hle (by bv_omega)

end Sys2Proof.Machine
end

section
/-! # The result is a function of the operands (R39, R281, R321) -/

namespace Sys2Proof.Machine

/-! ## The start -/

/-- What a start sees of the state: the operand registers, `SRC` and `HT`. -/
def State.operands (s : State) : State :=
  { State.reset with
    agenda := s.agenda, resetLine := s.resetLine, srcLen := s.srcLen, take := s.take, skip := s.skip
    maxOut := s.maxOut, fill := s.fill, keySeed := s.keySeed, src := s.src, ht := s.ht }

theorem SameOperands.operands_eq {s1 s2 : State} (h : SameOperands s1 s2) (h1 : EngineAlone s1) (h2 : EngineAlone s2) :
    s1.operands = s2.operands := by
  obtain ⟨hl, ht, hs, hm, hf, hk, hsrc, hht⟩ := h
  obtain ⟨ha1, hr1⟩ := h1
  obtain ⟨ha2, hr2⟩ := h2
  unfold State.operands
  rw [ha1, ha2, hr1, hr2, hl, ht, hs, hm, hf, hk, hsrc, hht]

theorem State.start_view (s : State) {p : StartSpec} (hp : p.unit ≠ .none) :
    (s.start p).view p.unit.uses = (s.operands.start p).view p.unit.uses := by
  obtain ⟨u, k, lk, ce, us, ut⟩ := p
  rw [State.start, State.start, State.startPhase_eq, State.startPhase_eq]
  cases u with
  | none => exact absurd rfl hp
  | lzd | lze | huf | glz | kc => rfl

/-- After a start of the encoder every tree is empty (R173). -/
theorem State.start_forest (s : State) {p : StartSpec} (hu : p.unit = .lze) : Forest (s.start p) emptyForest := by
  rcases s.start_encoder p with ⟨-, -, hr, hd, -⟩ | ⟨hne, -⟩
  · refine ⟨fun c => ?_, fun _ => List.nodup_nil, fun _ _ h => (nomatch h), fun q hq => absurd ?_ hq⟩
    · have hroot : (s.start p).rsonAt (rootSlot c) = Config.nil := by
        have := c.isLt
        rw [State.rsonAt, hr, Memory.read_clear, rootSlot_toNat, if_pos (by omega)]
      exact hroot
    · rw [State.dadAt, hd, Memory.read_clear, ringNode_toNat, if_pos ⟨Nat.zero_le _, q.isLt⟩]
  · exact absurd hu hne

/-! ## The run -/

/-- Two runs of one command from the same operands, step by step. -/
structure SameRun (s1 s2 : State) : Prop where
  alone : EngineAlone s1
  legal : ControlLegal s1
  view : s1.view s1.unit.uses = s2.view s1.unit.uses
  encoder : s1.phase = .busy → s1.unit = .lze → SameEncoderRun s1 s2

theorem SameRun.start {s1 s2 : State} {p : StartSpec} (hp : p.unit ≠ .none) (h1 : EngineAlone s1) (h2 : EngineAlone s2)
    (h : SameOperands s1 s2) : SameRun (s1.start p) (s2.start p) := by
  obtain ⟨-, -, -, -, -, -, -, -, hunit, -⟩ := s1.start_shell hp
  have hview : (s1.start p).view p.unit.uses = (s2.start p).view p.unit.uses := by
    rw [s1.start_view hp, s2.start_view hp, h.operands_eq h1 h2]
  refine ⟨?_, ControlLegal.start s1 hp, hunit ▸ hview, fun _ hu => ?_⟩
  · rw [s1.start_frame p]
    exact h1
  · have hu' : p.unit = .lze := hunit.symm.trans hu
    rw [hu'] at hview
    rcases s1.start_encoder p with ⟨-, hc1, -, -, hR, hS, -, -, -, -, hptr, -⟩ | ⟨hne, -⟩
    · rcases s2.start_encoder p with ⟨-, hc2, -⟩ | ⟨hne, -⟩
      · have hsame : SameSearch emptyForest (s1.start p) (s2.start p) := by
          refine ⟨hview, fun i hi => ?_, s1.start_forest hu', s2.start_forest hu'⟩
          rw [hptr] at hi
          obtain rfl : i = 0 := Nat.lt_one_iff.mp hi
          rw [State.codeAt, State.codeAt, hc1, hc2, Memory.read_write, Memory.read_write]
          rfl
        exact ⟨⟨emptyForest, hsame, by rw [hR, hS]; rfl, behind_emptyForest _ _ _⟩, fun _ => hsame⟩
      · exact absurd hu' hne
    · exact absurd hu' hne

/-- With no turn queued a step is the engine's. -/
theorem step_alone {s : State} (h : EngineAlone s) : step s = engineTurn s := by
  unfold step takeTurn
  rw [h.1]

theorem SameRun.stepUnit {s1 s2 : State} (h : SameRun s1 s2) (hb : s1.phase = .busy) :
    ∃ t1 t2, stepUnit s1 = .next t1 ∧ stepUnit s2 = .next t2 ∧ SameRun t1 t2 := by
  obtain ⟨⟨ha, hr⟩, hl, hv, he⟩ := h
  have hnext {t1 t2 : State} (h1 : Machine.stepUnit s1 = .next t1) (hv' : t1.view s1.unit.uses = t2.view s1.unit.uses)
      (he' : s1.unit = .lze → SameEncoderRun t1 t2) : SameRun t1 t2 := by
    obtain ⟨-, -, hu, -, -, -, -, hr', -, -, ha', -⟩ := stepUnit_keeps h1
    exact ⟨⟨ha'.trans ha, hr'.trans hr⟩, hl.engine hb h1, hu ▸ hv', fun _ hu' => he' (hu.symm.trans hu')⟩
  by_cases hu : s1.unit = .lze
  · obtain ⟨t1, t2, h1, h2, ht⟩ := stepUnit_sameEncoder hu hl.1 (he hb hu)
    obtain ⟨⟨T, hs, -⟩, -⟩ := id ht
    exact ⟨t1, t2, h1, h2, hnext h1 (hu ▸ hs.view) fun _ => ht⟩
  · obtain ⟨t1, t2, h1, h2, ht⟩ := stepUnit_sameView hl.1 (hl.2.1 hb) hu hv
    exact ⟨t1, t2, h1, h2, hnext h1 ht fun e => absurd e hu⟩

theorem SameRun.step {s1 s2 : State} (h : SameRun s1 s2) :
    ∃ t1 t2, step s1 = .next t1 ∧ step s2 = .next t2 ∧ SameRun t1 t2 := by
  have hv := h.view
  have hp : s2.phase = s1.phase := (congrArg State.phase hv).symm
  have hr : s2.resetLine = s1.resetLine := (congrArg State.resetLine hv).symm
  have ha : s2.agenda = s1.agenda := (congrArg State.agenda hv).symm
  have h2 : EngineAlone s2 := ⟨ha.trans h.alone.1, hr.trans h.alone.2⟩
  rw [step_alone h.alone, step_alone h2]
  by_cases hb : s1.phase = .busy
  · rw [engineTurn_busy hb h.alone.2, engineTurn_busy (hp.trans hb) h2.2]
    exact h.stepUnit hb
  · exact ⟨s1, s2, if_neg fun e => hb e.1, if_neg fun e => hb (hp.symm.trans e.1), h⟩

theorem run_succ {s u : State} (k : Nat) (h : Machine.step s = .next u) :
    Host.Core.run Sys2Proof.core (k + 1) s = Host.Core.run Sys2Proof.core k u := by
  unfold Sys2Proof.core
  simp only [Host.Core.run, h]

theorem SameRun.run (k : Nat) {s1 s2 : State} (h : SameRun s1 s2) :
    ∃ t1 t2, Host.Core.run Sys2Proof.core k s1 = .next t1 ∧ Host.Core.run Sys2Proof.core k s2 = .next t2 ∧
      SameRun t1 t2 := by
  induction k generalizing s1 s2 with
  | zero => exact ⟨s1, s2, rfl, rfl, h⟩
  | succ k ih =>
    obtain ⟨u1, u2, h1, h2, hu⟩ := h.step
    rw [run_succ k h1, run_succ k h2]
    exact ih hu

/-- The view of its own unit shows `STATUS`: `lwm` is in it only for GLZ (R23). -/
theorem State.status_view (s : State) : (s.view s.unit.uses).status = s.status := by
  have hlwm : (s.view s.unit.uses).statusLwm = s.statusLwm := by
    unfold State.statusLwm State.view
    cases hu : s.unit <;> rfl
  unfold State.status
  rw [hlwm]
  rfl

theorem SameRun.result {s1 s2 : State} (h : SameRun s1 s2) : SameResult s1 s2 := by
  have hv := h.view
  have hu : s2.unit = s1.unit := (congrArg State.unit hv).symm
  have hs : (s1.view s1.unit.uses).status = (s2.view s1.unit.uses).status := congrArg State.status hv
  rw [s1.status_view, ← hu, s2.status_view] at hs
  have same {α : Type} (f : State → α) (hf : ∀ s : State, f (s.view s1.unit.uses) = f s) : f s1 = f s2 := by
    rw [← hf s1, hv, hf]
  exact ⟨same State.phase fun _ => rfl, same State.err fun _ => rfl, same State.dst fun _ => rfl,
    same State.pos fun _ => rfl, same State.outCount fun _ => rfl, hs⟩

/-- Settles O60: the two starts agree on what the unit sees, every step keeps that, and the result is part of it. -/
theorem resultsForgetThePast : Obligations.ResultsForgetThePast := by
  intro i s1 s2 hc ha hn hb1 hb2 h1 h2 h k
  obtain ⟨p, hp⟩ := startSpec_isSome hc ha hn
  obtain ⟨t1, t2, ht1, ht2, ht⟩ := (SameRun.start (startSpec_unit_ne_none hp) h1 h2 h).run k
  exact ⟨_, _, t1, t2, exec_start_next hp hb1, exec_start_next hp hb2, ht1, ht2, ht.result⟩

end Sys2Proof.Machine
end

section
/-! # Byte writes to `SRC` and the copies of the window (R61, R72, R133, R139) -/

namespace Sys2Proof.Machine

/-! ## `SRC` (R61, R265) -/

/-- Settles O32: the step is the write of one cell of `SRC`. -/
theorem sourceWriteChangesOneByte : Obligations.SourceWriteChangesOneByte := by
  intro i b rest s h
  obtain ⟨-, hr⟩ := id h
  refine ⟨{ s with agenda := rest }.writeSrc i b, ?_, fun a => ?_, rfl⟩
  · rw [step_hostTurnNext h, hostTurn]
    dsimp only
    rw [hr, if_neg Bool.false_ne_true]
  · exact Memory.read_write _ s.src i.toNat b a

/-! ## One more byte produced (R132, R135) -/

theorem Unhindered.mono {m n : Nat} {s : State} (h : Unhindered n s) (hmn : m ≤ n) : Unhindered m s :=
  ⟨fun hl => hmn.trans_lt (h.1 hl), fun hc => (Nat.add_le_add_left hmn _).trans (h.2 hc)⟩

/-- Nothing produced yet. -/
theorem Produced.zero (byte : Nat → Byte) (s : State) : Produced byte 0 s s := by
  simp [Produced]

/-! A byte that is counted is not yet withheld or delivered. -/

@[simp] theorem State.countByte_dst (s : State) (b : Byte) : (s.countByte b).dst = s.dst := by
  rw [State.countByte_eq]
@[simp] theorem State.countByte_skipRem (s : State) (b : Byte) : (s.countByte b).skipRem = s.skipRem := by
  rw [State.countByte_eq]
@[simp] theorem State.countByte_takeRem (s : State) (b : Byte) : (s.countByte b).takeRem = s.takeRem := by
  rw [State.countByte_eq]

/-- `WIN[a]` after a byte is counted (R135). -/
theorem State.winAt_countByte (s : State) (b : Byte) (a : Ring) :
    (s.countByte b).winAt a = if s.unit.hasWindow = true ∧ a = s.cur then b else s.winAt a := by
  unfold State.countByte
  split
  · next h =>
    simp only [h, true_and]
    exact s.winAt_push a b
  · next h =>
    rw [if_neg fun h' => h h'.1]
    rfl

section produced

variable {byte : Nat → Byte} {m : Nat} {s t : State}

/-- How much is still to be skipped after `m` bytes. -/
theorem Produced.skipRem_toNat (h : Produced byte m s t) : t.skipRem.toNat = s.skipRem.toNat - m := by
  obtain ⟨-, -, hskip, -⟩ := h
  have := s.skipRem.isLt
  rw [hskip, BitVec.toNat_sub, BitVec.toNat_ofNat]
  omega

/-- How much is still to be delivered after `m` bytes within the limit. -/
theorem Produced.takeRem_toNat (h : Produced byte m s t) (hl : s.lenKnown = true)
    (hm : m < s.skipRem.toNat + s.takeRem.toNat) :
    t.takeRem.toNat = s.takeRem.toNat - (m - s.skipRem.toNat) := by
  obtain ⟨-, -, -, htake, -⟩ := h
  have := s.takeRem.isLt
  rw [htake, if_pos hl, BitVec.toNat_sub, BitVec.toNat_ofNat]
  omega

/-- The window after one more byte: the byte stands at the place of the cursor, which it may have overwritten before. -/
theorem Produced.window_succ (h : Produced byte m s t) (hu : t.unit = s.unit) (a : Ring) :
    (t.countByte (byte m)).winAt a =
      if s.unit.hasWindow = true ∧ (a - s.cur).toNat < m + 1 then
        byte ((a - s.cur).toNat + 4096 * ((m + 1 - 1 - (a - s.cur).toNat) / 4096))
      else s.winAt a := by
  obtain ⟨-, -, -, -, hcur, hwin⟩ := h
  rw [State.winAt_countByte, hwin, hcur, hu]
  cases s.unit.hasWindow with
  | false => simp
  | true =>
    have hat : a = s.cur + BitVec.ofNat 12 m ↔ (a - s.cur).toNat = m % 4096 := by
      rw [← BitVec.toNat_ofNat m 12, BitVec.toNat_inj, BitVec.sub_eq_iff_eq_add, BitVec.add_comm]
    have hk := (a - s.cur).isLt
    simp only [hat, true_and, if_true]
    generalize (a - s.cur).toNat = k at *
    by_cases hkm : k = m % 4096
    · rw [if_pos hkm, if_pos (by omega)]
      congr 1
      omega
    · rw [if_neg hkm]
      by_cases hlt : k < m
      · rw [if_pos hlt, if_pos (by omega)]
        congr 1
        omega
      · rw [if_neg hlt, if_neg (by omega)]

/-- The count and the cursor after one more byte. -/
theorem Produced.count_succ (h : Produced byte m s t) (hu : t.unit = s.unit) (b : Byte) :
    (t.countByte b).outCount = s.outCount + BitVec.ofNat 64 (m + 1) ∧
    (t.countByte b).cur = if s.unit.hasWindow then s.cur + BitVec.ofNat 12 (m + 1) else s.cur := by
  obtain ⟨hout, -, -, -, hcur, -⟩ := h
  rw [State.countByte_eq]
  dsimp only
  rw [hu, hout, hcur, BitVec.ofNat_add, BitVec.add_assoc]
  refine ⟨rfl, ?_⟩
  split
  · rw [BitVec.ofNat_add, BitVec.add_assoc]
    rfl
  · rfl

/-- A byte withheld: `DST` and the limit stay (R135). -/
theorem Produced.withhold (h : Produced byte m s t) (hu : t.unit = s.unit) (hm : m < s.skipRem.toNat) :
    Produced byte (m + 1) s { t.countByte (byte m) with skipRem := t.skipRem - 1 } := by
  obtain ⟨hout, hcur⟩ := h.count_succ hu (byte m)
  have hwin := h.window_succ hu
  obtain ⟨-, hdst, hskip, htake, -, -⟩ := h
  refine ⟨hout, ?_, ?_, ?_, hcur, hwin⟩
  · have hnil {k : Nat} (hk : k ≤ s.skipRem.toNat) : ((List.range k).map byte).drop s.skipRem.toNat = [] :=
      List.drop_eq_nil_of_le (by simpa using hk)
    dsimp only
    rw [State.countByte_dst, hnil hm, ← hnil hm.le, hdst]
  · dsimp only
    rw [hskip, Nat.min_eq_left hm.le, Nat.min_eq_left hm, Nat.succ_eq_add_one, BitVec.ofNat_add, sub_sub]
    rfl
  · dsimp only
    rw [State.countByte_takeRem, htake, Nat.sub_eq_zero_of_le hm.le, Nat.sub_eq_zero_of_le hm]

/-- A byte delivered: `DST` grows by it, and one byte less is wanted if the length is known (R135). -/
theorem Produced.deliver (h : Produced byte m s t) (hu : t.unit = s.unit) (hm : s.skipRem.toNat ≤ m) :
    Produced byte (m + 1) s { t.countByte (byte m) with
      dst := t.dst ++ [byte m], takeRem := if s.lenKnown then t.takeRem - 1 else t.takeRem } := by
  obtain ⟨hout, hcur⟩ := h.count_succ hu (byte m)
  have hwin := h.window_succ hu
  obtain ⟨-, hdst, hskip, htake, -, -⟩ := h
  refine ⟨hout, ?_, ?_, ?_, hcur, hwin⟩
  · dsimp only
    rw [hdst, List.range_succ, List.map_append, List.drop_append_of_le_length (by simpa using hm), List.append_assoc]
    rfl
  · dsimp only
    rw [State.countByte_skipRem, hskip, Nat.min_eq_right hm, Nat.min_eq_right (hm.trans m.le_succ)]
  · dsimp only
    rw [htake, Nat.succ_sub hm]
    split
    · rw [Nat.succ_eq_add_one, BitVec.ofNat_add, sub_sub]
      rfl
    · rfl

/-- The cap is not reached where it leaves room for one more byte. -/
theorem Produced.outCount_ne_maxOut (h : Produced byte m s t) (hf : ShellFrame s t)
    (hcap : s.capEn = true → s.outCount.toNat + (m + 1) ≤ s.maxOut.toNat) (hc : t.capEn = true) :
    t.outCount ≠ t.maxOut := by
  obtain ⟨hout, -⟩ := h
  have hmax : t.maxOut = s.maxOut := by rw [hf]
  have hroom := hcap (by rw [← hc, hf])
  intro hfull
  rw [hout, hmax] at hfull
  have hsum := congrArg BitVec.toNat hfull
  rw [BitVec.toNat_add, BitVec.toNat_ofNat] at hsum
  omega

/-- One more byte where neither limit nor cap is reached: withheld while the skip lasts, then delivered. -/
theorem Produced.succ (h : Produced byte m s t) (hf : ShellFrame s t) (hroom : Unhindered (m + 1) s) :
    ∃ u, t.produce (byte m) = .go u ∧ Produced byte (m + 1) s u := by
  have hu : t.unit = s.unit := by rw [hf]
  have hlen : t.lenKnown = s.lenKnown := by rw [hf]
  have hskip := h.skipRem_toNat
  obtain ⟨hlim, hcap⟩ := hroom
  rcases t.produce_cases (byte m) with
    ⟨hc, hfull, -⟩ | ⟨-, ⟨hs, hp⟩ | ⟨hs, hl, hp⟩ | ⟨hs, hl, -, hp⟩ | ⟨hs, hl, hlast, -⟩⟩
  · exact absurd hfull (h.outCount_ne_maxOut hf hcap hc)
  · have hne : t.skipRem.toNat ≠ 0 := fun h0 => hs (BitVec.eq_of_toNat_eq h0)
    exact ⟨_, hp, h.withhold hu (by omega)⟩
  · rw [hs] at hskip
    rw [hlen] at hl
    have hd := h.deliver hu (Nat.le_of_sub_eq_zero hskip.symm)
    rw [hl, if_neg Bool.false_ne_true, ← State.countByte_takeRem t (byte m)] at hd
    exact ⟨_, hp, hd⟩
  · rw [hs] at hskip
    rw [hlen] at hl
    have hd := h.deliver hu (Nat.le_of_sub_eq_zero hskip.symm)
    rw [hl, if_pos rfl] at hd
    exact ⟨_, hp, hd⟩
  · rw [hlen] at hl
    have hlt := hlim hl
    have htake := h.takeRem_toNat hl (by omega)
    rw [hlast] at htake
    rw [hs] at hskip
    change 1 = _ at htake
    change 0 = _ at hskip
    omega

end produced

/-! ## Copies (R133, R139) -/

/-- The overlap law (R139): after `m` bytes of a copy the byte `d` behind the cursor is byte `m` of the cycle. It is a
byte of the old window while `m < d`, and from then on byte `m - d` of the copy itself. -/
theorem Produced.winAt_source {d m : Nat} {s t : State} (h : Produced (copyByte s d) m s t)
    (hw : s.unit.hasWindow = true) (hd1 : 1 ≤ d) (hd : d ≤ 4096) :
    t.winAt (t.cur - BitVec.ofNat 12 d) = copyByte s d m := by
  obtain ⟨-, -, -, -, hcur, hwin⟩ := h
  rw [hwin, hcur, if_pos hw]
  have hk : (s.cur + BitVec.ofNat 12 m - BitVec.ofNat 12 d - s.cur).toNat = (m + 4096 - d) % 4096 := by
    bv_omega
  by_cases hm : m < d
  · rw [if_neg (by omega), copyByte, Nat.mod_eq_of_lt hm]
    congr 1
    bv_omega
  · rw [if_pos ⟨hw, by omega⟩, hk]
    have hlast : (m + 4096 - d) % 4096 + 4096 * ((m - 1 - (m + 4096 - d) % 4096) / 4096) = m - d := by omega
    rw [hlast, copyByte, copyByte, ← Nat.mod_eq_sub_mod (by omega)]

/-- A copy within range that neither limit nor cap cuts short. -/
theorem State.copyBytes_unhindered {d n : Nat} {s : State} (hw : s.unit.hasWindow = true) (hd1 : 1 ≤ d)
    (hd : d ≤ 4096) (h : Unhindered n s) :
    ∃ t, State.copyBytes d n s = .go t ∧ Produced (copyByte s d) n s t := by
  induction n with
  | zero => exact ⟨s, rfl, .zero _ s⟩
  | succ n ih =>
    obtain ⟨t, ht, hp⟩ := ih (h.mono n.le_succ)
    have hf := State.copyBytes_frame d n s
    rw [ht] at hf
    obtain ⟨u, hu, hpu⟩ := hp.succ hf h
    refine ⟨u, ?_, hpu⟩
    rw [State.copyBytes_add, ht]
    change (t.produce (t.winAt (t.cur - BitVec.ofNat 12 d))).andThen _ = _
    rw [hp.winAt_source hw hd1 hd, hu]
    rfl

/-! ## The back-reference tokens (R155, R226, R227, R229, R230) -/

/-- The last lines of a back-reference token of distance `d`, which a copy cut short does not reach. -/
def State.endCopy (s : State) (d : Nat) : Instr → State
  | .lzssMatch .. => s.nextToken
  | .glzShort _ => { s with lwm := false }.glzNext
  | .glzNear .. | .glzFar .. => { s with lastOff := BitVec.ofNat 13 d, lwm := true }.glzNext
  | .glzRep _ => { s with lwm := true }.glzNext
  | _ => s

/-- The rule for `GLZ.FAR` in the model's own terms (R230). -/
theorem farByRule_eq (lwm : Bool) (g n : BitVec 32) (lo : Byte) :
    farByRule lwm g lo n =
      if g.toNat < farLeast lwm then none
      else some (farDistance lwm g lo, farLength (farDistance lwm g lo) n) := by
  cases lwm <;> rfl

/-- A back-reference token copies as its operands say, then runs its last lines. -/
theorem exec_copy {i : Instr} {d n : Nat} {s : State} (h : copyOperands s i = some (d, n)) :
    exec i s = ((s.copyBack d n).andThen fun t => .go (t.endCopy d i)).toOutcome := by
  unfold copyOperands at h
  split at h
  case h_1 plo phi nl =>
    obtain ⟨rfl, rfl⟩ : _ = d ∧ _ = n := by simpa using h
    have hd : lzssDistance Config.posMode s.cur (lzssField plo phi) = plo.toNat + 256 * phi.toNat := by
      rw [Nat.add_comm, Nat.mul_comm]
      exact append_toNat phi plo
    rw [← hd]
    rfl
  case h_2 e =>
    split at h
    · cases h
    · next he =>
      cases h
      change (s.tokShort e).toOutcome = _
      rw [State.tokShort, if_neg he]
      rfl
  case h_3 e b =>
    split at h
    · cases h
    · next he =>
      cases h
      change (s.tokNearOrEnd e b).toOutcome = _
      rw [State.tokNearOrEnd, if_neg he, ← BitVec.ofNat_toNat]
      cases b <;> rfl
  case h_4 g lo k =>
    rw [farByRule_eq] at h
    split at h
    · cases h
    · next hg =>
      cases h
      exact if_neg hg
  case h_5 => cases h; rfl
  case h_6 => cases h

/-- The last lines of a token keep what the copy produced. -/
theorem State.endCopy_frame (s : State) (d : Nat) (i : Instr) : s.endCopy d i = { s with
    flags := (s.endCopy d i).flags, fcnt := (s.endCopy d i).fcnt, ustate := (s.endCopy d i).ustate
    lwm := (s.endCopy d i).lwm, lastOff := (s.endCopy d i).lastOff } := by
  unfold State.endCopy
  split
  · rw [s.nextToken_frame]
  all_goals rfl

theorem State.nextToken_flagConsumed (s : State) : FlagConsumed s s.nextToken := by
  unfold State.nextToken FlagConsumed
  split
  · exact ⟨rfl, rfl, rfl⟩
  · exact ⟨rfl, rfl, rfl⟩

/-- The registers that the last lines of a back-reference token write (R153, R231). -/
theorem State.endCopy_afterToken {i : Instr} {d n : Nat} {s t : State} (h : copyOperands s i = some (d, n))
    (hd : d ≤ 4096) (hf : ShellFrame s t) : AfterToken i s (t.endCopy d i) := by
  have hflags : t.flags = s.flags := by rw [hf]
  have hfcnt : t.fcnt = s.fcnt := by rw [hf]
  have hlwm : t.lwm = s.lwm := by rw [hf]
  have hoff : t.lastOff = s.lastOff := by rw [hf]
  have hd13 : (BitVec.ofNat 13 d).toNat = d := by
    rw [BitVec.toNat_ofNat]
    omega
  unfold copyOperands at h
  split at h
  case h_1 plo phi nl =>
    have hnext := t.nextToken_flagConsumed
    unfold FlagConsumed at hnext
    rw [hflags, hfcnt] at hnext
    refine ⟨hnext, ?_, ?_⟩ <;> rw [State.endCopy, State.nextToken_frame]
    · exact hlwm
    · exact hoff
  case h_2 e => exact ⟨rfl, hoff, rfl, hflags, hfcnt⟩
  case h_3 e b =>
    split at h
    · cases h
    · cases h
      exact ⟨rfl, hd13, rfl, hflags, hfcnt⟩
  case h_4 g lo k =>
    refine ⟨rfl, fun d' l hrule => ?_, rfl, hflags, hfcnt⟩
    rw [h] at hrule
    cases hrule
    exact hd13
  case h_5 k => exact ⟨rfl, hoff, rfl, hflags, hfcnt⟩
  case h_6 => cases h

/-- Settles O15: the copy is not cut short, and every byte of it is read from the window as the overlap law says. -/
theorem copyTokensRepeatTheWindow : Obligations.CopyTokensRepeatTheWindow := by
  intro i d n s hop hw hd1 hd hroom
  obtain ⟨t, ht, hp⟩ := State.copyBytes_unhindered hw hd1 hd hroom
  have hback : s.copyBack d n = .go t := by
    rw [State.copyBack, if_neg (by simp only [Config.W]; omega), ht]
  have hends := s.copyBack_produces d n
  rw [hback] at hends
  have hf : ShellFrame s t := hends.shell
  obtain ⟨hphase, herr⟩ : Continues s t := hends.ends
  have hlines := t.endCopy_frame d i
  refine ⟨t.endCopy d i, ?_, ?_, State.endCopy_afterToken hop hd hf, ?_, ?_, ?_⟩
  · rw [exec_copy hop, hback]; rfl
  · rw [hlines]; exact hp
  · rw [hlines]; exact hphase
  · rw [hlines]; exact herr
  · rw [TokenFrame, hlines, hf]

end Sys2Proof.Machine
end

section
/-! # Tokens standing before the cursor (R95 to R105, R130, R137)

A reading is followed along the pieces that stand before the cursor: each `ReadByte` takes the first byte, each `GetBit`
the first bit, and a longer reading is put together from these by `Fetched.Reads.andThen`. -/

namespace Sys2Proof

/-! ## Bits shifted into a word -/

/-- The bits of a word that a bit has been shifted into from below. -/
theorem getLsbD_shiftLeft_one_or_ofNat {w : Nat} (v : BitVec w) (b : Bool) (i : Nat) :
    ((v <<< 1) ||| BitVec.ofNat w b.toNat).getLsbD i = (decide (i < w) && if i = 0 then b else v.getLsbD (i - 1)) := by
  rw [BitVec.getLsbD_or, BitVec.getLsbD_shiftLeft, BitVec.getLsbD_ofNat]
  cases i with
  | zero => cases b <;> simp
  | succ i => cases b <;> simp [Nat.testBit_one_eq_true_iff_self_eq_zero]

/-- Bit `7 - j` of a control byte is bit `j` of those it supplies (R102). -/
theorem controlByte_getLsbD (bits : List Bool) {j : Nat} (hj : j < 8) :
    (controlByte bits).getLsbD (7 - j) = bits.getD j false := by
  have fold (n : Nat) (hn : n ≤ 8) (i : Nat) (hi : i < n) :
      ((List.range n).foldl (fun (v : Byte) i => (v <<< 1) ||| BitVec.ofNat 8 (bits.getD i false).toNat) 0).getLsbD i =
        bits.getD (n - 1 - i) false := by
    induction n generalizing i with
    | zero => omega
    | succ n ih =>
      rw [List.range_succ, List.foldl_append, List.foldl_cons, List.foldl_nil, getLsbD_shiftLeft_one_or_ofNat,
        decide_eq_true (by omega), Bool.true_and]
      cases i with
      | zero => rfl
      | succ i =>
        rw [if_neg i.succ_ne_zero, Nat.add_sub_cancel, ih (by omega) i (by omega)]
        congr 1
        omega
  rw [controlByte, fold 8 (Nat.le_refl 8) (7 - j) (by omega)]
  congr 1
  omega

/-! ## One byte, one bit -/

/-- The first of the bytes before the cursor is the byte read, and the others then stand before it (R130). -/
theorem Cursor.BytesAhead.readByte {c : Cursor} {b : Byte} {bs : List Byte} (h : c.BytesAhead (b :: bs)) :
    c.readByte = .got b { c with pos := c.pos + 1 } ∧ { c with pos := c.pos + 1 }.BytesAhead bs := by
  obtain ⟨hread, hlen⟩ := h
  rw [List.length_cons] at hlen
  have hpos : (c.pos + 1).toNat = c.pos.toNat + 1 := by bv_omega
  rcases c.readByte_cases with ⟨he, -⟩ | ⟨-, hgot⟩
  · rw [he] at hlen
    omega
  · refine ⟨?_, fun j b' hj => ?_, ?_⟩
    · rw [hgot, ← hread 0 b rfl, Nat.add_zero]
    · dsimp only
      rw [hpos, Nat.add_assoc, Nat.add_comm 1]
      exact hread (j + 1) b' hj
    · dsimp only
      omega

/-- A read gives the value `a`, and the pieces `rest` stand before the cursor after it. -/
def Fetched.Reads {α : Type} (x : Fetched α) (a : α) (rest : List Piece) : Prop := ∃ c, x = .got a c ∧ c.Holds rest

theorem Fetched.reads_got {α : Type} {a : α} {c : Cursor} {rest : List Piece} (h : c.Holds rest) :
    (Fetched.got a c).Reads a rest := ⟨c, rfl, h⟩

/-- Reading on after a read. -/
theorem Fetched.Reads.andThen {α β : Type} {x : Fetched α} {k : α → Cursor → Fetched β} {a : α} {b : β}
    {ps rest : List Piece} (hx : x.Reads a ps) (hk : ∀ c, c.Holds ps → (k a c).Reads b rest) :
    (x.andThen k).Reads b rest := by
  obtain ⟨c, rfl, hc⟩ := hx
  exact hk c hc

variable {c : Cursor} {ps rest : List Piece}

/-- `ReadByte` takes a raw byte that stands first (R102, R130); the bits left stay. -/
theorem Cursor.Holds.readByte {b : Byte} (h : c.Holds (.byte b :: ps)) : c.readByte.Reads b ps := by
  obtain ⟨hcnt, hacc, hbytes⟩ := h
  rw [layoutPieces] at hbytes
  obtain ⟨hread, hrest⟩ := hbytes.readByte
  exact ⟨_, hread, hcnt, hacc, hrest⟩

/-- The lazy refill leaves a bit in the accumulator and moves no piece (R102, R137). -/
theorem Cursor.Holds.refill {b : Bool} (h : c.Holds (.bit b :: ps)) :
    ∃ c', c.refill = .got () c' ∧ c'.bcnt ≠ 0 ∧ c'.Holds (.bit b :: ps) := by
  by_cases hb : c.bcnt = 0
  · obtain ⟨-, -, hbytes⟩ := h
    rw [hb] at hbytes
    obtain ⟨hread, hrest⟩ := hbytes.readByte
    refine ⟨_, by rw [Cursor.refill, if_pos hb, hread]; rfl, show (8 : BitVec 4) ≠ 0 by decide,
      show (8 : BitVec 4) ≤ 8 by decide, fun j b' hj hb' => ?_, hrest⟩
    change (controlByte (b :: Piece.bits ps)).getLsbD (7 - j) = b'
    rw [controlByte_getLsbD _ hj, List.getD_eq_getElem?_getD]
    exact congrArg (·.getD false) hb'
  · exact ⟨c, if_neg hb, hb, h⟩

/-- The bit on top of the accumulator is the first one, and a shift by one brings up the next (R137). -/
theorem Cursor.Holds.shift {b : Bool} (hb : c.bcnt ≠ 0) (h : c.Holds (.bit b :: ps)) :
    c.acc.getLsbD 7 = b ∧ { c with acc := c.acc <<< 1, bcnt := c.bcnt - 1 }.Holds ps := by
  obtain ⟨hcnt, hacc, hbytes⟩ := h
  have h8 : c.bcnt.toNat ≤ 8 := hcnt
  have hsub : c.bcnt.toNat = (c.bcnt - 1).toNat + 1 := by bv_omega
  rw [hsub, layoutPieces] at hbytes
  refine ⟨hacc 0 b (by omega) rfl, by bv_omega, fun j b' hj hb' => ?_, hbytes⟩
  have hj' : j < (c.bcnt - 1).toNat := hj
  rw [← hacc (j + 1) b' (by omega) hb', BitVec.getLsbD_shiftLeft, decide_eq_true (by omega : 7 - j < 8),
    decide_eq_false (by omega : ¬7 - j < 1)]
  rfl

/-- `GetBit` takes a bit that stands first (R102, R137). -/
theorem Cursor.Holds.getBit {b : Bool} (h : c.Holds (.bit b :: ps)) : c.getBit.Reads b ps := by
  obtain ⟨c', hc', hb, h'⟩ := h.refill
  obtain ⟨htop, hrest⟩ := h'.shift hb
  refine ⟨_, ?_, hrest⟩
  rw [Cursor.getBit, hc', ← htop]
  rfl

/-! ## Several bits, a gamma code -/

/-- `k` bits written most significant first are read as the number they stand for, shifted into `a` (R67). -/
theorem Cursor.Holds.getBits {w : Nat} (v : BitVec w) (k a : Nat) (h : c.Holds ((bitsOf v k).map .bit ++ rest)) :
    (Cursor.getBits k a c).Reads (a * 2 ^ k + v.toNat % 2 ^ k) rest := by
  induction k generalizing a c with
  | zero =>
    rw [pow_zero, Nat.mod_one, mul_one, add_zero]
    exact Fetched.reads_got h
  | succ k ih =>
    have hval : a * 2 ^ (k + 1) + v.toNat % 2 ^ (k + 1) =
        (2 * a + (v.getLsbD k).toNat) * 2 ^ k + v.toNat % 2 ^ k := by
      rw [BitVec.getLsbD, Nat.toNat_testBit, Nat.mod_pow_succ]
      ring
    rw [hval]
    exact h.getBit.andThen fun c' h' => ih _ h'

/-- The top bits of a word with the next bit shifted in are its top bits, one more. -/
theorem ushiftRight_succ_shiftLeft_or (v : BitVec 32) (i : Nat) :
    ((v >>> (i + 1)) <<< 1) ||| BitVec.ofNat 32 (v.getLsbD i).toNat = v >>> i := by
  refine BitVec.eq_of_getLsbD_eq fun j hj => ?_
  rw [getLsbD_shiftLeft_one_or_ofNat, decide_eq_true hj, Bool.true_and, BitVec.getLsbD_ushiftRight]
  cases j with
  | zero => rfl
  | succ j =>
    rw [if_neg j.succ_ne_zero, BitVec.getLsbD_ushiftRight]
    congr 1
    omega

/-- The loop of `Gamma()` on the pairs for the low `i` bits of `v`, the bits above them being in the accumulator
already: no round but the last can fill its top bit (R104, R223). -/
theorem Cursor.Holds.gammaFrom (v : BitVec 32) (i k : Nat) (hik : i < k)
    (h : c.Holds ((gammaPairs v (i + 1)).map .bit ++ rest)) :
    (Cursor.gammaFrom k (v >>> (i + 1)) c).Reads v rest := by
  induction i generalizing k c with
  | zero =>
    obtain ⟨k, rfl⟩ := Nat.exists_eq_succ_of_ne_zero hik.ne'
    refine h.getBit.andThen fun c1 h1 => h1.getBit.andThen fun c2 h2 => ?_
    rw [ushiftRight_succ_shiftLeft_or]
    exact Fetched.reads_got h2
  | succ i ih =>
    obtain ⟨k, rfl⟩ := Nat.exists_eq_succ_of_ne_zero (Nat.ne_of_gt (Nat.zero_lt_of_lt hik))
    refine h.getBit.andThen fun c1 h1 => h1.getBit.andThen fun c2 h2 => ?_
    have hsmall : (v >>> (i + 1)).toNat < 0x80000000 := by
      rw [BitVec.toNat_ushiftRight, Nat.shiftRight_eq_div_pow, Nat.div_lt_iff_lt_mul (Nat.two_pow_pos _), pow_succ]
      have hv := v.isLt
      have hpow := Nat.one_le_two_pow (n := i)
      omega
    rw [ushiftRight_succ_shiftLeft_or, decide_eq_true i.succ_ne_zero, if_neg Bool.noConfusion,
      if_neg (BitVec.not_le.mpr hsmall)]
    exact ih k (Nat.lt_of_succ_lt_succ hik) h2

/-- A gamma code before the cursor is read as its value (R104). -/
theorem Cursor.Holds.gamma {v : BitVec 32} (hv : 2 ≤ v) (h : c.Holds ((gammaCode v).map .bit ++ rest)) :
    c.gamma.Reads v rest := by
  have hv2 : 2 ≤ v.toNat := hv
  have hlog : v.toNat.log2 < 32 := (Nat.log2_lt (by omega)).mpr v.isLt
  have hlog1 : 1 ≤ v.toNat.log2 := (Nat.le_log2 (by omega)).mpr hv2
  obtain ⟨i, hi⟩ := Nat.exists_eq_add_of_le' hlog1
  have htop : v >>> (i + 1) = 1 := by
    refine BitVec.eq_of_toNat_eq ?_
    rw [BitVec.toNat_ushiftRight, Nat.shiftRight_eq_div_pow, ← hi]
    change _ = 1
    have hlow := Nat.log2_self_le (n := v.toNat) (by omega)
    have hhigh := Nat.lt_log2_self (n := v.toNat)
    rw [pow_succ] at hhigh
    exact Nat.div_eq_of_lt_le (by omega) (by omega)
  rw [gammaCode, hi] at h
  rw [Cursor.gamma, ← htop]
  exact h.gammaFrom v i 32 (by omega)

/-! ## The Gamma-LZ tokens (R103) -/

/-- After the control bits `10`: a repeat, after a literal-class token. -/
theorem decodeRep_reads {n : BitVec 32} (hn : 2 ≤ n)
    (h : c.Holds ((gammaCode 2).map .bit ++ ((gammaCode n).map .bit ++ rest))) :
    (decodeFarOrRep false c).Reads (.glzRep n) rest :=
  (h.gamma (by decide)).andThen fun _ h1 => (h1.gamma hn).andThen fun _ h2 => Fetched.reads_got h2

/-- After the control bits `10`: an extended match, whose gamma value is not that of a repeat. -/
theorem decodeFar_reads {lwm : Bool} {g n : BitVec 32} {lo : Byte} (hg : 2 ≤ g) (hn : 2 ≤ n)
    (hfar : ¬(lwm = false ∧ g = 2))
    (h : c.Holds ((gammaCode g).map .bit ++ (.byte lo :: ((gammaCode n).map .bit ++ rest)))) :
    (decodeFarOrRep lwm c).Reads (.glzFar g lo n) rest := by
  refine (h.gamma hg).andThen fun c1 h1 => ?_
  rw [if_neg hfar]
  exact h1.readByte.andThen fun c2 h2 => (h2.gamma hn).andThen fun c3 h3 => Fetched.reads_got h3

/-- The two fields of the byte after the control bits `110` (R103). -/
theorem near_fields (d : BitVec 7) (n : Bool) :
    (d ++ BitVec.ofBool n).extractLsb' 1 7 = d ∧ (d ++ BitVec.ofBool n).getLsbD 0 = n := by
  constructor
  · refine BitVec.eq_of_getLsbD_eq fun i hi => ?_
    rw [BitVec.getLsbD_extractLsb', decide_eq_true hi, Bool.true_and, BitVec.getLsbD_append, if_neg (by omega),
      Nat.add_sub_cancel_left]
  · rw [BitVec.getLsbD_append, if_pos Nat.one_pos, BitVec.getLsbD_ofBool, decide_eq_true rfl, Bool.true_and]

/-- After the control bits `110`: the end marker for distance 0, else a short match. -/
theorem decodeNearOrEnd_reads {d : BitVec 7} {n : Bool} {i : Instr}
    (hi : (if d = 0 then .glzEnd n else .glzNear d n) = i) (h : c.Holds (.byte (d ++ BitVec.ofBool n) :: rest)) :
    (decodeNearOrEnd c).Reads i rest := by
  subst hi
  obtain ⟨hd, hn⟩ := near_fields d n
  refine h.readByte.andThen fun c1 h1 => ?_
  rw [hd, hn]
  split <;> exact Fetched.reads_got h1

/-- After the control bits `111`: the zero escape for distance 0, else a copy of one byte. -/
theorem decodeShort_reads {d : BitVec 4} {i : Instr} (hi : (if d = 0 then .glzZero else .glzShort d) = i)
    (h : c.Holds ((bitsOf d 4).map .bit ++ rest)) : (decodeShort c).Reads i rest := by
  subst hi
  have hval : 0 * 2 ^ 4 + d.toNat % 2 ^ 4 = d.toNat := by
    have := d.isLt
    omega
  refine (hval ▸ h.getBits d 4 0).andThen fun c1 h1 => ?_
  have hzero : d.toNat = 0 ↔ d = 0 := BitVec.toNat_inj (y := 0)
  simp only [hzero, BitVec.ofNat_toNat, BitVec.setWidth_eq]
  split <;> exact Fetched.reads_got h1

/-- The first control bits select the reading of the operands (R103). -/
theorem decodeGlz_lit_reads {lwm : Bool} {b : Byte} (h : c.Holds (.bit false :: .byte b :: rest)) :
    (decodeGlz lwm c).Reads (.glzLit b) rest :=
  h.getBit.andThen fun _ h1 => h1.readByte.andThen fun _ h2 => Fetched.reads_got h2

theorem decodeGlz_farOrRep_reads {lwm : Bool} {i : Instr} (h : c.Holds (.bit true :: .bit false :: ps))
    (hk : ∀ c, c.Holds ps → (decodeFarOrRep lwm c).Reads i rest) : (decodeGlz lwm c).Reads i rest :=
  h.getBit.andThen fun _ h1 => h1.getBit.andThen hk

theorem decodeGlz_nearOrEnd_reads {lwm : Bool} {i : Instr}
    (h : c.Holds (.bit true :: .bit true :: .bit false :: ps))
    (hk : ∀ c, c.Holds ps → (decodeNearOrEnd c).Reads i rest) : (decodeGlz lwm c).Reads i rest :=
  h.getBit.andThen fun _ h1 => h1.getBit.andThen fun _ h2 => h2.getBit.andThen hk

theorem decodeGlz_short_reads {lwm : Bool} {i : Instr}
    (h : c.Holds (.bit true :: .bit true :: .bit true :: ps))
    (hk : ∀ c, c.Holds ps → (decodeShort c).Reads i rest) : (decodeGlz lwm c).Reads i rest :=
  h.getBit.andThen fun _ h1 => h1.getBit.andThen fun _ h2 => h2.getBit.andThen hk

open Machine in
/-- A Gamma-LZ token before the cursor is the token read (R103). -/
theorem decodeToken_reads {i : Instr} {lwm : Bool} {x : TokenContext} (hwf : i.wellFormed = true)
    (hx : glzContext lwm i = some x) (h : c.Holds (encodeToken i ++ rest)) : (decodeToken x c).Reads i rest := by
  cases i with
  | glzFirst b =>
    cases hx
    exact h.readByte.andThen fun _ h1 => Fetched.reads_got h1
  | glzLit b =>
    cases hx
    exact decodeGlz_lit_reads h
  | glzShort d =>
    cases hx
    have hd : d ≠ 0 := by simpa [Instr.wellFormed] using hwf
    exact decodeGlz_short_reads h fun _ h1 => decodeShort_reads (if_neg hd) h1
  | glzZero =>
    cases hx
    exact decodeGlz_short_reads h fun _ h1 => decodeShort_reads (d := 0) (if_pos rfl) h1
  | glzNear d n =>
    cases hx
    have hd : d ≠ 0 := by simpa [Instr.wellFormed] using hwf
    exact decodeGlz_nearOrEnd_reads h fun _ h1 => decodeNearOrEnd_reads (if_neg hd) h1
  | glzEnd n =>
    cases hx
    exact decodeGlz_nearOrEnd_reads h fun _ h1 => decodeNearOrEnd_reads (d := 0) (if_pos rfl) h1
  | glzFar g lo n =>
    obtain ⟨hg, hn⟩ : 2 ≤ g ∧ 2 ≤ n := by simpa [Instr.wellFormed] using hwf
    obtain ⟨hleast, ⟨⟩⟩ := Option.ite_none_right_eq_some.mp hx
    have hfar : ¬(lwm = false ∧ g = 2) := by
      rintro ⟨rfl, rfl⟩
      exact absurd hleast (by decide)
    simp only [encodeToken, List.append_assoc] at h
    exact decodeGlz_farOrRep_reads h fun _ h1 => decodeFar_reads hg hn hfar h1
  | glzRep n =>
    have hn : 2 ≤ n := by simpa [Instr.wellFormed] using hwf
    cases lwm with
    | true => cases hx
    | false =>
      cases hx
      exact decodeGlz_farOrRep_reads h fun _ h1 => decodeRep_reads hn h1
  | _ => cases hx

/-- Settles O22: the token is read piece by piece, and no reading touches `SRC` or its length. -/
theorem gammaLzTokenRoundTrip : Obligations.GammaLzTokenRoundTrip := by
  intro i lwm x rest c hwf hx h
  obtain ⟨c', hc', hrest⟩ := decodeToken_reads hwf hx h
  have hadv := decodeToken_advances x c
  rw [hc'] at hadv
  exact ⟨c', hc', hrest, hadv.src, hadv.srcLen⟩

end Sys2Proof
end

section
/-! # Huffman codes (R101, R135, R202)

Along bits that lead from one entry to another, the walk of the decoder and that of `HUF.SYM` both come to the second
entry; what they answer is then a matter of what that entry holds. -/

namespace Sys2Proof.Machine

variable {ht : List (Nat × HtEntry)} {n m : BitVec 9}

/-- A bit leads on through the child it selects, which must not be `HT_NONE`. -/
theorem leads_cons {b : Bool} {bits : List Bool} :
    Leads ht n (b :: bits) m ↔
      ∃ c0 c1, Memory.read HtEntry.empty ht n.toNat = .node c0 c1 ∧ (if b then c1 else c0) ≠ Config.htNone ∧
        Leads ht (if b then c1 else c0) bits m := by
  cases b <;> exact Iff.rfl

/-- The child that bit `b` selects is `HT_NONE`. -/
theorem child_eq_htNone {b : Bool} {c0 c1 : BitVec 9} (h0 : b = false → c0 = Config.htNone)
    (h1 : b = true → c1 = Config.htNone) : (if b then c1 else c0) = Config.htNone := by
  cases b with
  | false => exact h0 rfl
  | true => exact h1 rfl

/-! ## Reading a code -/

/-- Each bit read leaves one bit fewer to read. -/
theorem bitsLeft_of_getBit {b : Bool} {c d : Cursor} (h : c.getBit = .got b d) : d.bitsLeft + 1 = c.bitsLeft := by
  unfold Cursor.bitsLeft
  rcases c.getBit_cases with ⟨hb, hg⟩ | ⟨-, -, hg⟩ | ⟨hb, hne, hg⟩ <;> rw [hg] at h <;> cases h
  · dsimp only
    bv_omega
  · rw [hb]
    change 7 + 8 * (c.srcLen - (c.pos + 1)).toNat + 1 = 0 + 8 * (c.srcLen - c.pos).toNat
    bv_omega

/-- One edge of the decoder's walk: the bit that stands first is read and selects a child (R202). -/
theorem decodeHufFrom_bit {b : Bool} {c0 c1 : BitVec 9} {k : Nat} {path : List Bool} {ps : List Piece} {c : Cursor}
    (hn : Memory.read HtEntry.empty ht n.toNat = .node c0 c1) (hk : c.bitsLeft < k + 1) (h : c.Holds (.bit b :: ps)) :
    ∃ d, d.bitsLeft < k ∧ d.Holds ps ∧
      decodeHufFrom ht (k + 1) n path c =
        if (if b then c1 else c0) = Config.htNone then .noCode d
        else decodeHufFrom ht k (if b then c1 else c0) (b :: path) d := by
  obtain ⟨d, hd, hps⟩ := h.getBit
  have hleft := bitsLeft_of_getBit hd
  refine ⟨d, by omega, hps, ?_⟩
  rw [decodeHufFrom, hn]
  dsimp only
  rw [hd]

/-- The decoder's walk along bits that lead from `n` to `m`; the bound on the edges is not reached (R204). -/
theorem decodeHufFrom_leads {bits : List Bool} {k : Nat} {path : List Bool} {rest : List Piece} {c : Cursor}
    (hl : Leads ht n bits m) (hk : c.bitsLeft < k) (h : c.Holds (bits.map .bit ++ rest)) :
    ∃ k' d, d.bitsLeft < k' ∧ d.Holds rest ∧
      decodeHufFrom ht k n path c = decodeHufFrom ht k' m (bits.reverse ++ path) d := by
  induction bits generalizing k n path c with
  | nil =>
    cases hl
    exact ⟨k, c, hk, h, rfl⟩
  | cons b bits ih =>
    obtain ⟨k, rfl⟩ := Nat.exists_eq_succ_of_ne_zero (Nat.ne_of_gt (Nat.zero_lt_of_lt hk))
    obtain ⟨c0, c1, hn, hne, hl⟩ := leads_cons.mp hl
    obtain ⟨d, hd, hps, hstep⟩ := decodeHufFrom_bit (path := path) hn hk h
    obtain ⟨k', e, he, hrest, hwalk⟩ := ih (path := b :: path) hl hd hps
    exact ⟨k', e, he, hrest, by rw [hstep, if_neg hne, hwalk, List.reverse_cons, List.append_assoc]; rfl⟩

/-- A code before the cursor is the code read. -/
theorem decodeHuf_isCode {path : List Bool} {sym : Byte} {rest : List Piece} {c : Cursor} (hcode : IsCode ht path n sym)
    (h : c.Holds (path.map .bit ++ rest)) : ∃ d, decodeHuf ht c = .code path d ∧ d.Holds rest := by
  obtain ⟨hl, hleaf⟩ := hcode
  obtain ⟨k, d, -, hrest, hwalk⟩ := decodeHufFrom_leads (path := []) hl (Nat.lt_succ_self _) h
  refine ⟨d, ?_, hrest⟩
  rw [decodeHuf, hwalk]
  unfold decodeHufFrom
  rw [hleaf, List.append_nil]
  dsimp only
  rw [List.reverse_reverse]

/-- Bits that lead to `HT_NONE` are read up to the one that leads there. -/
theorem decodeHuf_isNoCode {path : List Bool} {b : Bool} {rest : List Piece} {c : Cursor} (hcode : IsNoCode ht path b)
    (h : c.Holds ((path ++ [b]).map .bit ++ rest)) : ∃ d, decodeHuf ht c = .noCode d ∧ d.Holds rest := by
  obtain ⟨n, c0, c1, hl, hn, h0, h1⟩ := hcode
  rw [List.map_append, List.append_assoc] at h
  obtain ⟨k, d, hk, hb, hwalk⟩ := decodeHufFrom_leads (path := []) hl (Nat.lt_succ_self _) h
  obtain ⟨k, rfl⟩ := Nat.exists_eq_succ_of_ne_zero (Nat.ne_of_gt (Nat.zero_lt_of_lt hk))
  obtain ⟨e, -, hrest, hstep⟩ := decodeHufFrom_bit (path := path.reverse ++ []) hn hk hb
  exact ⟨e, by rw [decodeHuf, hwalk, hstep, if_pos (child_eq_htNone h0 h1)], hrest⟩

/-- Settles O24: the walk follows the bits to the leaf or to `HT_NONE`, and no reading touches `SRC` or its length. -/
theorem huffmanCodeRoundTrip : Obligations.HuffmanCodeRoundTrip := by
  constructor
  · intro ht path n sym rest c hcode h
    obtain ⟨d, hd, hrest⟩ := decodeHuf_isCode hcode h
    have hadv := decodeHuf_advances ht c
    rw [hd] at hadv
    exact ⟨d, hd, hrest, hadv.src, hadv.srcLen⟩
  · intro ht path b rest c hcode h
    obtain ⟨d, hd, hrest⟩ := decodeHuf_isNoCode hcode h
    have hadv := decodeHuf_advances ht c
    rw [hd] at hadv
    exact ⟨d, hd, hrest, hadv.src, hadv.srcLen⟩

/-! ## Performing a code -/

/-- `HUF.SYM` follows bits that lead from `n` to `m` and goes on from `m`. -/
theorem hufFollow_leads {bits : List Bool} (more : List Bool) (hl : Leads ht n bits m) :
    hufFollow ht n (bits ++ more) = hufFollow ht m more := by
  induction bits generalizing n with
  | nil => cases hl; rfl
  | cons b bits ih =>
    obtain ⟨c0, c1, hn, hne, hl⟩ := leads_cons.mp hl
    rw [List.cons_append, hufFollow, hn]
    dsimp only
    rw [if_neg hne, ih hl]

theorem hufFollow_isCode {path : List Bool} {sym : Byte} (h : IsCode ht path n sym) :
    hufFollow ht 0 path = .leaf n sym := by
  obtain ⟨hl, hleaf⟩ := h
  rw [← List.append_nil path, hufFollow_leads [] hl, hufFollow, hleaf]

theorem hufFollow_isNoCode {path : List Bool} {b : Bool} (h : IsNoCode ht path b) :
    hufFollow ht 0 (path ++ [b]) = .noCode := by
  obtain ⟨n, c0, c1, hl, hn, h0, h1⟩ := h
  rw [hufFollow_leads [b] hl, hufFollow, hn]
  exact if_pos (child_eq_htNone h0 h1)

theorem hufFollow_inside {path : List Bool} {c0 c1 : BitVec 9} (hl : Leads ht 0 path n)
    (hn : Memory.read HtEntry.empty ht n.toNat = .node c0 c1) : hufFollow ht 0 path = .inside n := by
  rw [← List.append_nil path, hufFollow_leads [] hl, hufFollow, hn]

/-- A code produces its symbol from the state in which `node` stands at its leaf (R202). -/
theorem exec_hufSym_isCode {path : List Bool} {sym : Byte} {s : State} (h : IsCode s.ht path n sym) :
    exec (.hufSym path) s =
      (({ s with node := n }.produce sym).andThen fun t => .go { t with ustate := UState.symbol }).toOutcome := by
  change execHufSym path s = _
  rw [execHufSym, hufFollow_isCode h]

/-- Settles O20: the walk ends inside the table, or the gamma value is below the least of its form. -/
theorem malformedTokensAreRefused : Obligations.MalformedTokensAreRefused := by
  constructor
  · intro path n c0 c1 s hl hn
    change execHufSym path s = _
    rw [execHufSym, hufFollow_inside hl hn]
  · intro g n lo s hg
    exact if_pos hg

/-- The last byte wanted, where the cap leaves room for it: it is delivered and the command is `Done` (R135, R136). -/
theorem Produced.last {byte : Nat → Byte} {k : Nat} {s t : State} (h : Produced byte k s t) (hf : ShellFrame s t)
    (hlim : LimitAt (k + 1) s) :
    ∃ u, t.produce (byte k) = .halt u ∧ Produced byte (k + 1) s u ∧ u.phase = .done ∧ u.err = t.err := by
  have hlen : t.lenKnown = s.lenKnown := by rw [hf]
  have hu : t.unit = s.unit := by rw [hf]
  obtain ⟨hl, hwant, hsum, hcap⟩ := hlim
  have hwant' : s.takeRem.toNat ≠ 0 := fun h0 => hwant (BitVec.eq_of_toNat_eq h0)
  have hskip := h.skipRem_toNat
  have htake := h.takeRem_toNat hl (by omega)
  have hskip0 : t.skipRem = 0 := BitVec.eq_of_toNat_eq (show t.skipRem.toNat = 0 by omega)
  have htake1 : t.takeRem = 1 := BitVec.eq_of_toNat_eq (show t.takeRem.toNat = 1 by omega)
  rcases t.produce_cases (byte k) with
    ⟨hc, hfull, -⟩ | ⟨-, ⟨hs, -⟩ | ⟨-, hl', -⟩ | ⟨-, -, hmore, -⟩ | ⟨-, -, -, hp⟩⟩
  · exact absurd hfull (h.outCount_ne_maxOut hf hcap hc)
  · exact absurd hskip0 hs
  · rw [hlen, hl] at hl'
    cases hl'
  · exact absurd htake1 hmore
  · have hd := h.deliver hu (by omega)
    rw [hl, if_pos rfl, htake1] at hd
    refine ⟨_, hp, hd, rfl, ?_⟩
    rw [State.countByte_eq]

/-- What `Produce` may write for a unit without a window: neither `WIN` nor `cur` (R135). -/
def NoWindowFrame (s t : State) : Prop :=
  t = { s with
    err := t.err, phase := t.phase, skipRem := t.skipRem, takeRem := t.takeRem, outCount := t.outCount, dst := t.dst }

theorem State.produce_noWindowFrame {s : State} (hw : s.unit.hasWindow = false) (b : Byte) :
    NoWindowFrame s (s.produce b).state := by
  have hcount : s.countByte b = { s with outCount := s.outCount + 1 } := if_neg (by rw [hw]; exact Bool.false_ne_true)
  rcases s.produce_cases b with ⟨-, -, h⟩ | ⟨-, ⟨-, h⟩ | ⟨-, -, h⟩ | ⟨-, -, -, h⟩ | ⟨-, -, -, h⟩⟩ <;>
    rw [h, NoWindowFrame] <;> simp only [Flow.state, hcount]

/-- Settles O14: the code leads to its leaf, whose byte is produced; other bits lead to `HT_NONE`. -/
theorem huffmanCodeDeliversItsLeaf : Obligations.HuffmanCodeDeliversItsLeaf := by
  constructor
  · intro path n sym s hu hcode
    have hexec := exec_hufSym_isCode hcode
    have hframe := State.produce_noWindowFrame (s := { s with node := n }) (by rw [hu]; rfl) sym
    have hends := (State.produce_produces { s with node := n } sym).ends
    constructor
    · intro hroom
      obtain ⟨t, ht, hp⟩ := (Produced.zero (fun _ => sym) { s with node := n }).succ (.refl _) hroom
      rw [ht] at hexec hframe hends
      obtain ⟨hphase, herr⟩ : Continues { s with node := n } t := hends
      change NoWindowFrame _ t at hframe
      unfold NoWindowFrame at hframe
      refine ⟨{ t with ustate := UState.symbol }, hexec, hp, ?_, rfl, hphase, herr, ?_⟩
      · rw [hframe]
      · rw [hframe, hphase, herr]
    · intro hlim
      obtain ⟨t, ht, hp, hphase, herr⟩ := (Produced.zero (fun _ => sym) { s with node := n }).last (.refl _) hlim
      rw [ht] at hexec hframe
      change NoWindowFrame _ t at hframe
      unfold NoWindowFrame at hframe
      refine ⟨t, hexec, hp, ?_, hphase, herr, ?_⟩
      · rw [hframe]
      · rw [hframe, herr]
  · intro path b s hcode
    change execHufSym (path ++ [b]) s = _
    rw [execHufSym, hufFollow_isNoCode hcode]
    rfl

end Sys2Proof.Machine
end

section
/-! # Command words (R91 to R94, R110, R272) -/

namespace Sys2Proof

/-! ## Format `C` (R91) -/

/-- Bit `i` of a word put together from its fields. -/
theorem CmdWord.ofFields_getLsbD (op kind : BitVec 4) (lk ce : Bool) (i : Nat) :
    (CmdWord.ofFields op kind lk ce).getLsbD i =
      if i < 4 then op.getLsbD i else if i < 8 then kind.getLsbD (i - 4)
      else if i = 8 then lk else if i = 9 then ce else false := by
  rw [CmdWord.ofFields, BitVec.getLsbD_setWidth]
  simp only [BitVec.getLsbD_append, BitVec.getLsbD_ofBool, BitVec.getLsbD_zero]
  by_cases hop : i < 4
  · simp [hop, show i < 32 by omega]
  by_cases hkind : i < 8
  · simp [hop, hkind, show i < 32 by omega, show i - 4 < 4 by omega]
  by_cases hlk : i = 8
  · subst hlk; rfl
  by_cases hce : i = 9
  · subst hce; rfl
  · simp [hop, hkind, hlk, hce, show ¬ i - 4 < 4 by omega, show ¬ i - 4 - 4 < 1 by omega,
      show ¬ i - 4 - 4 - 1 < 1 by omega]

@[simp] theorem CmdWord.op_ofFields (op kind : BitVec 4) (lk ce : Bool) :
    CmdWord.op (CmdWord.ofFields op kind lk ce) = op := by
  refine BitVec.eq_of_getLsbD_eq fun i hi => ?_
  simp [CmdWord.op, CmdWord.ofFields_getLsbD, hi]

@[simp] theorem CmdWord.kind_ofFields (op kind : BitVec 4) (lk ce : Bool) :
    CmdWord.kind (CmdWord.ofFields op kind lk ce) = kind := by
  refine BitVec.eq_of_getLsbD_eq fun i hi => ?_
  rw [CmdWord.kind, BitVec.getLsbD_extractLsb', decide_eq_true hi, Bool.true_and, CmdWord.ofFields_getLsbD,
    if_neg (by omega), if_pos (by omega), Nat.add_sub_cancel_left]

@[simp] theorem CmdWord.lenKnown_ofFields (op kind : BitVec 4) (lk ce : Bool) :
    CmdWord.lenKnown (CmdWord.ofFields op kind lk ce) = lk := CmdWord.ofFields_getLsbD op kind lk ce 8

@[simp] theorem CmdWord.capEn_ofFields (op kind : BitVec 4) (lk ce : Bool) :
    CmdWord.capEn (CmdWord.ofFields op kind lk ce) = ce := CmdWord.ofFields_getLsbD op kind lk ce 9

@[simp] theorem CmdWord.reserved_ofFields (op kind : BitVec 4) (lk ce : Bool) :
    CmdWord.reserved (CmdWord.ofFields op kind lk ce) = 0 := by
  refine BitVec.eq_of_getLsbD_eq fun i hi => ?_
  rw [CmdWord.reserved, BitVec.getLsbD_extractLsb', CmdWord.ofFields_getLsbD, if_neg (by omega), if_neg (by omega),
    if_neg (by omega), if_neg (by omega), Bool.and_false]
  exact BitVec.getLsbD_zero.symm

/-- A word with no reserved bit is put together from its fields. -/
theorem CmdWord.ofFields_fields {w : CmdWord} (hr : CmdWord.reserved w = 0) :
    CmdWord.ofFields (CmdWord.op w) (CmdWord.kind w) (CmdWord.lenKnown w) (CmdWord.capEn w) = w := by
  refine BitVec.eq_of_getLsbD_eq fun i hi => ?_
  have hhigh : 10 ≤ i → w.getLsbD i = false := fun h => by
    have := congrArg (BitVec.getLsbD · (i - 10)) hr
    simpa [CmdWord.reserved, show i - 10 < 22 by omega, show 10 + (i - 10) = i by omega] using this
  rw [CmdWord.ofFields_getLsbD]
  split
  · simp [CmdWord.op, *]
  · split
    · simp [CmdWord.kind, show i - 4 < 4 by omega, show 4 + (i - 4) = i by omega]
    · split
      · simp [CmdWord.lenKnown, *]
      · split
        · simp [CmdWord.capEn, *]
        · exact (hhigh (by omega)).symm

/-- A word with no reserved bit is the word of the fields it has. -/
theorem CmdWord.some_ofFields_eq {w : CmdWord} {op kind : BitVec 4} {lk : Bool} (hr : CmdWord.reserved w = 0)
    (ho : CmdWord.op w = op) (hk : CmdWord.kind w = kind) (hl : CmdWord.lenKnown w = lk) :
    some (CmdWord.ofFields op kind lk (CmdWord.capEn w)) = some w := by
  subst ho hk hl
  rw [CmdWord.ofFields_fields hr]

/-- The two parts of the word of `ABORT` (R92). -/
theorem CmdWord.abort_append {w : CmdWord} (ho : CmdWord.op w = 15) : w.extractLsb' 4 28 ++ 15#4 = w := by
  change _ ++ (15 : BitVec 4) = w
  rw [← ho]
  refine BitVec.eq_of_getLsbD_eq fun i hi => ?_
  rw [BitVec.getLsbD_append]
  split
  · simp [CmdWord.op, *]
  · simp [show i - 4 < 28 by omega, show 4 + (i - 4) = i by omega]

theorem CmdWord.op_abort (rest : BitVec 28) : CmdWord.op (rest ++ 15#4) = 15 := by
  refine BitVec.eq_of_getLsbD_eq fun j hj => ?_
  rw [CmdWord.op, BitVec.getLsbD_extractLsb', decide_eq_true hj, Bool.true_and, Nat.zero_add, BitVec.getLsbD_append,
    if_pos hj]
  rfl

theorem CmdWord.rest_abort (rest : BitVec 28) : (rest ++ 15#4).extractLsb' 4 28 = rest := by
  refine BitVec.eq_of_getLsbD_eq fun j hj => ?_
  rw [BitVec.getLsbD_extractLsb', decide_eq_true hj, Bool.true_and, BitVec.getLsbD_append, if_neg (by omega),
    Nat.add_sub_cancel_left]

/-! ## The round trip -/

/-- A command decodes from its word. -/
theorem exists_encodeCommand_of_isCommand {i : Instr} (hc : i.isCommand = true) :
    ∃ w, encodeCommand i = some w ∧ decodeCommand w = some i := by
  cases i with
  | abort rest =>
    exact ⟨_, rfl, by rw [decodeCommand, if_pos (CmdWord.op_abort rest), CmdWord.rest_abort]⟩
  | nop | decompressLzss | decompressHuffman | decompressGammaLz | decompressSkipLzss | decompressSkipHuffman
  | decompressSkipGammaLz | compressLzss | applyCipherLcgXor | applyCipherPosXor =>
    exact ⟨_, rfl, by simp [decodeCommand]⟩
  | _ => cases hc

/-- A word that decodes to a command is the word of that command: no bit is dropped (R110). -/
theorem encodeCommand_of_decodeCommand {w : CmdWord} {i : Instr} (h : decodeCommand w = some i) :
    encodeCommand i = some w := by
  unfold decodeCommand at h
  split at h
  · next hop =>
    cases h
    exact congrArg some (CmdWord.abort_append hop)
  · split at h
    · cases h
    · next hr =>
      repeat' split at h
      all_goals cases h
      all_goals exact CmdWord.some_ofFields_eq (not_not.mp hr) (by assumption) (by simp [*]) (by simp [*])

/-- Settles O8: fields and word give each other back, and the decoder drops no field. -/
theorem commandWordRoundTrip : Obligations.CommandWordRoundTrip :=
  ⟨fun _ => exists_encodeCommand_of_isCommand, fun _ _ => encodeCommand_of_decodeCommand⟩

end Sys2Proof

namespace Sys2Proof.Machine

/-! ## The legal words (R94, R272) -/

/-- A legal start stands for a command. -/
theorem LegalStart.decodes {w : CmdWord} (h : LegalStart w) : (decodeCommand w).isSome = true := by
  obtain ⟨hr, ⟨hop, hkind, hhuf⟩ | ⟨hop, hkind⟩ | ⟨hop, hkind⟩⟩ := h
  · rcases hop with hop | hop <;> rcases hkind with hkind | hkind | hkind <;> simp_all [decodeCommand]
  · simp [decodeCommand, hr, hop, hkind]
  · rcases hkind with hkind | hkind <;> simp [decodeCommand, hr, hop, hkind]

/-- The words that stand for a command are `ABORT`, `NOP` with no reserved bit, and the legal starts: a word that
decodes is the word of its command, whose fields are known. -/
theorem decodeCommand_isSome_iff (w : CmdWord) :
    (decodeCommand w).isSome = true ↔
      CmdWord.op w = 15 ∨ (CmdWord.op w = 0 ∧ CmdWord.reserved w = 0) ∨ LegalStart w := by
  constructor
  · intro h
    obtain ⟨i, hi⟩ := Option.isSome_iff_exists.mp h
    have hw := encodeCommand_of_decodeCommand hi
    cases i with
    | abort rest => cases hw; exact .inl (CmdWord.op_abort rest)
    | nop k lk ce => cases hw; exact .inr (.inl ⟨by simp, by simp⟩)
    | decompressLzss | decompressHuffman | decompressGammaLz | decompressSkipLzss | decompressSkipHuffman
    | decompressSkipGammaLz | compressLzss | applyCipherLcgXor | applyCipherPosXor =>
      cases hw
      exact .inr (.inr (by simp [LegalStart]))
    | _ => cases hw
  · rintro (hop | ⟨hop, hr⟩ | hstart)
    · rw [decodeCommand, if_pos hop]; rfl
    · simp [decodeCommand, hop, hr]
    · exact hstart.decodes

/-- Settles O7: a word that stands for no command is refused. -/
theorem onlyLegalWordsStartACommand : Obligations.OnlyLegalWordsStartACommand := by
  refine ⟨decodeCommand_isSome_iff, fun v rest s h hb hop hnop hstart => ?_⟩
  have hnone : decodeCommand (BitVec.ofNat 32 v) = none := by
    rw [← Option.not_isSome_iff_eq_none, decodeCommand_isSome_iff]
    exact not_or.mpr ⟨hop, not_or.mpr ⟨hnop, hstart⟩⟩
  refine ⟨{ s with agenda := rest }.refuseCommand, ?_, rfl, rfl, rfl, rfl, rfl, rfl, rfl, rfl⟩
  rw [step_hostTurnNext h, hostTurn]
  dsimp only
  rw [h.2, if_neg Bool.false_ne_true, if_pos rfl, runCommand, hnone]
  dsimp only
  rw [if_neg hb]

/-- Settles O21, each word and code by evaluation. -/
theorem writtenOutWordsDecode : Obligations.WrittenOutWordsDecode := by
  refine ⟨?_, ?_, ?_, ?_, ?_, ?_, ?_, ?_, ?_, ?_, ?_⟩ <;> decide

end Sys2Proof.Machine
end

section
/-! # LZSS tokens, the encoder's bytes and table images (R95 to R98, R100, R178, R179) -/

namespace Sys2Proof

/-! ## The LZSS decoder's reading (R95 to R97) -/

/-- The fields of the second byte of a match (R97). -/
theorem match_fields (phi nl : BitVec 4) :
    (phi ++ nl).extractLsb' 4 4 = phi ∧ (phi ++ nl).extractLsb' 0 4 = nl := by
  constructor <;> refine BitVec.eq_of_getLsbD_eq fun i hi => ?_ <;>
    rw [BitVec.getLsbD_extractLsb', decide_eq_true hi, Bool.true_and, BitVec.getLsbD_append]
  · rw [if_neg (by omega), Nat.add_sub_cancel_left]
  · rw [Nat.zero_add, if_pos hi]

open Machine in
/-- An LZSS token is read from its bytes, and exactly its bytes are consumed. -/
theorem decodeToken_lzss {i : Instr} {x : TokenContext} {c : Cursor} (hx : lzssContext i = some x)
    (h : c.BytesAhead (Piece.bytes (encodeToken i))) :
    decodeToken x c =
      .got i { c with pos := c.pos + BitVec.ofNat 64 (Piece.bytes (encodeToken i)).length } := by
  cases i with
  | lzssFlags f | lzssLit f =>
    cases hx
    rw [decodeToken, h.readByte.1]
    rfl
  | lzssMatch plo phi nl =>
    cases hx
    obtain ⟨hread0, h1⟩ := h.readByte
    obtain ⟨hread1, -⟩ := h1.readByte
    obtain ⟨hphi, hnl⟩ := match_fields phi nl
    rw [decodeToken, decodeLzssMatch, hread0, Fetched.andThen, hread1, Fetched.andThen, hphi, hnl]
    dsimp only
    rw [add_assoc]
    rfl
  | _ => cases hx

/-- Bit `k` of the flag byte of a group is the flag of its `k`-th token (R95). -/
theorem groupFlags_getLsbD (ts : List Instr) (k : Nat) (hts : ts.length ≤ 8) :
    (groupFlags ts).getLsbD k =
      match ts[k]? with
      | some t => (Piece.bits (encodeToken t)).headD false
      | none => false := by
  induction ts generalizing k with
  | nil => exact BitVec.getLsbD_zero
  | cons t ts ih =>
    rw [List.length_cons] at hts
    rw [groupFlags, getLsbD_shiftLeft_one_or_ofNat]
    cases k with
    | zero => rfl
    | succ k =>
      rw [if_neg k.succ_ne_zero, Nat.add_sub_cancel, ih k (by omega), List.getElem?_cons_succ]
      by_cases hk : k + 1 < 8
      · rw [decide_eq_true hk, Bool.true_and]
      · rw [decide_eq_false hk, Bool.false_and, List.getElem?_eq_none (by omega)]

/-- Settles O23: the bytes are read one after the other; a group's flag byte is built from its last token's flag up. -/
theorem lzssTokenRoundTrip : Obligations.LzssTokenRoundTrip :=
  ⟨fun _ _ _ => decodeToken_lzss, groupFlags_getLsbD⟩

end Sys2Proof

namespace Sys2Proof.Machine

/-! ## The bytes of a token in `code_buf` (R178, R179) -/

/-- The two parts of a position field, put together again (R98). -/
theorem lzssField_extract (d : Ring) : lzssField (d.extractLsb' 0 8) (d.extractLsb' 8 4) = d := by
  refine BitVec.eq_of_getLsbD_eq fun i hi => ?_
  rw [lzssField, BitVec.getLsbD_append]
  split
  · simp [*]
  · simp [show i - 8 < 4 by omega, show 8 + (i - 8) = i by omega]

theorem lzssField_toNat (plo : Byte) (phi : BitVec 4) : (lzssField plo phi).toNat = plo.toNat + 256 * phi.toNat := by
  rw [lzssField, append_toNat]
  omega

/-- The length field of a match that can be coded (R98). -/
theorem lengthField_toNat {n : Nat} (h3 : 3 ≤ n) (h18 : n ≤ 18) : (BitVec.ofNat 4 (n - 3)).toNat + 3 = n := by
  rw [BitVec.toNat_ofNat]
  omega

theorem State.codeAt_emitMatch (s : State) (j : Nat) : s.emitMatch.codeAt j =
    if j = s.codePtr.toNat + 1 then (s.ringR - s.matchPos).extractLsb' 8 4 ++ BitVec.ofNat 4 (s.matchLen.toNat - 3)
    else if j = s.codePtr.toNat then (s.ringR - s.matchPos).extractLsb' 0 8 else s.codeAt j := by
  rw [State.emitMatch_eq, State.codeAt, Memory.read_write, Memory.read_write]
  rfl

theorem State.codeAt_emitLiteral (s : State) (j : Nat) : s.emitLiteral.codeAt j =
    if j = s.codePtr.toNat then s.winAt s.ringR else if j = 0 then s.codeAt 0 ||| s.mask else s.codeAt j := by
  rw [State.emitLiteral_eq, State.codeAt, Memory.read_write, Memory.read_write]
  rfl

/-- Settles O25: the cells of `code_buf` after each emission, and the fields of a match in both directions. -/
theorem matchBytesInvertTheField : Obligations.MatchBytesInvertTheField := by
  refine ⟨fun s h1 h15 h3 h18 => ?_, fun s h1 h16 => ?_, fun d n h3 h18 => ?_⟩
  · refine ⟨(s.ringR - s.matchPos).extractLsb' 0 8, (s.ringR - s.matchPos).extractLsb' 8 4,
      BitVec.ofNat 4 (s.matchLen.toNat - 3), ?_, ?_, lengthField_toNat h3 h18, ?_, fun j hj hj1 => ?_, ?_⟩
    · rw [s.codeAt_emitMatch, s.codeAt_emitMatch, if_neg (Nat.succ_ne_self _).symm, if_pos rfl, if_pos rfl]
      rfl
    · rw [← lzssField_toNat, lzssField_extract]
    · rw [State.emitMatch_eq]
      change (s.codePtr + 2).toNat = _
      bv_omega
    · rw [s.codeAt_emitMatch, if_neg hj1, if_neg hj]
    · rw [State.emitMatch_eq]
  · refine ⟨?_, ?_, ?_, ?_, fun j hj0 hj => ?_, ?_⟩
    · rw [State.emitLiteral_eq]
    · rw [s.codeAt_emitLiteral, if_neg (by omega), if_pos rfl]
    · rw [s.codeAt_emitLiteral, if_pos rfl]
    · rw [State.emitLiteral_eq]
      change (s.codePtr + 1).toNat = _
      bv_omega
    · rw [s.codeAt_emitLiteral, if_neg hj, if_neg hj0]
    · rw [State.emitLiteral_eq]
  · exact ⟨_, _, _, rfl, lzssField_extract d, lengthField_toNat h3 h18⟩

/-! ## The image of a table entry (R100) -/

/-- What an image stands for, by its bit 31. -/
theorem htOfImage_leaf {v : BitVec 32} (h : v.getLsbD 31 = true) : htOfImage v = .leaf (v.extractLsb' 0 8) := if_pos h

theorem htOfImage_node {v : BitVec 32} (h : v.getLsbD 31 = false) :
    htOfImage v = .node (v.extractLsb' 0 9) (v.extractLsb' 16 9) := if_neg (by rw [h]; exact Bool.false_ne_true)

/-- The bits of a leaf's image. -/
theorem htImage_leaf_getLsbD (sym : Byte) (i : Nat) :
    (htImage (.leaf sym)).getLsbD i = if i < 8 then sym.getLsbD i else decide (i = 31) := by
  rw [htImage, BitVec.getLsbD_append, BitVec.getLsbD_append]
  split
  · rfl
  · by_cases hi : i - 8 < 23
    · rw [if_pos hi, BitVec.getLsbD_zero, decide_eq_false (by omega)]
    · rw [if_neg hi, BitVec.getLsbD_one, decide_eq_true Nat.one_pos, Bool.true_and]
      exact decide_eq_decide.mpr (by omega)

/-- The bits of a node's image. -/
theorem htImage_node_getLsbD (c0 c1 : BitVec 9) (i : Nat) :
    (htImage (.node c0 c1)).getLsbD i = if i < 9 then c0.getLsbD i else decide (16 ≤ i) && c1.getLsbD (i - 16) := by
  rw [htImage, BitVec.getLsbD_append, BitVec.getLsbD_append, BitVec.getLsbD_append]
  split
  · rfl
  · by_cases hlow : i - 9 < 7
    · rw [if_pos hlow, BitVec.getLsbD_zero, decide_eq_false (by omega), Bool.false_and]
    · rw [if_neg hlow, decide_eq_true (by omega), Bool.true_and, Nat.sub_sub, Nat.sub_sub]
      split
      · rfl
      · rw [BitVec.getLsbD_zero, BitVec.getLsbD_of_ge _ _ (by omega)]

theorem htImage_leaf_toNat (sym : Byte) : (htImage (.leaf sym)).toNat = 2 ^ 31 + sym.toNat := by
  rw [htImage, append_toNat, append_toNat]
  rfl

theorem htImage_node_toNat (c0 c1 : BitVec 9) : (htImage (.node c0 c1)).toNat = c0.toNat + 65536 * c1.toNat := by
  rw [htImage, append_toNat, append_toNat, append_toNat]
  simp only [BitVec.toNat_ofNat]
  omega

/-- The image of an entry stands for the entry. -/
theorem htOfImage_htImage (e : HtEntry) : htOfImage (htImage e) = e := by
  cases e with
  | leaf sym =>
    have h31 : (htImage (.leaf sym)).getLsbD 31 = true := htImage_leaf_getLsbD sym 31
    rw [htOfImage_leaf h31]
    congr 1
    refine BitVec.eq_of_getLsbD_eq fun i hi => ?_
    rw [BitVec.getLsbD_extractLsb', decide_eq_true hi, Bool.true_and, Nat.zero_add, htImage_leaf_getLsbD, if_pos hi]
  | node c0 c1 =>
    have h31 : (htImage (.node c0 c1)).getLsbD 31 = false := by
      rw [htImage_node_getLsbD, if_neg (by omega), BitVec.getLsbD_of_ge _ _ (by omega), Bool.and_false]
    rw [htOfImage_node h31]
    congr 1 <;> refine BitVec.eq_of_getLsbD_eq fun i hi => ?_ <;>
      rw [BitVec.getLsbD_extractLsb', decide_eq_true hi, Bool.true_and, htImage_node_getLsbD]
    · rw [Nat.zero_add, if_pos hi]
    · rw [if_neg (by omega), decide_eq_true (by omega), Bool.true_and, Nat.add_sub_cancel_left]

/-- The bits a leaf's image uses are those of the leaf with every bit set. -/
theorem htImage_leaf_extract {v : BitVec 32} (h : v.getLsbD 31 = true) :
    htImage (.leaf (v.extractLsb' 0 8)) = v &&& htImage (.leaf (BitVec.allOnes 8)) := by
  refine BitVec.eq_of_getLsbD_eq fun i hi => ?_
  rw [BitVec.getLsbD_and, htImage_leaf_getLsbD, htImage_leaf_getLsbD, BitVec.getLsbD_extractLsb', Nat.zero_add,
    BitVec.getLsbD_allOnes]
  split
  · next hlt => rw [decide_eq_true hlt, Bool.true_and, Bool.and_true]
  · by_cases h31 : i = 31
    · rw [h31, h]
      rfl
    · rw [decide_eq_false h31, Bool.and_false]

/-- The bits a node's image uses are those of the node with every bit set. -/
theorem htImage_node_extract (v : BitVec 32) :
    htImage (.node (v.extractLsb' 0 9) (v.extractLsb' 16 9)) =
      v &&& htImage (.node (BitVec.allOnes 9) (BitVec.allOnes 9)) := by
  refine BitVec.eq_of_getLsbD_eq fun i hi => ?_
  rw [BitVec.getLsbD_and, htImage_node_getLsbD, htImage_node_getLsbD, BitVec.getLsbD_extractLsb',
    BitVec.getLsbD_extractLsb', Nat.zero_add, BitVec.getLsbD_allOnes, BitVec.getLsbD_allOnes]
  split
  · next hlt => rw [decide_eq_true hlt, Bool.true_and, Bool.and_true]
  · by_cases h16 : 16 ≤ i
    · rw [decide_eq_true h16, Bool.true_and, Bool.true_and, Nat.add_sub_cancel' h16, Bool.and_comm]
    · rw [decide_eq_false h16, Bool.false_and, Bool.false_and, Bool.and_false]

/-- Settles O26: the bits of both kinds of image, and bit 31, which tells them apart. -/
theorem tableImageRoundTrip : Obligations.TableImageRoundTrip := by
  have h31 (v : BitVec 32) : v.getLsbD 31 = decide (2 ^ 31 ≤ v.toNat) := v.msb_eq_decide
  refine ⟨fun v => ⟨fun hlt => ?_, fun hge => ?_⟩, htImage_node_toNat, htImage_leaf_toNat, htOfImage_htImage,
    fun v => ?_⟩
  · refine ⟨_, _, htOfImage_node ((h31 v).trans (decide_eq_false (not_le.mpr hlt))), ?_, ?_⟩
    · rw [BitVec.extractLsb'_toNat, Nat.shiftRight_zero]
    · rw [BitVec.extractLsb'_toNat, Nat.shiftRight_eq_div_pow]
  · refine ⟨_, htOfImage_leaf ((h31 v).trans (decide_eq_true hge)), ?_⟩
    rw [BitVec.extractLsb'_toNat, Nat.shiftRight_zero]
  · split
    · next hv => rw [htOfImage_leaf hv, htImage_leaf_extract hv]; rfl
    · next hv => rw [htOfImage_node (Bool.eq_false_iff.mpr hv), htImage_node_extract]; rfl

end Sys2Proof.Machine
end

section
/-! # The books of the Decompressor shell (R135, R159, R273) -/

namespace Sys2Proof.Machine

/-! ## Tokens by what they do -/

/-- The last lines of a token of one fixed byte, which a byte that halts does not reach (R153, R224). -/
def State.endByte (s : State) : Instr → State
  | .lzssLit _ => s.nextToken
  | _ => { s with lwm := false }.glzNext

/-- A token of one fixed byte produces it, then runs its last lines (R154, R222, R225, R226). -/
theorem exec_byte {i : Instr} {b : Byte} (h : tokenByte i = some b) (s : State) :
    exec i s = ((s.produce b).andThen fun t => .go (t.endByte i)).toOutcome := by
  cases i <;> cases h <;> rfl

/-- The end marker ends the command as the end of the input does (R227, R131). -/
theorem exec_glzEnd (x : Bool) (s : State) : exec (.glzEnd x) s = .next s.endOfInput := by
  change (s.tokNearOrEnd 0 x).toOutcome = _
  unfold State.tokNearOrEnd State.endOfInput
  rw [if_pos rfl]
  split <;> rfl

/-- What a token does, seen by the shell: it produces one byte, copies, reads flags, or ends the stream. -/
inductive TokenClass (s : State) (i : Instr) : Prop where
  | byte (b : Byte) (h : tokenByte i = some b)
  | copy (d n : Nat) (h : copyOperands s i = some (d, n))
  | flags (f : Byte) (h : i = .lzssFlags f)
  | marker (x : Bool) (h : i = .glzEnd x)

/-- A token that its context admits acts as one of the four classes: `SHORT` of distance 0 is `ZERO`, and `NEAR` of
distance 0 is `END` (R226, R227). -/
theorem exec_admitted {s : State} {x : TokenContext} {i : Instr} (hx : s.tokenContext = some x) (hi : x.admits i) :
    ∃ j, exec i s = exec j s ∧ TokenClass s j := by
  cases i with
  | lzssFlags f => exact ⟨_, rfl, .flags f rfl⟩
  | lzssLit b | glzFirst b | glzLit b => exact ⟨_, rfl, .byte b rfl⟩
  | glzZero => exact ⟨_, rfl, .byte 0 rfl⟩
  | lzssMatch plo phi nl => exact ⟨_, rfl, .copy _ _ rfl⟩
  | glzRep n => exact ⟨_, rfl, .copy _ _ rfl⟩
  | glzEnd v => exact ⟨_, rfl, .marker v rfl⟩
  | glzShort d =>
    by_cases hd : d = 0
    · subst hd
      exact ⟨.glzZero, rfl, .byte 0 rfl⟩
    · exact ⟨_, rfl, .copy _ _ (if_neg hd)⟩
  | glzNear d n =>
    by_cases hd : d = 0
    · subst hd
      exact ⟨.glzEnd n, rfl, .marker n rfl⟩
    · exact ⟨_, rfl, .copy _ _ (if_neg hd)⟩
  | glzFar g lo n =>
    cases x with
    | glzToken w =>
      obtain rfl := (State.tokenContext_unit hx).2 w rfl
      exact ⟨_, rfl, .copy _ _ ((farByRule_eq s.lwm g n lo).trans (if_neg (Nat.not_lt.mpr hi)))⟩
    | _ => exact hi.elim
  | _ => cases x <;> exact hi.elim

/-- A decoder whose step has a next state stands before a token of its stream. -/
theorem decoder_reads {s t : State} (hd : s.unit.isDecoder = true) (h : stepUnit s = .next t) :
    (∃ x, s.tokenContext = some x) ∨ (s.unit = .huf ∧ s.ustate = UState.symbol) := by
  by_contra hn
  rw [not_or, not_exists] at hn
  obtain ⟨hctx, hhuf⟩ := hn
  have hr : s.readToken = none := by
    unfold State.readToken
    split
    · next hu => exact if_neg fun hus => hhuf ⟨hu, hus⟩
    · rw [Option.eq_none_iff_forall_ne_some.mpr hctx]
  rw [stepUnit, hr, stepPlainUnit] at h
  cases hu : s.unit with
  | lzd | huf | glz => rw [hu] at h; cases h
  | none | lze | kc => rw [hu] at hd; cases hd

/-! ## The books -/

/-- What a Busy decode of known length that is to produce `total` bytes owes: those delivered and those still wanted make
`TAKE`, none is delivered before the skip is over, and those produced, to be skipped and wanted make `total`. -/
def Owing (total : Count) (s : State) : Prop :=
  s.takeRem ≠ 0 ∧ s.dst.length + s.takeRem.toNat = s.take.toNat ∧ (s.skipRem ≠ 0 → s.dst = []) ∧
  s.outCount + s.skipRem + s.takeRem = total

/-- The books of a decode that is to produce `total` bytes. While it is Busy it owes them, if the length is known, and
has not passed the cap. Once it is `Done` with a known length, `TAKE` bytes are delivered and `total` are produced. -/
def ShellBooks (total : Count) (s : State) : Prop :=
  (s.phase = .busy → (s.lenKnown = true → Owing total s) ∧ (s.capEn = true → s.outCount ≤ s.maxOut)) ∧
  (s.phase = .done → s.lenKnown = true → s.dst.length = s.take.toNat ∧ s.takeRem = 0 ∧ s.outCount = total)

theorem ShellBooks.of_busy {total : Count} {s : State} (hb : s.phase = .busy) (howed : s.lenKnown = true → Owing total s)
    (hcap : s.capEn = true → s.outCount ≤ s.maxOut) : ShellBooks total s :=
  ⟨fun _ => ⟨howed, hcap⟩, fun hd => absurd (hb.symm.trans hd) Phase.noConfusion⟩

theorem ShellBooks.of_failed {total : Count} {s : State} (h : s.phase = .failed) : ShellBooks total s :=
  ⟨fun hb => absurd (h.symm.trans hb) Phase.noConfusion, fun hd => absurd (h.symm.trans hd) Phase.noConfusion⟩

theorem ShellBooks.of_done {total : Count} {s : State} (h : s.phase = .done)
    (hend : s.lenKnown = true → s.dst.length = s.take.toNat ∧ s.takeRem = 0 ∧ s.outCount = total) :
    ShellBooks total s :=
  ⟨fun hb => absurd (h.symm.trans hb) Phase.noConfusion, fun _ => hend⟩

theorem ShellBooks.endOfInput {total : Count} (s : State) : ShellBooks total s.endOfInput := by
  rcases s.endOfInput_cases with ⟨-, h⟩ | ⟨hl, h⟩ <;> rw [h]
  · exact .of_failed rfl
  · exact .of_done rfl fun hl' => absurd (hl.symm.trans hl') Bool.false_ne_true

/-- One byte more keeps the books: it is produced, and skipped or delivered (R135). -/
theorem ShellBooks.produce {total : Count} {s : State} (h : ShellBooks total s) (hb : s.phase = .busy) (b : Byte) :
    ShellBooks total (s.produce b).state := by
  obtain ⟨howed, hcap⟩ := h.1 hb
  have hroom (hn : ¬(s.capEn = true ∧ s.outCount = s.maxOut)) (hc : s.capEn = true) : s.outCount + 1 ≤ s.maxOut :=
    Count.succ_le_of_ne (fun hfull => hn ⟨hc, hfull⟩) (hcap hc)
  rcases s.produce_cases b with
    ⟨-, -, hp⟩ | ⟨hn, ⟨hs, hp⟩ | ⟨-, hl, hp⟩ | ⟨hs, hl, hmore, hp⟩ | ⟨hs, hl, hlast, hp⟩⟩ <;>
    rw [hp] <;> simp only [Flow.state, State.countByte_eq]
  · exact .of_failed rfl
  · refine .of_busy hb (fun hl => ?_) (hroom hn)
    obtain ⟨htake, hsum, hnone, htotal⟩ := howed hl
    exact ⟨htake, hsum, fun _ => hnone hs, by rw [← htotal]; ring⟩
  · exact .of_busy hb (fun hl' => absurd (hl.symm.trans hl') Bool.false_ne_true) (hroom hn)
  · refine .of_busy hb (fun _ => ?_) (hroom hn)
    obtain ⟨htake, hsum, -, htotal⟩ := howed hl
    refine ⟨fun h0 => hmore (sub_eq_zero.mp h0), ?_, fun hs' => absurd hs hs', by rw [← htotal]; ring⟩
    dsimp only
    rw [List.length_append, List.length_singleton]
    bv_omega
  · refine .of_done rfl fun _ => ?_
    obtain ⟨-, hsum, -, htotal⟩ := howed hl
    rw [hs, hlast] at htotal
    rw [hlast] at hsum
    exact ⟨(List.length_append ..).trans hsum, rfl, by rw [← htotal]; ring⟩

theorem ShellBooks.copyBytes {total : Count} (d n : Nat) {s : State} (h : ShellBooks total s) (hb : s.phase = .busy) :
    ShellBooks total (State.copyBytes d n s).state := by
  induction n generalizing s with
  | zero => exact h
  | succ n ih =>
    unfold State.copyBytes
    have hnext := h.produce hb (s.winAt (s.cur - BitVec.ofNat 12 d))
    have hends := (s.produce_produces (s.winAt (s.cur - BitVec.ofNat 12 d))).ends
    cases hp : s.produce (s.winAt (s.cur - BitVec.ofNat 12 d)) with
    | halt t => rw [hp] at hnext; exact hnext
    | go t =>
      rw [hp] at hnext hends
      obtain ⟨hphase, -⟩ : Continues s t := hends
      exact ih hnext (hphase.trans hb)

theorem ShellBooks.copyBack {total : Count} {s : State} (h : ShellBooks total s) (hb : s.phase = .busy) (d n : Nat) :
    ShellBooks total (s.copyBack d n).state := by
  unfold State.copyBack
  split
  · exact .of_failed rfl
  · exact h.copyBytes d n hb

/-- The last lines of a token keep the books if they leave the shell alone. -/
theorem ShellBooks.lines {total : Count} {x : Flow} {f : State → State} (hx : ShellBooks total x.state)
    (hf : ∀ t, ShellBooks total t → ShellBooks total (f t)) :
    ShellBooks total (x.andThen fun t => .go (f t)).state := by
  cases x with
  | go t => exact hf t hx
  | halt t => exact hx

theorem ShellBooks.nextToken {total : Count} {s : State} (h : ShellBooks total s) : ShellBooks total s.nextToken := by
  rw [s.nextToken_frame]
  exact h

theorem ShellBooks.endByte {total : Count} {s : State} (h : ShellBooks total s) (i : Instr) :
    ShellBooks total (s.endByte i) := by
  unfold State.endByte
  split
  · exact h.nextToken
  · exact h

theorem ShellBooks.endCopy {total : Count} {s : State} (h : ShellBooks total s) (d : Nat) (i : Instr) :
    ShellBooks total (s.endCopy d i) := by
  rw [s.endCopy_frame]
  exact h

/-- A token of any class keeps the books. -/
theorem TokenClass.books {total : Count} {s t : State} {i : Instr} (hc : TokenClass s i) (h : ShellBooks total s)
    (hb : s.phase = .busy) (ht : exec i s = .next t) : ShellBooks total t := by
  cases hc with
  | byte b hi =>
    rw [exec_byte hi] at ht
    cases ht
    exact (h.produce hb b).lines fun _ hu => hu.endByte i
  | copy d n hi =>
    rw [exec_copy hi] at ht
    cases ht
    exact (h.copyBack hb d n).lines fun _ hu => hu.endCopy d i
  | flags f hi =>
    subst hi
    cases ht
    exact ShellBooks.nextToken h
  | marker v hi =>
    subst hi
    rw [exec_glzEnd] at ht
    cases ht
    exact .endOfInput s

/-- A step of a window decoder keeps the books. -/
theorem ShellBooks.window {total : Count} {s t : State} {x : TokenContext} (h : ShellBooks total s)
    (hb : s.phase = .busy) (hx : s.tokenContext = some x) (ht : stepUnit s = .next t) : ShellBooks total t := by
  rw [stepUnit_of_tokenContext hx] at ht
  cases hd : decodeToken x s.cursor with
  | got i c =>
    rw [hd] at ht
    obtain ⟨j, hj, hc⟩ := exec_admitted (s := s.withCursor c) hx (decodeToken_gives x _ i c hd)
    exact hc.books h hb (hj.symm.trans ht)
  | endOfInput c => rw [hd] at ht; cases ht; exact .endOfInput _
  | malformed c => rw [hd] at ht; cases ht; exact .of_failed rfl

/-- A step of the Huffman decoder keeps the books. -/
theorem ShellBooks.huf {total : Count} {s t : State} (h : ShellBooks total s) (hb : s.phase = .busy)
    (hu : s.unit = .huf) (hus : s.ustate = UState.symbol) (ht : stepUnit s = .next t) : ShellBooks total t := by
  rw [stepUnit_of_huf hu hus] at ht
  cases hd : decodeHuf s.ht s.cursor with
  | code path c =>
    rw [hd] at ht
    obtain ⟨m, sym, hf⟩ := decodeHuf_code hd
    obtain ⟨he, -⟩ := exec_hufSym (s := s.withCursor c) hu hf
    cases he.symm.trans ht
    exact (ShellBooks.produce (s := { s.withCursor c with node := m }) h hb sym).lines fun _ hu => hu
  | endOfInput n c => rw [hd] at ht; cases ht; exact .endOfInput _
  | noCode c => rw [hd] at ht; cases ht; exact .of_failed rfl

/-- Every step of a decoder keeps the books. -/
theorem ShellBooks.stepUnit {total : Count} {s t : State} (h : ShellBooks total s) (hb : s.phase = .busy)
    (hd : s.unit.isDecoder = true) (ht : stepUnit s = .next t) : ShellBooks total t := by
  rcases decoder_reads hd ht with ⟨x, hx⟩ | ⟨hu, hus⟩
  · exact h.window hb hx ht
  · exact h.huf hb hu hus ht

/-! ## The invariant -/

/-- While a decoder is Busy, `ShellLegal` is the books for the bytes produced, to be skipped and owed. -/
theorem ShellLegal.books {s : State} (h : ShellLegal s) (hb : s.phase = .busy) (hd : s.unit.isDecoder = true) :
    ShellBooks (s.outCount + s.skipRem + s.takeRem) s := by
  have hlegal := h hb
  rw [if_pos hd] at hlegal
  obtain ⟨howed, hcap⟩ := hlegal
  refine .of_busy hb (fun hl => ?_) hcap
  obtain ⟨htake, hsum, hnone⟩ := howed hl
  exact ⟨htake, hsum, hnone, rfl⟩

theorem ShellBooks.legal {total : Count} {s : State} (h : ShellBooks total s) (hd : s.unit.isDecoder = true) :
    ShellLegal s := by
  intro hb
  obtain ⟨howed, hcap⟩ := h.1 hb
  rw [if_pos hd]
  refine ⟨fun hl => ?_, hcap⟩
  obtain ⟨htake, hsum, hnone, -⟩ := howed hl
  exact ⟨htake, hsum, hnone⟩

theorem ShellLegal.engine {s t : State} (h : ShellLegal s) (hb : s.phase = .busy) (ht : stepUnit s = .next t) :
    ShellLegal t := by
  obtain ⟨-, -, hu, hl, hc, -⟩ := stepUnit_keeps ht
  cases hd : s.unit.isDecoder with
  | true => exact ((h.books hb hd).stepUnit hb hd ht).legal (hu ▸ hd)
  | false =>
    have hlegal := h hb
    rw [hd, if_neg Bool.false_ne_true] at hlegal
    intro _
    rw [hu, hd, hl, hc, if_neg Bool.false_ne_true]
    exact hlegal

/-- A start that knows the length takes it from `TAKE`, and only a decoder's start has a length or a cap (R267 to
R270). -/
theorem startSpec_shell {i : Instr} {p : StartSpec} (hp : startSpec i = some p) :
    (p.lenKnown = true → p.usesTake = true) ∧
    (p.unit.isDecoder = false → p.lenKnown = false ∧ p.capEn = false) := by
  cases i <;> cases hp <;> simp [UnitSel.isDecoder]

theorem State.start_take (s : State) (p : StartSpec) : (s.start p).take = s.take := by
  rw [s.start_frame p]

/-- A start opens the books: nothing is produced, and a decode that wants no byte is `Done` (R273). -/
theorem ShellBooks.start (s : State) {i : Instr} {p : StartSpec} (hp : startSpec i = some p)
    (hd : p.unit.isDecoder = true) :
    ShellBooks (if s.take = 0 then 0 else (if p.usesSkip then s.skip else 0) + s.take) (s.start p) := by
  obtain ⟨-, hdst, -, hout, hl, -, hskip, htake, hunit, -, hphase⟩ := s.start_shell (startSpec_unit_ne_none hp)
  have huses := (startSpec_shell hp).1
  by_cases hnone : p.lenKnown = true ∧ s.take = 0
  · obtain ⟨hlk, h0⟩ := hnone
    rw [huses hlk, if_pos rfl, h0] at htake
    rw [huses hlk, if_pos rfl, if_pos ⟨hd, hlk, h0⟩] at hphase
    refine .of_done hphase fun _ => ⟨?_, htake, ?_⟩
    · rw [hdst, s.start_take, h0]; rfl
    · rw [hout, if_pos h0]
  · have hbusy : (s.start p).phase = .busy := by
      rw [hphase, if_neg]
      rintro ⟨-, hlk, h0⟩
      rw [huses hlk, if_pos rfl] at h0
      exact hnone ⟨hlk, h0⟩
    refine .of_busy hbusy (fun hlk => ?_) fun _ => ?_
    · rw [hl] at hlk
      have hne : s.take ≠ 0 := fun h0 => hnone ⟨hlk, h0⟩
      rw [huses hlk, if_pos rfl] at htake
      rw [Owing, htake, hdst, s.start_take, hout, hskip, if_neg hne]
      exact ⟨hne, Nat.zero_add _, fun _ => rfl, by rw [zero_add]⟩
    · rw [hout, BitVec.le_def]
      exact Nat.zero_le _

theorem ShellLegal.start (s : State) {i : Instr} {p : StartSpec} (hp : startSpec i = some p) :
    ShellLegal (s.start p) := by
  obtain ⟨-, -, -, -, hl, hc, -, -, hunit, -⟩ := s.start_shell (startSpec_unit_ne_none hp)
  cases hd : p.unit.isDecoder with
  | true => exact (ShellBooks.start s hp hd).legal (hunit ▸ hd)
  | false =>
    intro _
    rw [hunit, hd, hl, hc, if_neg Bool.false_ne_true]
    exact (startSpec_shell hp).2 hd

theorem ShellLegal.writeReg {s : State} (h : ShellLegal s) (n v : Nat) : ShellLegal (s.writeReg n v) := by
  intro hb
  rw [State.writeReg_phase] at hb
  rw [State.writeReg_busy hb]
  exact h hb

theorem ShellLegal.host {a : HostAction} {s t : State} (h : ShellLegal s) (ht : hostTurn a s = .next t) :
    ShellLegal t :=
  host_keeps (fun _ _ => nofun) (fun _ _ _ => nofun) (fun _ _ s hp _ _ => .start s hp) (fun _ n v h => h.writeReg n v)
    (fun _ _ _ h => h) (fun _ _ _ h => h) (fun _ h => h) (fun _ _ => nofun) a s t h ht

/-- Settles O50: the books stay in order under engine steps and host actions. -/
theorem stepKeepsShellLegal : Obligations.StepKeepsShellLegal := fun _ _ hs h =>
  step_keeps (fun _ _ h => h) (fun _ _ h hb ht => h.engine hb ht) (fun _ _ _ h ht => h.host ht) hs h

/-! ## A whole decode -/

/-- A predicate that every step keeps holds after every run. -/
theorem run_keeps {P : State → Prop} (hP : ∀ s t, P s → step s = .next t → P t) (k : Nat) {s t : State}
    (h : P s) (hr : Host.Core.run Sys2Proof.core k s = .next t) : P t := by
  induction k generalizing s with
  | zero => cases hr; exact h
  | succ k ih =>
    cases hs : step s with
    | next u => rw [run_succ k hs] at hr; exact ih (hP s u h hs) hr
    | fault r => simp [Host.Core.run, Sys2Proof.core, hs] at hr
    | refused r => simp [Host.Core.run, Sys2Proof.core, hs] at hr

/-- A decode of known length, left alone, that is to deliver `want` bytes and produce `total`. -/
structure Decoding (want total : Count) (s : State) : Prop where
  alone : EngineAlone s
  unit : s.unit.isDecoder = true
  lenKnown : s.lenKnown = true
  take : s.take = want
  books : ShellBooks total s

theorem Decoding.step {want total : Count} {s t : State} (h : Decoding want total s) (ht : step s = .next t) :
    Decoding want total t := by
  rw [step_alone h.alone, engineTurn] at ht
  split at ht
  · next hb =>
    obtain ⟨hops, -, hu, hl, -, -, -, hr, -, -, ha, -⟩ := stepUnit_keeps ht
    obtain ⟨-, htake, -⟩ := hops
    obtain ⟨halone, hreset⟩ := h.alone
    exact ⟨⟨ha.trans halone, hr.trans hreset⟩, hu ▸ h.unit, hl.trans h.lenKnown, htake.symm.trans h.take,
      h.books.stepUnit hb.1 h.unit ht⟩
  · cases ht
    exact h

theorem Decoding.start {i : Instr} {p : StartSpec} (hp : startSpec i = some p) (hd : p.unit.isDecoder = true)
    (hl : p.lenKnown = true) {s : State} (h : EngineAlone s) :
    Decoding s.take (if s.take = 0 then 0 else (if p.usesSkip then s.skip else 0) + s.take) (s.start p) := by
  obtain ⟨-, -, -, -, hlen, -, -, -, hunit, -⟩ := s.start_shell (startSpec_unit_ne_none hp)
  refine ⟨?_, hunit ▸ hd, hlen.trans hl, s.start_take p, .start s hp hd⟩
  rw [s.start_frame p]
  exact h

/-- The six decodes with a known length, and how many bytes each skips (R267, R268). -/
theorem startSpec_decode {i : Instr} {sk : Count} {lk ce : Bool} {s : State}
    (h : (i, sk) ∈ [(Instr.decompressLzss true ce, (0 : Count)), (Instr.decompressHuffman ce, 0),
      (Instr.decompressGammaLz true ce, 0), (Instr.decompressSkipLzss lk ce, s.skip),
      (Instr.decompressSkipHuffman lk ce, s.skip), (Instr.decompressSkipGammaLz lk ce, s.skip)]) :
    ∃ p, startSpec i = some p ∧ p.unit.isDecoder = true ∧ p.lenKnown = true ∧
      (if p.usesSkip then s.skip else 0) = sk := by
  simp only [List.mem_cons, Prod.mk.injEq, List.not_mem_nil, or_false] at h
  rcases h with ⟨rfl, rfl⟩ | ⟨rfl, rfl⟩ | ⟨rfl, rfl⟩ | ⟨rfl, rfl⟩ | ⟨rfl, rfl⟩ | ⟨rfl, rfl⟩ <;>
    exact ⟨_, rfl, rfl, rfl, rfl⟩

/-- Settles O57: the books of the step that ends a decode, and of a decode from its start. -/
theorem doneDeliversExactlyTake : Obligations.DoneDeliversExactlyTake := by
  constructor
  · intro rest s t hn hlegal hb hd hl ht hdone
    rw [step_engine hn, engineTurn] at ht
    split at ht
    · obtain ⟨-, -, -, hlen, -⟩ := stepUnit_keeps ht
      have hbooks : ShellBooks (s.outCount + s.skipRem + s.takeRem) { s with agenda := rest } := hlegal.books hb hd
      exact (hbooks.stepUnit hb hd ht).2 hdone (hlen.trans hl)
    · cases ht
      exact absurd (hb.symm.trans hdone) Phase.noConfusion
  · intro i sk lk ce k s u t hb halone hmem hu ht hdone
    obtain ⟨p, hp, hd, hl, rfl⟩ := startSpec_decode hmem
    rw [exec_start_next hp hb] at hu
    cases hu
    have hend := run_keeps (fun _ _ => Decoding.step) k (Decoding.start hp hd hl halone) ht
    obtain ⟨hlen, -, hout⟩ := hend.books.2 hdone hend.lenKnown
    exact ⟨hlen.trans (congrArg _ hend.take), hout⟩

end Sys2Proof.Machine
end

section
/-! # Bytes and copies at the limit, at the cap and out of range (R133, R135, R136, R183, R293, R294) -/

namespace Sys2Proof.Machine

/-! ## The last byte before the limit or the cap -/

/-- The bytes before the last one wanted are not cut short (R135). -/
theorem LimitAt.unhindered {m : Nat} {s : State} (h : LimitAt (m + 1) s) : Unhindered m s := by
  obtain ⟨-, -, hsum, hcap⟩ := h
  exact ⟨fun _ => by omega, fun hc => (Nat.le_succ _).trans (hcap hc)⟩

/-- A byte is wanted, so the limit is not before the first byte. -/
theorem LimitAt.ne_zero {m : Nat} {s : State} (h : LimitAt m s) : m ≠ 0 := by
  obtain ⟨-, hwant, hsum, -⟩ := h
  have hpos : s.takeRem.toNat ≠ 0 := fun h0 => hwant (BitVec.eq_of_toNat_eq h0)
  omega

/-- The bytes before the cap are not cut short (R135). -/
theorem CapAt.unhindered {m : Nat} {s : State} (h : CapAt m s) : Unhindered m s := by
  obtain ⟨-, hcap, hlim⟩ := h
  exact ⟨hlim, fun _ => hcap.le⟩

/-- At the cap `Produce` fails and writes nothing else (R135, R294). -/
theorem State.produce_full {s : State} (hc : s.capEn = true) (hfull : s.outCount = s.maxOut) (b : Byte) :
    s.produce b = .halt { s with phase := .failed, err := .outputOverflow } :=
  if_pos ⟨hc, hfull⟩

/-- After the bytes that the cap leaves room for, the next one overflows (R294). -/
theorem Produced.overflow {byte : Nat → Byte} {m : Nat} {s t : State} (h : Produced byte m s t) (hf : ShellFrame s t)
    (hcap : CapAt m s) (b : Byte) : t.produce b = .halt { t with phase := .failed, err := .outputOverflow } := by
  obtain ⟨hout, -⟩ := h
  obtain ⟨hc, hsum, -⟩ := hcap
  have hcap' : t.capEn = s.capEn := by rw [hf]
  have hmax : t.maxOut = s.maxOut := by rw [hf]
  refine State.produce_full (hcap'.trans hc) ?_ b
  rw [hout, hmax, ← BitVec.toNat_inj, BitVec.toNat_add, BitVec.toNat_ofNat]
  have := s.maxOut.isLt
  omega

/-! ## Tokens of one byte (R154, R222, R225, R226) -/

/-- The registers that the last lines of a token of one byte write (R153, R231). -/
theorem State.endByte_afterToken {i : Instr} {b : Byte} {s t : State} (h : tokenByte i = some b)
    (hf : ShellFrame s t) : AfterToken i s (t.endByte i) := by
  have hflags : t.flags = s.flags := by rw [hf]
  have hfcnt : t.fcnt = s.fcnt := by rw [hf]
  have hlwm : t.lwm = s.lwm := by rw [hf]
  have hoff : t.lastOff = s.lastOff := by rw [hf]
  unfold tokenByte at h
  split at h
  case h_1 c =>
    have hnext := t.nextToken_flagConsumed
    unfold FlagConsumed at hnext
    rw [hflags, hfcnt] at hnext
    refine ⟨hnext, ?_, ?_⟩ <;> rw [State.endByte, State.nextToken_frame]
    · exact hlwm
    · exact hoff
  case h_5 => cases h
  all_goals exact ⟨rfl, hoff, rfl, hflags, hfcnt⟩

/-- The last lines of a token of one byte write the registers of `AfterToken` only. -/
theorem State.endByte_frame (s : State) (i : Instr) : s.endByte i = { s with
    flags := (s.endByte i).flags, fcnt := (s.endByte i).fcnt, ustate := (s.endByte i).ustate
    lwm := (s.endByte i).lwm } := by
  unfold State.endByte
  split
  · rw [s.nextToken_frame]
  · rfl

/-- Settles O13: the byte is produced, and the last lines are executed unless it was the last one wanted. -/
theorem byteTokensProduceTheirByte : Obligations.ByteTokensProduceTheirByte := by
  intro i b s hi
  have hframe := s.produce_frame b
  have hends := (s.produce_produces b).ends
  constructor
  · intro hroom
    obtain ⟨t, ht, hp⟩ := (Produced.zero (fun _ => b) s).succ (.refl s) hroom
    rw [ht] at hframe hends
    have hf : ShellFrame s t := hframe
    obtain ⟨hphase, herr⟩ : Continues s t := hends
    have hlines := t.endByte_frame i
    refine ⟨t.endByte i, ?_, ?_, State.endByte_afterToken hi hf, ?_, ?_, ?_⟩
    · rw [exec_byte hi, ht]; rfl
    · rw [hlines]; exact hp
    · rw [hlines]; exact hphase
    · rw [hlines]; exact herr
    · rw [TokenFrame, hlines, hf]
  · intro hlim
    obtain ⟨t, ht, hp, hphase, herr⟩ := (Produced.zero (fun _ => b) s).last (.refl s) hlim
    rw [ht] at hframe
    exact ⟨t, by rw [exec_byte hi, ht]; rfl, hp, hphase, herr, hframe⟩

/-! ## Copies (R133, R136, R293, R294) -/

/-- A copy that its first `m` bytes do not end, and that byte `m` halts, ends there. -/
theorem State.copyBack_halt {d n m : Nat} {s t u : State} (hw : s.unit.hasWindow = true) (hd1 : 1 ≤ d)
    (hd : d ≤ 4096) (hm : m < n) (ht : State.copyBytes d m s = .go t) (hp : Produced (copyByte s d) m s t)
    (hu : t.produce (copyByte s d m) = .halt u) : s.copyBack d n = .halt u := by
  obtain ⟨k, rfl⟩ := Nat.exists_eq_add_of_lt hm
  rw [State.copyBack, if_neg (by simp only [Config.W]; omega), Nat.add_assoc, State.copyBytes_add, ht]
  change (t.produce (t.winAt (t.cur - BitVec.ofNat 12 d))).andThen _ = _
  rw [hp.winAt_source hw hd1 hd, hu]
  rfl

/-- A copy that is cut short is the whole of its token: the last lines are not reached. -/
theorem exec_copy_halt {i : Instr} {d n : Nat} {s u : State} (h : copyOperands s i = some (d, n))
    (hu : s.copyBack d n = .halt u) : exec i s = .next u ∧ ShellFrame s u := by
  have hf := s.copyBack_frame d n
  rw [hu] at hf
  refine ⟨?_, hf⟩
  rw [exec_copy h, hu]
  rfl

/-- The first bytes of a copy, with their frame and their outcome. -/
theorem State.copyBytes_go {d m : Nat} {s : State} (hw : s.unit.hasWindow = true) (hd1 : 1 ≤ d) (hd : d ≤ 4096)
    (h : Unhindered m s) :
    ∃ t, State.copyBytes d m s = .go t ∧ Produced (copyByte s d) m s t ∧ ShellFrame s t ∧ Continues s t := by
  obtain ⟨t, ht, hp⟩ := State.copyBytes_unhindered hw hd1 hd h
  have hs := State.copyBytes_produces d m s
  rw [ht] at hs
  exact ⟨t, ht, hp, hs.shell, hs.ends⟩

/-- Settles O16: the bytes before the last one wanted are copied, and the last one stops the command. -/
theorem copyTokensStopAtTheLimit : Obligations.CopyTokensStopAtTheLimit := by
  intro i d n m s hop hw hd1 hd hmn hlim
  obtain ⟨k, rfl⟩ := Nat.exists_eq_succ_of_ne_zero hlim.ne_zero
  obtain ⟨t, ht, hp, hf, -, herr⟩ := State.copyBytes_go hw hd1 hd hlim.unhindered
  obtain ⟨u, hu, hpu, hphase, herru⟩ := hp.last hf hlim
  obtain ⟨he, hfu⟩ := exec_copy_halt hop (State.copyBack_halt hw hd1 hd hmn ht hp hu)
  exact ⟨u, he, hpu, hphase, herru.trans herr, hfu⟩

/-- Settles O17: `Produce` fails at the cap before it writes, and a copy reaches the cap after `m` bytes. -/
theorem tokensOverflowAtTheCap : Obligations.TokensOverflowAtTheCap := by
  refine ⟨fun i b s hi hc hfull => ?_, fun path n sym s hcode hc hfull => ?_,
    fun i d n m s hop hw hd1 hd hmn hcap => ?_⟩
  · rw [exec_byte hi, State.produce_full hc hfull]
    rfl
  · rw [exec_hufSym_isCode hcode, State.produce_full (s := { s with node := n }) hc hfull]
    rfl
  · obtain ⟨t, ht, hp, hf, -⟩ := State.copyBytes_go hw hd1 hd hcap.unhindered
    have hu := hp.overflow hf hcap (copyByte s d m)
    obtain ⟨he, hfu⟩ := exec_copy_halt hop (State.copyBack_halt hw hd1 hd hmn ht hp hu)
    exact ⟨_, he, hp, rfl, rfl, hfu⟩

/-- Settles O18: the range check comes before the first byte. -/
theorem copyOutOfRangeFails : Obligations.CopyOutOfRangeFails := by
  intro i d n s hop hrange
  have hback : s.copyBack d n = .halt (s.raise .backReferenceOutOfRange) := if_pos hrange
  exact (exec_copy_halt hop hback).1

/-! ## The encoder's last step (R183) -/

theorem stepUnit_flush {s : State} (hu : s.unit = .lze) (hus : s.ustate = UState.flush) :
    stepUnit s = .next s.stepFlush := by
  rw [stepUnit_of_plain (.inl hu), stepPlainUnit, hu, hus]
  rfl

/-- Settles O40: the step emits `code_buf` up to `code_ptr` if that holds more than the flag byte. -/
theorem flushEmitsThePartialGroup : Obligations.FlushEmitsThePartialGroup := by
  intro rest s hn hr hb hu hus
  have hs := (step_busy hn hr hb).trans (stepUnit_flush (s := { s with agenda := rest }) hu hus)
  rw [State.stepFlush_eq] at hs
  refine ⟨_, hs, rfl, fun hmore => ⟨if_pos hmore, if_pos hmore⟩, fun hone => ?_, rfl⟩
  exact ⟨if_neg (Nat.not_lt.mpr hone), if_neg (Nat.not_lt.mpr hone)⟩

end Sys2Proof.Machine
end

section
/-! # The flag byte, and how long a decoder can run (R152, R153, R204, R275, R336)

A token that has been read has taken at least one bit of the stream, except a Huffman code in a table whose root is a
leaf. A decoder left alone therefore ends within the bits left of its stream, and that one within the bytes it owes. -/

namespace Sys2Proof

/-! ## What a reading spends (R130, R137, R223) -/

/-- A value read from `c` has taken at least `m` bits of the stream. -/
def Cursor.Spends {α : Type} (m : Nat) (c : Cursor) (x : Fetched α) : Prop :=
  ∀ a d, x = .got a d → d.bitsLeft + m ≤ c.bitsLeft

theorem Cursor.spends_got {α : Type} (a : α) (c : Cursor) : c.Spends 0 (.got a c) := by
  rintro _ _ ⟨⟩
  exact le_rfl

theorem Cursor.spends_malformed {α : Type} (m : Nat) (c d : Cursor) : c.Spends m (.malformed d : Fetched α) := nofun

theorem Cursor.Spends.weaken {α : Type} {m : Nat} {c : Cursor} {x : Fetched α} (h : c.Spends m x) : c.Spends 0 x :=
  fun a d hx => (Nat.le_add_right _ m).trans (h a d hx)

/-- Reading on gives no bit back. -/
theorem Cursor.Spends.andThen {α β : Type} {m : Nat} {c : Cursor} {x : Fetched α} {k : α → Cursor → Fetched β}
    (hx : c.Spends m x) (hk : ∀ a (d : Cursor), d.Spends 0 (k a d)) : c.Spends m (x.andThen k) := by
  cases x with
  | got a d => exact fun b e he => (Nat.add_le_add_right (hk a d b e he) m).trans (hx a d rfl)
  | endOfInput d => exact nofun
  | malformed d => exact nofun

theorem Cursor.getBit_spends (c : Cursor) : c.Spends 1 c.getBit := fun _ _ h => (Machine.bitsLeft_of_getBit h).le

theorem Cursor.readByte_spends (c : Cursor) : c.Spends 1 c.readByte := by
  rcases c.readByte_cases with ⟨-, h⟩ | ⟨hne, h⟩ <;> rw [h]
  · exact nofun
  · rintro _ _ ⟨⟩
    unfold Cursor.bitsLeft
    dsimp only
    bv_omega

theorem Cursor.getBits_spends (k v : Nat) (c : Cursor) : c.Spends 0 (Cursor.getBits k v c) := by
  induction k generalizing v c with
  | zero => exact c.spends_got v
  | succ k ih => exact c.getBit_spends.weaken.andThen fun b d => ih _ d

theorem Cursor.gammaFrom_spends (k : Nat) (g : BitVec 32) (c : Cursor) : c.Spends 0 (Cursor.gammaFrom k g c) := by
  induction k generalizing g c with
  | zero => exact c.spends_malformed 0 c
  | succ k ih =>
    refine c.getBit_spends.weaken.andThen fun b d => d.getBit_spends.weaken.andThen fun more e => ?_
    split
    · exact e.spends_got _
    · split
      · exact e.spends_malformed 0 e
      · exact ih _ e

theorem Cursor.gamma_spends (c : Cursor) : c.Spends 0 c.gamma := c.gammaFrom_spends _ _

theorem decodeFarOrRep_spends (lwm : Bool) (c : Cursor) : c.Spends 0 (decodeFarOrRep lwm c) := by
  refine c.gamma_spends.andThen fun g d => ?_
  split
  · exact d.gamma_spends.andThen fun _ e => e.spends_got _
  · exact d.readByte_spends.weaken.andThen fun _ e => e.gamma_spends.andThen fun _ f => f.spends_got _

theorem decodeNearOrEnd_spends (c : Cursor) : c.Spends 0 (decodeNearOrEnd c) := by
  refine c.readByte_spends.weaken.andThen fun v d => ?_
  split <;> exact d.spends_got _

theorem decodeShort_spends (c : Cursor) : c.Spends 0 (decodeShort c) := by
  refine (c.getBits_spends 4 0).andThen fun v d => ?_
  split <;> exact d.spends_got _

theorem decodeGlz_spends (lwm : Bool) (c : Cursor) : c.Spends 1 (decodeGlz lwm c) := by
  refine c.getBit_spends.andThen fun b1 d => ?_
  split
  · exact d.readByte_spends.weaken.andThen fun _ e => e.spends_got _
  · refine d.getBit_spends.weaken.andThen fun b2 e => ?_
    split
    · exact decodeFarOrRep_spends lwm e
    · refine e.getBit_spends.weaken.andThen fun b3 f => ?_
      split
      · exact decodeNearOrEnd_spends f
      · exact decodeShort_spends f

/-- Every token of a window decoder starts with a byte or a bit. -/
theorem decodeToken_spends (x : TokenContext) (c : Cursor) : c.Spends 1 (decodeToken x c) := by
  cases x with
  | flagByte | literal | firstLiteral => exact c.readByte_spends.andThen fun _ d => d.spends_got _
  | matchBytes => exact c.readByte_spends.andThen fun _ d => d.readByte_spends.weaken.andThen fun _ e => e.spends_got _
  | glzToken lwm => exact decodeGlz_spends lwm c

/-- The walk in the table gives no bit back. -/
theorem decodeHufFrom_spends {ht : List (Nat × HtEntry)} {k : Nat} {n : BitVec 9} {path p : List Bool} {c d : Cursor}
    (h : decodeHufFrom ht k n path c = .code p d) : d.bitsLeft ≤ c.bitsLeft := by
  induction k generalizing n path c with
  | zero =>
    unfold decodeHufFrom at h
    split at h
    · cases h; exact le_rfl
    · cases h
  | succ k ih =>
    unfold decodeHufFrom at h
    split at h
    · cases h; exact le_rfl
    · dsimp only at h
      split at h
      · cases h
      · cases h
      · next c0 c1 _ _ bit _ hg =>
        have hbit := Machine.bitsLeft_of_getBit hg
        generalize (if bit then c1 else c0) = child at h
        split at h
        · cases h
        · have := ih h
          omega

/-- From a root that is a node the walk takes a bit (R204). -/
theorem decodeHuf_spends {ht : List (Nat × HtEntry)} {c0 c1 : BitVec 9} {p : List Bool} {c d : Cursor}
    (hroot : Machine.Memory.read HtEntry.empty ht (0 : BitVec 9).toNat = .node c0 c1) (h : decodeHuf ht c = .code p d) :
    d.bitsLeft < c.bitsLeft := by
  unfold decodeHuf decodeHufFrom at h
  rw [hroot] at h
  dsimp only at h
  split at h
  · cases h
  · cases h
  · next bit _ hg =>
    have hbit := Machine.bitsLeft_of_getBit hg
    generalize (if bit then c1 else c0) = child at h
    split at h
    · cases h
    · have := decodeHufFrom_spends h
      omega

end Sys2Proof

namespace Sys2Proof.Machine

/-! ## The flag byte (R152, R153) -/

/-- `NextToken()` where all 8 flags are left. -/
theorem State.nextToken_of_full {s : State} (h : s.fcnt = 8) :
    s.nextToken.flags = s.flags >>> 1 ∧ s.nextToken.fcnt = 7 ∧
      s.nextToken.ustate = if s.flags.getLsbD 0 then UState.readLiteral else UState.readMatch := by
  have hflag := s.nextToken_flagConsumed
  rw [FlagConsumed, h, if_neg (by decide)] at hflag
  exact hflag

/-- Settles O12: the first of the 8 flags just latched is consumed. -/
theorem flagByteSelectsTheNextToken : Obligations.FlagByteSelectsTheNextToken := by
  intro f s
  obtain ⟨hflags, hfcnt, hnext⟩ := State.nextToken_of_full (s := { s with flags := f, fcnt := 8 }) rfl
  exact ⟨_, rfl, hflags, hfcnt, fun h => hnext.trans (if_pos h),
    fun h => hnext.trans (if_neg (Bool.eq_false_iff.mp h)), State.nextToken_frame _⟩

/-! ## A step that goes on has taken a bit -/

/-- The bytes of a token and its last lines leave the stream alone, if the last lines do. -/
theorem Flow.cursor_andThen {s : State} {x : Flow} {f : State → State} (hx : ShellFrame s x.state)
    (hf : ∀ u, (f u).cursor = u.cursor) : (x.andThen fun u => .go (f u)).state.cursor = s.cursor := by
  have hstate : x.state.cursor = s.cursor := by rw [hx]; rfl
  cases x with
  | go u => exact (hf u).trans hstate
  | halt u => exact hstate

/-- Performing a token leaves the stream where its reading has left it (R298 (d)). -/
theorem TokenClass.cursor {s t : State} {i : Instr} (hc : TokenClass s i) (ht : exec i s = .next t) :
    t.cursor = s.cursor := by
  cases hc with
  | byte b hi =>
    rw [exec_byte hi] at ht
    cases ht
    exact Flow.cursor_andThen (s.produce_frame b) fun u => by rw [u.endByte_frame i]; rfl
  | copy d n hi =>
    rw [exec_copy hi] at ht
    cases ht
    exact Flow.cursor_andThen (s.copyBack_frame d n) fun u => by rw [u.endCopy_frame d i]; rfl
  | flags f hi =>
    subst hi
    cases ht
    rw [State.nextToken_frame]
    rfl
  | marker v hi =>
    subst hi
    rw [exec_glzEnd] at ht
    cases ht
    rcases s.endOfInput_cases with ⟨-, h⟩ | ⟨-, h⟩ <;> rw [h] <;> rfl

/-- The stream after a reading is the one the reading has left. -/
theorem State.cursor_withCursor {s : State} {c : Cursor} (h : s.cursor.Advances c) : (s.withCursor c).cursor = c := by
  obtain ⟨hsrc, hlen, -, -⟩ := h
  rw [State.cursor, State.withCursor]
  dsimp only
  rw [← show c.src = s.src from hsrc, ← show c.srcLen = s.srcLen from hlen]

/-- The end of the input ends the command (R131). -/
theorem State.endOfInput_not_busy (s : State) : s.endOfInput.phase ≠ .busy := by
  rcases s.endOfInput_cases with ⟨-, h⟩ | ⟨-, h⟩ <;> rw [h] <;> exact Phase.noConfusion

/-- A step of a window decoder ends the command or takes a bit. -/
theorem stepUnit_window_drains {s t : State} {x : TokenContext} (hx : s.tokenContext = some x)
    (ht : stepUnit s = .next t) (hb : t.phase = .busy) : t.cursor.bitsLeft < s.cursor.bitsLeft := by
  have hadv := decodeToken_advances x s.cursor
  rw [stepUnit_of_tokenContext hx] at ht
  cases hd : decodeToken x s.cursor with
  | got i c =>
    rw [hd] at ht hadv
    obtain ⟨j, hj, hc⟩ := exec_admitted (s := s.withCursor c) hx (decodeToken_gives x _ i c hd)
    rw [hc.cursor (hj.symm.trans ht), State.cursor_withCursor (c := c) hadv]
    exact decodeToken_spends x _ i c hd
  | endOfInput c => rw [hd] at ht; cases ht; exact absurd hb (State.endOfInput_not_busy _)
  | malformed c => rw [hd] at ht; cases ht; exact absurd hb Phase.noConfusion

/-- A step of the Huffman decoder ends the command or takes a bit, if the root of its table is a node. -/
theorem stepUnit_huf_drains {s t : State} {c0 c1 : BitVec 9} (hu : s.unit = .huf) (hus : s.ustate = UState.symbol)
    (hroot : s.htAt 0 = .node c0 c1) (ht : stepUnit s = .next t) (hb : t.phase = .busy) :
    t.cursor.bitsLeft < s.cursor.bitsLeft := by
  have hadv := decodeHuf_advances s.ht s.cursor
  rw [stepUnit_of_huf hu hus] at ht
  cases hd : decodeHuf s.ht s.cursor with
  | code path c =>
    rw [hd] at ht hadv
    obtain ⟨m, sym, hf⟩ := decodeHuf_code hd
    obtain ⟨he, -⟩ := exec_hufSym (s := s.withCursor c) hu hf
    cases he.symm.trans ht
    have hcursor := Flow.cursor_andThen (f := fun u => { u with ustate := UState.symbol })
      (State.produce_frame { s.withCursor c with node := m } sym) fun _ => rfl
    change State.cursor _ = (s.withCursor c).cursor at hcursor
    rw [hcursor, State.cursor_withCursor (c := c) hadv]
    exact decodeHuf_spends hroot hd
  | endOfInput n c => rw [hd] at ht; cases ht; exact absurd hb (State.endOfInput_not_busy _)
  | noCode c => rw [hd] at ht; cases ht; exact absurd hb Phase.noConfusion

/-! ## A run that must end -/

/-- If every step of a Busy state with `P` ends the command, or keeps `P` and makes `m` smaller, then the command ends
within `m` steps and one more. -/
theorem run_ends {P : State → Prop} {m : State → Nat}
    (hstep : ∀ s, P s → s.phase = .busy → ∃ t, step s = .next t ∧ (t.phase = .busy → P t ∧ m t < m s))
    {s : State} (h : P s) (hb : s.phase = .busy) :
    ∃ k t, k ≤ m s + 1 ∧ Host.Core.run Sys2Proof.core k s = .next t ∧ t.phase ≠ .busy := by
  induction hm : m s using Nat.strong_induction_on generalizing s with
  | _ n ih =>
    obtain ⟨t, ht, hnext⟩ := hstep s h hb
    by_cases hbt : t.phase = .busy
    · obtain ⟨hP, hlt⟩ := hnext hbt
      obtain ⟨k, u, hk, hu, hend⟩ := ih (m t) (hm ▸ hlt) hP hbt rfl
      exact ⟨k + 1, u, by omega, (run_succ k ht).trans hu, hend⟩
    · exact ⟨1, t, Nat.le_add_left 1 n, run_succ 0 ht, hbt⟩

/-- A step of a unit queues no turn and leaves the reset input alone. -/
theorem EngineAlone.stepUnit {s t : State} (h : EngineAlone s) (ht : stepUnit s = .next t) : EngineAlone t := by
  obtain ⟨-, -, -, -, -, -, -, hr, -, -, ha, -⟩ := stepUnit_keeps ht
  exact ⟨ha.trans h.1, hr.trans h.2⟩

/-- A step of a unit leaves the Huffman table alone (R65). -/
theorem stepUnit_htAt {s t : State} (ht : stepUnit s = .next t) : t.htAt = s.htAt := by
  obtain ⟨⟨-, -, -, -, -, -, -, hht⟩, -⟩ := stepUnit_keeps ht
  funext i
  rw [State.htAt, State.htAt, hht]

/-- A decoder, left alone, each of whose tokens takes a bit of the stream. -/
structure Drains (s : State) : Prop where
  alone : EngineAlone s
  legal : ControlLegal s
  reads : s.unit = .lzd ∨ s.unit = .glz ∨ (s.unit = .huf ∧ ∃ c0 c1, s.htAt 0 = .node c0 c1)

theorem Drains.stepUnit {s : State} (h : Drains s) :
    ∃ t, stepUnit s = .next t ∧ (t.phase = .busy → t.cursor.bitsLeft < s.cursor.bitsLeft) := by
  have window (hu : s.unit = .lzd ∨ s.unit = .glz) :
      ∃ t, Machine.stepUnit s = .next t ∧ (t.phase = .busy → t.cursor.bitsLeft < s.cursor.bitsLeft) := by
    obtain ⟨x, hx⟩ := h.legal.1.tokenContext hu
    obtain ⟨t, ht, -⟩ := stepUnit_window_step hx
    exact ⟨t, ht, stepUnit_window_drains hx ht⟩
  rcases h.reads with hu | hu | ⟨hu, c0, c1, hroot⟩
  · exact window (.inl hu)
  · exact window (.inr hu)
  · have hus : s.ustate = UState.symbol := by have := h.legal.1; rwa [UStateLegal, hu] at this
    obtain ⟨t, ht, -⟩ := stepUnit_huf_step hu hus
    exact ⟨t, ht, stepUnit_huf_drains hu hus hroot ht⟩

theorem Drains.step {s : State} (h : Drains s) (hb : s.phase = .busy) :
    ∃ t, step s = .next t ∧ (t.phase = .busy → Drains t ∧ t.cursor.bitsLeft < s.cursor.bitsLeft) := by
  obtain ⟨t, ht, hless⟩ := h.stepUnit
  obtain ⟨-, -, hu, -⟩ := stepUnit_keeps ht
  refine ⟨t, by rw [step_alone h.alone, engineTurn_busy hb h.alone.2, ht], fun hbt => ⟨⟨?_, ?_, ?_⟩, hless hbt⟩⟩
  · exact h.alone.stepUnit ht
  · exact h.legal.engine hb ht
  · rw [hu, stepUnit_htAt ht]
    exact h.reads

/-! ## A Huffman table whose root is a leaf (R203, R204) -/

/-- How many bytes are still to be produced, skipped or delivered. -/
def State.owed (s : State) : Nat := s.skipRem.toNat + s.takeRem.toNat

/-- What `DST` comes to if every byte still wanted is `sym`. -/
def State.promised (s : State) (sym : Byte) : List Byte := s.dst ++ List.replicate s.takeRem.toNat sym

/-- A Busy Huffman decode of known length, left alone, to whose table's root `sym` belongs. -/
structure LeafDecode (sym : Byte) (s : State) : Prop where
  alone : EngineAlone s
  legal : ControlLegal s
  busy : s.phase = .busy
  unit : s.unit = .huf
  root : s.htAt 0 = .leaf sym
  lenKnown : s.lenKnown = true
  wanted : s.takeRem ≠ 0

/-- A leaf at the root is the code of no bits (R101). -/
theorem stepUnit_leaf {s : State} {sym : Byte} (hu : s.unit = .huf) (hus : s.ustate = UState.symbol)
    (hroot : s.htAt 0 = .leaf sym) : stepUnit s =
      .next (({ s with node := 0 }.produce sym).andThen fun t => .go { t with ustate := UState.symbol }).state := by
  have hread : decodeHuf s.ht s.cursor = .code [] s.cursor := by
    unfold decodeHuf decodeHufFrom
    rw [show Memory.read HtEntry.empty s.ht (0 : BitVec 9).toNat = .leaf sym from hroot]
    rfl
  rw [stepUnit_of_huf hu hus, hread]
  exact exec_hufSym_isCode (s := s.withCursor s.cursor) ⟨rfl, hroot⟩

/-- One byte of `sym` more in `DST`, one less wanted. -/
theorem promised_deliver {dst : List Byte} {sym : Byte} {n : Count} (h : n ≠ 0) :
    dst ++ [sym] ++ List.replicate (n - 1).toNat sym = dst ++ List.replicate n.toNat sym := by
  have hn : n.toNat = (n - 1).toNat + 1 := by bv_omega
  rw [hn, List.replicate_succ, List.append_assoc, List.singleton_append]

/-- What producing one of the bytes owed does to them: it overflows at the cap; or it leaves one less; or it is the last
and ends the command. -/
theorem State.produce_owed {s : State} {sym : Byte} (hl : s.lenKnown = true) (hwant : s.takeRem ≠ 0) :
    (s.capEn = true ∧ ∃ t, s.produce sym = .halt t ∧ t.phase = .failed) ∨
    (∃ t, s.produce sym = .go t ∧ t.takeRem ≠ 0 ∧ t.owed + 1 = s.owed ∧ t.promised sym = s.promised sym) ∨
    (∃ t, s.produce sym = .halt t ∧ t.phase = .done ∧ s.owed = 1 ∧ t.dst = s.promised sym) := by
  rcases s.produce_cases sym with
    ⟨hc, -, hp⟩ | ⟨-, ⟨hs, hp⟩ | ⟨-, hl', -⟩ | ⟨hs, -, hmore, hp⟩ | ⟨hs, -, hlast, hp⟩⟩
  · exact .inl ⟨hc, _, hp, rfl⟩
  · refine .inr (.inl ⟨_, hp, ?_, ?_, ?_⟩)
    · rwa [State.countByte_takeRem]
    · simp only [State.owed, State.countByte_takeRem]
      bv_omega
    · simp only [State.promised, State.countByte_takeRem, State.countByte_dst]
  · exact absurd (hl.symm.trans hl') Bool.noConfusion
  · refine .inr (.inl ⟨_, hp, fun h0 => hmore (sub_eq_zero.mp h0), ?_, promised_deliver hwant⟩)
    simp only [State.owed, State.countByte_skipRem]
    bv_omega
  · refine .inr (.inr ⟨_, hp, rfl, ?_, ?_⟩)
    · rw [State.owed, hs, hlast]
      rfl
    · rw [State.promised, hlast]
      rfl

theorem LeafDecode.step {s : State} {sym : Byte} (h : LeafDecode sym s) :
    ∃ t, step s = .next t ∧ t.pos = s.pos ∧ t.capEn = s.capEn ∧
      ((s.capEn = true ∧ t.phase ≠ .busy) ∨
       (LeafDecode sym t ∧ t.owed + 1 = s.owed ∧ t.promised sym = s.promised sym) ∨
       (t.phase = .done ∧ s.owed = 1 ∧ t.dst = s.promised sym)) := by
  have hus : s.ustate = UState.symbol := by have := h.legal.1; rwa [UStateLegal, h.unit] at this
  have hstep := stepUnit_leaf h.unit hus h.root
  have hcursor := Flow.cursor_andThen (f := fun t => { t with ustate := UState.symbol })
    (State.produce_frame { s with node := 0 } sym) fun _ => rfl
  have hends := (State.produce_produces { s with node := 0 } sym).ends
  have hpos := congrArg Cursor.pos hcursor
  obtain ⟨-, -, hu, hlen, hcap, -⟩ := stepUnit_keeps hstep
  refine ⟨_, by rw [step_alone h.alone, engineTurn_busy h.busy h.alone.2, hstep], hpos, hcap, ?_⟩
  rcases State.produce_owed (s := { s with node := 0 }) (sym := sym) h.lenKnown h.wanted with
    ⟨hc, t, hp, hfail⟩ | ⟨t, hp, hwant, hless, hdst⟩ | ⟨t, hp, hdone, hone, hdst⟩
  · rw [hp]
    exact .inl ⟨hc, fun hb => Phase.noConfusion (hfail.symm.trans hb)⟩
  · rw [hp] at hstep hu hlen hends ⊢
    obtain ⟨hphase, -⟩ : Continues { s with node := 0 } t := hends
    refine .inr (.inl ⟨⟨h.alone.stepUnit hstep, h.legal.engine h.busy hstep, hphase.trans h.busy, hu.trans h.unit, ?_,
      hlen.trans h.lenKnown, hwant⟩, hless, hdst⟩)
    rw [stepUnit_htAt hstep]
    exact h.root
  · rw [hp]
    exact .inr (.inr ⟨hdone, hone, hdst⟩)

/-- The whole run: within the bytes owed, and exactly as many steps if no cap cuts it short. -/
theorem LeafDecode.run {s : State} {sym : Byte} (h : LeafDecode sym s) :
    ∃ k t, k ≤ s.owed ∧ Host.Core.run Sys2Proof.core k s = .next t ∧ t.phase ≠ .busy ∧ t.pos = s.pos ∧
      (s.capEn = false → k = s.owed ∧ t.phase = .done ∧ t.dst = s.promised sym) := by
  induction howed : s.owed generalizing s with
  | zero =>
    have hpos : s.takeRem.toNat ≠ 0 := fun h0 => h.wanted (BitVec.eq_of_toNat_eq h0)
    exact absurd (Nat.eq_zero_of_add_eq_zero_left howed) hpos
  | succ n ih =>
    obtain ⟨t, ht, hpos, hcap, ⟨hc, hend⟩ | ⟨hleaf, hless, hdst⟩ | ⟨hdone, hone, hdst⟩⟩ := h.step
    · exact ⟨1, t, Nat.le_add_left 1 n, run_succ 0 ht, hend, hpos, fun hn => absurd (hc.symm.trans hn) Bool.noConfusion⟩
    · obtain ⟨k, u, hk, hu, hend, hposu, hexact⟩ := ih hleaf (by omega)
      refine ⟨k + 1, u, by omega, (run_succ k ht).trans hu, hend, hposu.trans hpos, fun hn => ?_⟩
      obtain ⟨hk, hdone, hdstu⟩ := hexact (hcap.trans hn)
      exact ⟨congrArg (· + 1) hk, hdone, hdstu.trans hdst⟩
    · refine ⟨1, t, Nat.le_add_left 1 n, run_succ 0 ht, ?_, hpos, fun _ => ⟨?_, hdone, hdst⟩⟩
      · rw [hdone]; exact Phase.noConfusion
      · exact hone.symm.trans howed

/-- Settles O58: each step takes a bit of the stream or, where the root is a leaf, one of the bytes owed. -/
theorem decodersTerminate : Obligations.DecodersTerminate := by
  constructor
  · intro s hlegal _ halone hb hreads
    exact run_ends (m := fun s => s.cursor.bitsLeft) (fun _ => Drains.step) ⟨halone, hlegal, hreads⟩ hb
  · intro sym s hlegal halone hb hu hroot hl hwant
    obtain ⟨k, t, hk, ht, hend, hpos, hexact⟩ := LeafDecode.run ⟨halone, hlegal, hb, hu, hroot, hl, hwant⟩
    refine ⟨⟨k, t, hk, ht, hend, hpos⟩, fun hn => ?_⟩
    obtain ⟨rfl, hdone, hdst⟩ := hexact hn
    exact ⟨t, ht, hdone, hpos, hdst⟩

end Sys2Proof.Machine
end

section
/-! # A skip/take decode is a slice of the full decode (R158, R159, R205, R268)

The decode that skips `SKIP` bytes and takes `TAKE` stands, at every step, where the decode of all `SKIP + TAKE` bytes
does: its state is that one's with the books of the shell written for the slice. Every step of a decoder commutes with
this change of books. -/

namespace Sys2Proof.Machine

/-! ## The books of the slice -/

/-- The state of a full decode with the books of the decode that skips the first `sk` bytes: the part of the skip that is
not yet produced is still to be skipped, and is not wanted. -/
def State.slice (sk : Count) (s : State) : State :=
  { s with
    take := s.take - sk
    skipRem := BitVec.ofNat 64 (sk.toNat - s.dst.length)
    takeRem := s.takeRem - BitVec.ofNat 64 (sk.toNat - s.dst.length)
    dst := s.dst.drop sk.toNat }

/-- A decode of known length that skips nothing, still wants bytes, and wants more than the `sk` first ones in all. -/
def WholeDecode (sk : Count) (s : State) : Prop :=
  s.lenKnown = true ∧ s.skipRem = 0 ∧ s.takeRem ≠ 0 ∧ s.dst.length + s.takeRem.toNat = s.take.toNat ∧
  sk.toNat < s.take.toNat

/-- Two flows come to a full decode and to its slice, and both go on or both have ended the command. -/
inductive Flow.Sliced (sk : Count) : Flow → Flow → Prop
  | go {s : State} (h : WholeDecode sk s) : Sliced sk (.go s) (.go (s.slice sk))
  | halt {s : State} (h : s.phase ≠ .busy) : Sliced sk (.halt s) (.halt (s.slice sk))

/-- Two steps come to a full decode and to its slice. -/
def SlicedNext (sk : Count) (x y : Host.Outcome State Fault Refusal) : Prop :=
  ∃ t, x = .next t ∧ y = .next (t.slice sk) ∧ (t.phase = .busy → WholeDecode sk t)

theorem SlicedNext.of_ended (sk : Count) {s : State} (h : s.phase ≠ .busy) :
    SlicedNext sk (.next s) (.next (s.slice sk)) := ⟨s, rfl, rfl, fun hb => absurd hb h⟩

variable {sk : Count} {s : State}

theorem Flow.Sliced.toOutcome {x y : Flow} (h : Flow.Sliced sk x y) : SlicedNext sk x.toOutcome y.toOutcome := by
  cases h with
  | go h => exact ⟨_, rfl, rfl, fun _ => h⟩
  | halt h => exact .of_ended sk h

theorem Flow.Sliced.andThen {x y : Flow} {k j : State → Flow} (hx : Flow.Sliced sk x y)
    (hk : ∀ t, WholeDecode sk t → Flow.Sliced sk (k t) (j (t.slice sk))) :
    Flow.Sliced sk (x.andThen k) (y.andThen j) := by
  cases hx with
  | go h => exact hk _ h
  | halt h => exact .halt h

/-! ## Producing -/

/-- Below the cap, with nothing to skip, a byte is delivered, and the last one wanted ends the command (R135). -/
theorem State.produce_wanted (hc : ¬(s.capEn = true ∧ s.outCount = s.maxOut)) (hl : s.lenKnown = true)
    (hs : s.skipRem = 0) (b : Byte) : s.produce b =
      if s.takeRem = 1 then .halt { s.countByte b with dst := s.dst ++ [b], takeRem := 0, phase := .done }
      else .go { s.countByte b with dst := s.dst ++ [b], takeRem := s.takeRem - 1 } := by
  rcases s.produce_cases b with ⟨hc1, hc2, -⟩ | ⟨-, ⟨hs', -⟩ | ⟨-, hl', -⟩ | ⟨-, -, hmore, hp⟩ | ⟨-, -, hlast, hp⟩⟩
  · exact absurd ⟨hc1, hc2⟩ hc
  · exact absurd hs hs'
  · exact absurd (hl.symm.trans hl') Bool.noConfusion
  · rw [hp, if_neg hmore]
  · rw [hp, if_pos hlast]

/-- During the skip the slice withholds the byte that the full decode delivers. -/
theorem State.slice_withhold (h : s.dst.length < sk.toNat) (b : Byte) :
    State.slice sk { s.countByte b with dst := s.dst ++ [b], takeRem := s.takeRem - 1 } =
      { (s.slice sk).countByte b with skipRem := (s.slice sk).skipRem - 1 } := by
  have hnone : (s.dst ++ [b]).drop sk.toNat = s.dst.drop sk.toNat := by
    rw [List.drop_eq_nil_of_le h.le, List.drop_eq_nil_of_le (by simpa using h)]
  have hleft : sk.toNat - s.dst.length = sk.toNat - (s.dst.length + 1) + 1 := by omega
  have hskip : BitVec.ofNat 64 (sk.toNat - s.dst.length) - 1 = BitVec.ofNat 64 (sk.toNat - (s.dst.length + 1)) := by
    rw [hleft, BitVec.ofNat_add]
    exact add_sub_cancel_right _ 1
  have htake : s.takeRem - BitVec.ofNat 64 (sk.toNat - s.dst.length) =
      s.takeRem - 1 - BitVec.ofNat 64 (sk.toNat - (s.dst.length + 1)) := by
    rw [← hskip]
    ring
  rw [State.countByte_eq, State.countByte_eq]
  unfold State.slice
  dsimp only
  rw [List.length_append, List.length_singleton, hnone, hskip, htake]

/-- After the skip the slice wants what the full decode wants. -/
theorem State.slice_past (h : sk.toNat ≤ s.dst.length) :
    s.slice sk = { s with take := s.take - sk, skipRem := 0, dst := s.dst.drop sk.toNat } := by
  rw [State.slice, Nat.sub_eq_zero_of_le h]
  congr 1
  exact sub_zero s.takeRem

/-- After the skip the slice delivers the byte that the full decode delivers. -/
theorem State.slice_deliver (h : sk.toNat ≤ s.dst.length) (b : Byte) (n : Count) :
    State.slice sk { s.countByte b with dst := s.dst ++ [b], takeRem := n } =
      { (s.slice sk).countByte b with dst := (s.slice sk).dst ++ [b], takeRem := n } := by
  have h' : sk.toNat ≤ (s.dst ++ [b]).length := h.trans (by simp)
  rw [State.countByte_eq, State.countByte_eq, State.slice_past h, State.slice_past h']
  dsimp only
  rw [List.drop_append_of_le_length h]

/-- A byte that is not the last one wanted leaves a full decode one. -/
theorem WholeDecode.delivered (h : WholeDecode sk s) (hmore : s.takeRem ≠ 1) (b : Byte) :
    WholeDecode sk { s.countByte b with dst := s.dst ++ [b], takeRem := s.takeRem - 1 } := by
  obtain ⟨hl, hs, hwant, hsum, hahead⟩ := h
  rw [State.countByte_eq]
  refine ⟨hl, hs, fun h0 => hmore (sub_eq_zero.mp h0), ?_, hahead⟩
  dsimp only
  rw [List.length_append, List.length_singleton]
  bv_omega

/-- The slice withholds or delivers each byte that the full decode delivers, and ends with it (R158, R159). -/
theorem WholeDecode.produce (h : WholeDecode sk s) (b : Byte) :
    Flow.Sliced sk (s.produce b) ((s.slice sk).produce b) := by
  obtain ⟨hl, hs, -, hsum, hahead⟩ := id h
  by_cases hc : s.capEn = true ∧ s.outCount = s.maxOut
  · rw [State.produce_full hc.1 hc.2, State.produce_full (s := s.slice sk) hc.1 hc.2]
    exact .halt (s := { s with phase := .failed, err := .outputOverflow }) Phase.noConfusion
  have hc' : ¬((s.slice sk).capEn = true ∧ (s.slice sk).outCount = (s.slice sk).maxOut) := hc
  rw [State.produce_wanted hc hl hs]
  by_cases hskip : s.dst.length < sk.toNat
  · have hmore : s.takeRem ≠ 1 := fun h1 => by
      rw [h1] at hsum
      change s.dst.length + 1 = _ at hsum
      omega
    have hleft : (s.slice sk).skipRem ≠ 0 := by
      change BitVec.ofNat 64 (sk.toNat - s.dst.length) ≠ 0
      bv_omega
    rw [if_neg hmore, State.produce, if_neg hc', if_neg hleft, ← State.slice_withhold hskip]
    exact .go (h.delivered hmore b)
  · have hpast := Nat.le_of_not_lt hskip
    have hover : (s.slice sk).skipRem = 0 := by rw [State.slice_past hpast]
    have htake : (s.slice sk).takeRem = s.takeRem := by rw [State.slice_past hpast]
    rw [State.produce_wanted hc' hl hover, htake]
    split
    · have hlast := congrArg State.stop (State.slice_deliver hpast b 0)
      rw [State.stop, State.stop] at hlast
      rw [← hlast]
      exact .halt Phase.noConfusion
    · next hmore =>
      rw [← State.slice_deliver hpast]
      exact .go (h.delivered hmore b)

/-! ## Copies -/

theorem WholeDecode.copyBytes (h : WholeDecode sk s) (d n : Nat) :
    Flow.Sliced sk (State.copyBytes d n s) (State.copyBytes d n (s.slice sk)) := by
  induction n generalizing s with
  | zero => exact .go h
  | succ n ih => exact (h.produce _).andThen fun _ ht => ih ht

theorem WholeDecode.copyBack (h : WholeDecode sk s) (d n : Nat) :
    Flow.Sliced sk (s.copyBack d n) ((s.slice sk).copyBack d n) := by
  unfold State.copyBack
  split
  · exact .halt (s := s.raise .backReferenceOutOfRange) Phase.noConfusion
  · exact h.copyBytes d n

/-! ## The last lines of a token -/

/-- Bytes produced, then last lines that leave the shell alone. -/
theorem Flow.Sliced.lines {x y : Flow} {f : State → State} (hx : Flow.Sliced sk x y)
    (hw : ∀ t, WholeDecode sk t → WholeDecode sk (f t)) (hf : ∀ t : State, f (t.slice sk) = (f t).slice sk) :
    Flow.Sliced sk (x.andThen fun t => .go (f t)) (y.andThen fun t => .go (f t)) :=
  hx.andThen fun t ht => by rw [hf]; exact .go (hw t ht)

theorem State.nextToken_slice (s : State) : (s.slice sk).nextToken = s.nextToken.slice sk := by
  have hf : (s.slice sk).fcnt = s.fcnt := rfl
  unfold State.nextToken
  rw [hf]
  split <;> rfl

theorem State.endByte_slice (s : State) (i : Instr) : (s.slice sk).endByte i = (s.endByte i).slice sk := by
  unfold State.endByte
  split
  · exact s.nextToken_slice
  · rfl

theorem State.endCopy_slice (s : State) (d : Nat) (i : Instr) : (s.slice sk).endCopy d i = (s.endCopy d i).slice sk := by
  unfold State.endCopy
  split
  · exact s.nextToken_slice
  all_goals rfl

theorem WholeDecode.nextToken (h : WholeDecode sk s) : WholeDecode sk s.nextToken := by
  rw [s.nextToken_frame]
  exact h

theorem WholeDecode.endByte (h : WholeDecode sk s) (i : Instr) : WholeDecode sk (s.endByte i) := by
  rw [s.endByte_frame]
  exact h

theorem WholeDecode.endCopy (h : WholeDecode sk s) (d : Nat) (i : Instr) : WholeDecode sk (s.endCopy d i) := by
  rw [s.endCopy_frame]
  exact h

/-! ## Tokens -/

theorem State.endOfInput_slice (s : State) : (s.slice sk).endOfInput = s.endOfInput.slice sk := by
  have hl : (s.slice sk).lenKnown = s.lenKnown := rfl
  unfold State.endOfInput
  rw [hl]
  split <;> rfl

theorem SlicedNext.endOfInput (s : State) : SlicedNext sk (.next s.endOfInput) (.next (s.slice sk).endOfInput) := by
  rw [s.endOfInput_slice]
  exact .of_ended sk s.endOfInput_not_busy

/-- A token of any class does the same to the slice. -/
theorem TokenClass.sliced {i : Instr} (hc : TokenClass s i) (h : WholeDecode sk s) :
    SlicedNext sk (exec i s) (exec i (s.slice sk)) := by
  cases hc with
  | byte b hi =>
    rw [exec_byte hi, exec_byte hi]
    exact ((h.produce b).lines (fun _ ht => ht.endByte i) fun t => t.endByte_slice i).toOutcome
  | copy d n hi =>
    have hi' : copyOperands (s.slice sk) i = some (d, n) := by rw [← hi]; cases i <;> rfl
    rw [exec_copy hi, exec_copy hi']
    exact ((h.copyBack d n).lines (fun _ ht => ht.endCopy d i) fun t => t.endCopy_slice d i).toOutcome
  | flags f hi =>
    subst hi
    have hlatch : WholeDecode sk { s with flags := f, fcnt := 8 } := h
    exact ⟨_, rfl, congrArg Host.Outcome.next (State.nextToken_slice { s with flags := f, fcnt := 8 }),
      fun _ => hlatch.nextToken⟩
  | marker v hi =>
    subst hi
    rw [exec_glzEnd, exec_glzEnd]
    exact .endOfInput s

/-- Every token that its context admits is of a class, but for a `SHORT` or `NEAR` of distance 0. -/
theorem TokenClass.of_admitted {x : TokenContext} {i : Instr} (hx : s.tokenContext = some x) (hi : x.admits i)
    (hshort : i ≠ .glzShort 0) (hnear : ∀ n, i ≠ .glzNear 0 n) : TokenClass s i := by
  cases i with
  | lzssFlags f => exact .flags f rfl
  | lzssLit b | glzFirst b | glzLit b => exact .byte b rfl
  | glzZero => exact .byte 0 rfl
  | lzssMatch plo phi nl => exact .copy _ _ rfl
  | glzRep n => exact .copy _ _ rfl
  | glzEnd v => exact .marker v rfl
  | glzShort d => exact .copy _ _ (if_neg fun h => hshort (congrArg _ h))
  | glzNear d n => exact .copy _ _ (if_neg fun h => hnear n (congrArg (Instr.glzNear · n) h))
  | glzFar g lo n =>
    cases x with
    | glzToken w =>
      obtain rfl := (State.tokenContext_unit hx).2 w rfl
      exact .copy _ _ ((farByRule_eq s.lwm g n lo).trans (if_neg (Nat.not_lt.mpr hi)))
    | _ => exact hi.elim
  | _ => cases x <;> exact hi.elim

/-- A token that its context admits does the same to the slice; `SHORT` of distance 0 is `ZERO`, and `NEAR` of distance
0 is `END` (R226, R227). -/
theorem exec_sliced {x : TokenContext} {i : Instr} (hx : s.tokenContext = some x) (hi : x.admits i)
    (h : WholeDecode sk s) : SlicedNext sk (exec i s) (exec i (s.slice sk)) := by
  by_cases hshort : i = .glzShort 0
  · subst hshort
    exact (TokenClass.byte 0 rfl : TokenClass s .glzZero).sliced h
  by_cases hnear : ∃ n, i = .glzNear 0 n
  · obtain ⟨n, rfl⟩ := hnear
    exact (TokenClass.marker n rfl : TokenClass s (.glzEnd n)).sliced h
  exact (TokenClass.of_admitted hx hi hshort (not_exists.mp hnear)).sliced h

/-! ## Steps -/

theorem WholeDecode.window {x : TokenContext} (h : WholeDecode sk s) (hx : s.tokenContext = some x) :
    SlicedNext sk (stepUnit s) (stepUnit (s.slice sk)) := by
  have hcursor : (s.slice sk).cursor = s.cursor := rfl
  rw [stepUnit_of_tokenContext hx, stepUnit_of_tokenContext (s := s.slice sk) hx, hcursor]
  cases hd : decodeToken x s.cursor with
  | got i c => exact exec_sliced (s := s.withCursor c) hx (decodeToken_gives x _ i c hd) h
  | endOfInput c => exact .endOfInput (s.withCursor c)
  | malformed c => exact .of_ended sk (s := (s.withCursor c).raise .backReferenceOutOfRange) Phase.noConfusion

theorem WholeDecode.huf (h : WholeDecode sk s) (hu : s.unit = .huf) (hus : s.ustate = UState.symbol) :
    SlicedNext sk (stepUnit s) (stepUnit (s.slice sk)) := by
  have hread : decodeHuf (s.slice sk).ht (s.slice sk).cursor = decodeHuf s.ht s.cursor := rfl
  rw [stepUnit_of_huf hu hus, stepUnit_of_huf (s := s.slice sk) hu hus, hread]
  cases hd : decodeHuf s.ht s.cursor with
  | code path c =>
    obtain ⟨m, sym, hf⟩ := decodeHuf_code hd
    have hleaf : WholeDecode sk { s.withCursor c with node := m } := h
    have hflow := (hleaf.produce sym).lines (f := fun t => { t with ustate := UState.symbol })
      (fun _ ht => ht) fun _ => rfl
    obtain ⟨he, -⟩ := exec_hufSym (s := s.withCursor c) hu hf
    obtain ⟨he', -⟩ := exec_hufSym (s := (s.slice sk).withCursor c) hu hf
    change SlicedNext sk (exec (.hufSym path) (s.withCursor c)) (exec (.hufSym path) ((s.slice sk).withCursor c))
    rw [he, he']
    exact hflow.toOutcome
  | endOfInput n c => exact .endOfInput { s.withCursor c with node := n }
  | noCode c =>
    exact .of_ended sk (s := State.raise { s.withCursor c with node := Config.htNone } .invalidControlCode)
      Phase.noConfusion

theorem WholeDecode.stepUnit (h : WholeDecode sk s) (hs : UStateLegal s) (hd : s.unit.isDecoder = true) :
    SlicedNext sk (stepUnit s) (stepUnit (s.slice sk)) := by
  have window (hu : s.unit = .lzd ∨ s.unit = .glz) :
      SlicedNext sk (Machine.stepUnit s) (Machine.stepUnit (s.slice sk)) := by
    obtain ⟨x, hx⟩ := hs.tokenContext hu
    exact h.window hx
  cases hu : s.unit with
  | lzd => exact window (.inl hu)
  | glz => exact window (.inr hu)
  | huf => exact h.huf hu (by rwa [UStateLegal, hu] at hs)
  | none | lze | kc => rw [hu] at hd; cases hd

/-! ## Runs -/

/-- A full decode, left alone, that is sliced behind its first `sk` bytes. -/
structure SlicedDecode (sk : Count) (s : State) : Prop where
  alone : EngineAlone s
  legal : ControlLegal s
  unit : s.unit.isDecoder = true
  whole : s.phase = .busy → WholeDecode sk s

theorem SlicedDecode.step (h : SlicedDecode sk s) :
    ∃ t, step s = .next t ∧ step (s.slice sk) = .next (t.slice sk) ∧ SlicedDecode sk t := by
  have halone : EngineAlone (s.slice sk) := h.alone
  rw [step_alone h.alone, step_alone halone]
  by_cases hb : s.phase = .busy
  · rw [engineTurn_busy hb h.alone.2, engineTurn_busy (s := s.slice sk) hb halone.2]
    obtain ⟨t, ht, hslice, hwhole⟩ := (h.whole hb).stepUnit h.legal.1 h.unit
    obtain ⟨-, -, hu, -⟩ := stepUnit_keeps ht
    exact ⟨t, ht, hslice, h.alone.stepUnit ht, h.legal.engine hb ht, hu ▸ h.unit, hwhole⟩
  · exact ⟨s, if_neg fun e => hb e.1, if_neg fun e => hb e.1, h⟩

theorem SlicedDecode.run (k : Nat) (h : SlicedDecode sk s) :
    ∃ t, Host.Core.run Sys2Proof.core k s = .next t ∧ Host.Core.run Sys2Proof.core k (s.slice sk) = .next (t.slice sk) := by
  induction k generalizing s with
  | zero => exact ⟨s, rfl, rfl⟩
  | succ k ih =>
    obtain ⟨u, hu, hslice, hnext⟩ := h.step
    rw [run_succ k hu, run_succ k hslice]
    exact ih hnext

/-! ## Starts (R267, R268, R273) -/

/-- Where nothing is delivered yet, all of the skip is still to come. -/
theorem State.slice_of_empty (h : s.dst = []) :
    s.slice sk = { s with take := s.take - sk, skipRem := sk, takeRem := s.takeRem - sk } := by
  rw [State.slice, h, List.length_nil, Nat.sub_zero, BitVec.ofNat_toNat, BitVec.setWidth_eq, List.drop_nil, ← h]

/-- A start that is to take a byte is Busy. -/
theorem State.start_busy (s : State) {p : StartSpec} (htake : p.usesTake = true) (hwant : s.take ≠ 0) :
    s.start p = { ((s.startCommon p.unit p.lenKnown p.capEn (if p.usesSkip then s.skip else 0) s.take).initUnit p.unit
      p.kind) with phase := .busy } := by
  have hrem (u : UnitSel) (n : Count) :
      ((s.startCommon u p.lenKnown p.capEn n s.take).initUnit u p.kind).takeRem = s.take := by cases u <;> rfl
  have hwanted (u : State) (h : u.takeRem = s.take) :
      ¬(u.unit.isDecoder = true ∧ u.lenKnown = true ∧ u.takeRem = 0) := fun ⟨_, _, h0⟩ => hwant (h.symm.trans h0)
  rw [State.start, State.startPhase_eq, if_pos htake, if_neg (hwanted _ (hrem _ _))]

/-- The start that skips `SKIP` of the bytes that a full decode takes is the slice of that one's start. -/
theorem State.start_slice (s : State) {p : StartSpec} (hd : p.unit.isDecoder = true) (hskip : p.usesSkip = false)
    (htake : p.usesTake = true) (hfull : s.take ≠ 0) (hwant : s.take - s.skip ≠ 0) :
    State.start { s with take := s.take - s.skip } { p with usesSkip := true } = (s.start p).slice s.skip := by
  rw [State.start_busy { s with take := s.take - s.skip } (p := { p with usesSkip := true }) htake hwant,
    State.start_busy s htake hfull]
  obtain ⟨u, k, lk, ce, us, ut⟩ := p
  cases hskip
  cases u with
  | lzd | huf | glz => rw [State.slice_of_empty rfl]; rfl
  | none | lze | kc => cases hd

theorem SlicedDecode.start {i : Instr} {p : StartSpec} (hp : startSpec i = some p) (hd : p.unit.isDecoder = true)
    (hl : p.lenKnown = true) (hskip : p.usesSkip = false) (halone : EngineAlone s) (hahead : sk.toNat < s.take.toNat) :
    SlicedDecode sk (s.start p) := by
  have hdec := Decoding.start hp hd hl halone
  refine ⟨hdec.alone, ControlLegal.start s (startSpec_unit_ne_none hp), hdec.unit, fun hb => ?_⟩
  obtain ⟨-, -, -, -, -, -, hrem, -⟩ := s.start_shell (startSpec_unit_ne_none hp)
  obtain ⟨hwant, hsum, -, -⟩ := (hdec.books.1 hb).1 hdec.lenKnown
  refine ⟨hdec.lenKnown, hrem.trans (if_neg (Bool.eq_false_iff.mp hskip)), hwant, hsum, ?_⟩
  rwa [s.start_take]

/-- The three pairs of a skip/take decode and the full one (R267, R268): they start alike, but for the skip. -/
theorem startSpec_slice {i j : Instr} {lk ce : Bool}
    (h : (i, j) ∈ [(Instr.decompressSkipLzss lk ce, Instr.decompressLzss true ce),
      (Instr.decompressSkipHuffman lk ce, Instr.decompressHuffman ce),
      (Instr.decompressSkipGammaLz lk ce, Instr.decompressGammaLz true ce)]) :
    ∃ p, startSpec j = some p ∧ startSpec i = some { p with usesSkip := true } ∧ p.unit.isDecoder = true ∧
      p.lenKnown = true ∧ p.usesSkip = false ∧ p.usesTake = true := by
  simp only [List.mem_cons, Prod.mk.injEq, List.not_mem_nil, or_false] at h
  rcases h with ⟨rfl, rfl⟩ | ⟨rfl, rfl⟩ | ⟨rfl, rfl⟩ <;> exact ⟨_, rfl, rfl, rfl, rfl, rfl, rfl⟩

/-- Settles O59: the skip/take decode starts as the slice of the full one, and every step keeps it that. -/
theorem skipTakeIsASliceOfTheFullDecode : Obligations.SkipTakeIsASliceOfTheFullDecode := by
  intro i j lk ce s hb halone htake hroom hmem k
  obtain ⟨p, hj, hi, hd, hl, hskip, huses⟩ := startSpec_slice hmem
  have hsum : (s.skip + s.take).toNat = s.skip.toNat + s.take.toNat := by
    rw [BitVec.toNat_add, Nat.mod_eq_of_lt hroom]
  have hpos : s.take.toNat ≠ 0 := fun h0 => htake (BitVec.eq_of_toNat_eq h0)
  have hrest : s.skip + s.take - s.skip = s.take := add_sub_cancel_left _ _
  have hahead : s.skip.toNat < (s.skip + s.take).toNat := by omega
  have hfull : s.skip + s.take ≠ 0 := fun h0 => by rw [h0] at hahead; exact Nat.not_lt_zero _ hahead
  have hstart := State.start_slice { s with take := s.skip + s.take } hd hskip huses hfull (by dsimp only; rwa [hrest])
  dsimp only at hstart
  rw [hrest] at hstart
  have hsliced : SlicedDecode s.skip (State.start { s with take := s.skip + s.take } p) :=
    .start hj hd hl hskip halone hahead
  obtain ⟨t, ht, hslice⟩ := hsliced.run k
  refine ⟨_, _, t.slice s.skip, t, exec_start_next hi hb, exec_start_next hj hb, ?_, ht, rfl, rfl, rfl, rfl, rfl⟩
  exact (congrArg _ hstart).trans hslice

end Sys2Proof.Machine
end


section
/-! # The tree operations and the comparison of keys (R174, R175, R185) -/

namespace Sys2Proof.Machine

/-! ## The comparison (R174) -/

/-- The inner loop of `InsertNode` stops at the first of `k` bytes, from byte `i` on, on which the keys differ. -/
theorem State.compareKeys_stops (s : State) (r p : Ring) (k i : Nat) : ∃ j cmp, s.compareKeys r p k i = (j, cmp) ∧
    i ≤ j ∧ j ≤ i + k ∧
    (∀ x, i ≤ x → x < j → s.winAt (r + BitVec.ofNat 12 x) = s.winAt (p + BitVec.ofNat 12 x)) ∧
    (j = i + k → cmp = 0) ∧
    (j < i + k → cmp ≠ 0 ∧
      cmp = (s.winAt (r + BitVec.ofNat 12 j)).toNat - (s.winAt (p + BitVec.ofNat 12 j)).toNat) := by
  induction k generalizing i with
  | zero =>
    exact ⟨i, 0, rfl, le_rfl, le_rfl, fun x h1 h2 => absurd h1 (by omega), fun _ => rfl, fun h => absurd h (by omega)⟩
  | succ k ih =>
    unfold State.compareKeys
    split
    · next heq =>
      obtain ⟨j, cmp, he, hij, hjk, hsame, hend, hdiff⟩ := ih (i + 1)
      refine ⟨j, cmp, he, by omega, by omega, fun x h1 h2 => ?_, fun h => hend (by omega), fun h => hdiff (by omega)⟩
      rcases Nat.eq_or_lt_of_le h1 with rfl | h1
      · exact heq
      · exact hsame x h1 h2
    · next hne =>
      refine ⟨i, _, rfl, le_rfl, by omega, fun x h1 h2 => absurd h1 (by omega), fun h => absurd h (by omega),
        fun _ => ⟨fun h0 => ?_, rfl⟩⟩
      exact hne (BitVec.eq_of_toNat_eq (by omega))

/-- Settles O34: the loop starts at byte 1 with 17 bytes to compare. -/
theorem keyComparisonIsTheCommonPrefix : Obligations.KeyComparisonIsTheCommonPrefix := by
  intro s r p
  obtain ⟨j, cmp, he, h1, h18, hsame, hend, hdiff⟩ := s.compareKeys_stops r p 17 1
  exact ⟨j, cmp, he, h1, h18, hsame, hend, hdiff⟩

/-! ## The tree operations (R174, R175) -/

/-- In an empty tree `r` becomes the root's child, and no match is found. -/
theorem State.insertNode_empty {s : State} {r : Ring} (h : s.rsonAt (rootSlot (s.winAt r)) = Config.nil) :
    ∃ t, s.insertNode r = some t ∧ HoldsTree t (s.winAt r) (.node .nil r .nil) ∧ t.best = (0, s.matchPos) ∧
      OtherCellsKept (s.winAt r) [r] s t := by
  have hnil : HoldsTree s (s.winAt r) .nil := h
  obtain ⟨t, ht, hhold, hbest, -, hk⟩ := hnil.insertNode List.nodup_nil nofun nofun
  exact ⟨t, ht, hhold, hbest, hk⟩

/-- Settles O35: the descent inserts and searches; an empty tree is the case of no nodes. -/
theorem insertNodeInsertsAndSearches : Obligations.InsertNodeInsertsAndSearches := by
  constructor
  · intro s r T h hn hT
    obtain ⟨t, ht, hhold, hbest, hunl, hk⟩ := h.insertNode hn (fun hr => (hT r hr).1 rfl) fun p hp => (hT p hp).2
    refine ⟨t, ht, hhold, hbest, hunl, hk, ?_⟩
    exact s.insertNode_frame r ht
  · intro s r h
    obtain ⟨t, ht, ⟨hroot, hdad, hl, hr⟩, hbest, hk⟩ := State.insertNode_empty h
    obtain ⟨hlen, hpos⟩ := Prod.mk.inj hbest
    rw [hroot] at hdad hl hr
    have kept {x : TreeIdx} (hx : x ≠ ringNode r) := hk x fun p hp => List.mem_singleton.mp hp ▸ hx
    refine ⟨t, ht, BitVec.eq_of_toNat_eq hlen, hroot, hdad, hr, hl, fun x hx hx' => (kept hx).2.2 hx',
      fun x hx => ⟨(kept hx).1, (kept hx).2.1⟩, ?_⟩
    have hf := s.insertNode_frame r ht
    rw [MatchFrame, hpos] at hf
    exact hf

/-- Settles O36: what takes the place of a node, and the guard of a position that is in no tree. -/
theorem deleteNodeDeletes : Obligations.DeleteNodeDeletes := by
  constructor
  · intro s c p T h hn hp
    obtain ⟨t, ht, hhold, hnil, hk⟩ := h.deleteNode hn hp
    exact ⟨t, ht, hhold, hnil, hk, s.deleteNode_frame p ht⟩
  · intro s p h
    exact State.deleteNode_absent h

end Sys2Proof.Machine
end


section
/-! # Search trees (R185, R186 (b), (c))

The trees are in strict order of keys. The way down to a key then passes the keys next to it on both sides, so that the
longest match on the way is the longest in the tree. -/

namespace Sys2Proof.Machine

/-! ## The lexicographic order of keys -/

theorem keyBefore_cons {a b : Byte} {A B : List Byte} :
    keyBefore (a :: A) (b :: B) = true ↔ a < b ∨ (a = b ∧ keyBefore A B = true) := by
  simp [keyBefore]

theorem keyBefore_irrefl (A : List Byte) : keyBefore A A = false := by
  induction A with
  | nil => rfl
  | cons a A ih => rw [keyBefore_cons_self, ih]

theorem keyBefore_trans {A B C : List Byte} (h : keyBefore A B = true) (h' : keyBefore B C = true) :
    keyBefore A C = true := by
  induction A generalizing B C with
  | nil => cases h
  | cons a A ih =>
    cases B with
    | nil => cases h
    | cons b B =>
      cases C with
      | nil => cases h'
      | cons c C =>
        rw [keyBefore_cons] at h h' ⊢
        rcases h with h | ⟨rfl, h⟩ <;> rcases h' with h' | ⟨rfl, h'⟩
        · exact .inl (BitVec.lt_trans h h')
        · exact .inl h
        · exact .inl h'
        · exact .inr ⟨rfl, ih h h'⟩

/-- Of two different keys one comes before the other. -/
theorem keyBefore_of_not {A B : List Byte} (hlen : A.length = B.length) (hne : A ≠ B) (h : keyBefore A B = false) :
    keyBefore B A = true := by
  induction A generalizing B with
  | nil => exact absurd (List.length_eq_zero_iff.mp hlen.symm).symm hne
  | cons a A ih =>
    cases B with
    | nil => cases hlen
    | cons b B =>
      rw [← Bool.not_eq_true, keyBefore_cons, not_or] at h
      obtain ⟨hab, hAB⟩ := h
      rw [keyBefore_cons]
      by_cases heq : a = b
      · subst heq
        exact .inr ⟨rfl, ih (Nat.succ.inj hlen) (fun e => hne (by rw [e])) (by simpa using hAB)⟩
      · exact .inl (by bv_omega)

theorem commonLength_self (A : List Byte) : commonLength A A = A.length := by
  induction A with
  | nil => rfl
  | cons a A ih => rw [commonLength_cons_self, ih, List.length_cons]

theorem commonLength_le (A B : List Byte) : commonLength A B ≤ A.length := by
  induction A generalizing B with
  | nil => cases B <;> exact le_rfl
  | cons a A ih =>
    cases B with
    | nil => exact Nat.zero_le _
    | cons b B =>
      unfold commonLength
      split
      · exact Nat.succ_le_succ (ih B)
      · exact Nat.zero_le _

/-- A key between two others agrees with the first on at least as many bytes as the last does. -/
theorem commonLength_between {A B C : List Byte} (h : keyBefore A B = true) (h' : keyBefore B C = true) :
    commonLength A C ≤ commonLength A B ∧ commonLength C A ≤ commonLength C B := by
  induction A generalizing B C with
  | nil => cases h
  | cons a A ih =>
    cases B with
    | nil => cases h
    | cons b B =>
      cases C with
      | nil => cases h'
      | cons c C =>
        rw [keyBefore_cons] at h h'
        by_cases hac : a = c
        · subst hac
          have hba : b = a := by
            rcases h with h | ⟨h, -⟩ <;> rcases h' with h' | ⟨h', -⟩ <;> bv_omega
          subst hba
          have hA := h.resolve_left (BitVec.lt_irrefl b)
          have hC := h'.resolve_left (BitVec.lt_irrefl b)
          obtain ⟨h1, h2⟩ := ih hA.2 hC.2
          simp only [commonLength_cons_self]
          exact ⟨Nat.succ_le_succ h1, Nat.succ_le_succ h2⟩
        · have hzero {x y : Byte} (hxy : x ≠ y) (X Y : List Byte) : commonLength (x :: X) (y :: Y) = 0 := if_neg hxy
          rw [hzero hac, hzero (Ne.symm hac)]
          exact ⟨Nat.zero_le _, Nat.zero_le _⟩

theorem keyAt_length (s : State) (p : Ring) : (keyAt s p).length = 18 := by
  rw [keyAt, List.length_map, List.length_range]

/-! ## Sorted trees -/

/-- The positions of the tree stand in strict order of keys (R186 (b)). -/
def SearchTree.Sorted (key : Ring → List Byte) (T : SearchTree) : Prop :=
  (T.positions.map key).Pairwise fun a b => keyBefore a b = true

section sorted

variable {key : Ring → List Byte} {T l r : SearchTree} {p q : Ring}

theorem SearchTree.sorted_nil : SearchTree.Sorted key .nil := List.Pairwise.nil

theorem SearchTree.sorted_node : SearchTree.Sorted key (.node l p r) ↔
    l.Sorted key ∧ r.Sorted key ∧ (∀ x ∈ l.positions, keyBefore (key x) (key p) = true) ∧
      ∀ x ∈ r.positions, keyBefore (key p) (key x) = true := by
  simp only [SearchTree.Sorted, SearchTree.positions, List.map_append, List.map_cons, List.pairwise_append,
    List.pairwise_cons, List.mem_cons, List.mem_map, forall_exists_index, and_imp, forall_apply_eq_imp_iff₂]
  constructor
  · rintro ⟨hl, ⟨hp, hr⟩, hcross⟩
    exact ⟨hl, hr, fun x hx => hcross x hx (key p) (.inl rfl), hp⟩
  · rintro ⟨hl, hr, hlp, hpr⟩
    refine ⟨hl, ⟨hpr, hr⟩, fun x hx y hy => ?_⟩
    rcases hy with rfl | ⟨z, hz, rfl⟩
    · exact hlp x hx
    · exact keyBefore_trans (hlp x hx) (hpr z hz)

/-- Positions in strict order are distinct. -/
theorem SearchTree.Sorted.nodup (h : T.Sorted key) : T.positions.Nodup := by
  refine List.Nodup.of_map key (List.Pairwise.imp (fun hab => ?_) h)
  rintro rfl
  rw [keyBefore_irrefl] at hab
  cases hab

theorem SearchTree.Sorted.delete (h : T.Sorted key) : (T.delete p).Sorted key := by
  rw [SearchTree.Sorted, SearchTree.delete_positions h.nodup]
  exact h.sublist (List.filter_sublist.map key)

theorem SearchTree.Sorted.insert (hlen : ∀ p, (key p).length = 18) (h : T.Sorted key) :
    (T.insert key q).Sorted key := by
  induction T with
  | nil => exact List.pairwise_singleton _ _
  | node l p r ihl ihr =>
    obtain ⟨hl, hr, hlp, hpr⟩ := SearchTree.sorted_node.mp h
    rw [SearchTree.insert]
    split_ifs with hsame hbefore <;> rw [SearchTree.sorted_node]
    · rw [hsame]
      exact ⟨hl, hr, hlp, hpr⟩
    · refine ⟨ihl hl, hr, fun x hx => ?_, hpr⟩
      rcases SearchTree.mem_of_mem_insert hx with rfl | hx
      · exact hbefore
      · exact hlp x hx
    · refine ⟨hl, ihr hr, hlp, fun x hx => ?_⟩
      rcases SearchTree.mem_of_mem_insert hx with rfl | hx
      · exact keyBefore_of_not (by rw [hlen, hlen]) hsame (by simpa using hbefore)
      · exact hpr x hx

/-- Insertion keeps every position but one of the same key, whose place the new one takes. -/
theorem SearchTree.mem_insert_of_mem {x : Ring} (hx : x ∈ T.positions) :
    x ∈ (T.insert key q).positions ∨ key x = key q := by
  induction T with
  | nil => cases hx
  | node l p r ihl ihr =>
    rw [SearchTree.mem_node] at hx
    rw [SearchTree.insert]
    split_ifs with hsame hbefore <;> rw [SearchTree.mem_node]
    · rcases hx with hx | rfl | hx
      · exact .inl (.inl hx)
      · exact .inr hsame.symm
      · exact .inl (.inr (.inr hx))
    · rcases hx with hx | hx
      · exact (ihl hx).imp_left .inl
      · exact .inl (.inr hx)
    · rcases hx with hx | hx | hx
      · exact .inl (.inl hx)
      · exact .inl (.inr (.inl hx))
      · exact (ihr hx).imp_left fun h => .inr (.inr h)

/-! ## The search -/

/-- The search answers the match it began with, or a node of the tree with as many bytes in common. -/
theorem SearchTree.search_mem (best : Nat × Ring) : T.search key q best = best ∨
    ((T.search key q best).2 ∈ T.positions ∧
      commonLength (key q) (key (T.search key q best).2) = (T.search key q best).1) := by
  induction T generalizing best with
  | nil => exact .inl rfl
  | node l p r ihl ihr =>
    rw [SearchTree.search]
    -- the node itself, noted if it is longer
    have hnode (b : Nat × Ring)
        (hb : b = if best.1 < commonLength (key q) (key p) then (commonLength (key q) (key p), p) else best) :
        b = best ∨ (b.2 ∈ (SearchTree.node l p r).positions ∧ commonLength (key q) (key b.2) = b.1) := by
      split at hb <;> subst hb
      · exact .inr ⟨SearchTree.mem_node.mpr (.inr (.inl rfl)), rfl⟩
      · exact .inl rfl
    generalize hb : (if best.1 < commonLength (key q) (key p) then (commonLength (key q) (key p), p) else best) = b
    split_ifs
    · exact hnode b hb.symm
    · rcases ihl b with h | ⟨hm, hc⟩
      · rw [h]; exact hnode b hb.symm
      · exact .inr ⟨SearchTree.mem_node.mpr (.inl hm), hc⟩
    · rcases ihr b with h | ⟨hm, hc⟩
      · rw [h]; exact hnode b hb.symm
      · exact .inr ⟨SearchTree.mem_node.mpr (.inr (.inr hm)), hc⟩

/-- The search never gets shorter. -/
theorem SearchTree.search_le (best : Nat × Ring) : best.1 ≤ (T.search key q best).1 := by
  induction T generalizing best with
  | nil => exact le_rfl
  | node l p r ihl ihr =>
    rw [SearchTree.search]
    generalize hb : (if best.1 < commonLength (key q) (key p) then (commonLength (key q) (key p), p) else best) = b
    have hle : best.1 ≤ b.1 := by
      split at hb <;> subst hb
      · exact Nat.le_of_lt ‹_›
      · exact le_rfl
    split_ifs
    · exact hle
    · exact hle.trans (ihl b)
    · exact hle.trans (ihr b)

/-- In a sorted tree the longest match on the way down is the longest in the tree (R187). -/
theorem SearchTree.Sorted.search_longest (hlen : ∀ p, (key p).length = 18) (h : T.Sorted key) (best : Nat × Ring)
    {x : Ring} (hx : x ∈ T.positions) : commonLength (key q) (key x) ≤ (T.search key q best).1 := by
  induction T generalizing best with
  | nil => cases hx
  | node l p r ihl ihr =>
    obtain ⟨hl, hr, hlp, hpr⟩ := SearchTree.sorted_node.mp h
    rw [SearchTree.search]
    generalize hb : (if best.1 < commonLength (key q) (key p) then (commonLength (key q) (key p), p) else best) = b
    have hnode : commonLength (key q) (key p) ≤ b.1 := by
      split at hb <;> subst hb
      · exact le_rfl
      · exact Nat.le_of_not_lt ‹_›
    split_ifs with hsame hbefore
    · refine le_trans ?_ hnode
      rw [← hsame, commonLength_self]
      exact commonLength_le _ _
    · rcases SearchTree.mem_node.mp hx with hx | rfl | hx
      · exact ihl hl b hx
      · exact hnode.trans (SearchTree.search_le b)
      · exact ((commonLength_between hbefore (hpr x hx)).1.trans hnode).trans (SearchTree.search_le b)
    · have hafter : keyBefore (key p) (key q) = true :=
        keyBefore_of_not (by rw [hlen, hlen]) hsame (by simpa using hbefore)
      rcases SearchTree.mem_node.mp hx with hx | rfl | hx
      · exact ((commonLength_between (hlp x hx) hafter).2.trans hnode).trans (SearchTree.search_le b)
      · exact hnode.trans (SearchTree.search_le b)
      · exact ihr hr b hx

end sorted

end Sys2Proof.Machine
end


section
/-! # One position on (R181, R182, R186, R187)

The trees of the encoder before and after each operation of `Advance` and `Drain`: which positions they hold, that they
are sorted, and that the match found last is the longest. -/

namespace Sys2Proof.Machine

/-! ## The trees between two operations -/

/-- The trees `T` are search trees, their positions at least `lo` and at most `hi` behind `r`; and every position from
`lo` on and less than `cov` behind `r` is in one of them, itself or a nearer one with the same key. -/
structure SearchLegal (lo hi cov : Nat) (T : Byte → SearchTree) (s : State) : Prop where
  forest : Forest s T
  sorted : ∀ c, (T c).Sorted (keyAt s)
  ring : s.ringS = s.ringR + 18
  behind : Behind T s.ringR lo hi
  covered : ∀ d, lo ≤ d → d < cov → ∃ c, ∃ p ∈ (T c).positions,
    keyAt s p = keyAt s (s.ringR - BitVec.ofNat 12 d) ∧ (s.ringR - p).toNat ≤ d

/-- The match registers hold the longest match at `r` among the positions less than `cov` behind it, and the match is at
most `hi` behind `r`. -/
structure BestMatch (hi cov : Nat) (s : State) : Prop where
  longest : ∀ d, 1 ≤ d → d < cov →
    commonLength (keyAt s s.ringR) (keyAt s (s.ringR - BitVec.ofNat 12 d)) ≤ s.matchLen.toNat
  found : s.matchLen ≠ 0 → 1 ≤ (s.ringR - s.matchPos).toNat ∧ (s.ringR - s.matchPos).toNat ≤ hi ∧
    commonLength (keyAt s s.ringR) (keyAt s s.matchPos) = s.matchLen.toNat

theorem keyAt_congr {s t : State} (h : t.winAt = s.winAt) : keyAt t = keyAt s := by
  unfold keyAt
  rw [h]

theorem TreeFrame.winAt {s t : State} (h : TreeFrame s t) : t.winAt = s.winAt := by
  rw [h]; rfl

theorem MatchFrame.winAt {s t : State} (h : MatchFrame s t) : t.winAt = s.winAt := by
  rw [h]; rfl

/-- The key of a position begins with its byte. -/
theorem winAt_of_keyAt_eq {s t : State} {p q : Ring} (h : keyAt s p = keyAt t q) : s.winAt p = t.winAt q := by
  rw [keyAt_eq, keyAt_eq] at h
  exact (List.cons.inj h).1

/-- Keys of different first bytes have nothing in common. -/
theorem commonLength_keyAt_of_ne {s : State} {p q : Ring} (h : s.winAt p ≠ s.winAt q) :
    commonLength (keyAt s p) (keyAt s q) = 0 := by
  rw [keyAt_eq, keyAt_eq, commonLength, if_neg h]

section

variable {lo hi cov : Nat} {T : Byte → SearchTree} {s : State}

theorem SearchLegal.mono (h : SearchLegal lo hi cov T s) {lo' hi' cov' : Nat} (hl : lo' ≤ lo) (hh : hi ≤ hi')
    (hc : cov' ≤ cov) (hlo : lo' = lo ∨ cov' = 0) : SearchLegal lo' hi' cov' T s :=
  ⟨h.forest, h.sorted, h.ring, h.behind.mono hl hh, fun d hd hd' =>
    h.covered d (hlo.elim (fun e => e ▸ hd) fun e => absurd hd' (by omega)) (by omega)⟩

/-- Registers other than `r` and `s` do not matter. -/
theorem SearchLegal.of_same (h : SearchLegal lo hi cov T s) {t : State}
    (hm : (t.lson, t.rson, t.dad) = (s.lson, s.rson, s.dad)) (hw : t.winAt = s.winAt)
    (hr : (t.ringR, t.ringS) = (s.ringR, s.ringS)) : SearchLegal lo hi cov T t := by
  obtain ⟨hR, hS⟩ := Prod.mk.inj hr
  have hkey := keyAt_congr hw
  refine ⟨h.forest.of_same hm fun _ p _ => congrFun hw p, ?_, ?_, ?_, ?_⟩
  · rw [hkey]; exact h.sorted
  · rw [hR, hS]; exact h.ring
  · rw [hR]; exact h.behind
  · rw [hkey, hR]; exact h.covered

/-- `DeleteNode(s)` takes the oldest position, 4078 behind `r`, out of the trees. -/
theorem SearchLegal.deleteOldest (h : SearchLegal 0 hi cov T s) (hhi : hi ≤ 4078) :
    ∃ t, s.deleteNode s.ringS = some t ∧ TreeFrame s t ∧
      SearchLegal 0 (min hi 4077) (min cov 4078) (fun c => (T c).delete s.ringS) t := by
  obtain ⟨t, ht, hf, hT⟩ := h.forest.deleteNode s.ringS
  have hkey := keyAt_congr hf.winAt
  have hkeep : t.ringS = s.ringS ∧ t.ringR = s.ringR := by rw [hf]; exact ⟨rfl, rfl⟩
  obtain ⟨hS, hR⟩ := hkeep
  have hring := h.ring
  refine ⟨t, ht, hf, hT, fun c => ?_, by rw [hS, hR, hring], fun c p hp => ?_, fun d _ hd => ?_⟩
  · rw [hkey]
    exact (h.sorted c).delete
  · obtain ⟨hp, hne⟩ := (SearchTree.mem_delete (h.forest.nodup c)).mp hp
    have hle := (h.behind c p hp).2
    rw [hR]
    rw [hring] at hne
    bv_omega
  · obtain ⟨c, p, hp, hk, hle⟩ := h.covered d (Nat.zero_le d) (by omega)
    have hne : p ≠ s.ringS := by
      rw [hring]
      rintro rfl
      bv_omega
    rw [hkey, hR]
    exact ⟨c, p, (SearchTree.mem_delete (h.forest.nodup c)).mpr ⟨hp, hne⟩, hk, hle⟩

/-- A byte stored at `s` is in no key of a position less than 4078 behind `r` (R171). -/
theorem keyAt_setWin_ringS (hring : s.ringS = s.ringR + 18) (b : Byte) {p : Ring} (hp : (s.ringR - p).toNat ≤ 4077) :
    keyAt (s.setWin s.ringS b) p = keyAt s p := by
  unfold keyAt
  refine List.map_congr_left fun i hi => ?_
  have hi18 := List.mem_range.mp hi
  rw [State.winAt_setWin, if_neg]
  intro e
  rw [hring] at e
  bv_omega

/-- A byte is loaded at the place of the oldest position, which is in no tree. -/
theorem SearchLegal.load (h : SearchLegal 0 hi cov T s) (hhi : hi ≤ 4077) (hcov : cov ≤ 4078) (b : Byte) :
    SearchLegal 0 hi cov T (s.setWin s.ringS b) := by
  have key {p : Ring} (hp : (s.ringR - p).toNat ≤ 4077) := keyAt_setWin_ringS h.ring b hp
  have near {c : Byte} {p : Ring} (hp : p ∈ (T c).positions) : (s.ringR - p).toNat ≤ 4077 :=
    (h.behind c p hp).2.trans hhi
  refine ⟨h.forest.of_same rfl fun c p hp => ?_, fun c => ?_, h.ring, h.behind, fun d h0 hd => ?_⟩
  · exact winAt_of_keyAt_eq (key (near hp))
  · rw [SearchTree.Sorted, List.map_congr_left fun p hp => key (near hp)]
    exact h.sorted c
  · obtain ⟨c, p, hp, hk, hle⟩ := h.covered d h0 hd
    refine ⟨c, p, hp, ?_, hle⟩
    have hd' : (s.ringR - (s.ringR - BitVec.ofNat 12 d)).toNat ≤ 4077 := by bv_omega
    exact (key (near hp)).trans (hk.trans (key hd').symm)

/-- With the oldest position out of the trees, both rings move on. -/
theorem SearchLegal.slide (h : SearchLegal 0 hi cov T s) (hhi : hi ≤ 4077) (hcov : cov ≤ 4078) :
    SearchLegal 1 (hi + 1) (cov + 1) T s.slide := by
  have hring := h.ring
  refine ⟨h.forest.of_same rfl fun _ _ _ => rfl, h.sorted, ?_, fun c p hp => ?_, fun d h1 hd => ?_⟩
  · change s.ringS + 1 = s.ringR + 1 + 18
    bv_omega
  · have hle := (h.behind c p hp).2
    change 1 ≤ (s.ringR + 1 - p).toNat ∧ (s.ringR + 1 - p).toNat ≤ hi + 1
    bv_omega
  · obtain ⟨c, p, hp, hk, hle⟩ := h.covered (d - 1) (Nat.zero_le _) (by omega)
    refine ⟨c, p, hp, ?_, ?_⟩
    · have hd' : s.ringR - BitVec.ofNat 12 (d - 1) = s.ringR + 1 - BitVec.ofNat 12 d := by bv_omega
      rw [hd'] at hk
      exact hk
    · change (s.ringR + 1 - p).toNat ≤ d
      bv_omega

/-- `InsertNode(r)` at the new position: it enters the trees, and the match found is the longest. -/
theorem SearchLegal.insertNewest (h : SearchLegal 1 hi cov T s) :
    ∃ t, s.insertNode s.ringR = some t ∧ MatchFrame s t ∧ SearchLegal 0 hi cov (insertedForest s T s.ringR) t ∧
      BestMatch hi cov t := by
  have hfresh : ∀ c, s.ringR ∉ (T c).positions := fun c hp => by
    have hle := (h.behind c _ hp).1
    bv_omega
  obtain ⟨t, ht, hf, hT, hbest⟩ := h.forest.insertNode hfresh
  have hkey := keyAt_congr hf.winAt
  have hkeep : t.ringS = s.ringS ∧ t.ringR = s.ringR := by rw [hf]; exact ⟨rfl, rfl⟩
  obtain ⟨hS, hR⟩ := hkeep
  obtain ⟨hlen, hpos⟩ := Prod.mk.inj hbest
  refine ⟨t, ht, hf, ⟨hT, fun c => ?_, by rw [hS, hR, h.ring], fun c p hp => ⟨Nat.zero_le _, ?_⟩, fun d _ hd => ?_⟩,
    fun d h1 hd => ?_, fun hne => ?_⟩
  · rw [hkey, insertedForest]
    rcases eq_or_ne c (s.winAt s.ringR) with rfl | hc
    · rw [Function.update_self]
      exact (h.sorted _).insert (keyAt_length s)
    · rw [Function.update_of_ne hc]
      exact h.sorted c
  · rw [hR]
    rcases mem_insertedForest hp with rfl | hp
    · simp
    · exact (h.behind c p hp).2
  · -- a position already covered stays so, unless `r` has taken its place
    rw [hkey, hR]
    have hself : ∃ c, s.ringR ∈ (insertedForest s T s.ringR c).positions :=
      ⟨s.winAt s.ringR, by rw [insertedForest, Function.update_self]; exact SearchTree.mem_insert_self⟩
    obtain ⟨c0, hc0⟩ := hself
    rcases Nat.eq_zero_or_pos d with rfl | h1
    · exact ⟨c0, s.ringR, hc0, by simp, by simp⟩
    · obtain ⟨c, p, hp, hk, hle⟩ := h.covered d h1 hd
      by_cases hc : c = s.winAt s.ringR
      · subst hc
        rcases SearchTree.mem_insert_of_mem (key := keyAt s) (q := s.ringR) hp with hm | he
        · exact ⟨_, p, by rwa [insertedForest, Function.update_self], hk, hle⟩
        · exact ⟨c0, s.ringR, hc0, he.symm.trans hk, by simp⟩
      · exact ⟨c, p, by rwa [insertedForest, Function.update_of_ne hc], hk, hle⟩
  · rw [hkey, hR, hlen]
    by_cases hb : s.winAt s.ringR = s.winAt (s.ringR - BitVec.ofNat 12 d)
    · obtain ⟨c, p, hp, hk, -⟩ := h.covered d h1 hd
      have hc : c = s.winAt s.ringR := by
        rw [hb, ← winAt_of_keyAt_eq hk]
        exact (h.forest.byte c p hp).symm
      rw [← hk]
      exact (h.sorted _).search_longest (keyAt_length s) _ (hc ▸ hp)
    · rw [commonLength_keyAt_of_ne hb]
      exact Nat.zero_le _
  · have hne' : t.matchLen.toNat ≠ 0 := fun e => hne (BitVec.eq_of_toNat_eq e)
    rw [hkey, hR, hpos, hlen]
    rcases (T (s.winAt s.ringR)).search_mem (key := keyAt s) (q := s.ringR) (0, s.matchPos) with h0 | ⟨hm, hcl⟩
    · rw [h0] at hlen
      exact absurd hlen hne'
    · obtain ⟨h1, h2⟩ := h.behind _ _ hm
      exact ⟨h1, h2, hcl⟩

end

end Sys2Proof.Machine
end


section
/-! # `Advance` and `Drain` (R181, R182) -/

namespace Sys2Proof.Machine

/-! ## Positions passed -/

/-- `k` positions have been passed and `m` bytes loaded: the rings have moved on, the bytes stand behind the lookahead,
and the lookahead has shrunk by the positions for which there was no byte. -/
structure Passed (k m : Nat) (s t : State) : Prop where
  input : t.srcLen = s.srcLen ∧ srcByte t = srcByte s
  ringR : t.ringR = s.ringR + BitVec.ofNat 12 k
  ringS : t.ringS = s.ringS + BitVec.ofNat 12 k
  pos : t.pos.toNat = s.pos.toNat + m
  look : t.lookLen.toNat + k = s.lookLen.toNat + m
  win : ∀ a, t.winAt a =
    if (a - s.ringS).toNat < m then srcByte s (s.pos.toNat + (a - s.ringS).toNat) else s.winAt a

/-- What the search may write keeps the input. -/
theorem SearchFrame.input {s t : State} (h : SearchFrame s t) : t.srcLen = s.srcLen ∧ srcByte t = srcByte s := by
  rw [h]
  exact ⟨rfl, rfl⟩

theorem Passed.zero (s : State) : Passed 0 0 s s :=
  ⟨⟨rfl, rfl⟩, (BitVec.add_zero _).symm, (BitVec.add_zero _).symm, rfl, rfl,
    fun a => by rw [if_neg (Nat.not_lt_zero _)]⟩

/-- One position, then more; bytes are loaded for the first positions only. -/
theorem Passed.trans {k m m' : Nat} {s t u : State} (h : Passed 1 m s t) (h' : Passed k m' t u) (hm : m ≤ 1)
    (hm' : m' = 0 ∨ m = 1) (hk : m' + 1 ≤ 4096) : Passed (k + 1) (m + m') s u := by
  obtain ⟨⟨hlen, hsrc⟩, hR, hS, hpos, hlook, hwin⟩ := h
  obtain ⟨⟨hlen', hsrc'⟩, hR', hS', hpos', hlook', hwin'⟩ := h'
  refine ⟨⟨hlen'.trans hlen, hsrc'.trans hsrc⟩, ?_, ?_, by omega, by omega, fun a => ?_⟩
  · rw [hR', hR, Nat.add_comm k, BitVec.ofNat_add, add_assoc]
  · rw [hS', hS, Nat.add_comm k, BitVec.ofNat_add, add_assoc]
  · rw [hwin', hwin, hsrc, hS, hpos]
    by_cases h1 : (a - (s.ringS + BitVec.ofNat 12 1)).toNat < m'
    · obtain rfl : m = 1 := hm'.resolve_left (by omega)
      have ha : (a - s.ringS).toNat = 1 + (a - (s.ringS + BitVec.ofNat 12 1)).toNat := by bv_omega
      rw [if_pos h1, if_pos (by omega), ha, Nat.add_assoc]
    · rw [if_neg h1]
      by_cases h2 : (a - s.ringS).toNat < m
      · rw [if_pos h2, if_pos (by omega)]
      · rw [if_neg h2, if_neg]
        rcases hm' with rfl | rfl
        · omega
        · bv_omega

/-! ## One position -/

/-- At the end of the input `Advance` drains. -/
theorem State.advance_of_end {s : State} (h : s.pos = s.srcLen) (k : Nat) : State.advance k s = State.drain k s := by
  cases k with
  | zero => rfl
  | succ k =>
    unfold State.advance
    rw [show s.nextInput = none from if_pos h]

section

variable {hi cov : Nat} {T : Byte → SearchTree} {s : State}

/-- One position on while there is input: the oldest position goes, a byte is loaded, the new position is inserted. -/
theorem SearchLegal.passLoading (h : SearchLegal 0 hi cov T s) (hhi : hi ≤ 4078) (hne : s.pos ≠ s.srcLen) :
    ∃ t U, (∀ k, State.advance (k + 1) s = State.advance k t) ∧ t.lookLen = s.lookLen ∧
      (s.pos ≤ s.srcLen → Passed 1 1 s t) ∧
      SearchLegal 0 (min hi 4077 + 1) (min cov 4078 + 1) U t ∧ BestMatch (min hi 4077 + 1) (min cov 4078 + 1) t := by
  have hread : SearchLegal 0 hi cov T { s with pos := s.pos + 1 } := h.of_same rfl rfl rfl
  obtain ⟨d, hd, hfd, hdel⟩ := hread.deleteOldest hhi
  have hload := hdel.load (Nat.min_le_right _ _) (Nat.min_le_right _ _) (srcByte s s.pos.toNat)
  obtain ⟨t, ht, hft, hins, hbest⟩ :=
    (hload.slide (Nat.min_le_right _ _) (Nat.min_le_right _ _)).insertNewest
  have hkeep : d.ringS = s.ringS ∧ d.ringR = s.ringR ∧ d.pos = s.pos + 1 ∧ d.lookLen = s.lookLen := by
    rw [hfd]; exact ⟨rfl, rfl, rfl, rfl⟩
  obtain ⟨hdS, hdR, hdp, hdl⟩ := hkeep
  have hkeep' : t.ringR = d.ringR + 1 ∧ t.ringS = d.ringS + 1 ∧ t.pos = d.pos ∧ t.lookLen = d.lookLen := by
    rw [hft]; exact ⟨rfl, rfl, rfl, rfl⟩
  obtain ⟨htR, htS, htp, htl⟩ := hkeep'
  refine ⟨t, _, fun k => ?_, htl.trans hdl, fun hpos => ⟨?_, ?_, ?_, ?_, ?_, fun a => ?_⟩, hins, hbest⟩
  · dsimp only at hd
    conv_lhs => unfold State.advance
    rw [show s.nextInput = some (srcByte s s.pos.toNat, { s with pos := s.pos + 1 }) from if_neg hne]
    dsimp only
    rw [hd]
    dsimp only
    rw [ht]
  · have h0 : SearchFrame s { s with pos := s.pos + 1 } := rfl
    have h1 : SearchFrame d (d.setWin d.ringS (srcByte s s.pos.toNat)).slide := rfl
    exact (((h0.trans hfd.toMatchFrame.toSearchFrame).trans h1).trans hft.toSearchFrame).input
  · rw [htR, hdR]; rfl
  · rw [htS, hdS]; rfl
  · rw [htp, hdp]; bv_omega
  · rw [htl, hdl]
  · rw [hft.winAt]
    change (d.setWin d.ringS (srcByte s s.pos.toNat)).winAt a = _
    rw [State.winAt_setWin, hfd.winAt, hdS]
    by_cases ha : a = s.ringS
    · subst ha
      simp
    · rw [if_neg ha, if_neg (by bv_omega)]
      rfl

/-- Both rings move on and the lookahead shrinks (R182). -/
def State.shrink (s : State) : State := { s.slide with lookLen := s.lookLen - 1 }

theorem State.drain_succ (m : Nat) {s d : State} (hd : s.deleteNode s.ringS = some d) :
    State.drain (m + 1) s =
      if d.shrink.lookLen = 0 then State.drain m d.shrink
      else match d.shrink.insertNode d.shrink.ringR with
        | none => none
        | some t => State.drain m t := by
  conv_lhs => unfold State.drain
  rw [hd]
  rfl

/-- One position on at the end of the input: the oldest position goes, the lookahead shrinks, and the new position is
inserted if a byte is left of it. -/
theorem SearchLegal.passDraining (h : SearchLegal 0 hi cov T s) (hhi : hi ≤ 4078) (hend : s.pos = s.srcLen)
    (hlook : s.lookLen ≠ 0) :
    ∃ t U, (∀ k, State.advance (k + 1) s = State.advance k t) ∧ Passed 1 0 s t ∧
      SearchLegal 0 (min hi 4077 + 1) (if t.lookLen = 0 then 0 else min cov 4078 + 1) U t ∧
      (t.lookLen ≠ 0 → BestMatch (min hi 4077 + 1) (min cov 4078 + 1) t) := by
  obtain ⟨d, hd, hfd, hdel⟩ := h.deleteOldest hhi
  have hkeep : d.ringS = s.ringS ∧ d.ringR = s.ringR ∧ d.pos = s.pos ∧ d.lookLen = s.lookLen := by
    rw [hfd]; exact ⟨rfl, rfl, rfl, rfl⟩
  obtain ⟨hdS, hdR, hdp, hdl⟩ := hkeep
  have hslide : SearchLegal 1 (min hi 4077 + 1) (min cov 4078 + 1) _ d.shrink :=
    (hdel.slide (Nat.min_le_right _ _) (Nat.min_le_right _ _)).of_same rfl rfl rfl
  have hfs : SearchFrame s d.shrink := hfd.toMatchFrame.toSearchFrame.trans rfl
  have hpassed : Passed 1 0 s d.shrink := by
    refine ⟨hfs.input, ?_, ?_, ?_, ?_, fun a => ?_⟩
    · change d.ringR + 1 = _; rw [hdR]; rfl
    · change d.ringS + 1 = _; rw [hdS]; rfl
    · change d.pos.toNat = _; rw [hdp]; rfl
    · change (d.lookLen - 1).toNat + 1 = _; rw [hdl]; bv_omega
    · rw [if_neg (Nat.not_lt_zero _)]; exact congrFun hfd.winAt a
  have hdrain (k : Nat) {t : State} (ht : t.pos = t.srcLen) (hstep : State.drain (k + 1) s = State.drain k t) :
      State.advance (k + 1) s = State.advance k t := by
    rw [State.advance_of_end hend, State.advance_of_end ht, hstep]
  have hend' : d.shrink.pos = d.shrink.srcLen := by rw [hfs, State.shrink, hfd]; exact hend
  by_cases h0 : d.shrink.lookLen = 0
  · refine ⟨d.shrink, fun c => (T c).delete s.ringS, fun k => hdrain k hend' ?_, hpassed, ?_, fun hne => absurd h0 hne⟩
    · rw [State.drain_succ k hd, if_pos h0]
    · rw [if_pos h0]
      exact hslide.mono (Nat.zero_le 1) le_rfl (Nat.zero_le _) (.inr rfl)
  · obtain ⟨t, ht, hft, hins, hbest⟩ := hslide.insertNewest
    have htl : t.lookLen = d.shrink.lookLen := by rw [hft]
    refine ⟨t, insertedForest d.shrink (fun c => (T c).delete s.ringS) d.shrink.ringR,
      fun k => hdrain k (by rw [hft]; exact hend') ?_, ⟨(hfs.trans hft.toSearchFrame).input, ?_, ?_, ?_, ?_, ?_⟩, ?_,
      fun _ => hbest⟩
    · rw [State.drain_succ k hd, if_neg h0, ht]
    · rw [← hpassed.ringR, hft]
    · rw [← hpassed.ringS, hft]
    · rw [← hpassed.pos, hft]
    · rw [← hpassed.look, hft]
    · rw [hft.winAt]; exact hpassed.win
    · rw [htl, if_neg h0]
      exact hins

/-- One position on. -/
theorem SearchLegal.pass (h : SearchLegal 0 hi cov T s) (hhi : hi ≤ 4078) (hlook : s.lookLen ≠ 0) :
    ∃ t U, (∀ k, State.advance (k + 1) s = State.advance k t) ∧ s.lookLen.toNat ≤ t.lookLen.toNat + 1 ∧
      (s.pos ≤ s.srcLen → Passed 1 (min 1 (s.srcLen.toNat - s.pos.toNat)) s t) ∧
      SearchLegal 0 (min hi 4077 + 1) (if t.lookLen = 0 then 0 else min cov 4078 + 1) U t ∧
      (t.lookLen ≠ 0 → BestMatch (min hi 4077 + 1) (min cov 4078 + 1) t) := by
  by_cases hend : s.pos = s.srcLen
  · obtain ⟨t, U, hadv, hp, hlegal, hbest⟩ := h.passDraining hhi hend hlook
    rw [hend, Nat.sub_self, Nat.min_zero]
    exact ⟨t, U, hadv, hp.look.ge, fun _ => hp, hlegal, hbest⟩
  · obtain ⟨t, U, hadv, hl, hp, hlegal, hbest⟩ := h.passLoading hhi hend
    refine ⟨t, U, hadv, by rw [hl]; exact Nat.le_succ _, fun hpos => ?_, ?_, fun _ => hbest⟩
    · rw [show min 1 (s.srcLen.toNat - s.pos.toNat) = 1 by bv_omega]
      exact hp hpos
    · split
      · exact hlegal.mono le_rfl le_rfl (Nat.zero_le _) (.inl rfl)
      · exact hlegal

/-! ## All positions of a token -/

/-- Positions passed, the first of them apart. -/
theorem Passed.succ {k : Nat} {t u : State} (h : Passed 1 (min 1 (s.srcLen.toNat - s.pos.toNat)) s t)
    (h' : Passed k (min k (t.srcLen.toNat - t.pos.toNat)) t u) (hk : k < 4096) :
    Passed (k + 1) (min (k + 1) (s.srcLen.toNat - s.pos.toNat)) s u := by
  rw [h.input.1, h.pos, ← Nat.sub_sub] at h'
  generalize s.srcLen.toNat - s.pos.toNat = a at *
  have hsum : min 1 a + min k (a - min 1 a) = min (k + 1) a := by clear * -; omega
  rw [← hsum]
  exact h.trans h' (Nat.min_le_left _ _) (by clear * -; omega) (by clear * - hk; omega)

theorem Passed.pos_le {t : State} (h : Passed 1 (min 1 (s.srcLen.toNat - s.pos.toNat)) s t) (hpos : s.pos ≤ s.srcLen) :
    t.pos ≤ t.srcLen := by
  have hle : s.pos.toNat ≤ s.srcLen.toNat := hpos
  rw [BitVec.le_def, h.input.1, h.pos]
  clear * - hle
  omega

/-- `Advance` by no more positions than the lookahead has. -/
theorem SearchLegal.advance {k : Nat} (h : SearchLegal 0 hi cov T s) (hhi : hi ≤ 4078) (hcov : cov ≤ 4079)
    (hk : k ≤ s.lookLen.toNat) :
    ∃ t U, State.advance k s = some t ∧
      (s.pos ≤ s.srcLen → Passed k (min k (s.srcLen.toNat - s.pos.toNat)) s t) ∧
      SearchLegal 0 (min (hi + k) 4078) (if t.lookLen = 0 then 0 else min (cov + k) 4079) U t ∧
      (1 ≤ k → t.lookLen ≠ 0 → BestMatch (min (hi + k) 4078) (min (cov + k) 4079) t) := by
  induction k generalizing s hi cov T with
  | zero =>
    rw [Nat.zero_min, Nat.add_zero, Nat.add_zero, Nat.min_eq_left hhi, Nat.min_eq_left hcov]
    refine ⟨s, T, rfl, fun _ => .zero s, ?_, fun h0 => absurd h0 (by omega)⟩
    split
    · exact h.mono le_rfl le_rfl (Nat.zero_le _) (.inl rfl)
    · exact h
  | succ k ih =>
    have hlook : s.lookLen ≠ 0 := by bv_omega
    have hk18 : k < 4096 := by bv_omega
    obtain ⟨t, U, hadv, hl, hp, hlegal, hbest⟩ := h.pass hhi hlook
    have hhi' : min (min hi 4077 + 1 + k) 4078 = min (hi + (k + 1)) 4078 := by clear * -; omega
    have hcov' : min (min cov 4078 + 1 + k) 4079 = min (cov + (k + 1)) 4079 := by clear * -; omega
    have hhi1 : min hi 4077 + 1 ≤ 4078 := by clear * -; omega
    have hcov1 : min cov 4078 + 1 ≤ 4079 := by clear * -; omega
    rw [← hhi', ← hcov']
    by_cases h0 : t.lookLen = 0
    · obtain rfl : k = 0 := by
        have h00 : t.lookLen.toNat = 0 := by rw [h0]; rfl
        clear * - hl hk h00; omega
      rw [if_pos h0] at hlegal
      refine ⟨t, U, hadv 0, fun hpos => hp hpos, ?_, fun _ hne => absurd h0 hne⟩
      rw [if_pos h0]
      exact hlegal.mono le_rfl (Nat.le_min.mpr ⟨le_rfl, hhi1⟩) le_rfl (.inl rfl)
    · rw [if_neg h0] at hlegal
      obtain ⟨u, V, hu, hpu, hlu, hbu⟩ := ih hlegal hhi1 hcov1 (by clear * - hl hk; omega)
      refine ⟨u, V, (hadv k).trans hu, fun hpos => (hp hpos).succ (hpu ((hp hpos).pos_le hpos)) hk18, hlu,
        fun _ hne => ?_⟩
      rcases Nat.eq_zero_or_pos k with rfl | hk1
      · cases hu
        rw [Nat.add_zero, Nat.add_zero, Nat.min_eq_left hhi1, Nat.min_eq_left hcov1]
        exact hbest hne
      · exact hbu hk1 hne

end

end Sys2Proof.Machine
end


section
/-! # `Prime` (R176) -/

namespace Sys2Proof.Machine

/-! ## The lookahead -/

/-- `m` bytes have been loaded behind the lookahead. -/
structure Loaded (m : Nat) (s t : State) : Prop where
  pos : t.pos.toNat = s.pos.toNat + m
  look : t.lookLen.toNat = s.lookLen.toNat + m
  win : ∀ a, t.winAt a =
    if (a - (s.ringR + s.lookLen.setWidth 12)).toNat < m
    then srcByte s (s.pos.toNat + (a - (s.ringR + s.lookLen.setWidth 12)).toNat) else s.winAt a

theorem Loaded.zero (s : State) : Loaded 0 s s := ⟨rfl, rfl, fun a => by rw [if_neg (Nat.not_lt_zero _)]⟩

/-- A byte of the input, loaded. -/
def State.loadByte (s : State) : State :=
  { ({ s with pos := s.pos + 1 } : State).setWin (s.ringR + s.lookLen.setWidth 12) (srcByte s s.pos.toNat) with
    lookLen := s.lookLen + 1 }

theorem State.winAt_loadByte (s : State) (a : Ring) : s.loadByte.winAt a =
    if a = s.ringR + s.lookLen.setWidth 12 then srcByte s s.pos.toNat else s.winAt a := by
  change (({ s with pos := s.pos + 1 } : State).setWin (s.ringR + s.lookLen.setWidth 12)
    (srcByte s s.pos.toNat)).winAt a = _
  rw [State.winAt_setWin]
  rfl

theorem State.loadLookahead_succ (k : Nat) (s : State) : State.loadLookahead (k + 1) s =
    if s.pos = s.srcLen then s else State.loadLookahead k s.loadByte := by
  conv_lhs => unfold State.loadLookahead
  rcases s.nextInput_cases with ⟨he, h⟩ | ⟨hne, h⟩ <;> rw [h]
  · rw [if_pos he]
  · rw [if_neg hne]
    rfl

/-- Loading writes the position, the window and the length of the lookahead. -/
theorem State.loadLookahead_keeps (k : Nat) (s : State) : State.loadLookahead k s = { s with
    pos := (State.loadLookahead k s).pos, win := (State.loadLookahead k s).win
    lookLen := (State.loadLookahead k s).lookLen } := by
  induction k generalizing s with
  | zero => rfl
  | succ k ih =>
    rw [State.loadLookahead_succ]
    split
    · rfl
    · exact ih s.loadByte

/-- While there is input each turn of the loop loads a byte. -/
theorem State.loadLookahead_loads {k : Nat} {s : State} (hpos : s.pos ≤ s.srcLen) (hk : s.lookLen.toNat + k ≤ 18) :
    Loaded (min k (s.srcLen.toNat - s.pos.toNat)) s (State.loadLookahead k s) := by
  induction k generalizing s with
  | zero =>
    rw [Nat.zero_min]
    exact .zero s
  | succ k ih =>
    rw [State.loadLookahead_succ]
    split
    · next he =>
      rw [he, Nat.sub_self, Nat.min_zero]
      exact .zero s
    · next hne =>
      have hlook : s.loadByte.lookLen.toNat = s.lookLen.toNat + 1 := by
        change (s.lookLen + 1).toNat = _; bv_omega
      have hpos1 : s.loadByte.pos.toNat = s.pos.toNat + 1 := by
        change (s.pos + 1).toNat = _; bv_omega
      obtain ⟨hp, hl, hw⟩ := ih (s := s.loadByte) (Count.succ_le_of_ne hne hpos) (by omega)
      rw [show s.loadByte.srcLen = s.srcLen from rfl, hpos1] at hp hl hw
      have hm : min (k + 1) (s.srcLen.toNat - s.pos.toNat) = min k (s.srcLen.toNat - (s.pos.toNat + 1)) + 1 := by
        bv_omega
      have hle : min k (s.srcLen.toNat - (s.pos.toNat + 1)) ≤ 18 := by omega
      rw [hm]
      generalize min k (s.srcLen.toNat - (s.pos.toNat + 1)) = m at *
      refine ⟨by omega, by omega, fun a => ?_⟩
      have hnext : s.loadByte.ringR + s.loadByte.lookLen.setWidth 12 = s.ringR + s.lookLen.setWidth 12 + 1 := by
        change s.ringR + (s.lookLen + 1).setWidth 12 = _
        bv_omega
      rw [hw, hnext, State.winAt_loadByte, show srcByte s.loadByte = srcByte s from rfl]
      generalize s.ringR + s.lookLen.setWidth 12 = b
      by_cases hb : a = b
      · subst hb
        rw [if_pos rfl, if_neg (by bv_omega), if_pos (by bv_omega)]
        simp
      · have hsub : (a - b).toNat = (a - (b + 1)).toNat + 1 := by bv_omega
        simp only [hb, if_false, hsub, Nat.add_lt_add_iff_right, Nat.add_assoc, Nat.add_comm 1]

/-! ## The first position -/

theorem SearchLegal.of_empty {s : State} (h : Forest s emptyForest) (hr : s.ringS = s.ringR + 18) (lo hi : Nat) :
    SearchLegal lo hi 0 emptyForest s :=
  ⟨h, fun _ => SearchTree.sorted_nil, hr, behind_emptyForest _ _ _, fun _ _ hd => absurd hd (Nat.not_lt_zero _)⟩

/-- With no position before `r` no match is the longest there is. -/
theorem BestMatch.of_none {s : State} (h : s.matchLen = 0) : BestMatch 0 1 s :=
  ⟨fun _ h1 h0 => absurd h1 (Nat.not_le.mpr h0), fun hne => absurd h hne⟩

/-- The trees after `Prime`: `r` alone, if there is a byte at `r`. -/
def primedForest (l : State) : Byte → SearchTree :=
  if l.lookLen = 0 then emptyForest else insertedForest l emptyForest l.ringR

/-- `t` is the state after `Prime`, `l` the state after its loading. -/
structure Primed (l t : State) : Prop where
  frame : t = { l with
    matchLen := t.matchLen, lson := t.lson, rson := t.rson, dad := t.dad
    ustate := if l.lookLen = 0 then UState.flush else UState.encode }
  legal : SearchLegal 0 0 (if l.lookLen = 0 then 0 else 1) (primedForest l) t
  noMatch : l.lookLen ≠ 0 → t.matchLen = 0

theorem State.stepPrime_primes {s : State} (h : Forest s emptyForest) (hr : s.ringS = s.ringR + 18) :
    ∃ t, s.stepPrime = some t ∧ Primed (State.loadLookahead (18 - s.lookLen.toNat) s) t := by
  have hl : SearchLegal 1 0 0 emptyForest (State.loadLookahead (18 - s.lookLen.toNat) s) := by
    rw [State.loadLookahead_keeps]
    exact .of_empty (by exact h.of_same rfl nofun) (by exact hr) 1 0
  unfold State.stepPrime
  dsimp only [Config.F]
  generalize State.loadLookahead (18 - s.lookLen.toNat) s = l at *
  have hcov : SearchLegal 1 0 1 emptyForest l :=
    ⟨hl.forest, hl.sorted, hl.ring, hl.behind, fun d h1 h0 => absurd h1 (Nat.not_le.mpr h0)⟩
  by_cases h0 : l.lookLen = 0
  · rw [if_pos h0]
    refine ⟨_, rfl, by rw [if_pos h0], ?_, fun hne => absurd h0 hne⟩
    rw [if_pos h0, primedForest, if_pos h0]
    exact (hl.mono (Nat.zero_le 1) le_rfl le_rfl (.inr rfl)).of_same rfl rfl rfl
  · rw [if_neg h0]
    obtain ⟨i, hi, -, hlegal, -⟩ := hcov.insertNewest
    obtain ⟨t, ht, -, hbest, -⟩ := State.insertNode_empty (hl.forest.holds (l.winAt l.ringR))
    cases hi.symm.trans ht
    obtain ⟨hlen, hpos⟩ := Prod.mk.inj hbest
    have hf := l.insertNode_frame l.ringR hi
    rw [MatchFrame, hpos] at hf
    rw [hi]
    refine ⟨_, rfl, ?_, ?_, fun _ => BitVec.eq_of_toNat_eq hlen⟩
    · rw [if_neg h0]
      conv_lhs => rw [hf]
    · rw [if_neg h0, primedForest, if_neg h0]
      exact hlegal.of_same rfl rfl rfl

/-! ## The start of a compression -/

/-- The encoder as a compression of the input of `s` begins (R172, R173, R269). -/
structure CompressStarted (s u : State) : Prop where
  phase : u.phase = .busy
  unit : u.unit = .lze
  ustate : u.ustate = UState.prime
  err : u.err = .none
  input : u.srcLen = s.srcLen ∧ srcByte u = srcByte s
  pos : u.pos = 0
  lookLen : u.lookLen = 0
  ringR : u.ringR = 4078
  ringS : u.ringS = 0
  win : ∀ a, u.winAt a = s.fill
  forest : Forest u emptyForest
  group : u.codePtr = 1 ∧ u.mask = 1 ∧ u.codeAt 0 = 0
  out : u.dst = [] ∧ u.outCount = 0

theorem State.start_compress (s : State) : CompressStarted s (s.start compressSpec) := by
  obtain ⟨herr, hdst, hpos, hout, -, -, -, -, hunit, hus, hphase⟩ := s.start_shell (p := compressSpec) nofun
  obtain ⟨hwin, -⟩ := s.start_windowFilled (p := compressSpec) (.inr (.inr rfl))
  rcases s.start_encoder compressSpec with ⟨-, hc, -, -, hR, hS, hl, -, -, -, hcp, hm⟩ | ⟨hne, -⟩
  · refine ⟨hphase, hunit, hus, herr, ?_, hpos, hl, hR, hS, hwin, s.start_forest rfl, ⟨hcp, hm, ?_⟩, hdst, hout⟩
    · rw [s.start_frame compressSpec]
      exact ⟨rfl, rfl⟩
    · rw [State.codeAt, hc, Memory.read_write]
      rfl
  · exact absurd rfl hne

theorem EngineAlone.start {s : State} (h : EngineAlone s) (p : StartSpec) : EngineAlone (s.start p) := by
  rw [s.start_frame p]
  exact h

theorem stepUnit_prime {s : State} (hu : s.unit = .lze) (hus : s.ustate = UState.prime) :
    stepUnit s = treeStep s.stepPrime := by
  rw [stepUnit_of_plain (.inl hu), stepPlainUnit, hu, hus]
  rfl

theorem stepUnit_encode {s : State} (hu : s.unit = .lze) (hus : s.ustate = UState.encode) :
    stepUnit s = treeStep s.stepEncode := by
  rw [stepUnit_of_plain (.inl hu), stepPlainUnit, hu, hus]
  rfl

/-- A Busy engine, left alone, takes a step of its unit. -/
theorem step_alone_busy {s : State} (h : EngineAlone s) (hb : s.phase = .busy) : step s = stepUnit s :=
  (step_alone h).trans (engineTurn_busy hb h.2)

/-- The first step of a compression; `l` is the state after the loading. -/
structure CompressPrimed (s u l t : State) : Prop where
  step : stepUnit u = .next t
  primed : Primed l t
  frame : l = { u with pos := l.pos, win := l.win, lookLen := l.lookLen }
  pos : l.pos.toNat = min 18 s.srcLen.toNat
  look : l.lookLen.toNat = min 18 s.srcLen.toNat
  win : ∀ a, l.winAt a = if (a - 4078).toNat < min 18 s.srcLen.toNat then srcByte s (a - 4078).toNat else s.fill

theorem CompressStarted.prime {s u : State} (h : CompressStarted s u) : ∃ l t, CompressPrimed s u l t := by
  have hr : u.ringS = u.ringR + 18 := by rw [h.ringS, h.ringR]; rfl
  have hpos0 : u.pos.toNat = 0 := congrArg BitVec.toNat h.pos
  have hlook0 : u.lookLen.toNat = 0 := congrArg BitVec.toNat h.lookLen
  obtain ⟨t, ht, hp⟩ := State.stepPrime_primes h.forest hr
  obtain ⟨hpos, hlook, hwin⟩ := State.loadLookahead_loads (k := 18 - u.lookLen.toNat) (s := u)
    (by rw [h.pos]; exact Nat.zero_le _) (by rw [hlook0])
  have hm : min (18 - u.lookLen.toNat) (u.srcLen.toNat - u.pos.toNat) = min 18 s.srcLen.toNat := by
    rw [hlook0, hpos0, h.input.1]
    rfl
  refine ⟨_, t, ?_, hp, u.loadLookahead_keeps _, hpos.trans ?_, hlook.trans ?_, fun a => ?_⟩
  · rw [stepUnit_prime h.unit h.ustate, ht]
    rfl
  · rw [hm, hpos0, Nat.zero_add]
  · rw [hm, hlook0, Nat.zero_add]
  · rw [hwin, hm, h.win, h.ringR, h.lookLen, hpos0, h.input.2]
    simp

/-- Settles O37: the loop loads the lookahead, and the insertion into empty trees finds nothing. -/
theorem primeLoadsTheLookahead : Obligations.PrimeLoadsTheLookahead := by
  intro lk ce s hb ha
  have hs := s.start_compress
  obtain ⟨l, t, ht, ⟨hf, hlegal, hnone⟩, hl, hpos, hlook, hwin⟩ := hs.prime
  have hstep := (step_alone_busy (ha.start compressSpec) hs.phase).trans ht
  have hzero : l.lookLen = 0 ↔ s.srcLen = 0 := by
    bv_omega
  have hkeep : t.pos = l.pos ∧ t.lookLen = l.lookLen ∧ t.winAt = l.winAt ∧ l.ringR = 4078 ∧ t.phase = .busy := by
    rw [hf, hl]
    exact ⟨rfl, rfl, rfl, hs.ringR, hs.phase⟩
  obtain ⟨htp, htl, htw, hlR, hphase⟩ := hkeep
  refine ⟨_, t, exec_start_next rfl hb, hstep, hphase, htl ▸ hlook, htp ▸ hpos, fun a => htw ▸ hwin a, ?_, fun c => ?_,
    fun hne => hnone (mt hzero.mp hne), ?_⟩
  · rw [hf]
    simp only [hzero]
  · have hhold := hlegal.forest.holds c
    rw [primedForest] at hhold
    by_cases h0 : s.srcLen = 0
    · rw [if_pos (hzero.mpr h0)] at hhold
      rw [if_neg fun e => e.1 h0]
      exact hhold
    · have hfirst : l.winAt l.ringR = srcByte s 0 := by
        rw [hlR, hwin, BitVec.sub_self, if_pos (by bv_omega)]
        rfl
      rw [if_neg (mt hzero.mp h0), insertedForest, hfirst, hlR, Function.update_apply] at hhold
      simp only [h0, not_false_eq_true, true_and, ne_eq]
      split at hhold
      · next hc => rw [if_pos hc]; exact hhold
      · next hc => rw [if_neg hc]; exact hhold
  · rw [hf, hl]

/-- Settles O41: `Prime` finds no byte, and `Flush` finds no token. -/
theorem emptyInputCompressesToNothing : Obligations.EmptyInputCompressesToNothing := by
  intro lk ce s hb ha h0
  have hs := s.start_compress
  obtain ⟨l, t, ht, ⟨hf, -⟩, hl, -, hlook, -⟩ := hs.prime
  have hu := ha.start compressSpec
  have hstep := (step_alone_busy hu hs.phase).trans ht
  have hl0 : l.lookLen = 0 := by
    rw [h0] at hlook
    exact BitVec.eq_of_toNat_eq hlook
  rw [if_pos hl0, hl] at hf
  have hkeep : t.unit = .lze ∧ t.ustate = UState.flush ∧ t.phase = .busy ∧ t.codePtr = 1 ∧
      t.err = .none ∧ t.dst = [] := by
    rw [hf]
    exact ⟨hs.unit, rfl, hs.phase, hs.group.1, hs.err, hs.out.1⟩
  obtain ⟨htu, hts, htb, htc, hte, htd⟩ := hkeep
  have hlast := (step_alone_busy (hu.stepUnit ht) htb).trans (stepUnit_flush htu hts)
  refine ⟨_, t.stepFlush, exec_start_next rfl hb, (run_succ 1 hstep).trans (run_succ 0 hlast), ?_⟩
  rw [State.stepFlush_eq, htc]
  exact ⟨rfl, hte, htd⟩

end Sys2Proof.Machine
end


section
/-! # `Encode` (R177 to R182) -/

namespace Sys2Proof.Machine

/-! ## The token -/

theorem State.endToken_matchLen (s : State) : s.endToken.matchLen = s.matchLen := by
  unfold State.endToken
  split
  · rw [State.flushGroup_eq]
  · rfl

theorem State.clampMatch_matchLen (s : State) : s.clampMatch.matchLen.toNat = clampedLength s := by
  rw [State.clampMatch_eq, clampedLength]
  dsimp only
  split <;> bv_omega

/-- The token is a literal if 2 or fewer bytes are left of the match. -/
theorem State.clampMatch_emitToken (s : State) : s.clampMatch.emitToken =
    if clampedLength s ≤ 2 then s.clampMatch.emitLiteral else s.clampMatch.emitMatch := by
  rw [State.emitToken, State.clampMatch_matchLen, Config.threshold]

theorem State.codeToken_codes (s : State) : s.clampMatch.emitToken.endToken.matchLen.toNat = codedLength s := by
  rw [State.endToken_matchLen, State.clampMatch_emitToken, codedLength]
  split
  · rw [State.emitLiteral_eq]
    rfl
  · rw [State.emitMatch_eq, ← State.clampMatch_matchLen]

theorem one_le_codedLength (s : State) : 1 ≤ codedLength s := by
  unfold codedLength
  split <;> omega

/-- A token codes no more bytes than the lookahead has. -/
theorem codedLength_le {s : State} (h0 : s.lookLen ≠ 0) : codedLength s ≤ s.lookLen.toNat := by
  unfold codedLength
  split
  · bv_omega
  · exact Nat.min_le_right _ _

/-! ## The group -/

/-- The first `n` cells, of which only the first differs, and more cells after them. -/
theorem map_range_add {α : Type} {f g : Nat → α} {n : Nat} (hn : 1 ≤ n) (h : ∀ j, 1 ≤ j → j < n → f j = g j) (m : Nat) :
    (List.range (n + m)).map f = f 0 :: (((List.range n).drop 1).map g ++ (List.range m).map fun i => f (n + i)) := by
  obtain ⟨k, rfl⟩ := Nat.exists_eq_add_of_le' hn
  rw [List.range_add, List.map_append, List.map_map, List.range_succ_eq_map, List.drop_one, List.tail_cons,
    List.map_cons, List.cons_append]
  congr 2
  refine List.map_congr_left fun j hj => ?_
  obtain ⟨i, hi, rfl⟩ := List.mem_map.mp hj
  exact h _ (Nat.succ_pos i) (Nat.succ_lt_succ (List.mem_range.mp hi))

theorem length_tokenBytes (s : State) : (tokenBytes s).length = if clampedLength s ≤ 2 then 1 else 2 := by
  unfold tokenBytes
  split <;> rfl

theorem length_groupWithToken {s : State} (h1 : 1 ≤ s.codePtr.toNat) :
    (groupWithToken s).length = s.codePtr.toNat + (tokenBytes s).length := by
  simp only [groupWithToken, List.length_cons, List.length_append, List.length_map, List.length_drop, List.length_range]
  omega

/-- The group before its end is looked at: the flag and the bytes of the token have joined it. -/
theorem State.emitToken_bytes {s : State} (h1 : 1 ≤ s.codePtr.toNat) (h15 : s.codePtr.toNat ≤ 15) :
    s.clampMatch.emitToken.codePtr.toNat = (groupWithToken s).length ∧
    (List.range s.clampMatch.emitToken.codePtr.toNat).map s.clampMatch.emitToken.codeAt = groupWithToken s := by
  have hkeep : s.clampMatch.codePtr = s.codePtr ∧ s.clampMatch.mask = s.mask ∧ s.clampMatch.ringR = s.ringR ∧
      s.clampMatch.matchPos = s.matchPos ∧ s.clampMatch.codeAt = s.codeAt ∧ s.clampMatch.winAt = s.winAt := by
    rw [State.clampMatch_eq]
    exact ⟨rfl, rfl, rfl, rfl, rfl, rfl⟩
  obtain ⟨hcp, hm, hR, hmp, hca, hwa⟩ := hkeep
  have hptr : s.clampMatch.emitToken.codePtr.toNat = s.codePtr.toNat + (tokenBytes s).length := by
    rw [State.clampMatch_emitToken, length_tokenBytes]
    split
    · rw [State.emitLiteral_eq]
      change (s.clampMatch.codePtr + 1).toNat = _
      rw [hcp]
      bv_omega
    · rw [State.emitMatch_eq]
      change (s.clampMatch.codePtr + 2).toNat = _
      rw [hcp]
      bv_omega
  refine ⟨hptr.trans (length_groupWithToken h1).symm, ?_⟩
  have hcell (j : Nat) : s.clampMatch.emitToken.codeAt j =
      if clampedLength s ≤ 2 then
        if j = s.codePtr.toNat then s.winAt s.ringR else if j = 0 then s.codeAt 0 ||| s.mask else s.codeAt j
      else if j = s.codePtr.toNat + 1 then
        (s.ringR - s.matchPos).extractLsb' 8 4 ++ BitVec.ofNat 4 (clampedLength s - 3)
      else if j = s.codePtr.toNat then (s.ringR - s.matchPos).extractLsb' 0 8 else s.codeAt j := by
    rw [State.clampMatch_emitToken]
    split
    · rw [State.codeAt_emitLiteral, hcp, hm, hR, hca, hwa]
    · rw [State.codeAt_emitMatch, State.clampMatch_matchLen, hcp, hR, hmp, hca]
  rw [hptr, map_range_add h1 (g := s.codeAt) fun j hj hj' => ?_, groupWithToken]
  · congr 2
    · rw [hcell]
      split
      · rw [if_neg (by omega), if_pos rfl]
      · rw [if_neg (by omega), if_neg (by omega)]
    · rw [tokenBytes]
      split
      · next hlit => simp [hcell, hlit]
      · next hmatch => simp [hcell, hmatch, List.range_succ]
  · rw [hcell]
    split
    · rw [if_neg (by omega), if_neg (by omega)]
    · rw [if_neg (by omega), if_neg (by omega)]

/-- The token has joined its group; a full group has been emitted and a new one begun (R177 to R180). -/
structure TokenCoded (s t : State) : Prop where
  full : s.mask = 0x80 → t.dst = s.dst ++ groupWithToken s ∧
    t.outCount = s.outCount + BitVec.ofNat 64 (groupWithToken s).length ∧ t.codePtr = 1 ∧ t.mask = 0x01 ∧ t.codeAt 0 = 0
  more : s.mask ≠ 0x80 → t.dst = s.dst ∧ t.outCount = s.outCount ∧ t.codePtr.toNat = (groupWithToken s).length ∧
    t.mask.toNat = 2 * s.mask.toNat ∧ (List.range t.codePtr.toNat).map t.codeAt = groupWithToken s

/-- The mask after a token (R177). -/
theorem mask_next {m : Byte} {k : Fin 8} (hm : m = 1 <<< k.val) :
    (m <<< 1 = 0 ↔ m = 0x80) ∧ (m ≠ 0x80 → (m <<< 1).toNat = 2 * m.toNat) := by
  subst hm
  revert k
  decide

theorem State.codeToken_group_coded {s : State} (h : GroupLegal s) : TokenCoded s s.clampMatch.emitToken.endToken := by
  obtain ⟨k, hm, hlo, hhi⟩ := h
  have hk := k.isLt
  obtain ⟨hptr, hbytes⟩ := State.emitToken_bytes (s := s) (by omega) (by omega)
  have hkeep : s.clampMatch.emitToken.mask = s.mask ∧ s.clampMatch.emitToken.dst = s.dst ∧
      s.clampMatch.emitToken.outCount = s.outCount := by
    rw [State.clampMatch_emitToken, State.emitLiteral_eq, State.emitMatch_eq, State.clampMatch_eq]
    split <;> exact ⟨rfl, rfl, rfl⟩
  obtain ⟨hum, hud, huo⟩ := hkeep
  obtain ⟨hzero, hdouble⟩ := mask_next hm
  generalize s.clampMatch.emitToken = u at *
  rw [State.endToken, hum]
  constructor
  · intro h80
    rw [if_pos (hzero.mpr h80), State.flushGroup_eq]
    refine ⟨?_, ?_, rfl, rfl, ?_⟩
    · change u.dst ++ (List.range u.codePtr.toNat).map u.codeAt = _
      rw [hud, hbytes]
    · change u.outCount + BitVec.ofNat 64 u.codePtr.toNat = _
      rw [huo, hptr]
    · rw [State.codeAt, Memory.read_write]
      rfl
  · intro h80
    rw [if_neg (mt hzero.mp h80)]
    exact ⟨hud, huo, hptr, hdouble h80, hbytes⟩

/-! ## The whole step -/

/-- The token coded and its length noted (R177). -/
def State.withToken (s : State) : State :=
  { s.clampMatch.emitToken.endToken with lastLen := s.clampMatch.emitToken.endToken.matchLen }

theorem State.withToken_lastLen (s : State) : s.withToken.lastLen.toNat = codedLength s := s.codeToken_codes

theorem State.withToken_coded {s : State} (h : GroupLegal s) : TokenCoded s s.withToken := by
  obtain ⟨hfull, hmore⟩ := State.codeToken_group_coded h
  exact ⟨hfull, hmore⟩

/-- Coding the token keeps what the search works on. -/
structure SameRing (s t : State) : Prop where
  input : t.srcLen = s.srcLen ∧ srcByte t = srcByte s
  pos : t.pos = s.pos
  look : t.lookLen = s.lookLen
  rings : (t.ringR, t.ringS) = (s.ringR, s.ringS)
  win : t.winAt = s.winAt
  tree : (t.lson, t.rson, t.dad) = (s.lson, s.rson, s.dad)
  control : t.ustate = s.ustate ∧ t.phase = s.phase

theorem State.withToken_same (s : State) : SameRing s s.withToken := by
  rw [State.withToken, s.codeToken_frame]
  exact ⟨⟨rfl, rfl⟩, rfl, rfl, rfl, rfl, rfl, rfl, rfl⟩

theorem State.stepEncode_eq (s : State) : s.stepEncode =
    match State.advance (codedLength s) s.withToken with
    | none => none
    | some t => some { t with ustate := if t.lookLen = 0 then UState.flush else t.ustate } := by
  rw [State.stepEncode, ← State.codeToken_codes]
  rw [← State.withToken]
  cases State.advance s.clampMatch.emitToken.endToken.matchLen.toNat s.withToken with
  | none => rfl
  | some t =>
    dsimp only
    split <;> rfl

/-- What an `Encode` step does but for the trees. -/
structure Encoded (s t : State) : Prop where
  phase : t.phase = s.phase
  ustate : t.ustate = if t.lookLen = 0 then UState.flush else s.ustate
  lastLen : t.lastLen.toNat = codedLength s
  passed : s.pos ≤ s.srcLen → Passed (codedLength s) (loadedLength s) s t
  coded : GroupLegal s → TokenCoded s t

/-- Positions passed from a state with the same rings, window and input. -/
theorem Passed.of_same {k m : Nat} {s c t : State} (h : Passed k m c t) (hc : SameRing s c) : Passed k m s t := by
  obtain ⟨⟨hl, hb⟩, hp, hlk, hr, hw, -⟩ := hc
  obtain ⟨hR, hS⟩ := Prod.mk.inj hr
  obtain ⟨⟨h1, h2⟩, h3, h4, h5, h6, h7⟩ := h
  rw [hl] at h1
  rw [hb] at h2
  rw [hR] at h3
  rw [hS] at h4
  rw [hp] at h5
  rw [hlk] at h6
  rw [hS, hb, hp, hw] at h7
  exact ⟨⟨h1, h2⟩, h3, h4, h5, h6, h7⟩

theorem SearchLegal.stepEncode {hi cov : Nat} {T : Byte → SearchTree} {s : State} (h : SearchLegal 0 hi cov T s)
    (hhi : hi ≤ 4078) (hcov : cov ≤ 4079) (h0 : s.lookLen ≠ 0) :
    ∃ t U, s.stepEncode = some t ∧ Encoded s t ∧
      SearchLegal 0 (min (hi + codedLength s) 4078) (if t.lookLen = 0 then 0 else min (cov + codedLength s) 4079) U t ∧
      (t.lookLen ≠ 0 → BestMatch (min (hi + codedLength s) 4078) (min (cov + codedLength s) 4079) t) := by
  have hsame := s.withToken_same
  have hlen := s.withToken_lastLen
  have hcoded := State.withToken_coded (s := s)
  rw [State.stepEncode_eq]
  generalize s.withToken = c at *
  obtain ⟨a, U, ha, hpass, hlegal, hbest⟩ := (h.of_same hsame.tree hsame.win hsame.rings).advance (k := codedLength s)
    hhi hcov (by rw [hsame.look]; exact codedLength_le h0)
  have hkeep : a.ustate = c.ustate ∧ a.phase = c.phase ∧ a.lastLen = c.lastLen ∧ a.dst = c.dst ∧
      a.outCount = c.outCount ∧ a.codePtr = c.codePtr ∧ a.mask = c.mask ∧ a.codeAt = c.codeAt := by
    rw [State.advance_frame _ _ ha]
    exact ⟨rfl, rfl, rfl, rfl, rfl, rfl, rfl, rfl⟩
  obtain ⟨hus, hph, hll, hd, ho, hcp, hm, hca⟩ := hkeep
  rw [ha]
  refine ⟨_, U, rfl, ⟨hph.trans hsame.control.2, ?_, ?_, fun hpos => ?_, fun hg => ?_⟩, hlegal.of_same rfl rfl rfl,
    fun hne => ?_⟩
  · rw [← hsame.control.1, ← hus]
  · rw [← hlen, ← hll]
  · have hp := hpass (by rw [hsame.input.1, hsame.pos]; exact hpos)
    rw [hsame.input.1, hsame.pos] at hp
    obtain ⟨h1, h2, h3, h4, h5, h6⟩ := hp.of_same hsame
    exact ⟨h1, h2, h3, h4, h5, h6⟩
  · obtain ⟨hfull, hmore⟩ := hcoded hg
    rw [← hd, ← ho, ← hcp, ← hm, ← hca] at hfull hmore
    exact ⟨hfull, hmore⟩
  · have hb := hbest (one_le_codedLength s) hne
    exact ⟨hb.longest, hb.found⟩

end Sys2Proof.Machine
end


section
/-! # The match tree is a search tree (R171, R186), and legal states do not stop (R274, R296) -/

namespace Sys2Proof.Machine

/-! ## The two forms of the invariant -/

theorem MatchTreeLegal.trees {s : State} (h : MatchTreeLegal s) (hb : s.phase = .busy) (hu : s.unit = .lze) :
    ∃ T, Forest s T ∧ (∀ c, (T c).Sorted (keyAt s)) ∧ Behind T s.ringR 0 4078 ∧
      (s.ustate = UState.prime → T = emptyForest) := by
  obtain ⟨T, hT, hlinked, hprime⟩ := h hb hu
  choose hholds hsorted hplace using hT
  have hsorted' (c : Byte) : (T c).Sorted (keyAt s) := hsorted c
  refine ⟨T, ⟨hholds, fun c => (hsorted' c).nodup, fun c p hp => ?_, hlinked⟩, hsorted', fun c p hp => ⟨Nat.zero_le _, ?_⟩,
    fun hus => funext (hprime hus)⟩
  · obtain ⟨hbyte, -⟩ := hplace c p hp
    exact hbyte
  · obtain ⟨-, hnear⟩ := hplace c p hp
    exact hnear

theorem MatchTreeLegal.of_trees {s : State} {T : Byte → SearchTree} {hi : Nat} (hT : Forest s T)
    (hsorted : ∀ c, (T c).Sorted (keyAt s)) (hbehind : Behind T s.ringR 0 hi) (hhi : hi ≤ 4078)
    (hprime : s.ustate = UState.prime → T = emptyForest) : MatchTreeLegal s := fun _ _ =>
  ⟨T, fun c => ⟨hT.holds c, hsorted c, fun p hp => ⟨hT.byte c p hp, (hbehind c p hp).2.trans hhi⟩⟩, hT.linked,
    fun hus c => congrFun (hprime hus) c⟩

theorem MatchTreeLegal.search {s : State} (h : MatchTreeLegal s) (he : EncoderLegal s) (hb : s.phase = .busy)
    (hu : s.unit = .lze) : ∃ T, SearchLegal 0 4078 0 T s ∧ (s.ustate = UState.prime → T = emptyForest) := by
  obtain ⟨T, hT, hsorted, hbehind, hprime⟩ := h.trees hb hu
  obtain ⟨hring, -⟩ := he hb hu
  exact ⟨T, ⟨hT, hsorted, hring, hbehind, fun d _ hd => absurd hd (Nat.not_lt_zero d)⟩, hprime⟩

theorem SearchLegal.matchTree {hi cov : Nat} {T : Byte → SearchTree} {s : State} (h : SearchLegal 0 hi cov T s)
    (hhi : hi ≤ 4078) (hprime : s.ustate = UState.prime → T = emptyForest) : MatchTreeLegal s :=
  .of_trees h.forest h.sorted h.behind hhi hprime

/-- Only the control state, the trees, the window and `r` matter. -/
theorem MatchTreeLegal.of_same {s t : State} (h : MatchTreeLegal s)
    (hc : (t.phase, t.unit, t.ustate) = (s.phase, s.unit, s.ustate))
    (hm : (t.lson, t.rson, t.dad) = (s.lson, s.rson, s.dad)) (hw : t.winAt = s.winAt) (hr : t.ringR = s.ringR) :
    MatchTreeLegal t := by
  simp only [Prod.mk.injEq] at hc
  obtain ⟨hph, hun, hus⟩ := hc
  intro hb hu
  obtain ⟨T, hT, hsorted, hbehind, hprime⟩ := h.trees (hph ▸ hb) (hun ▸ hu)
  rw [← hr] at hbehind
  rw [← keyAt_congr hw] at hsorted
  rw [← hus] at hprime
  exact MatchTreeLegal.of_trees (hT.of_same hm fun _ p _ => congrFun hw p) hsorted hbehind le_rfl hprime hb hu

/-- In `Encode` there is a byte to encode. -/
theorem EncoderLegal.lookLen_ne_zero {s : State} (h : EncoderLegal s) (hb : s.phase = .busy) (hu : s.unit = .lze)
    (hus : s.ustate = UState.encode) : s.lookLen ≠ 0 := by
  obtain ⟨-, -, -, hne⟩ := h hb hu
  exact hne hus

/-! ## One step of the encoder -/

/-- Settles O38: the token is coded, then the window advances by its length. -/
theorem encodeStepCodesOneToken : Obligations.EncodeStepCodesOneToken := by
  intro rest s hn hr hb hu hus hpos he hm hg
  obtain ⟨T, hT, -⟩ := hm.search he hb hu
  have h0 := he.lookLen_ne_zero hb hu hus
  obtain ⟨t, -, ht, ⟨hphase, hust, hll, hpass, hcoded⟩, -⟩ :=
    (hT.of_same (t := { s with agenda := rest }) rfl rfl rfl).stepEncode le_rfl (Nat.zero_le _) h0
  have hf := (State.stepEncode_step (hus ▸ by decide) ht).frame
  obtain ⟨-, hR, hS, hp, hl, hw⟩ := hpass hpos
  obtain ⟨hfull, hmore⟩ := hcoded hg
  refine ⟨t, ?_, hll, hR, hS, hp, hl, ?_, hw, hfull, hmore, ?_⟩
  · rw [step_busy hn hr hb, stepUnit_encode (s := { s with agenda := rest }) hu hus, ht]
    rfl
  · rw [hust]
    exact if_congr Iff.rfl rfl hus
  · rw [EncoderFrame, hphase] at hf
    exact hf

/-- From legal trees each of the encoder's three steps leads to legal trees. -/
theorem MatchTreeLegal.stepUnit {s : State} (hm : MatchTreeLegal s) (he : EncoderLegal s) (hb : s.phase = .busy)
    (hu : s.unit = .lze) (hus : s.ustate = UState.prime ∨ s.ustate = UState.encode ∨ s.ustate = UState.flush) :
    ∃ t, stepUnit s = .next t ∧ MatchTreeLegal t := by
  obtain ⟨T, hT, hprime⟩ := hm.search he hb hu
  rcases hus with hus | hus | hus
  · obtain ⟨t, ht, hf, hlegal, -⟩ := State.stepPrime_primes (hprime hus ▸ hT.forest) hT.ring
    refine ⟨t, by rw [stepUnit_prime hu hus, ht]; rfl, hlegal.matchTree (Nat.zero_le _) fun e => ?_⟩
    rw [hf] at e
    dsimp only at e
    split at e <;> cases e
  · obtain ⟨t, U, ht, henc, hlegal, -⟩ := hT.stepEncode le_rfl (Nat.zero_le _) (he.lookLen_ne_zero hb hu hus)
    refine ⟨t, by rw [stepUnit_encode hu hus, ht]; rfl, hlegal.matchTree (Nat.min_le_right _ _) fun e => ?_⟩
    rw [henc.ustate, hus] at e
    split at e <;> cases e
  · refine ⟨_, stepUnit_flush hu hus, fun hb' => ?_⟩
    rw [State.stepFlush_eq] at hb'
    cases hb'

/-! ## Every step keeps the trees -/

theorem MatchTreeLegal.engine {s t : State} (hm : MatchTreeLegal s) (he : EncoderLegal s) (hb : s.phase = .busy)
    (ht : Machine.stepUnit s = .next t) : MatchTreeLegal t := by
  by_cases hu : s.unit = .lze
  · have hus : s.ustate = UState.prime ∨ s.ustate = UState.encode ∨ s.ustate = UState.flush := by
      rw [stepUnit_of_plain (.inl hu)] at ht
      rcases stepPlainUnit_cases ht with ⟨-, -, ⟨h, -⟩ | ⟨h, -⟩ | ⟨h, -⟩⟩ | ⟨hk, -⟩
      · exact .inl h
      · exact .inr (.inl h)
      · exact .inr (.inr h)
      · exact nomatch hu.symm.trans hk
    obtain ⟨u, hnext, hlegal⟩ := hm.stepUnit he hb hu hus
    cases hnext.symm.trans ht
    exact hlegal
  · intro _ hu'
    obtain ⟨-, -, hunit, -⟩ := stepUnit_keeps ht
    exact absurd (hunit.symm.trans hu') hu

theorem MatchTreeLegal.start (s : State) {p : StartSpec} (hp : p.unit ≠ .none) : MatchTreeLegal (s.start p) := by
  obtain ⟨-, -, -, -, -, -, -, -, hunit, -⟩ := s.start_shell hp
  intro hb hu
  have hpu : p.unit = .lze := hunit.symm.trans hu
  rcases s.start_encoder p with ⟨-, -, -, -, hR, hS, -⟩ | ⟨hne, -⟩
  · have hlegal := SearchLegal.of_empty (s.start_forest hpu) (by rw [hR, hS]; rfl) 0 0
    exact hlegal.matchTree (Nat.zero_le _) (fun _ => rfl) hb hu
  · exact absurd hpu hne

theorem MatchTreeLegal.writeReg {s : State} (h : MatchTreeLegal s) (n v : Nat) : MatchTreeLegal (s.writeReg n v) := by
  intro hb
  rw [State.writeReg_phase] at hb
  rw [State.writeReg_busy hb]
  exact h hb

theorem MatchTreeLegal.host {a : HostAction} {s t : State} (h : MatchTreeLegal s) (ht : hostTurn a s = .next t) :
    MatchTreeLegal t :=
  host_keeps (fun _ _ => nofun) (fun _ _ _ => nofun)
    (fun _ _ s hp _ _ => .start s (startSpec_unit_ne_none hp)) (fun _ n v h => h.writeReg n v)
    (fun _ _ _ h => h.of_same rfl rfl rfl rfl) (fun _ _ _ h => h.of_same rfl rfl rfl rfl)
    (fun _ h => h.of_same rfl rfl rfl rfl) (fun _ _ => nofun) a s t h ht

/-- Settles O52: with the ring (O51) the trees stay legal under engine steps and host actions. -/
theorem stepKeepsMatchTreeLegal : Obligations.StepKeepsMatchTreeLegal := by
  intro s t he hm h
  have hboth : EncoderLegal t ∧ MatchTreeLegal t :=
    step_keeps (P := fun s => EncoderLegal s ∧ MatchTreeLegal s)
      (fun _ _ h => ⟨h.1, h.2.of_same rfl rfl rfl rfl⟩)
      (fun _ _ h hb ht => ⟨h.1.engine hb ht, h.2.engine h.1 hb ht⟩)
      (fun _ _ _ h ht => ⟨h.1.host ht, h.2.host ht⟩) ⟨he, hm⟩ h
  exact hboth.2

/-! ## Steps that do not stop -/

theorem runCommand_next (w : CmdWord) (s : State) : ∃ t, runCommand w s = .next t := by
  unfold runCommand
  cases hd : decodeCommand w with
  | none => exact ⟨_, rfl⟩
  | some i =>
    by_cases hn : ∃ k lk ce, i = .nop k lk ce
    · obtain ⟨k, lk, ce, rfl⟩ := hn
      exact ⟨s, rfl⟩
    by_cases ha : ∃ rest, i = .abort rest
    · obtain ⟨rest, rfl⟩ := ha
      exact ⟨s.aborted, rfl⟩
    simp only [not_exists] at hn ha
    obtain ⟨p, hp⟩ := startSpec_isSome (decodeCommand_isCommand hd) ha hn
    exact ⟨_, exec_start hp s⟩

/-- A host action always has a next state. -/
theorem hostTurn_next (a : HostAction) (s : State) : ∃ t, hostTurn a s = .next t := by
  cases a with
  | writeReg n v =>
    rw [hostTurn]
    split
    · exact ⟨s, rfl⟩
    · split
      · exact runCommand_next _ s
      · exact ⟨_, rfl⟩
  | readDst i =>
    obtain ⟨v, n, h, -⟩ := hostReadDst_spec i s
    exact ⟨_, h⟩
  | readReg n | writeSrc i b | assertReset | releaseReset => exact ⟨_, rfl⟩

theorem UStateLegal.lze {s : State} (h : UStateLegal s) (hu : s.unit = .lze) :
    s.ustate = UState.prime ∨ s.ustate = UState.encode ∨ s.ustate = UState.flush := by
  have hle : s.ustate ≤ 2 := by rwa [UStateLegal, hu] at h
  bv_omega

/-- From a legal control state a unit's step has a next state, or it is the encoder's and a tree walk is stuck. -/
theorem ControlLegal.stepUnit_next {s : State} (h : ControlLegal s) (hb : s.phase = .busy) :
    (∃ t, stepUnit s = .next t) ∨ (s.unit = .lze ∧ stepUnit s = .fault .treeWalkStuck) := by
  obtain ⟨hus, hnone, -⟩ := h
  by_cases hu : s.unit = .lze
  · have htree (x : Option State) : (∃ t, treeStep x = .next t) ∨
        (s.unit = .lze ∧ treeStep x = .fault .treeWalkStuck) := by
      cases x with
      | none => exact .inr ⟨hu, rfl⟩
      | some t => exact .inl ⟨t, rfl⟩
    rcases hus.lze hu with hus | hus | hus
    · rw [stepUnit_prime hu hus]
      exact htree _
    · rw [stepUnit_encode hu hus]
      exact htree _
    · exact .inl ⟨_, stepUnit_flush hu hus⟩
  · exact .inl (stepUnit_view hus (hnone hb) hu).2

/-- A turn that does not step a Busy engine has a next state. -/
theorem step_cases (s : State) : (∃ t, step s = .next t) ∨
    (s.phase = .busy ∧ ∃ rest, step s = stepUnit { s with agenda := rest }) := by
  have engine (rest : List Turn) (h : EngineTurnNext s rest) : (∃ t, step s = .next t) ∨
      (s.phase = .busy ∧ ∃ rest, step s = stepUnit { s with agenda := rest }) := by
    rw [step_engine h]
    by_cases hb : s.phase = .busy ∧ s.resetLine = false
    · exact .inr ⟨hb.1, rest, engineTurn_busy (s := { s with agenda := rest }) hb.1 hb.2⟩
    · exact .inl ⟨_, if_neg hb⟩
  cases ha : s.agenda with
  | nil => exact engine [] (.inl ⟨ha, rfl⟩)
  | cons a rest =>
    cases a with
    | engine => exact engine rest (.inr ha)
    | host a =>
      rw [step_host ha]
      exact .inl (hostTurn_next a _)

/-- Settles O54: host actions and decoders do not stop, and the encoder's walks of legal trees end. -/
theorem legalStepsDoNotStop : Obligations.LegalStepsDoNotStop := by
  intro s hc
  rcases step_cases s with ⟨t, ht⟩ | ⟨hb, rest, hstep⟩
  · rw [ht]
    exact ⟨nofun, nofun, nofun, fun _ _ => ⟨t, rfl⟩⟩
  · rw [hstep]
    have hc' : ControlLegal { s with agenda := rest } := hc
    rcases hc'.stepUnit_next hb with ⟨t, ht⟩ | ⟨hu, hstuck⟩
    · rw [ht]
      exact ⟨nofun, nofun, nofun, fun _ _ => ⟨t, rfl⟩⟩
    · refine ⟨fun r => by rw [hstuck]; nofun, by rw [hstuck]; nofun, fun _ => ⟨hb, hu⟩, fun he hm => ?_⟩
      have hm' : MatchTreeLegal { s with agenda := rest } := hm.of_same rfl rfl rfl rfl
      obtain ⟨t, ht, -⟩ := hm'.stepUnit he hb hu (hc'.1.lze hu)
      exact ⟨t, ht⟩

end Sys2Proof.Machine
end


section
/-! # The stream of a compression (R95, R178 to R183) -/

namespace Sys2Proof.Machine

/-! ## Tokens that code bytes of the input -/

/-- The token codes the bytes of `src` from `n` up to `m`: a literal its byte, a match bytes that stood at its distance
before, all of which have been coded. -/
inductive TokenCodes (src : Nat → Byte) (n : Nat) : Instr → Nat → Prop
  | literal : TokenCodes src n (.lzssLit (src n)) (n + 1)
  | backReference {plo : Byte} {phi nl : BitVec 4} (h1 : 1 ≤ (lzssField plo phi).toNat)
    (hn : (lzssField plo phi).toNat ≤ n)
    (h : ∀ i, i < lzssLength nl → src (n + i) = src (n - (lzssField plo phi).toNat + i)) :
    TokenCodes src n (.lzssMatch plo phi nl) (n + lzssLength nl)

/-- The tokens code the bytes of `src` from `n` up to `m`. -/
inductive Codes (src : Nat → Byte) : Nat → List Instr → Nat → Prop
  | nil (n : Nat) : Codes src n [] n
  | cons {n m k : Nat} {i : Instr} {is : List Instr} (h : TokenCodes src n i m) (h' : Codes src m is k) :
    Codes src n (i :: is) k

/-- The bytes of tokens without their flags. -/
def payload (is : List Instr) : List Byte := is.flatMap fun i => Piece.bytes (encodeToken i)

theorem encodeGroup_eq (g : List Instr) : encodeGroup g = groupFlags g :: payload g := rfl

theorem payload_cons (i : Instr) (is : List Instr) : payload (i :: is) = Piece.bytes (encodeToken i) ++ payload is :=
  List.flatMap_cons

theorem payload_append (is js : List Instr) : payload (is ++ js) = payload is ++ payload js := List.flatMap_append

section

variable {src : Nat → Byte} {n m k : Nat} {i : Instr} {is js : List Instr}

theorem Codes.append (h : Codes src n is m) (h' : Codes src m js k) : Codes src n (is ++ js) k := by
  induction h with
  | nil => exact h'
  | cons hi _ ih => exact .cons hi (ih h')

theorem Codes.snoc (h : Codes src n is m) (h' : TokenCodes src m i k) : Codes src n (is ++ [i]) k :=
  h.append (.cons h' (.nil k))

/-- A token has one byte or two, and codes at least as many. -/
theorem TokenCodes.length (h : TokenCodes src n i m) :
    1 ≤ (Piece.bytes (encodeToken i)).length ∧ (Piece.bytes (encodeToken i)).length ≤ 2 ∧
      n + (Piece.bytes (encodeToken i)).length ≤ m := by
  cases h with
  | literal => exact ⟨le_rfl, Nat.le_succ 1, le_rfl⟩
  | backReference =>
    refine ⟨Nat.le_succ 1, le_rfl, Nat.add_le_add_left ?_ n⟩
    exact Nat.le_add_left 2 _

theorem Codes.length (h : Codes src n is m) :
    is.length ≤ (payload is).length ∧ (payload is).length ≤ 2 * is.length ∧ n + (payload is).length ≤ m := by
  induction h with
  | nil n => exact ⟨le_rfl, le_rfl, le_rfl⟩
  | cons h _ ih =>
    obtain ⟨h1, h2, hm⟩ := h.length
    rw [payload_cons, List.length_append, List.length_cons]
    omega

theorem Codes.le (h : Codes src n is m) : n ≤ m := by
  obtain ⟨-, -, hle⟩ := h.length
  omega

end

/-! ## The group being assembled -/

/-- The token the next `Encode` step codes (R177 to R179). -/
def State.tokenNext (s : State) : Instr :=
  if clampedLength s ≤ 2 then .lzssLit (s.winAt s.ringR)
  else .lzssMatch ((s.ringR - s.matchPos).extractLsb' 0 8) ((s.ringR - s.matchPos).extractLsb' 8 4)
    (BitVec.ofNat 4 (clampedLength s - 3))

theorem tokenBytes_eq (s : State) : tokenBytes s = Piece.bytes (encodeToken s.tokenNext) := by
  unfold tokenBytes State.tokenNext
  split <;> rfl

/-- The flag of a token: set for a literal. -/
def tokenFlag (i : Instr) : Bool := (Piece.bits (encodeToken i)).headD false

theorem tokenFlag_tokenNext (s : State) : tokenFlag s.tokenNext = decide (clampedLength s ≤ 2) := by
  unfold State.tokenNext
  split
  · next h => rw [decide_eq_true h]; rfl
  · next h => rw [decide_eq_false h]; rfl

/-- One more token sets its bit of the flag byte, or leaves it. -/
theorem groupFlags_snoc {g : List Instr} (hg : g.length < 8) (i : Instr) :
    groupFlags (g ++ [i]) = if tokenFlag i then groupFlags g ||| (1 : Byte) <<< g.length else groupFlags g := by
  refine BitVec.eq_of_getLsbD_eq fun k hk => ?_
  rw [groupFlags_getLsbD _ k (by rw [List.length_append]; exact hg)]
  have hbit : ((1 : Byte) <<< g.length).getLsbD k = decide (g.length = k) := by
    change (BitVec.twoPow 8 g.length).getLsbD k = _
    rw [BitVec.getLsbD_twoPow, decide_eq_true hg, Bool.true_and]
  rw [apply_ite (BitVec.getLsbD · k), BitVec.getLsbD_or, hbit, groupFlags_getLsbD g k hg.le]
  rcases Nat.lt_trichotomy k g.length with hlt | rfl | hgt
  · rw [List.getElem?_append_left hlt, decide_eq_false hlt.ne', Bool.or_false, ite_self]
  · rw [List.getElem?_concat_length, List.getElem?_eq_none le_rfl, decide_eq_true rfl, Bool.or_true]
    change tokenFlag i = _
    cases tokenFlag i <;> rfl
  · rw [List.getElem?_eq_none (l := g ++ [i]) (by rw [List.length_append]; exact hgt), List.getElem?_eq_none hgt.le,
      decide_eq_false hgt.ne, Bool.or_false, ite_self]

/-- The group with the next token is the image of its tokens. -/
theorem groupWithToken_eq {s : State} {g : List Instr} (hg : g.length < 8) (hm : s.mask = (1 : Byte) <<< g.length)
    (hbuf : (List.range s.codePtr.toNat).map s.codeAt = encodeGroup g) :
    groupWithToken s = encodeGroup (g ++ [s.tokenNext]) := by
  obtain ⟨k, hk⟩ : ∃ k, s.codePtr.toNat = k + 1 := by
    cases h : s.codePtr.toNat with
    | zero => rw [h] at hbuf; cases hbuf
    | succ k => exact ⟨k, rfl⟩
  rw [encodeGroup_eq, hk, List.range_succ_eq_map, List.map_cons] at hbuf
  obtain ⟨hflags, hbytes⟩ := List.cons.inj hbuf
  rw [groupWithToken, hk, List.range_succ_eq_map, List.drop_one, List.tail_cons, hbytes, tokenBytes_eq, hflags, hm,
    encodeGroup_eq, groupFlags_snoc hg, tokenFlag_tokenNext, payload_append, payload_cons]
  simp only [decide_eq_true_eq, payload, List.flatMap_nil, List.append_nil]

/-- The mask by the number of tokens in the group. -/
theorem mask_of_length {k : Nat} (hk : k < 8) : (1 : Byte) <<< k = 1 <<< k ∧ ((1 : Byte) <<< k = 0x80 ↔ k = 7) ∧
    (k ≠ 7 → ((1 : Byte) <<< (k + 1)).toNat = 2 * ((1 : Byte) <<< k).toNat) := by
  revert k
  decide

/-- What has been emitted: the full groups `gs`, then the group `g` in `code_buf`, which has not been emitted; together
they code the first `n` bytes of `src`. -/
structure Emitted (src : Nat → Byte) (n : Nat) (gs : List (List Instr)) (g : List Instr) (s : State) : Prop where
  full : ∀ x ∈ gs, x.length = 8
  part : g.length < 8
  dst : s.dst = gs.flatMap encodeGroup
  count : s.outCount = BitVec.ofNat 64 s.dst.length
  mask : s.mask = (1 : Byte) <<< g.length
  buffer : (List.range s.codePtr.toNat).map s.codeAt = encodeGroup g
  codes : Codes src 0 (gs.flatten ++ g) n

section

variable {src : Nat → Byte} {n : Nat} {gs : List (List Instr)} {g : List Instr} {s t : State}

/-- The length of the group in `code_buf`. -/
theorem Emitted.codePtr (h : Emitted src n gs g s) : s.codePtr.toNat = (payload g).length + 1 := by
  rw [← List.length_range (n := s.codePtr.toNat), ← List.length_map (f := s.codeAt), h.buffer]
  rfl

theorem Codes.of_append {is js : List Instr} {n m : Nat} (h : Codes src n (is ++ js) m) :
    ∃ k, Codes src n is k ∧ Codes src k js m := by
  induction is generalizing n with
  | nil => exact ⟨n, .nil n, h⟩
  | cons i is ih =>
    cases h with
    | cons hi h' =>
      obtain ⟨k, his, hjs⟩ := ih h'
      exact ⟨k, .cons hi his, hjs⟩

theorem Emitted.groupLegal (h : Emitted src n gs g s) : GroupLegal s := by
  obtain ⟨k, -, hk⟩ := h.codes.of_append
  obtain ⟨hlo, hhi, -⟩ := hk.length
  refine ⟨⟨g.length, h.part⟩, h.mask.trans (mask_of_length h.part).1, ?_, ?_⟩
  · change 1 + g.length ≤ s.codePtr.toNat
    rw [h.codePtr]
    omega
  · change s.codePtr.toNat ≤ 1 + 2 * g.length
    rw [h.codePtr]
    omega

theorem Emitted.start {u : State} (h : CompressStarted s u) : Emitted src 0 [] [] u := by
  obtain ⟨hcp, hm, hc⟩ := h.group
  obtain ⟨hd, ho⟩ := h.out
  refine ⟨nofun, Nat.zero_lt_succ 7, hd, by rw [hd, ho]; rfl, hm, ?_, .nil 0⟩
  rw [hcp]
  exact congrArg (· :: []) hc

/-- The next token joins the group; the eighth ends it. -/
theorem Emitted.token {m : Nat} (h : Emitted src n gs g s) (hc : TokenCodes src n s.tokenNext m) (ht : TokenCoded s t) :
    ∃ gs' g', Emitted src m gs' g' t := by
  obtain ⟨hfull, hpart, hdst, hcount, hmask, hbuf, hcodes⟩ := h
  have hgroup := groupWithToken_eq hpart hmask hbuf
  obtain ⟨htfull, htmore⟩ := ht
  rw [hgroup] at htfull htmore
  have hcodes' : Codes src 0 (gs.flatten ++ (g ++ [s.tokenNext])) m := by
    rw [← List.append_assoc]
    exact hcodes.snoc hc
  obtain ⟨-, h80, hnext⟩ := mask_of_length hpart
  rw [← hmask] at h80 hnext
  by_cases h7 : g.length = 7
  · obtain ⟨htd, hto, htc, htm, hta⟩ := htfull (h80.mpr h7)
    refine ⟨gs ++ [g ++ [s.tokenNext]], [], fun x hx => ?_, Nat.zero_lt_succ 7, ?_, ?_, htm, ?_, ?_⟩
    · rcases List.mem_append.mp hx with hx | hx
      · exact hfull x hx
      · rw [List.mem_singleton.mp hx, List.length_append, h7]
        rfl
    · rw [htd, hdst, List.flatMap_append, List.flatMap_singleton]
    · rw [hto, htd, hcount, List.length_append, BitVec.ofNat_add]
    · rw [htc]
      exact congrArg (· :: []) hta
    · rwa [List.flatten_append, List.flatten_singleton, List.append_nil]
  · obtain ⟨htd, hto, -, htm, htb⟩ := htmore (mt h80.mp h7)
    refine ⟨gs, g ++ [s.tokenNext], hfull, ?_, htd.trans hdst, by rw [hto, hcount, htd], ?_, htb, hcodes'⟩
    · rw [List.length_append, List.length_singleton]
      omega
    · rw [List.length_append, List.length_singleton]
      exact BitVec.eq_of_toNat_eq (htm.trans (hnext h7).symm)

/-! ## The finished stream -/

/-- A finished stream (R95): full groups, and a last one with the tokens left over, if any. -/
structure StreamOf (src : Nat → Byte) (n : Nat) (gs : List (List Instr)) (g : List Instr) (bytes : List Byte) :
    Prop where
  full : ∀ x ∈ gs, x.length = 8
  part : g.length < 8
  bytes_eq : bytes = gs.flatMap encodeGroup ++ if g = [] then [] else encodeGroup g
  codes : Codes src 0 (gs.flatten ++ g) n

/-- `Flush` emits the group in `code_buf` if it holds a token. -/
theorem Emitted.flush (h : Emitted src n gs g s) : StreamOf src n gs g s.stepFlush.dst ∧
    s.stepFlush.outCount = BitVec.ofNat 64 s.stepFlush.dst.length := by
  have hptr := h.codePtr
  obtain ⟨hfull, hpart, hdst, hcount, -, hbuf, hcodes⟩ := h
  obtain ⟨k, -, hk⟩ := hcodes.of_append
  have hmore : 1 < s.codePtr.toNat ↔ g ≠ [] := by
    rw [hptr, ne_eq, ← List.length_eq_zero_iff]
    have := hk.length
    omega
  rw [State.stepFlush_eq]
  dsimp only
  by_cases hg : g = []
  · rw [if_neg fun e => hmore.mp e hg, if_neg fun e => hmore.mp e hg]
    exact ⟨⟨hfull, hpart, by rw [if_pos hg, List.append_nil, hdst], hcodes⟩, hcount⟩
  · rw [if_pos (hmore.mpr hg), if_pos (hmore.mpr hg), hbuf]
    refine ⟨⟨hfull, hpart, by rw [if_neg hg, hdst], hcodes⟩, ?_⟩
    rw [hcount, hptr, ← BitVec.ofNat_add, List.length_append]
    rfl

theorem length_flatMap_encodeGroup (gs : List (List Instr)) :
    (gs.flatMap encodeGroup).length = gs.length + (payload gs.flatten).length := by
  induction gs with
  | nil => rfl
  | cons g gs ih =>
    rw [List.flatMap_cons, List.length_append, ih, encodeGroup_eq, List.flatten_cons, payload_append,
      List.length_append, List.length_cons, List.length_cons]
    omega

theorem length_flatten_full (hfull : ∀ x ∈ gs, x.length = 8) : gs.flatten.length = 8 * gs.length := by
  rw [List.length_flatten, List.map_congr_left hfull, List.map_const', List.sum_replicate, smul_eq_mul, Nat.mul_comm]

/-- A flag byte for at most 8 bytes (R189). -/
theorem StreamOf.length_le {bytes : List Byte} (h : StreamOf src n gs g bytes) : bytes.length ≤ n + (n + 7) / 8 := by
  obtain ⟨h1, -, h2⟩ := h.codes.length
  rw [List.length_append, length_flatten_full h.full] at h1
  rw [payload_append, List.length_append] at h1 h2
  rw [h.bytes_eq, List.length_append, length_flatMap_encodeGroup]
  split
  · rw [List.length_nil]
    omega
  · next hg =>
    have hpos := List.length_pos_iff.mpr hg
    rw [encodeGroup_eq, List.length_cons]
    omega

end

end Sys2Proof.Machine
end


section
/-! # A compression, step by step (R176 to R183, R187 to R190) -/

namespace Sys2Proof.Machine

/-! ## What stands in the window -/

/-- `n` bytes of the input of `s` have been coded: the rings stand behind them, the lookahead follows them, and the
window holds the last 4096 bytes read. -/
structure Slid (s : State) (n : Nat) (t : State) : Prop where
  coded : n + t.lookLen.toNat = t.pos.toNat
  inside : t.pos.toNat ≤ s.srcLen.toNat
  look : t.lookLen.toNat ≤ 18
  full : t.pos.toNat < s.srcLen.toNat → t.lookLen.toNat = 18
  ringR : t.ringR = BitVec.ofNat 12 (4078 + n)
  win : ∀ j, j < t.pos.toNat → t.pos.toNat ≤ j + 4096 → t.winAt (BitVec.ofNat 12 (4078 + j)) = srcByte s j

section

variable {s t u : State} {n : Nat}

/-- The lookahead is the input from the position to be coded on. -/
theorem Slid.winAt_ahead (h : Slid s n t) {i : Nat} (hi : i < t.lookLen.toNat) :
    t.winAt (t.ringR + BitVec.ofNat 12 i) = srcByte s (n + i) := by
  have hc := h.coded
  have hl := h.look
  rw [h.ringR, ← BitVec.ofNat_add, Nat.add_assoc]
  exact h.win (n + i) (by omega) (by omega)

/-- The positions before it hold the input already coded. -/
theorem Slid.winAt_behind (h : Slid s n t) {d i : Nat} (hd : d ≤ 4078) (hn : d ≤ n) (hi : i < t.lookLen.toNat) :
    t.winAt (t.ringR - BitVec.ofNat 12 d + BitVec.ofNat 12 i) = srcByte s (n - d + i) := by
  have hc := h.coded
  have hl := h.look
  have hR : t.ringR = BitVec.ofNat 12 (4078 + (n - d)) + BitVec.ofNat 12 d := by
    rw [h.ringR, ← BitVec.ofNat_add, Nat.add_assoc, Nat.sub_add_cancel hn]
  rw [hR, BitVec.add_sub_cancel, ← BitVec.ofNat_add, Nat.add_assoc]
  exact h.win (n - d + i) (by omega) (by omega)

theorem ring_sub_of_le {a i j : Nat} (h : i ≤ j) (hj : j < i + 4096) :
    (BitVec.ofNat 12 (a + j) - BitVec.ofNat 12 (a + i)).toNat = j - i := by
  rw [BitVec.toNat_sub, BitVec.toNat_ofNat, BitVec.toNat_ofNat]
  omega

theorem ring_sub_of_lt {a i j : Nat} (h : j < i) (hi : i < j + 4096) :
    (BitVec.ofNat 12 (a + j) - BitVec.ofNat 12 (a + i)).toNat = 4096 - (i - j) := by
  rw [BitVec.toNat_sub, BitVec.toNat_ofNat, BitVec.toNat_ofNat]
  omega

/-- Positions passed: the window slides over the bytes coded. -/
theorem Slid.passed {k : Nat} (h : Slid s n t) (hS : t.ringS = t.ringR + 18) (hsrc : srcByte t = srcByte s)
    (hk : k ≤ t.lookLen.toNat) (hp : Passed k (min k (s.srcLen.toNat - t.pos.toNat)) t u) : Slid s (n + k) u := by
  obtain ⟨hcoded, hinside, hlook, hfull, hR, hwin⟩ := h
  obtain ⟨-, hpR, -, hpos, hpl, hpw⟩ := hp
  have hm : min k (s.srcLen.toNat - t.pos.toNat) ≤ k ∧
      t.pos.toNat + min k (s.srcLen.toNat - t.pos.toNat) ≤ s.srcLen.toNat ∧
      (t.pos.toNat + min k (s.srcLen.toNat - t.pos.toNat) < s.srcLen.toNat →
        min k (s.srcLen.toNat - t.pos.toNat) = k) ∧
      (0 < min k (s.srcLen.toNat - t.pos.toNat) → t.pos.toNat < s.srcLen.toNat) := by
    clear * - hinside
    omega
  generalize min k (s.srcLen.toNat - t.pos.toNat) = m at *
  obtain ⟨hmk, hmi, hmf, hm0⟩ := hm
  refine ⟨by omega, by omega, by omega, fun hlt => ?_, ?_, fun j hj hj' => ?_⟩
  · have := hmf (by omega)
    have := hfull (by omega)
    omega
  · rw [hpR, hR, ← BitVec.ofNat_add, Nat.add_assoc]
  · rw [hpos] at hj hj'
    rw [hpw]
    rcases Nat.eq_zero_or_pos m with rfl | hpm
    · rw [if_neg (Nat.not_lt_zero _)]
      exact hwin j (by omega) (by omega)
    · have h18 := hfull (hm0 hpm)
      have hSp : t.ringS = BitVec.ofNat 12 (4078 + t.pos.toNat) := by
        rw [hS, hR, ← hcoded, h18, ← Nat.add_assoc, BitVec.ofNat_add _ 18]
        rfl
      by_cases hjp : j < t.pos.toNat
      · rw [hSp, ring_sub_of_lt hjp (by omega), if_neg (by omega)]
        exact hwin j hjp (by omega)
      · rw [hSp, ring_sub_of_le (by omega) (by omega), if_pos (by omega), hsrc, Nat.add_sub_cancel' (by omega)]

/-! ## The match found -/

theorem lt_commonLength {A B : List Byte} {i : Nat} (h : i < commonLength A B) : A[i]? = B[i]? := by
  induction A generalizing B i with
  | nil => cases B <;> cases h
  | cons a A ih =>
    cases B with
    | nil => cases h
    | cons b B =>
      unfold commonLength at h
      split at h
      · next hab =>
        cases i with
        | zero => rw [List.getElem?_cons_zero, List.getElem?_cons_zero, hab]
        | succ i =>
          rw [List.getElem?_cons_succ, List.getElem?_cons_succ]
          exact ih (Nat.lt_of_succ_lt_succ h)
      · cases h

theorem le_commonLength {A B : List Byte} {l : Nat} (hA : l ≤ A.length) (h : ∀ i, i < l → A[i]? = B[i]?) :
    l ≤ commonLength A B := by
  induction A generalizing B l with
  | nil => exact hA.trans (Nat.zero_le _)
  | cons a A ih =>
    cases l with
    | zero => exact Nat.zero_le _
    | succ l =>
      have h0 := h 0 (Nat.succ_pos l)
      cases B with
      | nil => cases h0
      | cons b B =>
        cases h0
        rw [commonLength_cons_self]
        refine Nat.succ_le_succ (ih (Nat.le_of_succ_le_succ hA) fun i hi => ?_)
        exact h (i + 1) (Nat.succ_lt_succ hi)

theorem keyAt_getElem? (s : State) (p : Ring) {i : Nat} (hi : i < 18) :
    (keyAt s p)[i]? = some (s.winAt (p + BitVec.ofNat 12 i)) := by
  rw [keyAt, List.getElem?_map, List.getElem?_range hi]
  rfl

/-- Keys agree on the bytes of their common length. -/
theorem winAt_of_lt_commonLength {p q : Ring} {i : Nat} (h : i < commonLength (keyAt s p) (keyAt s q)) :
    s.winAt (p + BitVec.ofNat 12 i) = s.winAt (q + BitVec.ofNat 12 i) := by
  have hi : i < 18 := h.trans_le ((commonLength_le _ _).trans_eq (keyAt_length s p))
  have := lt_commonLength h
  rw [keyAt_getElem? s p hi, keyAt_getElem? s q hi] at this
  exact Option.some.inj this

theorem le_commonLength_keyAt {p q : Ring} {l : Nat} (hl : l ≤ 18)
    (h : ∀ i, i < l → s.winAt (p + BitVec.ofNat 12 i) = s.winAt (q + BitVec.ofNat 12 i)) :
    l ≤ commonLength (keyAt s p) (keyAt s q) :=
  le_commonLength (hl.trans_eq (keyAt_length s p).symm) fun i hi => by
    rw [keyAt_getElem? s p (hi.trans_le hl), keyAt_getElem? s q (hi.trans_le hl), h i hi]

/-- The match found is the longest that the positions before offer (R187). -/
theorem Slid.longest (h : Slid s n t) (hb : BestMatch (min n 4078) (min (n + 1) 4079) t) {d l : Nat} (h1 : 1 ≤ d)
    (hd : d ≤ 4078) (hn : d ≤ n) (hl : l ≤ t.lookLen.toNat)
    (heq : ∀ i, i < l → srcByte s (n - d + i) = srcByte s (n + i)) : l ≤ clampedLength t := by
  refine Nat.le_min.mpr ⟨le_trans ?_ (hb.longest d h1 (by omega)), hl⟩
  refine le_commonLength_keyAt (hl.trans h.look) fun i hi => ?_
  rw [h.winAt_ahead (hi.trans_le hl), h.winAt_behind hd hn (hi.trans_le hl), heq i hi]

/-- The bytes of the match stand at its distance in the input already coded (R190). -/
theorem Slid.found (h : Slid s n t) (hb : BestMatch (min n 4078) (min (n + 1) 4079) t) (h1 : 1 ≤ clampedLength t) :
    1 ≤ (t.ringR - t.matchPos).toNat ∧ (t.ringR - t.matchPos).toNat ≤ 4078 ∧ (t.ringR - t.matchPos).toNat ≤ n ∧
      ∀ i, i < clampedLength t → srcByte s (n - (t.ringR - t.matchPos).toNat + i) = srcByte s (n + i) := by
  obtain ⟨hm, hl⟩ := Nat.le_min.mp h1
  obtain ⟨hd1, hdn, hcl⟩ := hb.found (by bv_omega)
  obtain ⟨hn, hd⟩ := Nat.le_min.mp hdn
  refine ⟨hd1, hd, hn, fun i hi => ?_⟩
  obtain ⟨him, hil⟩ := Nat.lt_min.mp hi
  have hpos : t.matchPos = t.ringR - BitVec.ofNat 12 (t.ringR - t.matchPos).toNat := by
    rw [BitVec.ofNat_toNat, BitVec.setWidth_eq]
    bv_omega
  rw [← h.winAt_behind hd hn hil, ← h.winAt_ahead hil, ← hpos]
  exact (winAt_of_lt_commonLength (hcl ▸ him)).symm

/-- The next token codes the next bytes of the input. -/
theorem Slid.tokenCodes (h : Slid s n t) (hb : BestMatch (min n 4078) (min (n + 1) 4079) t) (h0 : t.lookLen ≠ 0) :
    TokenCodes (srcByte s) n t.tokenNext (n + codedLength t) := by
  unfold State.tokenNext codedLength
  split
  · have hfirst := h.winAt_ahead (i := 0) (by bv_omega)
    rw [BitVec.add_zero] at hfirst
    rw [hfirst]
    exact .literal
  · next h2 =>
    obtain ⟨h1, hd, hn, heq⟩ := h.found hb (by omega)
    have hfield := lzssField_extract (t.ringR - t.matchPos)
    have hlen : lzssLength (BitVec.ofNat 4 (clampedLength t - 3)) = clampedLength t := by
      have h18 : clampedLength t ≤ 18 := (Nat.min_le_right _ _).trans h.look
      exact lengthField_toNat (by omega) h18
    have hc := TokenCodes.backReference (src := srcByte s) (n := n) (plo := (t.ringR - t.matchPos).extractLsb' 0 8)
      (phi := (t.ringR - t.matchPos).extractLsb' 8 4) (nl := BitVec.ofNat 4 (clampedLength t - 3))
      (by rw [hfield]; exact h1) (by rw [hfield]; exact hn) (by rw [hfield, hlen]; exact fun i hi => (heq i hi).symm)
    rwa [hlen] at hc

end

/-! ## The run -/

/-- A compression of the input of `s` that has coded `n` bytes of it: in `Encode`, or in `Flush` once the lookahead is
empty. -/
structure Compressing (s : State) (n : Nat) (t : State) : Prop where
  alone : EngineAlone t
  phase : t.phase = .busy
  unit : t.unit = .lze
  err : t.err = .none
  input : t.srcLen = s.srcLen ∧ srcByte t = srcByte s
  ustate : t.ustate = if t.lookLen = 0 then UState.flush else UState.encode
  slid : Slid s n t
  search : ∃ T, SearchLegal 0 (min n 4078) (if t.lookLen = 0 then 0 else min (n + 1) 4079) T t
  best : t.lookLen ≠ 0 → BestMatch (min n 4078) (min (n + 1) 4079) t
  emitted : ∃ gs g, Emitted (srcByte s) n gs g t

/-- A compression that has ended. -/
structure Compressed (s t : State) : Prop where
  alone : EngineAlone t
  phase : t.phase = .done
  err : t.err = .none
  pos : t.pos = s.srcLen
  count : t.outCount = BitVec.ofNat 64 t.dst.length
  stream : ∃ gs g, StreamOf (srcByte s) s.srcLen.toNat gs g t.dst

/-- `Prime` begins it. -/
theorem CompressStarted.compressing {s u : State} (h : CompressStarted s u) (ha : EngineAlone u) :
    ∃ t, stepUnit u = .next t ∧ Compressing s 0 t := by
  obtain ⟨l, t, ht, ⟨hf, hlegal, hnone⟩, hl, hpos, hlook, hwin⟩ := h.prime
  have hem := Emitted.start (src := srcByte s) h
  have hkeep : t.phase = .busy ∧ t.unit = .lze ∧ t.err = .none ∧ (t.srcLen = s.srcLen ∧ srcByte t = srcByte s) ∧
      t.lookLen = l.lookLen ∧ t.pos = l.pos ∧ t.winAt = l.winAt ∧ t.ringR = 4078 ∧
      (t.dst = u.dst ∧ t.outCount = u.outCount ∧ t.mask = u.mask ∧ t.codePtr = u.codePtr ∧ t.codeAt = u.codeAt) := by
    rw [hf, hl]
    exact ⟨h.phase, h.unit, h.err, h.input, rfl, rfl, rfl, h.ringR, rfl, rfl, rfl, rfl, rfl⟩
  obtain ⟨hph, hu, he, hin, htl, htp, htw, htR, hd, ho, hm, hcp, hca⟩ := hkeep
  refine ⟨t, ht, ha.stepUnit ht, hph, hu, he, hin, ?_, ⟨?_, ?_, ?_, fun hlt => ?_, htR, fun j hj hj' => ?_⟩,
    ⟨primedForest l, ?_⟩, fun hne => .of_none (hnone (htl ▸ hne)), [], [], ?_⟩
  · rw [htl, hf]
  · rw [htl, htp, hlook, hpos, Nat.zero_add]
  · rw [htp, hpos]
    exact Nat.min_le_right _ _
  · rw [htl, hlook]
    exact Nat.min_le_left _ _
  · rw [htp, hpos] at hlt
    rw [htl, hlook]
    omega
  · rw [htp, hpos] at hj
    have hsub := ring_sub_of_le (a := 4078) (i := 0) (j := j) (Nat.zero_le j) (by omega)
    rw [Nat.add_zero, Nat.sub_zero] at hsub
    rw [htw, hwin]
    have hsub' : (BitVec.ofNat 12 (4078 + j) - 4078).toNat = j := hsub
    rw [hsub', if_pos hj]
  · rw [htl]
    exact hlegal
  · obtain ⟨h1, h2, h3, h4, h5, h6, h7⟩ := hem
    exact ⟨h1, h2, hd.trans h3, by rw [ho, hd]; exact h4, hm.trans h5, by rw [hcp, hca]; exact h6, h7⟩

section

variable {s t : State} {n : Nat}

/-- An `Encode` step codes a token. -/
theorem Compressing.encode (h : Compressing s n t) (h0 : t.lookLen ≠ 0) :
    ∃ u, stepUnit t = .next u ∧ Compressing s (n + codedLength t) u := by
  obtain ⟨T, hT⟩ := h.search
  obtain ⟨gs, g, hem⟩ := h.emitted
  rw [if_neg h0] at hT
  have hus : t.ustate = UState.encode := by rw [h.ustate, if_neg h0]
  obtain ⟨u, U, hu, henc, hlegal, hbest⟩ := hT.stepEncode (Nat.min_le_right _ _) (Nat.min_le_right _ _) h0
  have hstep : stepUnit t = .next u := by
    rw [stepUnit_encode h.unit hus, hu]
    rfl
  have hhi : min (min n 4078 + codedLength t) 4078 = min (n + codedLength t) 4078 := by
    generalize codedLength t = k
    omega
  have hcov : min (min (n + 1) 4079 + codedLength t) 4079 = min (n + codedLength t + 1) 4079 := by
    generalize codedLength t = k
    omega
  rw [hhi, hcov] at hlegal hbest
  obtain ⟨hsrcLen, hsrc⟩ := h.input
  have hpass := henc.passed (by rw [BitVec.le_def, hsrcLen]; exact h.slid.inside)
  have hf := (State.stepEncode_step (hus ▸ by decide) hu).frame
  have hkeep : u.unit = t.unit ∧ u.err = t.err := by
    rw [hf]
    exact ⟨rfl, rfl⟩
  refine ⟨u, hstep, h.alone.stepUnit hstep, henc.phase.trans h.phase, hkeep.1.trans h.unit, hkeep.2.trans h.err,
    ⟨hpass.input.1.trans hsrcLen, hpass.input.2.trans hsrc⟩, by rw [henc.ustate, hus], ?_, ⟨U, hlegal⟩, hbest,
    hem.token (h.slid.tokenCodes (h.best h0) h0) (henc.coded hem.groupLegal)⟩
  rw [loadedLength, hsrcLen] at hpass
  exact h.slid.passed hT.ring hsrc (codedLength_le h0) hpass

/-- The last step. -/
theorem Compressing.flush (h : Compressing s n t) (h0 : t.lookLen = 0) :
    stepUnit t = .next t.stepFlush ∧ n = s.srcLen.toNat ∧ Compressed s t.stepFlush := by
  have hus : t.ustate = UState.flush := by rw [h.ustate, if_pos h0]
  have hstep := stepUnit_flush h.unit hus
  obtain ⟨gs, g, hem⟩ := h.emitted
  obtain ⟨hstream, hcount⟩ := hem.flush
  have hkeep : t.stepFlush.phase = .done ∧ t.stepFlush.err = t.err ∧ t.stepFlush.pos = t.pos := by
    rw [State.stepFlush_eq]
    exact ⟨rfl, rfl, rfl⟩
  obtain ⟨hph, he, hp⟩ := hkeep
  have hl0 : t.lookLen.toNat = 0 := by rw [h0]; rfl
  have hcoded := h.slid.coded
  have hend : t.pos.toNat = s.srcLen.toNat := by
    by_contra hne
    have := h.slid.full (lt_of_le_of_ne h.slid.inside hne)
    omega
  have hn : n = s.srcLen.toNat := by omega
  subst hn
  exact ⟨hstep, rfl, h.alone.stepUnit hstep, hph, he.trans h.err, hp.trans (BitVec.eq_of_toNat_eq hend), hcount, gs, g,
    hstream⟩

end

/-- Where a run of a compression can be. -/
inductive CompressRun (s : State) (t : State) : Prop
  | started (h : CompressStarted s t) (ha : EngineAlone t)
  | compressing {n : Nat} (h : Compressing s n t)
  | ended (h : Compressed s t)

theorem CompressRun.step {s t u : State} (h : CompressRun s t) (hu : step t = .next u) : CompressRun s u := by
  cases h with
  | started h ha =>
    obtain ⟨v, hv, hc⟩ := h.compressing ha
    cases ((step_alone_busy ha h.phase).trans hv).symm.trans hu
    exact .compressing hc
  | compressing h =>
    rw [step_alone_busy h.alone h.phase] at hu
    by_cases h0 : t.lookLen = 0
    · obtain ⟨hv, -, hc⟩ := h.flush h0
      cases hv.symm.trans hu
      exact .ended hc
    · obtain ⟨v, hv, hc⟩ := h.encode h0
      cases hv.symm.trans hu
      exact .compressing hc
  | ended h =>
    have hstay : Machine.step t = .next t := by
      rw [step_alone h.alone, engineTurn, h.phase]
      rfl
    cases hstay.symm.trans hu
    exact .ended h

/-- Every state of the run of a `COMPRESS`. -/
theorem CompressRun.of_run {lk ce : Bool} {k : Nat} {s u t : State} (hb : s.phase ≠ .busy) (ha : EngineAlone s)
    (hu : exec (.compressLzss lk ce) s = .next u) (ht : Host.Core.run Sys2Proof.core k u = .next t) :
    CompressRun s t := by
  cases (exec_start_next (p := compressSpec) rfl hb).symm.trans hu
  exact run_keeps (fun _ _ h hstep => h.step hstep) k (.started s.start_compress (ha.start compressSpec)) ht

/-- Settles O39: in `Encode` the search before left the longest match in the registers. -/
theorem longestMatchIsFound : Obligations.LongestMatchIsFound := by
  intro lk ce k s u t hb ha hu ht hbusy hus
  cases CompressRun.of_run hb ha hu ht with
  | started h => exact absurd (hus.symm.trans h.ustate) (by decide)
  | ended h => exact nomatch hbusy.symm.trans h.phase
  | @compressing n h =>
    have h0 : t.lookLen ≠ 0 := fun e => by
      have := h.ustate
      rw [if_pos e, hus] at this
      cases this
    refine ⟨n, h.slid.coded, fun i hi => h.slid.winAt_ahead hi, fun d l h1 hd hn hl heq =>
      h.slid.longest (h.best h0) h1 hd hn hl heq, fun h1 => ⟨_, rfl, h.slid.found (h.best h0) h1⟩⟩

/-- A compression that has bytes left to code ends within as many steps, and the last one. -/
theorem Compressing.ends {s t : State} {n : Nat} (h : Compressing s n t) : ∃ k v, k ≤ s.srcLen.toNat - n + 1 ∧
    Host.Core.run Sys2Proof.core k t = .next v ∧ Compressed s v := by
  induction hm : s.srcLen.toNat - n using Nat.strong_induction_on generalizing n t with
  | _ m ih =>
    by_cases h0 : t.lookLen = 0
    · obtain ⟨hv, -, hc⟩ := h.flush h0
      exact ⟨1, _, Nat.le_add_left 1 m, run_succ 0 ((step_alone_busy h.alone h.phase).trans hv), hc⟩
    · obtain ⟨u, hu, hc⟩ := h.encode h0
      have hcoded := h.slid.coded
      have hinside := h.slid.inside
      have hlook : 0 < t.lookLen.toNat := by bv_omega
      have hone := one_le_codedLength t
      obtain ⟨k, v, hk, hv, hend⟩ := ih (s.srcLen.toNat - (n + codedLength t)) (by omega) hc rfl
      exact ⟨k + 1, v, by omega, (run_succ k ((step_alone_busy h.alone h.phase).trans hu)).trans hv, hend⟩

/-- Settles O42: each `Encode` step codes at least one byte. -/
theorem compressionEndsDone : Obligations.CompressionEndsDone := by
  intro lk ce s hb ha
  have hs := s.start_compress
  have hu := ha.start compressSpec
  obtain ⟨t, ht, hc⟩ := hs.compressing hu
  obtain ⟨k, v, hk, hv, hend⟩ := hc.ends
  refine ⟨_, k + 1, v, exec_start_next rfl hb, by omega, (run_succ k ((step_alone_busy hu hs.phase).trans ht)).trans hv,
    hend.phase, hend.err, hend.pos, ?_⟩
  rw [hend.count]
  rfl

/-- Settles O43: the stream is a flag byte for every group of tokens, and no more bytes of tokens than input. -/
theorem compressionExpandsByAtMostOneEighth : Obligations.CompressionExpandsByAtMostOneEighth := by
  intro lk ce k s u t hb ha hu ht hdone
  cases CompressRun.of_run hb ha hu ht with
  | started h => exact nomatch hdone.symm.trans h.phase
  | compressing h => exact nomatch hdone.symm.trans h.phase
  | ended h =>
    obtain ⟨gs, g, hstream⟩ := h.stream
    exact hstream.length_le

end Sys2Proof.Machine
end


section
/-! # Decompressing a finished stream (R188) -/

namespace Sys2Proof.Machine

/-! ## One token -/

/-- Bytes that repeat the bytes `d` before them, the first of which lie before them all, repeat the last `d` cyclically
(R139). -/
theorem repeats_cyclically {src : Nat → Byte} {n d l : Nat} (h1 : 1 ≤ d) (hd : d ≤ n)
    (h : ∀ i, i < l → src (n + i) = src (n - d + i)) (i : Nat) (hi : i < l) : src (n + i) = src (n - d + i % d) := by
  induction i using Nat.strong_induction_on with
  | _ i ih =>
    by_cases hid : i < d
    · rw [Nat.mod_eq_of_lt hid, h i hi]
    · have hprev := ih (i - d) (by omega) (by omega)
      rw [← Nat.mod_eq_sub_mod (by omega)] at hprev
      rw [h i hi, ← hprev]
      congr 1
      omega

/-- The decoder, left alone, has produced the first `n` of the `N` bytes of `src`, `rest` is what is left of its stream,
and if the length is `known` it wants them all. -/
structure Expanding (src : Nat → Byte) (N : Nat) (known : Bool) (n : Nat) (rest : List Byte) (t : State) : Prop where
  alone : EngineAlone t
  phase : t.phase = .busy
  unit : t.unit = .lzd
  err : t.err = .none
  capEn : t.capEn = false
  lenKnown : t.lenKnown = known
  skipRem : t.skipRem = 0
  owed : known = true → n < N ∧ n + t.takeRem.toNat = N
  dst : t.dst = (List.range n).map src
  cur : t.cur = BitVec.ofNat 12 (4078 + n)
  win : ∀ j, j < n → n ≤ j + 4096 → t.winAt (BitVec.ofNat 12 (4078 + j)) = src j
  ahead : t.cursor.BytesAhead rest
  ends : t.pos.toNat + rest.length = t.srcLen.toNat

/-- The decoder has ended with the `N` bytes of `src`. -/
structure Expanded (src : Nat → Byte) (N : Nat) (t : State) : Prop where
  phase : t.phase = .done
  err : t.err = .none
  dst : t.dst = (List.range N).map src

section

variable {src : Nat → Byte} {N n l : Nat} {known : Bool} {rest : List Byte} {s t u : State} {i : Instr}
  {byte : Nat → Byte}

/-- Bytes of a token, delivered. -/
theorem Expanding.dst_produced (h : Expanding src N known n rest t) (hp : Produced byte l t u)
    (hbyte : ∀ i, i < l → byte i = src (n + i)) : u.dst = (List.range (n + l)).map src := by
  obtain ⟨-, hdst, -⟩ := hp
  have h0 : t.skipRem.toNat = 0 := by rw [h.skipRem]; rfl
  rw [hdst, h.dst, h0, List.drop_zero, List.range_add, List.map_append, List.map_map]
  congr 1
  exact List.map_congr_left fun i hi => hbyte i (List.mem_range.mp hi)

/-- The window after the bytes of a token. -/
theorem Expanding.win_produced (h : Expanding src N known n rest t) (hp : Produced byte l t u)
    (hl1 : 1 ≤ l) (hl : l ≤ 18)
    (hbyte : ∀ i, i < l → byte i = src (n + i)) (j : Nat) (hj : j < n + l) (hj' : n + l ≤ j + 4096) :
    u.winAt (BitVec.ofNat 12 (4078 + j)) = src j := by
  obtain ⟨-, -, -, -, -, hwin⟩ := hp
  have hw : t.unit.hasWindow = true := by rw [h.unit]; rfl
  rw [hwin, h.cur]
  by_cases hjn : j < n
  · rw [ring_sub_of_lt hjn (by omega), if_neg fun e => absurd e.2 (by omega)]
    exact h.win j hjn (by omega)
  · have hsub := ring_sub_of_le (a := 4078) (i := n) (j := j) (by omega) (by omega)
    rw [hsub, if_pos ⟨hw, by omega⟩, hbyte _ (by omega)]
    congr 1
    omega

/-- What a token of the stream produces: `l` bytes of `src`. -/
structure TokenProduces (src : Nat → Byte) (n l : Nat) (byte : Nat → Byte) (i : Instr) (t : State) : Prop where
  few : 1 ≤ l ∧ l ≤ 18
  bytes : ∀ j, j < l → byte j = src (n + j)
  goesOn : Unhindered l t → ∃ u, exec i t = .next u ∧ Produced byte l t u ∧ AfterToken i t u ∧
    u.phase = t.phase ∧ u.err = t.err ∧ TokenFrame t u
  stops : LimitAt l t → ∃ u, exec i t = .next u ∧ Produced byte l t u ∧ u.phase = .done ∧ u.err = t.err

theorem Expanding.token_produces {m : Nat} (h : Expanding src N known n rest t) (hc : TokenCodes src n i m) :
    ∃ l byte, m = n + l ∧ TokenProduces src n l byte i t := by
  cases hc with
  | literal =>
    obtain ⟨hgo, hstop⟩ := byteTokensProduceTheirByte (.lzssLit (src n)) (src n) t rfl
    refine ⟨1, fun _ => src n, rfl, ⟨le_rfl, by decide⟩, fun j hj => ?_, hgo, fun hlim => ?_⟩
    · rw [Nat.lt_one_iff.mp hj]
      rfl
    · obtain ⟨u, he, hp, hd, herr, -⟩ := hstop hlim
      exact ⟨u, he, hp, hd, herr⟩
  | @backReference plo phi nl h1 hn heq =>
    have hw : t.unit.hasWindow = true := by rw [h.unit]; rfl
    have hd := (lzssField plo phi).isLt
    have hop : copyOperands t (.lzssMatch plo phi nl) = some ((lzssField plo phi).toNat, lzssLength nl) := by
      rw [lzssField_toNat]
      rfl
    have hlen : 1 ≤ lzssLength nl ∧ lzssLength nl ≤ 18 := by
      have := nl.isLt
      simp only [lzssLength, Config.threshold]
      omega
    generalize (lzssField plo phi).toNat = d at *
    refine ⟨lzssLength nl, copyByte t d, rfl, hlen, fun j hj => ?_,
      fun hroom => copyTokensRepeatTheWindow _ d _ t hop hw h1 (by omega) hroom, fun hlim => ?_⟩
    · rw [repeats_cyclically h1 hn heq j hj, copyByte]
      have hmod := Nat.mod_lt j h1
      have hsrc : t.cur - BitVec.ofNat 12 d + BitVec.ofNat 12 (j % d) = BitVec.ofNat 12 (4078 + (n - d + j % d)) := by
        rw [h.cur, show 4078 + n = 4078 + (n - d) + d by omega, BitVec.ofNat_add _ d, BitVec.add_sub_cancel,
          ← BitVec.ofNat_add, Nat.add_assoc]
      rw [hsrc]
      exact h.win _ (by omega) (by omega)
    · obtain ⟨u, he, hp, hdone, herr, -⟩ := copyTokensStopAtTheLimit _ d _ _ t hop hw h1 (by omega) le_rfl hlim
      exact ⟨u, he, hp, hdone, herr⟩

/-- Bytes read: the others stand before the cursor. -/
theorem bytesAhead_skip {c : Cursor} {as bs : List Byte} (h : c.BytesAhead (as ++ bs)) :
    c.BytesAhead as ∧ Cursor.BytesAhead { c with pos := c.pos + BitVec.ofNat 64 as.length } bs ∧
      (c.pos + BitVec.ofNat 64 as.length).toNat = c.pos.toNat + as.length := by
  obtain ⟨hread, hlen⟩ := h
  rw [List.length_append] at hlen
  have hpos : (c.pos + BitVec.ofNat 64 as.length).toNat = c.pos.toNat + as.length := by bv_omega
  refine ⟨⟨fun j b hj => hread j b ?_, by omega⟩, ⟨fun j b hj => ?_, ?_⟩, hpos⟩
  · rw [List.getElem?_append_left (List.getElem?_eq_some_iff.mp hj).1]
    exact hj
  · rw [hpos, Nat.add_assoc]
    refine hread (as.length + j) b ?_
    rw [List.getElem?_append_right (Nat.le_add_right _ _), Nat.add_sub_cancel_left]
    exact hj
  · change (c.pos + BitVec.ofNat 64 as.length).toNat + bs.length ≤ c.srcLen.toNat
    omega

/-- The state after `k` bytes have been read. -/
def State.skipBytes (s : State) (k : Nat) : State :=
  s.withCursor { s.cursor with pos := s.cursor.pos + BitVec.ofNat 64 k }

theorem Expanding.read {as : List Byte} (h : Expanding src N known n (as ++ rest) t) :
    t.cursor.BytesAhead as ∧ Expanding src N known n rest (t.skipBytes as.length) := by
  obtain ⟨hahead, hrest, hpos⟩ := bytesAhead_skip h.ahead
  have hends := h.ends
  rw [List.length_append] at hends
  refine ⟨hahead, h.alone, h.phase, h.unit, h.err, h.capEn, h.lenKnown, h.skipRem, h.owed, h.dst, h.cur, h.win, hrest,
    ?_⟩
  change (t.cursor.pos + BitVec.ofNat 64 as.length).toNat + rest.length = t.srcLen.toNat
  rw [hpos, Nat.add_assoc]
  exact hends

theorem TokenCodes.afterToken {m : Nat} (hc : TokenCodes src n i m) (h : AfterToken i t u) : FlagConsumed t u := by
  cases hc with
  | literal => exact h.1
  | backReference => exact h.1

/-- A token performed: the decoder has its bytes, and if they are the last ones wanted it has ended. -/
theorem Expanding.perform {m : Nat} (h : Expanding src N known n rest t) (hc : TokenCodes src n i m) (hm : m ≤ N) :
    ∃ u, exec i t = .next u ∧ (Expanded src N u ∨ (Expanding src N known m rest u ∧ FlagConsumed t u)) := by
  obtain ⟨l, byte, rfl, ⟨hl1, hl18⟩, hbyte, hgo, hstop⟩ := h.token_produces hc
  have hskip : t.skipRem.toNat = 0 := by rw [h.skipRem]; rfl
  have hcap (P : Prop) : t.capEn = true → P := fun e => nomatch h.capEn.symm.trans e
  by_cases hlast : known = true ∧ n + l = N
  · obtain ⟨hk, rfl⟩ := hlast
    obtain ⟨hlt, howed⟩ := h.owed hk
    obtain ⟨u, he, hp, hd, herr⟩ := hstop ⟨h.lenKnown.trans hk, fun e => by rw [e] at howed; simp at howed; omega,
      by omega, hcap _⟩
    exact ⟨u, he, .inl ⟨hd, herr.trans h.err, h.dst_produced hp hbyte⟩⟩
  · obtain ⟨u, he, hp, hafter, hph, herr, hf⟩ := hgo ⟨fun hk => by
      obtain ⟨hlt, howed⟩ := h.owed (h.lenKnown.symm.trans hk)
      have : n + l ≠ N := fun e => hlast ⟨h.lenKnown.symm.trans hk, e⟩
      omega, hcap _⟩
    have hkeep : u.agenda = t.agenda ∧ u.resetLine = t.resetLine ∧ u.unit = t.unit ∧ u.capEn = t.capEn ∧
        u.lenKnown = t.lenKnown ∧ u.cursor = t.cursor := by
      rw [hf]
      exact ⟨rfl, rfl, rfl, rfl, rfl, rfl⟩
    obtain ⟨hag, hrl, hu, hce, hlk, hcu⟩ := hkeep
    have hwin := h.win_produced hp hl1 hl18 hbyte
    have hdst := h.dst_produced hp hbyte
    obtain ⟨-, -, hsk, htk, hcur, -⟩ := hp
    refine ⟨u, he, .inr ⟨⟨⟨hag.trans h.alone.1, hrl.trans h.alone.2⟩, hph.trans h.phase, hu.trans h.unit,
      herr.trans h.err, hce.trans h.capEn, hlk.trans h.lenKnown, ?_, fun hk => ?_, hdst, ?_, hwin, hcu ▸ h.ahead, ?_⟩,
      hc.afterToken hafter⟩⟩
    · rw [hsk, hskip, h.skipRem, Nat.min_zero]
      rfl
    · obtain ⟨hlt, howed⟩ := h.owed hk
      have hne : n + l ≠ N := fun e => hlast ⟨hk, e⟩
      rw [htk, hskip, h.lenKnown, hk, if_pos rfl]
      bv_omega
    · rw [hcur, h.unit, h.cur]
      change BitVec.ofNat 12 (4078 + n) + BitVec.ofNat 12 l = _
      rw [← BitVec.ofNat_add, Nat.add_assoc]
    · have hpl : u.pos = t.pos ∧ u.srcLen = t.srcLen := ⟨congrArg Cursor.pos hcu, congrArg Cursor.srcLen hcu⟩
      rw [hpl.1, hpl.2]
      exact h.ends

/-- A token read and performed. -/
theorem Expanding.token {m : Nat} (h : Expanding src N known n (Piece.bytes (encodeToken i) ++ rest) t)
    (hx : ∃ x, t.tokenContext = some x ∧ lzssContext i = some x) (hc : TokenCodes src n i m) (hm : m ≤ N) :
    ∃ u, stepUnit t = .next u ∧ (Expanded src N u ∨ (Expanding src N known m rest u ∧ FlagConsumed t u)) := by
  obtain ⟨x, hx, hix⟩ := hx
  obtain ⟨hahead, hread⟩ := h.read
  obtain ⟨u, he, hu⟩ := hread.perform hc hm
  refine ⟨u, ?_, hu⟩
  rw [stepUnit_of_tokenContext hx, decodeToken_lzss hix hahead]
  exact he

end

end Sys2Proof.Machine
end


section
/-! # Compression and decompression (R188) -/

namespace Sys2Proof.Machine

/-! ## The flags of a group -/

/-- Flag `j` of flag byte `f` has selected the token to be read; with `j = 8` a flag byte is to be read. -/
def FlagsAhead (f : Byte) (j : Nat) (t : State) : Prop :=
  if j < 8 then
    t.flags = f >>> (j + 1) ∧ t.fcnt.toNat = 7 - j ∧
      t.ustate = if f.getLsbD j then UState.readLiteral else UState.readMatch
  else t.ustate = UState.readFlagByte

theorem FlagsAhead.next {f : Byte} {j : Nat} {t u : State} (h : FlagsAhead f j t) (hj : j < 8) (hu : FlagConsumed t u) :
    FlagsAhead f (j + 1) u := by
  rw [FlagsAhead, if_pos hj] at h
  obtain ⟨hflags, hfcnt, -⟩ := h
  rw [FlagConsumed] at hu
  unfold FlagsAhead
  by_cases h7 : j = 7
  · subst h7
    rw [if_pos (BitVec.eq_of_toNat_eq hfcnt)] at hu
    rw [if_neg (Nat.lt_irrefl 8)]
    obtain ⟨-, -, hus⟩ := hu
    exact hus
  · rw [if_neg (by bv_omega)] at hu
    obtain ⟨hf, hc, hus⟩ := hu
    rw [if_pos (by omega)]
    refine ⟨?_, by bv_omega, ?_⟩
    · rw [hf, hflags, ← BitVec.shiftRight_add]
    · rw [hus, hflags, BitVec.getLsbD_ushiftRight, Nat.add_zero]

/-- What is to be read next. -/
theorem FlagsAhead.context {f : Byte} {j : Nat} {t : State} (h : FlagsAhead f j t) (hu : t.unit = .lzd) :
    t.tokenContext =
      some (if j < 8 then if f.getLsbD j then TokenContext.literal else .matchBytes else .flagByte) := by
  rw [FlagsAhead] at h
  rw [State.tokenContext, hu]
  dsimp only
  split at h
  · next hj =>
    obtain ⟨-, -, hus⟩ := h
    rw [hus, if_pos hj]
    split <;> rfl
  · next hj =>
    rw [h, if_neg hj]
    rfl

section

variable {src : Nat → Byte} {N n m : Nat} {known : Bool} {rest : List Byte} {s t u : State} {i : Instr} {f : Byte}

/-- A token of the stream is one that its flag selects. -/
theorem TokenCodes.context (h : TokenCodes src n i m) :
    lzssContext i = some (if tokenFlag i then .literal else .matchBytes) := by
  cases h with
  | literal => rfl
  | backReference => rfl

/-- A flag byte read. -/
theorem Expanding.flagByte (h : Expanding src N known n (f :: rest) t) (hus : t.ustate = UState.readFlagByte) :
    ∃ u, stepUnit t = .next u ∧ Expanding src N known n rest u ∧ FlagsAhead f 0 u := by
  have hx : t.tokenContext = some .flagByte := by
    rw [State.tokenContext, h.unit, hus]
    rfl
  obtain ⟨hahead, hread⟩ := Expanding.read (as := [f]) h
  obtain ⟨u, he, hflags, hfcnt, hlit, hmatch, hf⟩ := flagByteSelectsTheNextToken f (t.skipBytes 1)
  refine ⟨u, ?_, ?_, ?_⟩
  · rw [stepUnit_of_tokenContext hx, decodeToken_lzss (i := .lzssFlags f) rfl hahead]
    exact he
  · rw [hf]
    obtain ⟨h1, h2, h3, h4, h5, h6, h7, h8, h9, h10, h11, h12, h13⟩ := hread
    exact ⟨h1, h2, h3, h4, h5, h6, h7, h8, h9, h10, h11, h12, h13⟩
  · rw [FlagsAhead, if_pos (by decide)]
    refine ⟨hflags, congrArg BitVec.toNat hfcnt, ?_⟩
    split
    · next hb => exact hlit hb
    · next hb => exact hmatch (Bool.eq_false_iff.mpr hb)

/-- A state the decoder comes to. -/
def Reaches (t u : State) : Prop := ∃ k, Host.Core.run Sys2Proof.core k t = .next u

theorem Reaches.refl (t : State) : Reaches t t := ⟨0, rfl⟩

theorem Expanding.reaches {v : State} (h : Expanding src N known n rest t) (hu : stepUnit t = .next u)
    (hv : Reaches u v) : Reaches t v := by
  obtain ⟨k, hv⟩ := hv
  exact ⟨k + 1, (run_succ k ((step_alone_busy h.alone h.phase).trans hu)).trans hv⟩

/-- The tokens of a group from the `j`-th on: the decoder ends among them, or performs them all. -/
theorem Expanding.tokens {is : List Instr} {j : Nat} (h : Expanding src N known n (payload is ++ rest) t)
    (hf : FlagsAhead f j t) (hflags : ∀ k i, is[k]? = some i → f.getLsbD (j + k) = tokenFlag i)
    (hj : j + is.length ≤ 8) (hc : Codes src n is m) (hm : m ≤ N) :
    ∃ u, Reaches t u ∧ (Expanded src N u ∨ (Expanding src N known m rest u ∧ FlagsAhead f (j + is.length) u)) := by
  induction is generalizing n j t with
  | nil =>
    cases hc
    exact ⟨t, .refl t, .inr ⟨h, hf⟩⟩
  | cons i is ih =>
    cases hc with
    | @cons _ n' _ _ _ hi his =>
      rw [List.length_cons] at hj
      rw [payload_cons, List.append_assoc] at h
      have hbit := hflags 0 i rfl
      rw [Nat.add_zero] at hbit
      have hx := hf.context h.unit
      rw [if_pos (by omega), hbit] at hx
      have hn' := his.le
      obtain ⟨u, hu, hend | ⟨hgo, hcons⟩⟩ := h.token ⟨_, hx, hi.context⟩ hi (by omega)
      · exact ⟨u, h.reaches hu (.refl u), .inl hend⟩
      · obtain ⟨v, hv, hres⟩ := ih hgo (hf.next (by omega) hcons) (fun k x hk => by
          rw [Nat.add_assoc, Nat.add_comm 1]
          exact hflags (k + 1) x hk) (by omega) his
        refine ⟨v, h.reaches hu hv, ?_⟩
        rwa [List.length_cons, ← Nat.add_assoc, Nat.add_right_comm]

/-- A whole group. -/
theorem Expanding.group {g : List Instr} (h : Expanding src N known n (encodeGroup g ++ rest) t)
    (hus : t.ustate = UState.readFlagByte) (hg : g.length ≤ 8) (hc : Codes src n g m) (hm : m ≤ N) :
    ∃ u, Reaches t u ∧ (Expanded src N u ∨
      (Expanding src N known m rest u ∧ FlagsAhead (groupFlags g) g.length u)) := by
  obtain ⟨u, hu, hgo, hf⟩ := Expanding.flagByte (f := groupFlags g) h hus
  obtain ⟨v, hv, hres⟩ := hgo.tokens hf (fun k i hk => by rw [Nat.zero_add, groupFlags_getLsbD g k hg, hk]; rfl)
    (by rwa [Nat.zero_add]) hc hm
  rw [Nat.zero_add] at hres
  exact ⟨v, h.reaches hu hv, hres⟩

theorem Reaches.trans {v : State} (h : Reaches t u) (h' : Reaches u v) : Reaches t v := by
  obtain ⟨k, hk⟩ := h
  induction k generalizing t with
  | zero => cases hk; exact h'
  | succ k ih =>
    cases hs : step t with
    | next w =>
      rw [run_succ k hs] at hk
      obtain ⟨j, hj⟩ := ih hk
      exact ⟨j + 1, (run_succ j hs).trans hj⟩
    | fault r => simp [Host.Core.run, Sys2Proof.core, hs] at hk
    | refused r => simp [Host.Core.run, Sys2Proof.core, hs] at hk

/-- The full groups. -/
theorem Expanding.groups {gs : List (List Instr)} (h : Expanding src N known n (gs.flatMap encodeGroup ++ rest) t)
    (hus : t.ustate = UState.readFlagByte) (hgs : ∀ g ∈ gs, g.length = 8) (hc : Codes src n gs.flatten m) (hm : m ≤ N) :
    ∃ u, Reaches t u ∧ (Expanded src N u ∨ (Expanding src N known m rest u ∧ u.ustate = UState.readFlagByte)) := by
  induction gs generalizing n t with
  | nil =>
    cases hc
    exact ⟨t, .refl t, .inr ⟨h, hus⟩⟩
  | cons g gs ih =>
    rw [List.flatMap_cons, List.append_assoc] at h
    have h8 := hgs g (List.mem_cons_self ..)
    rw [List.flatten_cons] at hc
    obtain ⟨k, hg, hrest⟩ := hc.of_append
    have hkm := hrest.le
    obtain ⟨u, hu, hend | ⟨hgo, hf⟩⟩ := h.group hus h8.le hg (by omega)
    · exact ⟨u, hu, .inl hend⟩
    · rw [h8] at hf
      obtain ⟨v, hv, hres⟩ := ih hgo hf (fun x hx => hgs x (List.mem_cons_of_mem _ hx)) hrest
      exact ⟨v, hu.trans hv, hres⟩

/-- With all bytes produced and the length unknown, the next reading finds the end of the input. -/
theorem Expanding.end {j : Nat} (h : Expanding src N known N [] t) (hf : FlagsAhead f j t) :
    ∃ u, stepUnit t = .next u ∧ Expanded src N u := by
  have hk : t.lenKnown = false := by
    rw [h.lenKnown]
    cases known with
    | false => rfl
    | true => exact absurd (h.owed rfl).1 (Nat.lt_irrefl N)
  have hend : t.cursor.pos = t.cursor.srcLen := BitVec.eq_of_toNat_eq h.ends
  have hread : t.cursor.readByte = .endOfInput t.cursor := by
    rcases t.cursor.readByte_cases with ⟨-, hr⟩ | ⟨hne, -⟩
    · exact hr
    · exact absurd hend hne
  have hdecode {x : TokenContext} (hx : x = .literal ∨ x = .matchBytes ∨ x = .flagByte) :
      decodeToken x t.cursor = .endOfInput t.cursor := by
    rcases hx with rfl | rfl | rfl
    · rw [decodeToken, hread]; rfl
    · rw [decodeToken, decodeLzssMatch, hread]; rfl
    · rw [decodeToken, hread]; rfl
  have hstep : stepUnit t = .next (t.withCursor t.cursor).endOfInput := by
    rw [stepUnit_of_tokenContext (hf.context h.unit), hdecode (by split_ifs <;> simp)]
    rfl
  refine ⟨_, hstep, ?_⟩
  rw [State.endOfInput, if_neg (by rw [Bool.not_eq_true]; exact hk)]
  exact ⟨rfl, h.err, h.dst⟩

/-- A whole stream. -/
theorem Expanding.stream {gs : List (List Instr)} {g : List Instr} {bytes : List Byte}
    (hs : StreamOf src N gs g bytes) (h : Expanding src N known 0 bytes t) (hus : t.ustate = UState.readFlagByte) :
    ∃ u, Reaches t u ∧ Expanded src N u := by
  obtain ⟨k, hfull, hpart⟩ := hs.codes.of_append
  have hkN := hpart.le
  rw [hs.bytes_eq] at h
  have finish {u : State} {f : Byte} {j : Nat} (hu : Reaches t u) (hgo : Expanding src N known N [] u)
      (hf : FlagsAhead f j u) : ∃ v, Reaches t v ∧ Expanded src N v := by
    obtain ⟨v, hv, hend⟩ := hgo.end hf
    exact ⟨v, hu.trans (hgo.reaches hv (.refl v)), hend⟩
  obtain ⟨u, hu, hend | ⟨hgo, hus'⟩⟩ := h.groups hus hs.full hfull (by omega)
  · exact ⟨u, hu, hend⟩
  · split at hgo
    · next hg =>
      rw [hg] at hpart
      cases hpart
      exact finish (f := 0) (j := 8) hu hgo hus'
    · rw [← List.append_nil (encodeGroup g)] at hgo
      obtain ⟨v, hv, hend | ⟨hgo', hf⟩⟩ := hgo.group hus' hs.part.le hpart le_rfl
      · exact ⟨v, hu.trans hv, hend⟩
      · exact finish (hu.trans hv) hgo' hf

/-! ## The start of the decoder -/

/-- The spec of a `DECOMPRESS` start (R267). -/
def expandSpec (known : Bool) : StartSpec := ⟨.lzd, .lcgXor, known, false, false, known⟩

/-- The start of the decoder on a stream in `SRC`: it is `Done` at once if it wants no byte (R273). -/
theorem State.start_expands {bytes : List Byte} {src : Nat → Byte} (ha : EngineAlone s)
    (hlen : s.srcLen.toNat = bytes.length)
    (hsrc : ∀ j b, bytes[j]? = some b → Memory.read Config.srcUnwritten s.src j = b) (known : Bool) :
    Expanded src s.take.toNat (s.start (expandSpec known)) ∨
      (Expanding src s.take.toNat known 0 bytes (s.start (expandSpec known)) ∧
        (s.start (expandSpec known)).ustate = UState.readFlagByte) := by
  have ha' := ha.start (expandSpec known)
  obtain ⟨herr, hdst, hpos, -, hlk, hce, hsk, htk, hunit, hus, hphase⟩ := s.start_shell (p := expandSpec known) nofun
  obtain ⟨-, hcur⟩ := s.start_windowFilled (p := expandSpec known) (.inl rfl)
  have hkeep : (s.start (expandSpec known)).src = s.src ∧ (s.start (expandSpec known)).srcLen = s.srcLen := by
    rw [s.start_frame]
    exact ⟨rfl, rfl⟩
  obtain ⟨hs, hl⟩ := hkeep
  generalize s.start (expandSpec known) = t at *
  have hpos0 : t.pos.toNat = 0 := by rw [hpos]; rfl
  by_cases hdone : known = true ∧ s.take = 0
  · obtain ⟨rfl, h0⟩ := hdone
    left
    refine ⟨?_, herr, ?_⟩
    · rw [hphase]
      exact if_pos ⟨rfl, rfl, h0⟩
    · rw [hdst, h0]
      rfl
  · right
    refine ⟨⟨ha', ?_, hunit, herr, hce, hlk, hsk, fun hk => ?_, hdst, hcur, nofun, ⟨fun j b hj => ?_, ?_⟩, ?_⟩, hus⟩
    · rw [hphase]
      refine if_neg fun ⟨_, hk, h0⟩ => hdone ⟨hk, ?_⟩
      rwa [show (expandSpec known).usesTake = true from hk, if_pos rfl] at h0
    · rw [htk, show (expandSpec known).usesTake = true from hk, if_pos rfl]
      have h0 : s.take ≠ 0 := fun e => hdone ⟨hk, e⟩
      exact ⟨by bv_omega, Nat.zero_add _⟩
    · change Memory.read Config.srcUnwritten t.src (t.pos.toNat + j) = b
      rw [hs, hpos0, Nat.zero_add]
      exact hsrc j b hj
    · change t.pos.toNat + bytes.length ≤ t.srcLen.toNat
      rw [hl, hpos0, hlen, Nat.zero_add]
    · rw [hl, hpos0, hlen, Nat.zero_add]

end

/-- Settles O44: the decoder performs the tokens of the stream, and they code the input. -/
theorem compressedStreamDecodesToItsInput : Obligations.CompressedStreamDecodesToItsInput := by
  intro lk ce known k f m s u t hb ha hu ht hdone hlen hm
  cases CompressRun.of_run hb ha hu ht with
  | started h => exact nomatch hdone.symm.trans h.phase
  | compressing h => exact nomatch hdone.symm.trans h.phase
  | ended h =>
    obtain ⟨gs, g, hstream⟩ := h.stream
    have hnext := exec_start_next (i := .decompressLzss known false) (p := expandSpec known) rfl
      (s := { t with src := m, srcLen := BitVec.ofNat 64 t.dst.length, take := s.srcLen, fill := f })
      (by rw [h.phase]; exact Phase.noConfusion)
    rcases State.start_expands (s := { t with
        src := m, srcLen := BitVec.ofNat 64 t.dst.length, take := s.srcLen, fill := f }) (bytes := t.dst)
      (src := srcByte s) h.alone ((BitVec.toNat_ofNat ..).trans (Nat.mod_eq_of_lt hlen)) hm known with hend | ⟨hgo, hus⟩
    · exact ⟨_, 0, _, hnext, rfl, hend.phase, hend.err, hend.dst⟩
    · obtain ⟨w, ⟨k', hk⟩, hend⟩ := Expanding.stream hstream hgo hus
      exact ⟨_, k', w, hnext, hk, hend.phase, hend.err, hend.dst⟩

end Sys2Proof.Machine
end

section
/-! # The end marker (R227) -/

namespace Sys2Proof.Machine

/-- Settles O19: the marker is the end of the input, whichever its length bit, and `len_known` selects its two cases. -/
theorem endMarkerEndsTheCommand : Obligations.EndMarkerEndsTheCommand := by
  intro x s
  rw [exec_glzEnd]
  rcases s.endOfInput_cases with ⟨hknown, hend⟩ | ⟨hunknown, hend⟩
  · exact ⟨fun _ => congrArg _ hend, fun h => nomatch hknown.symm.trans h⟩
  · exact ⟨fun h => (nomatch hunknown.symm.trans h), fun _ => congrArg _ hend⟩

end Sys2Proof.Machine
end

section
/-! # The ciphers (45_keyed_cipher.md R251 to R254) -/

namespace Sys2Proof.Machine

/-! ## The start (R251, R270) -/

/-- The spec of an `APPLY_CIPHER` start (R270). -/
def cipherSpec (k : CipherKind) : StartSpec := ⟨.kc, k, false, false, false, false⟩

/-- What a start of KC may write. -/
theorem State.start_kc_frame (s : State) {p : StartSpec} (hu : p.unit = .kc) : s.start p = { s with
    err := (s.start p).err, dst := (s.start p).dst, pos := (s.start p).pos, outCount := (s.start p).outCount
    lenKnown := (s.start p).lenKnown, capEn := (s.start p).capEn, skipRem := (s.start p).skipRem
    takeRem := (s.start p).takeRem, unit := (s.start p).unit, ustate := (s.start p).ustate
    phase := (s.start p).phase, key := (s.start p).key, cipherKind := (s.start p).cipherKind } := by
  obtain ⟨u, k, lk, ce, us, ut⟩ := p
  cases hu
  rw [State.start, State.startPhase_eq]
  rfl

/-- The cipher's registers after its start (R251). -/
theorem State.start_cipher_registers (s : State) (k : CipherKind) :
    (s.start (cipherSpec k)).key = s.keySeed ∧ (s.start (cipherSpec k)).cipherKind = k := by
  obtain ⟨-, -, -, -, hkc⟩ := s.start_readers (cipherSpec k)
  exact hkc rfl

/-- Settles O6: both commands have a start, whose writes the lemmas on starts list. -/
theorem cipherStarts : Obligations.CipherStarts := by
  intro i lk ce s hb hi
  have started (k : CipherKind) (hp : startSpec i = some (cipherSpec k)) :
      exec i s = .next (s.start (cipherSpec k)) ∧ StartedShell .kc false false 0 0 (s.start (cipherSpec k)) :=
    ⟨exec_start_next hp hb, s.start_shell nofun⟩
  rcases hi with rfl | rfl
  · obtain ⟨he, hshell⟩ := started .lcgXor rfl
    obtain ⟨hkey, hkind⟩ := s.start_cipher_registers .lcgXor
    exact ⟨_, he, hshell, hkey, hkind.trans (if_pos rfl).symm, s.start_kc_frame rfl⟩
  · obtain ⟨he, hshell⟩ := started .posXor rfl
    obtain ⟨hkey, hkind⟩ := s.start_cipher_registers .posXor
    exact ⟨_, he, hshell, hkey, hkind.trans (if_neg nofun).symm, s.start_kc_frame rfl⟩

/-! ## A step (R252, R253)

The key stream is written out from the state the cipher starts in; `State.ciphered` is the state it is in after `n`
bytes, and each step goes from one such state to the next. -/

/-- The key register after `n` bytes, from the state the cipher starts in (R252): `POS_XOR` leaves it alone. -/
def State.cipherKeyAfter (s : State) (n : Nat) : BitVec 32 :=
  match s.cipherKind with
  | .lcgXor => lcgKeyAt s.key (n / 4)
  | .posXor => s.key

/-- The byte that byte `n` is XORed with (R252, R253). -/
def State.cipherKeyByte (s : State) (n : Nat) : Byte :=
  match s.cipherKind with
  | .lcgXor => (lcgKeyAt s.key (n / 4)).extractLsb' (8 * (n % 4)) 8
  | .posXor => BitVec.ofNat 8 (s.srcLen.toNat + 1 - n)

/-- The state a cipher is in after `n` bytes. -/
def State.ciphered (s : State) (n : Nat) : State :=
  { s with
    pos := BitVec.ofNat 64 n, outCount := BitVec.ofNat 64 n, key := s.cipherKeyAfter n
    dst := (List.range n).map fun i => srcByte s i ^^^ s.cipherKeyByte i }

/-- The key advances after every fourth byte (R252). -/
theorem lcgNextKey_lcgKeyAt (seed : BitVec 32) (i : Count) :
    lcgNextKey (lcgKeyAt seed (i.toNat / 4)) i = lcgKeyAt seed ((i.toNat + 1) / 4) := by
  unfold lcgNextKey
  split
  · next hlast =>
    rw [show (i.toNat + 1) / 4 = i.toNat / 4 + 1 by omega]
    rfl
  · next hmore => rw [show (i.toNat + 1) / 4 = i.toNat / 4 by omega]

/-- No byte done: the start itself. -/
theorem State.ciphered_zero {s : State} (hpos : s.pos = 0) (hcount : s.outCount = 0) (hdst : s.dst = []) :
    s.ciphered 0 = s := by
  have hkey : s.cipherKeyAfter 0 = s.key := by
    unfold State.cipherKeyAfter
    split <;> rfl
  rw [State.ciphered, hkey]
  cases s
  cases hpos
  cases hcount
  cases hdst
  rfl

/-- The key byte a step uses: that of the byte at `pos`. -/
def State.keyByteInUse (s : State) : Byte :=
  match s.cipherKind with
  | .lcgXor => lcgKeyByte s.key s.pos
  | .posXor => posKeyByte s.srcLen s.pos

/-- The key register after a step on a byte. -/
def State.nextKey (s : State) : BitVec 32 :=
  match s.cipherKind with
  | .lcgXor => lcgNextKey s.key s.pos
  | .posXor => s.key

/-- At the end of `SRC` the cipher stops. -/
theorem State.stepCipher_of_end {s : State} (h : s.pos = s.srcLen) : s.stepCipher = s.stop := by
  rw [State.stepCipher, State.nextInput, if_pos h]

/-- Before it, a byte is read, transformed and emitted. -/
theorem State.stepCipher_of_byte {s : State} (h : s.pos ≠ s.srcLen) : s.stepCipher =
    { s with
      pos := s.pos + 1, outCount := s.outCount + 1, key := s.nextKey
      dst := s.dst ++ [srcByte s s.pos.toNat ^^^ s.keyByteInUse] } := by
  rw [State.stepCipher, State.nextInput, if_neg h, State.nextKey, State.keyByteInUse]
  dsimp only
  cases s.cipherKind <;> rfl

/-- After `n` bytes the key byte in use is the `n`-th. -/
theorem State.keyByteInUse_ciphered {s : State} {n : Nat} (hn : (BitVec.ofNat 64 n).toNat = n) :
    (s.ciphered n).keyByteInUse = s.cipherKeyByte n := by
  rw [State.keyByteInUse, State.cipherKeyByte, State.ciphered, State.cipherKeyAfter]
  cases s.cipherKind with
  | lcgXor => simp only [lcgKeyByte, hn]
  | posXor => simp only [posKeyByte, hn]

/-- After `n` bytes the next key is that after `n + 1`. -/
theorem State.nextKey_ciphered {s : State} {n : Nat} (hn : (BitVec.ofNat 64 n).toNat = n) :
    (s.ciphered n).nextKey = s.cipherKeyAfter (n + 1) := by
  rw [State.nextKey, State.ciphered, State.cipherKeyAfter, State.cipherKeyAfter]
  cases s.cipherKind with
  | lcgXor =>
    have hnext := lcgNextKey_lcgKeyAt s.key (BitVec.ofNat 64 n)
    rwa [hn] at hnext
  | posXor => rfl

/-- A step transforms the next byte. -/
theorem State.stepCipher_ciphered {s : State} {n : Nat} (h : n < s.srcLen.toNat) :
    (s.ciphered n).stepCipher = s.ciphered (n + 1) := by
  have hn : (BitVec.ofNat 64 n).toNat = n := by rw [BitVec.toNat_ofNat]; omega
  have hne : (s.ciphered n).pos ≠ (s.ciphered n).srcLen := fun e => by
    have : (BitVec.ofNat 64 n).toNat = s.srcLen.toNat := congrArg BitVec.toNat e
    omega
  have hbyte : srcByte (s.ciphered n) (s.ciphered n).pos.toNat = srcByte s n := congrArg (srcByte s) hn
  rw [State.stepCipher_of_byte hne, hbyte, State.keyByteInUse_ciphered hn, State.nextKey_ciphered hn, State.ciphered,
    State.ciphered, BitVec.ofNat_add n 1, List.range_succ, List.map_append, List.map_singleton]
  rfl

/-! ## The whole command (R252 to R254) -/

theorem Count.ofNat_toNat (n : Count) : BitVec.ofNat 64 n.toNat = n :=
  (BitVec.ofNat_toNat 64 n).trans (BitVec.setWidth_eq n)

/-- From any of its states the cipher transforms the bytes that are left and stops. -/
theorem State.ciphered_run {s : State} (ha : EngineAlone s) (hb : s.phase = .busy) (hu : s.unit = .kc)
    (hus : s.ustate = UState.byte) {m n : Nat} (h : n + m = s.srcLen.toNat) :
    Host.Core.run Sys2Proof.core (m + 1) (s.ciphered n) = .next (s.ciphered s.srcLen.toNat).stop := by
  have hstep (n : Nat) : step (s.ciphered n) = .next (s.ciphered n).stepCipher :=
    (step_alone_busy (s := s.ciphered n) ha hb).trans (stepUnit_of_cipher (s := s.ciphered n) hu hus)
  induction m generalizing n with
  | zero =>
    obtain rfl : n = s.srcLen.toNat := h
    rw [run_succ 0 (hstep _), State.stepCipher_of_end (Count.ofNat_toNat s.srcLen)]
    rfl
  | succ m ih =>
    rw [run_succ (m + 1) (hstep n), State.stepCipher_ciphered (by omega)]
    exact ih (by omega)

/-- A cipher from its start to its end. -/
theorem State.start_cipher_run {s : State} (ha : EngineAlone s) (k : CipherKind) :
    Host.Core.run Sys2Proof.core (s.srcLen.toNat + 1) (s.start (cipherSpec k)) =
      .next ((s.start (cipherSpec k)).ciphered s.srcLen.toNat).stop := by
  obtain ⟨-, hdst, hpos, hcount, -, -, -, -, hunit, hus, hphase⟩ := s.start_shell (p := cipherSpec k) nofun
  have hlen : (s.start (cipherSpec k)).srcLen = s.srcLen := by rw [s.start_kc_frame rfl]
  have hrun := State.ciphered_run (ha.start (cipherSpec k)) hphase hunit hus (n := 0) (Nat.zero_add _)
  rwa [State.ciphered_zero hpos hcount hdst, hlen] at hrun

/-- `t` is the end of a cipher on the input of `s`; the key and the key bytes are those of its start `u`. -/
structure Enciphered (s u t : State) : Prop where
  phase : t.phase = .done
  err : t.err = .none
  key : t.key = u.cipherKeyAfter s.srcLen.toNat
  pos : t.pos = s.srcLen
  count : t.outCount = s.srcLen
  dst : t.dst = (List.range s.srcLen.toNat).map fun i => srcByte s i ^^^ u.cipherKeyByte i

/-- The end that `State.start_cipher_run` comes to. -/
theorem State.start_cipher_enciphers (s : State) (k : CipherKind) :
    Enciphered s (s.start (cipherSpec k)) ((s.start (cipherSpec k)).ciphered s.srcLen.toNat).stop := by
  obtain ⟨herr, -⟩ := s.start_shell (p := cipherSpec k) nofun
  have hsrc : srcByte (s.start (cipherSpec k)) = srcByte s := by rw [s.start_kc_frame rfl]; rfl
  exact ⟨rfl, herr, rfl, Count.ofNat_toNat s.srcLen, Count.ofNat_toNat s.srcLen, by rw [← hsrc]; rfl⟩

/-- Settles O45: the start of `LCG_XOR` has the seed as its key, and its steps go through the key stream. -/
theorem lcgXorTransformsTheBuffer : Obligations.LcgXorTransformsTheBuffer := by
  intro lk ce s hb ha
  obtain ⟨hphase, herr, hkey, hpos, hcount, hdst⟩ := s.start_cipher_enciphers .lcgXor
  obtain ⟨hseed, hkind⟩ := s.start_cipher_registers .lcgXor
  simp only [State.cipherKeyAfter, State.cipherKeyByte, hkind, hseed] at hkey hdst
  exact ⟨_, _, exec_start_next rfl hb, State.start_cipher_run ha .lcgXor, hphase, herr, hkey, hpos, hcount, hdst⟩

/-- Settles O46: the steps of `POS_XOR` count down from `SRC_LEN + 1`, whatever the key. -/
theorem posXorTransformsTheBuffer : Obligations.PosXorTransformsTheBuffer := by
  intro lk ce s hb ha
  obtain ⟨hphase, herr, -, hpos, hcount, hdst⟩ := s.start_cipher_enciphers .posXor
  obtain ⟨-, hkind⟩ := s.start_cipher_registers .posXor
  have hlen : (s.start (cipherSpec .posXor)).srcLen = s.srcLen := by rw [s.start_kc_frame rfl]
  simp only [State.cipherKeyByte, hkind, hlen] at hdst
  exact ⟨_, _, exec_start_next rfl hb, State.start_cipher_run ha .posXor, hphase, herr, hpos, hcount, hdst⟩

end Sys2Proof.Machine
end

section
/-! # Commands in each phase, and the instruction a turn runs (46_commands.md R266, R271, R272, R274, R280) -/

namespace Sys2Proof.Machine

/-! ## A write to `CMD` (R272) -/

/-- A word that stands for a command is executed as that command. -/
theorem runCommand_of_some {w : CmdWord} {i : Instr} (h : decodeCommand w = some i) (s : State) :
    runCommand w s = exec i s := by
  rw [runCommand, h]

/-- While Busy a word that stands for no command is ignored. -/
theorem runCommand_of_none_busy {w : CmdWord} (h : decodeCommand w = none) {s : State} (hb : s.phase = .busy) :
    runCommand w s = .next s := by
  rw [runCommand, h]
  dsimp only
  rw [if_pos hb]

/-- The host's write of a word to `CMD`, reset not asserted. -/
theorem step_writeCmd {s : State} {v : Nat} {rest : List Turn} (h : HostTurnNext s (.writeReg 0 v) rest) :
    step s = runCommand (BitVec.ofNat 32 v) { s with agenda := rest } := by
  obtain ⟨-, hreset⟩ := id h
  rw [step_hostTurnNext h, hostTurn]
  dsimp only
  rw [hreset, if_neg Bool.false_ne_true, if_pos rfl]

/-! ## `NOP` and `ABORT` (R266, R271) -/

/-- The words of `NOP`, whatever their `KIND`, `LEN_KNOWN` and `CAP_EN` (R93). -/
theorem decodeCommand_of_nop {w : CmdWord} (hop : CmdWord.op w = 0) (hr : CmdWord.reserved w = 0) :
    decodeCommand w = some (.nop (CmdWord.kind w) (CmdWord.lenKnown w) (CmdWord.capEn w)) := by
  have habort : CmdWord.op w ≠ 15 := by rw [hop]; decide
  rw [decodeCommand, if_neg habort, if_neg (not_not_intro hr), if_pos hop]

/-- The words of `ABORT`, whatever their other bits. -/
theorem decodeCommand_of_abort {w : CmdWord} (hop : CmdWord.op w = 15) :
    decodeCommand w = some (.abort (w.extractLsb' 4 28)) := by
  rw [decodeCommand, if_pos hop]

theorem exec_nop (k : BitVec 4) (lk ce : Bool) (s : State) : exec (.nop k lk ce) s = .next s := rfl

theorem exec_abort (rest : BitVec 28) (s : State) : exec (.abort rest) s = .next s.aborted := rfl

/-- Settles O1: the word stands for `NOP`, whose meaning is the state it is run in. -/
theorem nopHasNoEffect : Obligations.NopHasNoEffect :=
  ⟨fun _ s hop hr => (runCommand_of_some (decodeCommand_of_nop hop hr) s).trans (exec_nop _ _ _ s), exec_nop⟩

/-- Settles O2: the word stands for `ABORT` by its low four bits alone, and the phase plays no part. -/
theorem abortReturnsToIdle : Obligations.AbortReturnsToIdle :=
  ⟨fun _ s hop => ⟨_, runCommand_of_some (decodeCommand_of_abort hop) s⟩, fun rest s =>
    ⟨s.aborted, exec_abort rest s, rfl, rfl, rfl, rfl, rfl, rfl, rfl, rfl, rfl, rfl, rfl, rfl, rfl⟩⟩

/-! ## While Busy (R280) -/

/-- While Busy a command other than `ABORT` is ignored: it is `NOP`, or it has a start, which is not accepted. -/
theorem exec_command_busy {i : Instr} (hc : i.isCommand = true) (ha : ∀ rest, i ≠ .abort rest) {s : State}
    (hb : s.phase = .busy) : exec i s = .next s := by
  by_cases hn : ∃ k lk ce, i = .nop k lk ce
  · obtain ⟨k, lk, ce, rfl⟩ := hn
    exact exec_nop k lk ce s
  · simp only [not_exists] at hn
    obtain ⟨p, hp⟩ := startSpec_isSome hc ha hn
    rw [exec_start hp, State.accept, if_pos hb]

/-- Only a word with `OP = 15` stands for `ABORT` (R92). -/
theorem op_of_decodeCommand_abort {w : CmdWord} {rest : BitVec 28} (h : decodeCommand w = some (.abort rest)) :
    CmdWord.op w = 15 := by
  have hw : rest ++ 15#4 = w := Option.some.inj (encodeCommand_of_decodeCommand h)
  rw [← hw]
  exact CmdWord.op_abort rest

/-- Settles O3: a word stands for a command that is ignored, or for none and is not refused either. -/
theorem commandsIgnoredWhileBusy : Obligations.CommandsIgnoredWhileBusy := by
  refine ⟨fun _ _ hc ha hb => exec_command_busy hc ha hb, fun w s hop hb => ?_⟩
  cases hd : decodeCommand w with
  | none => exact runCommand_of_none_busy hd hb
  | some i =>
    have hnot : ∀ rest, i ≠ .abort rest := fun _ hi =>
      hop (op_of_decodeCommand_abort (hd.trans (congrArg some hi)))
    rw [runCommand_of_some hd]
    exact exec_command_busy (decodeCommand_isCommand hd) hnot hb

/-! ## Turns (R274, R320) -/

/-- Settles O9: a write to `CMD` runs the decoded command, and a unit's step performs the token it has read whole. -/
theorem stepRunsTheDecodedInstruction : Obligations.StepRunsTheDecodedInstruction := by
  refine ⟨fun v i rest s h hd => ?_, fun x i c rest s hn hr hb hx hd => ?_,
    fun path c rest s hn hr hb hu hus hd => ?_⟩
  · rw [step_writeCmd h, runCommand_of_some hd]
  · rw [step_window hn hr hb hx, hd]
    rfl
  · rw [step_huf hn hr hb hu hus, hd]
    rfl

/-- Outside Busy and under reset an engine turn changes nothing. -/
theorem engineTurn_of_not_running {s : State} (h : s.phase ≠ .busy ∨ s.resetLine = true) : engineTurn s = .next s := by
  refine if_neg fun ⟨hb, hr⟩ => ?_
  rcases h with hphase | hreset
  · exact hphase hb
  · exact nomatch hr.symm.trans hreset

/-- Settles O11: the turn is taken from the agenda, and the engine does nothing with it. -/
theorem engineStepsOnlyWhileBusy : Obligations.EngineStepsOnlyWhileBusy := fun rest s hn h =>
  (step_engine hn).trans (engineTurn_of_not_running (s := { s with agenda := rest }) h)

end Sys2Proof.Machine
end

section
/-! # The failures of the units (60_exceptions.md R290 to R295) -/

namespace Sys2Proof.Machine

/-- The error recorded in a state is one that its unit can raise, and the condition under which it is raised holds of
the registers as they then stand. A state without an error fits. -/
def FailureFits (s : State) : Prop :=
  match s.err with
  | .none => True
  | .truncatedInput => s.unit.isDecoder = true ∧ s.lenKnown = true
  | .invalidControlCode => s.unit = .huf
  | .backReferenceOutOfRange => s.unit = .lzd ∨ s.unit = .glz
  | .outputOverflow => s.unit.isDecoder = true ∧ s.capEn = true ∧ s.outCount = s.maxOut
  | .unsupportedVariant => False

theorem FailureFits.of_none {s : State} (he : s.err = .none) : FailureFits s := by
  rw [FailureFits, he]
  trivial

theorem isDecoder_of_window {u : UnitSel} (hu : u = .lzd ∨ u = .glz) : u.isDecoder = true := by
  rcases hu with rfl | rfl <;> rfl

/-! ## Where a failure is raised -/

/-- The end of the input fails only where the length is known (R131, R291). -/
theorem FailureFits.endOfInput {s : State} (hd : s.unit.isDecoder = true) (he : s.err = .none) :
    FailureFits s.endOfInput := by
  rcases s.endOfInput_cases with ⟨hl, h⟩ | ⟨-, h⟩ <;> rw [h]
  · exact ⟨hd, hl⟩
  · exact .of_none he

/-- A byte fails only at the cap, and is then not counted (R135, R294). -/
theorem FailureFits.produce {s : State} (hd : s.unit.isDecoder = true) (he : s.err = .none) (b : Byte) :
    FailureFits (s.produce b).state := by
  have hcount : (s.countByte b).err = .none := by rw [State.countByte_eq]; exact he
  rcases s.produce_cases b with ⟨hcap, hfull, h⟩ | ⟨-, ⟨-, h⟩ | ⟨-, -, h⟩ | ⟨-, -, -, h⟩ | ⟨-, -, -, h⟩⟩ <;> rw [h]
  · exact ⟨hd, hcap, hfull⟩
  all_goals exact .of_none hcount

theorem FailureFits.copyBytes (d n : Nat) {s : State} (hd : s.unit.isDecoder = true) (he : s.err = .none) :
    FailureFits (State.copyBytes d n s).state := by
  induction n generalizing s with
  | zero => exact .of_none he
  | succ n ih =>
    unfold State.copyBytes
    have hfirst := FailureFits.produce hd he (s.winAt (s.cur - BitVec.ofNat 12 d))
    obtain ⟨-, hframe, hends⟩ := s.produce_produces (s.winAt (s.cur - BitVec.ofNat 12 d))
    cases hp : s.produce (s.winAt (s.cur - BitVec.ofNat 12 d)) with
    | halt t => rw [hp] at hfirst; exact hfirst
    | go t =>
      rw [hp] at hframe hends
      obtain ⟨-, herr⟩ : Continues s t := hends
      have hunit : t.unit = s.unit := by rw [show t = _ from hframe]
      exact ih (hunit ▸ hd) (herr.trans he)

/-- A copy fails by its distance, or by one of its bytes (R133, R293). -/
theorem FailureFits.copyBack {s : State} (hu : s.unit = .lzd ∨ s.unit = .glz) (he : s.err = .none) (d n : Nat) :
    FailureFits (s.copyBack d n).state := by
  unfold State.copyBack
  split
  · exact hu
  · exact .copyBytes d n (isDecoder_of_window hu) he

/-! ## Tokens -/

/-- The last lines of a token raise nothing. -/
theorem FailureFits.lines {x : Flow} {f : State → State} (hx : FailureFits x.state)
    (hf : ∀ t, FailureFits t → FailureFits (f t)) : FailureFits (x.andThen fun t => .go (f t)).state := by
  cases x with
  | go t => exact hf t hx
  | halt t => exact hx

theorem FailureFits.endByte {s : State} (h : FailureFits s) (i : Instr) : FailureFits (s.endByte i) := by
  rw [s.endByte_frame]
  exact h

theorem FailureFits.endCopy {s : State} (h : FailureFits s) (d : Nat) (i : Instr) : FailureFits (s.endCopy d i) := by
  rw [s.endCopy_frame]
  exact h

/-- A token of any class fails only as its window decoder can. -/
theorem TokenClass.failureFits {s t : State} {i : Instr} (hc : TokenClass s i) (hu : s.unit = .lzd ∨ s.unit = .glz)
    (he : s.err = .none) (ht : exec i s = .next t) : FailureFits t := by
  have hd := isDecoder_of_window hu
  cases hc with
  | byte b hi =>
    rw [exec_byte hi] at ht
    cases ht
    exact (FailureFits.produce hd he b).lines fun _ hf => hf.endByte i
  | copy d n hi =>
    rw [exec_copy hi] at ht
    cases ht
    exact (FailureFits.copyBack hu he d n).lines fun _ hf => hf.endCopy d i
  | flags f hi =>
    subst hi
    cases ht
    rw [State.nextToken_frame]
    exact .of_none he
  | marker v hi =>
    subst hi
    rw [exec_glzEnd] at ht
    cases ht
    exact .endOfInput hd he

/-! ## Steps -/

/-- A gamma code too long for its accumulator is a back-reference out of range (R223). -/
theorem FailureFits.window {s t : State} {x : TokenContext} (hx : s.tokenContext = some x) (he : s.err = .none)
    (ht : stepUnit s = .next t) : FailureFits t := by
  have hu : s.unit = .lzd ∨ s.unit = .glz := by
    rw [(State.tokenContext_unit hx).1]
    cases x with
    | flagByte | literal | matchBytes => exact .inl rfl
    | firstLiteral | glzToken => exact .inr rfl
  rw [stepUnit_of_tokenContext hx] at ht
  cases hd : decodeToken x s.cursor with
  | got i c =>
    rw [hd] at ht
    obtain ⟨j, hj, hc⟩ := exec_admitted (s := s.withCursor c) hx (decodeToken_gives x _ i c hd)
    exact hc.failureFits hu he (hj.symm.trans ht)
  | endOfInput c => rw [hd] at ht; cases ht; exact .endOfInput (isDecoder_of_window hu) he
  | malformed c => rw [hd] at ht; cases ht; exact hu

/-- The bits of no code are the Huffman decoder's own failure (R292). -/
theorem FailureFits.huf {s t : State} (hu : s.unit = .huf) (hus : s.ustate = UState.symbol) (he : s.err = .none)
    (ht : stepUnit s = .next t) : FailureFits t := by
  have hdec : s.unit.isDecoder = true := by rw [hu]; rfl
  rw [stepUnit_of_huf hu hus] at ht
  cases hd : decodeHuf s.ht s.cursor with
  | code path c =>
    rw [hd] at ht
    obtain ⟨m, sym, hf⟩ := decodeHuf_code hd
    obtain ⟨hexec, -⟩ := exec_hufSym (s := s.withCursor c) hu hf
    cases hexec.symm.trans ht
    exact (FailureFits.produce (s := { s.withCursor c with node := m }) hdec he sym).lines fun _ hfit => hfit
  | endOfInput n c => rw [hd] at ht; cases ht; exact .endOfInput hdec he
  | noCode c => rw [hd] at ht; cases ht; exact hu

/-- The encoder and the cipher raise nothing; a decoder raises what its reading or its token can (R290). -/
theorem FailureFits.stepUnit {s t : State} (he : s.err = .none) (ht : stepUnit s = .next t) : FailureFits t := by
  rcases stepUnit_next ht with ⟨hd, -⟩ | ⟨-, hs⟩ | ⟨-, -, hs⟩
  · rcases decoder_reads hd ht with ⟨x, hx⟩ | ⟨hu, hus⟩
    · exact .window hx he ht
    · exact .huf hu hus he ht
  all_goals
    have hframe : t = _ := hs.frame
    have herr : t.err = s.err := by rw [hframe]
    exact .of_none (herr.trans he)

/-- An engine turn without an error before it leaves one that fits, or none. -/
theorem FailureFits.engine {s t : State} {rest : List Turn} (hn : EngineTurnNext s rest) (he : s.err = .none)
    (ht : step s = .next t) : FailureFits t := by
  rw [step_engine hn, engineTurn] at ht
  split at ht
  · exact .stepUnit (s := { s with agenda := rest }) he ht
  · cases ht
    exact .of_none he

/-- Settles O55: the error after the turn fits the unit and the latched options, which the turn keeps. -/
theorem failuresComeFromTheirUnits : Obligations.FailuresComeFromTheirUnits := by
  intro rest s t hn he ht
  have hfit := FailureFits.engine hn he ht
  obtain ⟨⟨-, -, -, hmax, -⟩, -, hunit, hlen, hcap, -⟩ := engineKeepsOperandsAndResult rest s t hn ht
  rw [← hunit, ← hlen, ← hcap, hmax]
  refine ⟨fun h => ?_, fun h => ?_, fun h => ?_, fun h => ?_, fun h => ?_⟩
  all_goals
    rw [FailureFits, h] at hfit
    exact hfit

end Sys2Proof.Machine
end
